-- ==== Sys2Proof/Word.lean ====
section
/-! DEFINITION. The word types of the M68000 family (00_scope.md R8, R9): bit 0 is the least significant bit. -/

namespace Sys2Proof

/-- A byte operand, 8 bits (R9). -/
abbrev Byte := BitVec 8

/-- A word operand or one word of an instruction, 16 bits (R9, R90). -/
abbrev Word16 := BitVec 16

/-- A long word, an address, or the contents of a general register, 32 bits (R9, R21, R23). -/
abbrev Word := BitVec 32

/-- The number of a register within its bank, 0 to 7 (R94). -/
abbrev RegNum := Fin 8

end Sys2Proof
end

