-- ==== Sys2Proof/Config.lean ====
section
/-! DEFINITION. The parameters of 00_scope.md R7 as plain data, and the free values of 93_implementation_defined.md
as opaque constants. -/

namespace Sys2Proof

/-- The family member, parameter `CPU` (00_scope.md R2, R3). -/
inductive Cpu where
  | mc68000 | mc68008 | mc68010 | mc68020 | mc68030 | mc68040 | cpu32
  deriving DecidableEq, Repr

/-- The kind of an access as the function code names it (20_memory.md R60; numbers in 60_exceptions.md R443). -/
inductive FuncCode where
  | userData | userProgram | superData | superProgram
  deriving DecidableEq, Repr

/-- What stands at an address (parameter `MEMMAP`, 20_memory.md R66, 92_eei_decisions.md D8). -/
inductive RegionKind where
  /-- Readable and writable storage. -/
  | ram
  /-- Storage whose writes end in a bus error (D8's default for a write to ROM). -/
  | rom
  /-- A device, whose behaviour the spec does not give. -/
  | device
  /-- Nothing: the access ends in a bus error. -/
  | nothing
  deriving DecidableEq, Repr

/-- One entry of `MEMMAP`: what the accesses to the addresses `base` to `base + size - 1`, from the spaces `spaces`, in
the directions `reads` and `writes`, find (R66, R73, 92_eei_decisions.md D8). Log 5. -/
structure Region where
  base : Nat
  size : Nat
  /-- The spaces it answers. -/
  spaces : List FuncCode
  /-- It answers reads and instruction fetches. -/
  reads : Bool
  /-- It answers writes. -/
  writes : Bool
  kind : RegionKind
  deriving DecidableEq, Repr

/-- What counts as the end of a run, parameter `HALT_CONVENTION` (70_reset_and_hazards.md R489, 92_eei_decisions.md
D22). Log 32. -/
inductive HaltConvention where
  /-- (a) `pc` equals the address `END` at an instruction boundary. -/
  | sentinel (endAddr : Word)
  /-- (b) The instruction at `pc` is `BRA *` (`$60FE`). -/
  | selfBranch
  /-- (c) The processor is stopped and no interrupt is to come. -/
  | stopped
  /-- (d) The first `raise`: exceptions are terminal (D6). -/
  | firstRaise
  deriving DecidableEq, Repr

/-- The parameters a platform fixes (R7): plain data that no step changes. Log 4, log 5, log 6. -/
structure Config where
  /-- `CPU`. -/
  cpu : Cpu
  /-- `ADDR_BITS`: how many low address bits reach memory (20_memory.md R79). -/
  addrBits : Nat
  /-- `MEMMAP`: the first entry that holds the address, the space and the direction of an access decides. An address that
  stands in entries, none of which answers the access, ends it in a bus error; an address in no entry is RAM. -/
  memMap : List Region
  /-- `HALT_CONVENTION`. -/
  halt : HaltConvention
  /-- MC68000 and MC68010 read one word beyond the last one of a MOVEM to registers (41_data_movement.md R183,
  93_implementation_defined.md U19). Log 28. -/
  movemExtraRead : Bool
  deriving DecidableEq, Repr

/-- The baseline of R7: MC68000, 32 address bits, all of the space RAM; runs end by (c) of R489 (log 32), and MOVEM reads
no extra word (U19). -/
def Config.baseline : Config :=
  { cpu := .mc68000, addrBits := 32, memMap := [], halt := .stopped, movemExtraRead := false }

/-- A free bit: an undefined flag (93_implementation_defined.md U1, U2, U11), or which half of a long
word goes first in a store that a bus error cuts short (U21). Nothing is known of it. Log 8. -/
opaque Config.freeBit : Nat → Bool

/-- A free byte: the result of a decimal operation on invalid digits (U11). Log 8. -/
opaque Config.freeByte : Nat → Byte

/-- A free word: the fields of the group 0 frame that hold anything (U15). Log 8. -/
opaque Config.freeWord : Nat → Word16

/-- A free number: which copy of a word the prefetch holds (U16), how far the stacked PC lies from the faulting
instruction (60_exceptions.md R443). Log 8. -/
opaque Config.freeNat : Nat → Nat

end Sys2Proof
end

