-- ==== Sys2Proof/Machine/Member.lean ====
section
/-! DEFINITION. What the family members differ in: the parameters of 00_scope.md R7 that follow from `CPU`. -/

namespace Sys2Proof

/-- MC68020, MC68030 and MC68040: the members with memory indirect modes, T0, M and two supervisor stack pointers
(R7, 10_state.md R24, R38). -/
def Cpu.is020 : Cpu → Bool
  | .mc68020 | .mc68030 | .mc68040 => true
  | .mc68000 | .mc68008 | .mc68010 | .cpu32 => false

/-- The baseline members MC68000 and MC68008 (R3). -/
def Cpu.isBaseline : Cpu → Bool
  | .mc68000 | .mc68008 => true
  | .mc68010 | .mc68020 | .mc68030 | .mc68040 | .cpu32 => false

/-- Scaling and the full extension word exist (`HAS_FULL_EXT`, R7; 40_addressing_modes.md R160). -/
def Cpu.hasFullExt (c : Cpu) : Bool := c.is020 || c == .cpu32

/-- The memory indirect modes exist; CPU32 has the full format without them (R7, R153). -/
def Cpu.hasMemIndirect (c : Cpu) : Bool := c.is020

/-- The 32-bit branch displacement exists (`HAS_BCC_LONG`, R7; 30_encoding.md R99). -/
def Cpu.hasBccLong (c : Cpu) : Bool := c.is020

/-- PC-relative CMPI operands are legal (`PCREL_DEST_CMPI`, R7; 42_integer_arithmetic.md R217). -/
def Cpu.pcrelCmpi (c : Cpu) : Bool := c.is020 || c == .cpu32

/-- Odd word and long accesses raise Address Error (`ALIGN_FAULT`, 20_memory.md R64). -/
def Cpu.alignFault (c : Cpu) : Bool := !c.is020

/-- The exception frame carries a format/offset word (`FRAME_HAS_FORMAT_WORD`, R7; 60_exceptions.md R441). -/
def Cpu.formatWord (c : Cpu) : Bool := !c.isBaseline

/-- The member reads a CLR, Scc or MOVE-from-SR memory destination before it writes it (20_memory.md R71). -/
def Cpu.readsBeforeWrite (c : Cpu) : Bool := c.isBaseline

/-- MOVE from SR is privileged from the MC68010 on (47_system_control.md R368). -/
def Cpu.moveFromSrPrivileged (c : Cpu) : Bool := !c.isBaseline

/-- MOVEM with predecrement stores the initial value of a listed base register (41_data_movement.md R183). -/
def Cpu.movemStoresInitial (c : Cpu) : Bool := c.isBaseline || c == .mc68010

/-- The member has an instruction cache: its fetches do not see a store until the cache is invalidated, by instructions
that are out of scope (20_memory.md R76). Log 17. -/
def Cpu.hasCache (c : Cpu) : Bool := c.is020

/-- MOVEM to registers reads a word beyond its last one (41_data_movement.md R183, 93_implementation_defined.md U19).
Log 28. -/
def Config.movemReadsExtra (cfg : Config) : Bool := cfg.movemExtraRead && (cfg.cpu == .mc68000 || cfg.cpu == .mc68010)

/-- The implemented bits of SR, `SR_MASK` (10_state.md R38): `$A71F`, with T0 and M on MC68020/030/040. -/
def Cpu.srMask (c : Cpu) : Word16 := if c.is020 then 0xF71F#16 else 0xA71F#16

/-- The 3-bit function code (60_exceptions.md R443). -/
def FuncCode.bits : FuncCode → BitVec 3
  | .userData => 1#3
  | .userProgram => 2#3
  | .superData => 5#3
  | .superProgram => 6#3

/-! ## The platform's answer to an access (20_memory.md R66) -/

/-- What the platform does with an access. -/
inductive Verdict where
  | granted | busError | device
  deriving DecidableEq, Repr

/-- An entry of `MEMMAP` holds an address. -/
def Region.holds (r : Region) (p : Nat) : Bool := decide (r.base ≤ p) && decide (p < r.base + r.size)

/-- An entry of `MEMMAP` answers an access, by its address, its space and its direction. -/
def Region.answers (r : Region) (p : Nat) (fc : FuncCode) (write : Bool) : Bool :=
  r.holds p && r.spaces.contains fc && (if write then r.writes else r.reads)

/-- The entry of `MEMMAP` that answers an access to one byte. Log 5. -/
def Config.regionAt (cfg : Config) (p : Nat) (fc : FuncCode) (write : Bool) : Option Region :=
  cfg.memMap.find? fun r => r.answers p fc write

/-- What the platform does with an access to one byte (R66, 92_eei_decisions.md D8). Log 5. -/
def Config.verdict (cfg : Config) (p : Nat) (fc : FuncCode) (write : Bool) : Verdict :=
  match cfg.regionAt p fc write with
  | none => if cfg.memMap.any fun r => r.holds p then .busError else .granted
  | some r =>
    match r.kind with
    | .ram => .granted
    | .rom => if write then .busError else .granted
    | .device => .device
    | .nothing => .busError

end Sys2Proof
end

