-- ==== Sys2Proof/Syntax.lean ====
section
/-! DEFINITION. The instructions as data: one constructor of `Instr` for each row of spec/opcode_table.json, with its
operands decoded (30_encoding.md R93 to R105, 40_addressing_modes.md R131 to R156). -/

namespace Sys2Proof

/-- Operation size (00_scope.md R9). -/
inductive Size where
  | b | w | l
  deriving DecidableEq, Repr

/-- The sixteen conditions (10_state.md R36). -/
inductive Cond where
  | t | f | hi | ls | cc | cs | ne | eq | vc | vs | pl | mi | ge | lt | gt | le
  deriving DecidableEq, Repr

/-- The twelve kinds of effective address field that mode and register tell apart (40_addressing_modes.md R156); the
full-extension modes share the two index kinds. -/
inductive EaKind where
  | dn | an | ind | postInc | preDec | disp | index | absShort | absLong | pcDisp | pcIndex | imm
  deriving DecidableEq, Repr

/-- The index operand of an extension word: D/A, REGISTER, W/L and SCALE (R149, R152). -/
structure IndexSpec where
  /-- D/A: an address register is the index. -/
  isAddr : Bool
  reg : RegNum
  /-- W/L: the whole long word is used. -/
  long : Bool
  /-- The SCALE field: 1, 2, 4 or 8. -/
  scale : BitVec 2
  deriving DecidableEq, Repr

/-- A base or outer displacement of a full extension word (R150): null, word or long. -/
inductive Displ where
  | null
  | word (d : Word16)
  | long (d : Word)
  deriving DecidableEq, Repr

/-- The memory indirect action of a full extension word (Table 2-2, R151). With the index suppressed, `pre` is the
"Memory Indirect" row. -/
inductive Indirect where
  | none
  | pre (od : Displ)
  | post (od : Displ)
  deriving DecidableEq, Repr

/-- A full extension word and the displacements after it (R150). -/
structure FullExt where
  index : IndexSpec
  /-- BS: the base register counts as zero. -/
  baseSuppress : Bool
  /-- IS: the index operand counts as zero. -/
  indexSuppress : Bool
  bd : Displ
  indirect : Indirect
  deriving DecidableEq, Repr

/-- An effective address with its extension words decoded (R131 to R148). -/
inductive Ea where
  | dn (n : RegNum)
  | an (n : RegNum)
  | ind (n : RegNum)
  | postInc (n : RegNum)
  | preDec (n : RegNum)
  | disp (n : RegNum) (d : Word16)
  | index (n : RegNum) (x : IndexSpec) (d : Byte)
  | full (n : RegNum) (e : FullExt)
  | absShort (a : Word16)
  | absLong (a : Word)
  | pcDisp (d : Word16)
  | pcIndex (x : IndexSpec) (d : Byte)
  | pcFull (e : FullExt)
  /-- Immediate data, zero-extended from the operation size (R148). -/
  | imm (v : Word)
  deriving DecidableEq, Repr

/-- The direction of ADD, SUB, AND and OR: OPMODE bit 2 (30_encoding.md R96). -/
inductive Dir where
  | toReg | toEa
  deriving DecidableEq, Repr

/-- The displacement forms of Bcc, BRA and BSR (R99). -/
inductive BranchDisp where
  | short (d : Byte)
  | word (d : Word16)
  | long (d : Word)
  deriving DecidableEq, Repr

/-- The count of a register shift: the 3-bit field itself, or the data register that holds it (R98, 44_shift_rotate.md
R280). -/
inductive ShiftCount where
  | imm (c : BitVec 3)
  | reg (n : RegNum)
  deriving DecidableEq, Repr

/-- The bound of CHK: the word form, or the long form of MC68020 and later (47_system_control.md R371). Log 34. -/
structure ChkBound where
  long : Bool
  ea : Ea
  deriving DecidableEq, Repr

/-- The instruction set of Table A-3 (R107), one constructor for each row of spec/opcode_table.json, in its order. -/
inductive Instr where
  | oriCcr (v : Byte)
  | oriSr (v : Word16)
  | andiCcr (v : Byte)
  | andiSr (v : Word16)
  | eoriCcr (v : Byte)
  | eoriSr (v : Word16)
  /-- `toMem`: direction register to memory; `long`: four bytes rather than two. -/
  | movep (dreg : RegNum) (toMem : Bool) (long : Bool) (areg : RegNum) (d : Word16)
  | btstDyn (n : RegNum) (ea : Ea)
  | bchgDyn (n : RegNum) (ea : Ea)
  | bclrDyn (n : RegNum) (ea : Ea)
  | bsetDyn (n : RegNum) (ea : Ea)
  | btstImm (bit : Byte) (ea : Ea)
  | bchgImm (bit : Byte) (ea : Ea)
  | bclrImm (bit : Byte) (ea : Ea)
  | bsetImm (bit : Byte) (ea : Ea)
  | ori (sz : Size) (v : Word) (ea : Ea)
  | andi (sz : Size) (v : Word) (ea : Ea)
  | subi (sz : Size) (v : Word) (ea : Ea)
  | addi (sz : Size) (v : Word) (ea : Ea)
  | eori (sz : Size) (v : Word) (ea : Ea)
  | cmpi (sz : Size) (v : Word) (ea : Ea)
  | moveaL (src : Ea) (r : RegNum)
  | moveaW (src : Ea) (r : RegNum)
  | moveB (src dst : Ea)
  | moveL (src dst : Ea)
  | moveW (src dst : Ea)
  | illegal
  | reset
  | nop
  | rte
  | rts
  | trapv
  | rtr
  | stop (v : Word16)
  | trap (v : BitVec 4)
  | link (r : RegNum) (d : Word16)
  | unlk (r : RegNum)
  /-- `toAn`: direction USP to An. -/
  | moveUsp (toAn : Bool) (r : RegNum)
  | jsr (ea : Ea)
  | jmp (ea : Ea)
  | swap (r : RegNum)
  | extW (r : RegNum)
  | extL (r : RegNum)
  | moveFromSr (ea : Ea)
  | moveToCcr (ea : Ea)
  | moveToSr (ea : Ea)
  | nbcd (ea : Ea)
  | pea (ea : Ea)
  | tas (ea : Ea)
  /-- Registers to memory; `long`: long words rather than words. -/
  | movemToMem (long : Bool) (mask : Word16) (ea : Ea)
  /-- Memory to registers. -/
  | movemToReg (long : Bool) (mask : Word16) (ea : Ea)
  | negx (sz : Size) (ea : Ea)
  | clr (sz : Size) (ea : Ea)
  | neg (sz : Size) (ea : Ea)
  | not (sz : Size) (ea : Ea)
  | tst (sz : Size) (ea : Ea)
  | chk (r : RegNum) (bound : ChkBound)
  | lea (r : RegNum) (ea : Ea)
  | dbcc (c : Cond) (r : RegNum) (d : Word16)
  | scc (c : Cond) (ea : Ea)
  | addq (data : BitVec 3) (sz : Size) (ea : Ea)
  | subq (data : BitVec 3) (sz : Size) (ea : Ea)
  | bra (d : BranchDisp)
  | bsr (d : BranchDisp)
  | bcc (c : Cond) (d : BranchDisp)
  | moveq (r : RegNum) (v : Byte)
  | divu (r : RegNum) (ea : Ea)
  | divs (r : RegNum) (ea : Ea)
  /-- `mem`: the predecrement form; `rx` destination, `ry` source. -/
  | sbcd (rx : RegNum) (mem : Bool) (ry : RegNum)
  | or (r : RegNum) (sz : Size) (dir : Dir) (ea : Ea)
  | suba (r : RegNum) (long : Bool) (ea : Ea)
  | subx (rx : RegNum) (sz : Size) (mem : Bool) (ry : RegNum)
  | sub (r : RegNum) (sz : Size) (dir : Dir) (ea : Ea)
  | cmpa (r : RegNum) (long : Bool) (ea : Ea)
  /-- `ax` destination, `ay` source. -/
  | cmpm (ax : RegNum) (sz : Size) (ay : RegNum)
  | cmp (r : RegNum) (sz : Size) (ea : Ea)
  | eor (r : RegNum) (sz : Size) (ea : Ea)
  | mulu (r : RegNum) (ea : Ea)
  | muls (r : RegNum) (ea : Ea)
  | abcd (rx : RegNum) (mem : Bool) (ry : RegNum)
  | exgDD (rx ry : RegNum)
  | exgAA (rx ry : RegNum)
  /-- `rx` names a data register, `ry` an address register. -/
  | exgDA (rx ry : RegNum)
  | and (r : RegNum) (sz : Size) (dir : Dir) (ea : Ea)
  | adda (r : RegNum) (long : Bool) (ea : Ea)
  | addx (rx : RegNum) (sz : Size) (mem : Bool) (ry : RegNum)
  | add (r : RegNum) (sz : Size) (dir : Dir) (ea : Ea)
  | asrMem (ea : Ea)
  | aslMem (ea : Ea)
  | lsrMem (ea : Ea)
  | lslMem (ea : Ea)
  | roxrMem (ea : Ea)
  | roxlMem (ea : Ea)
  | rorMem (ea : Ea)
  | rolMem (ea : Ea)
  | asrReg (cnt : ShiftCount) (sz : Size) (r : RegNum)
  | aslReg (cnt : ShiftCount) (sz : Size) (r : RegNum)
  | lsrReg (cnt : ShiftCount) (sz : Size) (r : RegNum)
  | lslReg (cnt : ShiftCount) (sz : Size) (r : RegNum)
  | roxrReg (cnt : ShiftCount) (sz : Size) (r : RegNum)
  | roxlReg (cnt : ShiftCount) (sz : Size) (r : RegNum)
  | rorReg (cnt : ShiftCount) (sz : Size) (r : RegNum)
  | rolReg (cnt : ShiftCount) (sz : Size) (r : RegNum)
  deriving DecidableEq, Repr

/-- The kind of field an effective address is encoded in (R156). -/
def Ea.kind : Ea → EaKind
  | .dn _ => .dn
  | .an _ => .an
  | .ind _ => .ind
  | .postInc _ => .postInc
  | .preDec _ => .preDec
  | .disp _ _ => .disp
  | .index _ _ _ | .full _ _ => .index
  | .absShort _ => .absShort
  | .absLong _ => .absLong
  | .pcDisp _ => .pcDisp
  | .pcIndex _ _ | .pcFull _ => .pcIndex
  | .imm _ => .imm

/-- Word or long, from the one-bit size fields (R95). -/
def Size.ofLong (long : Bool) : Size := if long then .l else .w

/-- The size of a CHK. -/
def ChkBound.size (b : ChkBound) : Size := Size.ofLong b.long

end Sys2Proof
end

