-- ==== Sys2Proof/Machine/Legal.lean ====
section
/-! DEFINITION. Which operands an instruction may have: the addressing-mode categories (40_addressing_modes.md R157), the
legal lists of the instruction rules, and the words that later members put into the baseline's illegal holes. -/

namespace Sys2Proof

/-- Data addressing modes: all but An (R157). -/
def EaKind.isData : EaKind → Bool
  | .an => false
  | _ => true

/-- Memory addressing modes: all but the two register modes (R157). -/
def EaKind.isMemory : EaKind → Bool
  | .dn | .an => false
  | _ => true

/-- Control addressing modes (R157). -/
def EaKind.isControl : EaKind → Bool
  | .ind | .disp | .index | .absShort | .absLong | .pcDisp | .pcIndex => true
  | .dn | .an | .postInc | .preDec | .imm => false

/-- Alterable addressing modes: all but the PC-based modes and immediate data (R157, R158). -/
def EaKind.isAlterable : EaKind → Bool
  | .pcDisp | .pcIndex | .imm => false
  | _ => true

/-- Data alterable (R157). -/
def EaKind.dataAlterable (k : EaKind) : Bool := k.isData && k.isAlterable

/-- Memory alterable (R157). -/
def EaKind.memAlterable (k : EaKind) : Bool := k.isMemory && k.isAlterable

/-- "All addressing modes can be used", An for word and long only (30_encoding.md R118). -/
def EaKind.anySource (sz : Size) (k : EaKind) : Bool := k != .an || sz != .b

/-- ADDQ and SUBQ: alterable, An for word and long only (42_integer_arithmetic.md R208, R213). -/
def EaKind.quickDest (sz : Size) (k : EaKind) : Bool := k.isAlterable && (k != .an || sz != .b)

/-- CMPI: data modes but immediate; PC-based ones only with `PCREL_DEST_CMPI` (R217). -/
def EaKind.cmpiOperand (cpu : Cpu) (k : EaKind) : Bool :=
  k.isData && k != .imm && (k.isAlterable || cpu.pcrelCmpi)

/-- TST: data alterable; on MC68020 and later also An (word, long), PC-based and immediate (R221). -/
def EaKind.tstOperand (cpu : Cpu) (sz : Size) (k : EaKind) : Bool :=
  k.dataAlterable || (cpu.hasFullExt && k.anySource sz)

/-- BTST with a static bit number: data modes but immediate (45_bit_bcd.md R301). -/
def EaKind.btstStatic (k : EaKind) : Bool := k.isData && k != .imm

/-- MOVEM registers to memory: control alterable and predecrement (41_data_movement.md R183). -/
def EaKind.movemDest (k : EaKind) : Bool := (k.isControl && k.isAlterable) || k == .preDec

/-- MOVEM memory to registers: control and postincrement (R183). -/
def EaKind.movemSource (k : EaKind) : Bool := k.isControl || k == .postInc

/-- ADD, SUB: any source, memory alterable destination (R205, R210). -/
def EaKind.addOperand (sz : Size) (dir : Dir) (k : EaKind) : Bool :=
  match dir with
  | .toReg => k.anySource sz
  | .toEa => k.memAlterable

/-- AND, OR: data source, memory alterable destination (43_logical.md R251, R253). -/
def EaKind.andOperand (dir : Dir) (k : EaKind) : Bool :=
  match dir with
  | .toReg => k.isData
  | .toEa => k.memAlterable

/-- The number of bits of an operation size (00_scope.md R9). -/
def Size.bits : Size → Nat
  | .b => 8
  | .w => 16
  | .l => 32

/-- The number of bytes of an operation size (R9). -/
def Size.bytes : Size → Nat
  | .b => 1
  | .w => 2
  | .l => 4

/-- The low part of a register, zero-extended (R22). -/
def Size.low (sz : Size) (v : Word) : Word :=
  match sz with
  | .b => (v.extractLsb' 0 8).setWidth 32
  | .w => (v.extractLsb' 0 16).setWidth 32
  | .l => v

/-- A register of which the low part is replaced (R22). -/
def Size.merge (sz : Size) (old v : Word) : Word :=
  match sz with
  | .b => (old.extractLsb' 8 24 ++ v.extractLsb' 0 8 : BitVec 32)
  | .w => (old.extractLsb' 16 16 ++ v.extractLsb' 0 16 : BitVec 32)
  | .l => v

/-- The low part, sign-extended to 32 bits (00_scope.md R10). -/
def Size.sext (sz : Size) (v : Word) : Word :=
  match sz with
  | .b => (v.extractLsb' 0 8).signExtend 32
  | .w => (v.extractLsb' 0 16).signExtend 32
  | .l => v

end Sys2Proof
end

