-- ==== Sys2Proof/WellFormed.lean ====
section
/-! DEFINITION. Which terms of `Instr` stand for an instruction of a member: the operands an encoding can hold, and the
legal lists of the instruction rules (30_encoding.md R118). -/

namespace Sys2Proof

/-- An index operand the member's extension word can hold: without scaling the SCALE field is ignored, so the decoded
field is 0 (40_addressing_modes.md R160). -/
def IndexSpec.wf (cpu : Cpu) (x : IndexSpec) : Bool := cpu.hasFullExt || x.scale == 0#2

/-- A full extension word the member has: Table 2-2's rows that are not reserved (R151), on CPU32 only the one without
indirection (R153). -/
def FullExt.wf (cpu : Cpu) (e : FullExt) : Bool :=
  match e.indirect with
  | .none => cpu.hasFullExt
  | .pre _ => cpu.hasMemIndirect
  | .post _ => cpu.hasMemIndirect && !e.indexSuppress

/-- The extension words of an operand of size `sz` exist on the member, and immediate data fits the size. -/
def Ea.wf (cpu : Cpu) (sz : Size) : Ea → Bool
  | .index _ x _ | .pcIndex x _ => x.wf cpu
  | .full _ e | .pcFull e => e.wf cpu
  | .imm v => v.toNat < 2 ^ sz.bits
  | _ => true

/-- An operand of size `sz` whose kind is on the instruction's list. -/
def Ea.ok (cpu : Cpu) (sz : Size) (legal : EaKind → Bool) (ea : Ea) : Bool := legal ea.kind && ea.wf cpu sz

/-- Immediate data that fits the operation size (30_encoding.md R97). -/
def immFits (sz : Size) (v : Word) : Bool := v.toNat < 2 ^ sz.bits

/-- A displacement form the branch instructions can hold: `$00` and, with `HAS_BCC_LONG`, `$FF` are escapes (R99). -/
def BranchDisp.wf (cpu : Cpu) : BranchDisp → Bool
  | .short d => d != 0#8 && (d != 0xFF#8 || !cpu.hasBccLong)
  | .word _ => true
  | .long _ => cpu.hasBccLong

/-- The instruction exists on the member with these operands. -/
def Instr.wf (cpu : Cpu) : Instr → Bool
  | .btstDyn _ ea => ea.ok cpu .b EaKind.isData
  | .bchgDyn _ ea | .bclrDyn _ ea | .bsetDyn _ ea => ea.ok cpu .b EaKind.dataAlterable
  | .btstImm _ ea => ea.ok cpu .b EaKind.btstStatic
  | .bchgImm _ ea | .bclrImm _ ea | .bsetImm _ ea => ea.ok cpu .b EaKind.dataAlterable
  | .ori sz v ea | .andi sz v ea | .subi sz v ea | .addi sz v ea | .eori sz v ea =>
    immFits sz v && ea.ok cpu sz EaKind.dataAlterable
  | .cmpi sz v ea => immFits sz v && ea.ok cpu sz (EaKind.cmpiOperand cpu)
  | .moveaL src _ => src.ok cpu .l (EaKind.anySource .l)
  | .moveaW src _ => src.ok cpu .w (EaKind.anySource .w)
  | .moveB src dst => src.ok cpu .b (EaKind.anySource .b) && dst.ok cpu .b EaKind.dataAlterable
  | .moveL src dst => src.ok cpu .l (EaKind.anySource .l) && dst.ok cpu .l EaKind.dataAlterable
  | .moveW src dst => src.ok cpu .w (EaKind.anySource .w) && dst.ok cpu .w EaKind.dataAlterable
  | .jsr ea | .jmp ea | .pea ea | .lea _ ea => ea.ok cpu .l EaKind.isControl
  | .moveFromSr ea => ea.ok cpu .w EaKind.dataAlterable
  | .moveToCcr ea | .moveToSr ea | .divu _ ea | .divs _ ea | .mulu _ ea | .muls _ ea =>
    ea.ok cpu .w EaKind.isData
  | .chk _ b => (!b.long || cpu.hasFullExt) && b.ea.ok cpu b.size EaKind.isData
  | .nbcd ea | .tas ea | .scc _ ea => ea.ok cpu .b EaKind.dataAlterable
  | .movemToMem long _ ea => ea.ok cpu (Size.ofLong long) EaKind.movemDest
  | .movemToReg long _ ea => ea.ok cpu (Size.ofLong long) EaKind.movemSource
  | .negx sz ea | .clr sz ea | .neg sz ea | .not sz ea | .eor _ sz ea => ea.ok cpu sz EaKind.dataAlterable
  | .tst sz ea => ea.ok cpu sz (EaKind.tstOperand cpu sz)
  | .addq _ sz ea | .subq _ sz ea => ea.ok cpu sz (EaKind.quickDest sz)
  | .bra d | .bsr d => d.wf cpu
  | .bcc c d => c != .t && c != .f && d.wf cpu
  | .add _ sz dir ea | .sub _ sz dir ea => ea.ok cpu sz (EaKind.addOperand sz dir)
  | .and _ sz dir ea | .or _ sz dir ea => ea.ok cpu sz (EaKind.andOperand dir)
  | .adda _ long ea | .suba _ long ea | .cmpa _ long ea =>
    ea.ok cpu (Size.ofLong long) (EaKind.anySource (Size.ofLong long))
  | .cmp _ sz ea => ea.ok cpu sz (EaKind.anySource sz)
  | .asrMem ea | .aslMem ea | .lsrMem ea | .lslMem ea | .roxrMem ea | .roxlMem ea | .rorMem ea | .rolMem ea =>
    ea.ok cpu .w EaKind.memAlterable
  | .oriCcr _ | .oriSr _ | .andiCcr _ | .andiSr _ | .eoriCcr _ | .eoriSr _ | .movep _ _ _ _ _ | .illegal | .reset
  | .nop | .rte | .rts | .trapv | .rtr | .stop _ | .trap _ | .link _ _ | .unlk _ | .moveUsp _ _ | .swap _ | .extW _
  | .extL _ | .dbcc _ _ _ | .moveq _ _ | .sbcd _ _ _ | .subx _ _ _ _ | .cmpm _ _ _ | .abcd _ _ _ | .exgDD _ _
  | .exgAA _ _ | .exgDA _ _ | .addx _ _ _ _ | .asrReg _ _ _ | .aslReg _ _ _ | .lsrReg _ _ _ | .lslReg _ _ _
  | .roxrReg _ _ _ | .roxlReg _ _ _ | .rorReg _ _ _ | .rolReg _ _ _ => true

end Sys2Proof
end

