-- ==== Sys2Proof/Decode.lean ====
section
/-! DEFINITION. Decoding and encoding (30_encoding.md R90 to R119, 40_addressing_modes.md R149 to R156). A decoder consumes
the instruction's words one at a time, in the order of R92, as `fetch16` of 00_scope.md R13 does. -/

namespace Sys2Proof

/-- Why a pattern of words is no instruction of the model (R118, R119). -/
inductive Reject where
  /-- No row of R105, or an operand the row's rule does not list: vector 4. -/
  | illegal
  /-- Bits 15–12 are `1010`: vector 10. -/
  | lineA
  /-- Bits 15–12 are `1111`: vector 11. -/
  | lineF
  /-- A reserved field value of a full extension word (R119). -/
  | reservedExt
  /-- A pattern a later member gives an instruction that has no row in the table (R105's last column; R6, R405). -/
  | laterMember
  deriving DecidableEq, Repr

/-- A decoder: an answer, a wish for the next word of the instruction stream, a privilege check, or a rejection. -/
inductive Dec (α : Type) where
  | done (a : α)
  | need (k : Word16 → Dec α)
  /-- The rest belongs to a privileged instruction: the check comes before any further word is fetched
  (47_system_control.md R377). -/
  | privileged (d : Dec α)
  | reject (r : Reject)

/-- Decode with `d`, then with `f` of its answer. -/
def Dec.andThen {α β : Type} (d : Dec α) (f : α → Dec β) : Dec β :=
  match d with
  | .done a => f a
  | .need k => .need fun w => (k w).andThen f
  | .privileged d => .privileged (d.andThen f)
  | .reject r => .reject r

/-- What a decoder answers on a list of words. -/
inductive DecodeResult (α : Type) where
  /-- An answer, and the words not consumed. -/
  | done (a : α) (rest : List Word16)
  | reject (r : Reject)
  /-- The list ends before the instruction does. -/
  | truncated
  deriving DecidableEq, Repr

/-- Run a decoder on a list of words. -/
def Dec.run {α : Type} (d : Dec α) (ws : List Word16) : DecodeResult α :=
  match d with
  | .done a => .done a ws
  | .need k =>
    match ws with
    | [] => .truncated
    | w :: rest => (k w).run rest
  | .privileged d => d.run ws
  | .reject r => .reject r

/-! ## Fields of the operation word (R93 to R95): line 15–12, x 11–9, p 8–6, m 5–3, r 2–0 -/

def opLine (w : Word16) : BitVec 4 := w.extractLsb' 12 4
def opX (w : Word16) : BitVec 3 := w.extractLsb' 9 3
def opP (w : Word16) : BitVec 3 := w.extractLsb' 6 3
def opM (w : Word16) : BitVec 3 := w.extractLsb' 3 3
def opR (w : Word16) : BitVec 3 := w.extractLsb' 0 3

/-- The operation word with these five fields. -/
def mkOp (line : BitVec 4) (x p m r : BitVec 3) : Word16 := line ++ x ++ p ++ m ++ r

/-- A register field (R94). -/
def regOf (b : BitVec 3) : RegNum := b.toFin

/-- The field of a register number. -/
def regBits (n : RegNum) : BitVec 3 := BitVec.ofFin n

/-- Bits 1–0 of a 3-bit field: the SIZE field when it is `p` (bits 7–6, R95). -/
def low2 (b : BitVec 3) : BitVec 2 := b.extractLsb' 0 2

/-- Bit 2 of a 3-bit field: bit 8 of the word when it is `p`. -/
def top1 (b : BitVec 3) : Bool := b.getLsbD 2

/-- SIZE in bits 7–6: `00` byte, `01` word, `10` long; `11` selects another instruction (R95). -/
def sizeOf (b : BitVec 2) : Option Size :=
  match b.toNat with
  | 0 => some .b
  | 1 => some .w
  | 2 => some .l
  | _ => none

/-- The SIZE field of a size. -/
def sizeBits : Size → BitVec 2
  | .b => 0#2
  | .w => 1#2
  | .l => 2#2

/-- The condition field (10_state.md R36). -/
def condOf (b : BitVec 4) : Cond :=
  match b.toNat with
  | 0 => .t
  | 1 => .f
  | 2 => .hi
  | 3 => .ls
  | 4 => .cc
  | 5 => .cs
  | 6 => .ne
  | 7 => .eq
  | 8 => .vc
  | 9 => .vs
  | 10 => .pl
  | 11 => .mi
  | 12 => .ge
  | 13 => .lt
  | 14 => .gt
  | _ => .le

/-- The field of a condition. -/
def condBits : Cond → BitVec 4
  | .t => 0#4
  | .f => 1#4
  | .hi => 2#4
  | .ls => 3#4
  | .cc => 4#4
  | .cs => 5#4
  | .ne => 6#4
  | .eq => 7#4
  | .vc => 8#4
  | .vs => 9#4
  | .pl => 10#4
  | .mi => 11#4
  | .ge => 12#4
  | .lt => 13#4
  | .gt => 14#4
  | .le => 15#4

/-- Bits 11–8: the condition of Bcc, DBcc and Scc (R100). -/
def opCond (x p : BitVec 3) : Cond := condOf (x ++ p.extractLsb' 2 1 : BitVec 4)

/-- Bits 7–0 of the operation word: the data of MOVEQ, the displacement of a branch (R98). -/
def opLow8 (p m r : BitVec 3) : Byte := (low2 p ++ m ++ r : BitVec 8)

/-! ## Extension words (40_addressing_modes.md R149 to R153) -/

/-- The low-order byte of a word: a byte immediate, a static bit number, a brief displacement (30_encoding.md R97). -/
def lowByte (w : Word16) : Byte := w.extractLsb' 0 8

/-- Two words as a long word, the high-order one first (20_memory.md R62). -/
def joinWords (hi lo : Word16) : Word := (hi ++ lo : BitVec 32)

/-- The index fields of an extension word; without scaling the SCALE bits are ignored (R149, R160). -/
def indexOf (cpu : Cpu) (w : Word16) : IndexSpec :=
  { isAddr := w.getLsbD 15
    reg := regOf (w.extractLsb' 12 3)
    long := w.getLsbD 11
    scale := if cpu.hasFullExt then w.extractLsb' 9 2 else 0#2 }

/-- A displacement selected by a 2-bit size: `01` null, `10` word, `11` long, `00` not a size (R150, R153). -/
def displOf (sel : BitVec 2) (k : Displ → Dec Ea) : Dec Ea :=
  match sel.toNat with
  | 1 => k .null
  | 2 => .need fun w => k (.word w)
  | 3 => .need fun hi => .need fun lo => k (.long (joinWords hi lo))
  | _ => .reject .reservedExt

/-- The indirect action and its outer displacement: Table 2-2 (R151). `iis` is the I/IS field. -/
def indirectOf (cpu : Cpu) (indexSuppress : Bool) (iis : BitVec 3) (k : Indirect → Dec Ea) : Dec Ea :=
  if iis == 0#3 then k .none
  else if !cpu.hasMemIndirect then .reject .reservedExt
  else if !top1 iis then displOf (low2 iis) fun od => k (.pre od)
  else if indexSuppress then .reject .reservedExt
  else displOf (low2 iis) fun od => k (.post od)

/-- A full extension word `w` and the displacements after it (R150, R153). Bit 3, which R150 shows as 0, is not looked at: R153
computes an address without it. Log 22. -/
def fullOf (cpu : Cpu) (w : Word16) (k : FullExt → Ea) : Dec Ea :=
  displOf (w.extractLsb' 4 2) fun bd =>
    indirectOf cpu (w.getLsbD 6) (w.extractLsb' 0 3) fun ind =>
      .done (k { index := indexOf cpu w, baseSuppress := w.getLsbD 7, indexSuppress := w.getLsbD 6,
                 bd := bd, indirect := ind })

/-- Immediate data of a size (30_encoding.md R97, `imm(sz)`). -/
def immOf {α : Type} (sz : Size) (k : Word → Dec α) : Dec α :=
  match sz with
  | .b => .need fun w => k ((lowByte w).setWidth 32)
  | .w => .need fun w => k (w.setWidth 32)
  | .l => .need fun hi => .need fun lo => k (joinWords hi lo)

/-- The kind a mode and register field name; `111` with `101`, `110`, `111` names none (40_addressing_modes.md R156). -/
def eaKind (m r : BitVec 3) : Option EaKind :=
  match m.toNat with
  | 0 => some .dn
  | 1 => some .an
  | 2 => some .ind
  | 3 => some .postInc
  | 4 => some .preDec
  | 5 => some .disp
  | 6 => some .index
  | _ =>
    match r.toNat with
    | 0 => some .absShort
    | 1 => some .absLong
    | 2 => some .pcDisp
    | 3 => some .pcIndex
    | 4 => some .imm
    | _ => none

/-- The operand of a kind, with its extension words (R154, R155). -/
def eaOf (cpu : Cpu) (k : EaKind) (r : BitVec 3) (sz : Size) : Dec Ea :=
  match k with
  | .dn => .done (.dn (regOf r))
  | .an => .done (.an (regOf r))
  | .ind => .done (.ind (regOf r))
  | .postInc => .done (.postInc (regOf r))
  | .preDec => .done (.preDec (regOf r))
  | .disp => .need fun w => .done (.disp (regOf r) w)
  | .index =>
    .need fun w =>
      if w.getLsbD 8 && cpu.hasFullExt then fullOf cpu w (.full (regOf r))
      else .done (.index (regOf r) (indexOf cpu w) (lowByte w))
  | .absShort => .need fun w => .done (.absShort w)
  | .absLong => .need fun hi => .need fun lo => .done (.absLong (joinWords hi lo))
  | .pcDisp => .need fun w => .done (.pcDisp w)
  | .pcIndex =>
    .need fun w =>
      if w.getLsbD 8 && cpu.hasFullExt then fullOf cpu w .pcFull
      else .done (.pcIndex (indexOf cpu w) (lowByte w))
  | .imm => immOf sz fun v => .done (.imm v)

/-- The effective address field `m r` for an instruction whose legal kinds are `legal`: an illegal kind is rejected before
any extension word is fetched (R118, 40_addressing_modes.md R154). -/
def withEa (cpu : Cpu) (m r : BitVec 3) (sz : Size) (legal : EaKind → Bool) (k : Ea → Dec Instr) : Dec Instr :=
  match eaKind m r with
  | none => .reject .illegal
  | some kd => if legal kd then (eaOf cpu kd r sz).andThen k else .reject .illegal

/-- An instruction that is its operation word and one effective address. -/
def eaOnly (cpu : Cpu) (m r : BitVec 3) (sz : Size) (legal : EaKind → Bool) (k : Ea → Instr) : Dec Instr :=
  withEa cpu m r sz legal fun ea => .done (k ea)

/-- An immediate, then an effective address (R92): the address field is checked before any word is fetched. -/
def immEa (cpu : Cpu) (m r : BitVec 3) (sz : Size) (legal : EaKind → Bool) (k : Word → Ea → Instr) : Dec Instr :=
  match eaKind m r with
  | none => .reject .illegal
  | some kd =>
    if legal kd then immOf sz fun v => (eaOf cpu kd r sz).andThen fun ea => .done (k v ea)
    else .reject .illegal

/-- One own word, then an effective address: static bit numbers and MOVEM (R103). -/
def wordEa (cpu : Cpu) (m r : BitVec 3) (sz : Size) (legal : EaKind → Bool) (k : Word16 → Ea → Instr) : Dec Instr :=
  match eaKind m r with
  | none => .reject .illegal
  | some kd =>
    if legal kd then .need fun w => (eaOf cpu kd r sz).andThen fun ea => .done (k w ea)
    else .reject .illegal

/-- A pattern that MC68010 and later fill with an instruction without a row (R105, R6). -/
def hole010 (cpu : Cpu) : Dec Instr := .reject (if cpu.isBaseline then .illegal else .laterMember)

/-- A pattern that MC68020 and later fill with an instruction without a row (R105, R6). Log 15, log 21. -/
def hole020 (cpu : Cpu) : Dec Instr := .reject (if cpu.hasFullExt then .laterMember else .illegal)

/-- The displacement of Bcc, BRA and BSR after an 8-bit field `d` (R99). -/
def branchOf (cpu : Cpu) (d : Byte) (k : BranchDisp → Instr) : Dec Instr :=
  if d == 0#8 then .need fun w => .done (k (.word w))
  else if d == 0xFF#8 && cpu.hasBccLong then .need fun hi => .need fun lo => .done (k (.long (joinWords hi lo)))
  else .done (k (.short d))

/-! ## The lines of R105 -/

/-- Line `0000`: MOVEP, bit instructions, immediates. -/
def decodeLine0 (cpu : Cpu) (x p m r : BitVec 3) : Dec Instr :=
  if top1 p then
    if m == 1#3 then .need fun d => .done (.movep (regOf x) (p.getLsbD 1) (p.getLsbD 0) (regOf r) d)
    else
      match (low2 p).toNat with
      | 0 => eaOnly cpu m r .b EaKind.isData (.btstDyn (regOf x))
      | 1 => eaOnly cpu m r .b EaKind.dataAlterable (.bchgDyn (regOf x))
      | 2 => eaOnly cpu m r .b EaKind.dataAlterable (.bclrDyn (regOf x))
      | _ => eaOnly cpu m r .b EaKind.dataAlterable (.bsetDyn (regOf x))
  else if x == 4#3 then
    match (low2 p).toNat with
    | 0 => wordEa cpu m r .b EaKind.btstStatic fun w => .btstImm (lowByte w)
    | 1 => wordEa cpu m r .b EaKind.dataAlterable fun w => .bchgImm (lowByte w)
    | 2 => wordEa cpu m r .b EaKind.dataAlterable fun w => .bclrImm (lowByte w)
    | _ => wordEa cpu m r .b EaKind.dataAlterable fun w => .bsetImm (lowByte w)
  else if x == 7#3 then hole010 cpu
  else
    match sizeOf (low2 p) with
    | none => hole020 cpu
    | some sz =>
      if m == 7#3 && r == 4#3 then
        match x.toNat, sz with
        | 0, .b => .need fun w => .done (.oriCcr (lowByte w))
        | 0, .w => .privileged (.need fun w => .done (.oriSr w))
        | 1, .b => .need fun w => .done (.andiCcr (lowByte w))
        | 1, .w => .privileged (.need fun w => .done (.andiSr w))
        | 5, .b => .need fun w => .done (.eoriCcr (lowByte w))
        | 5, .w => .privileged (.need fun w => .done (.eoriSr w))
        | _, _ => .reject .illegal
      else
        match x.toNat with
        | 0 => immEa cpu m r sz EaKind.dataAlterable (.ori sz)
        | 1 => immEa cpu m r sz EaKind.dataAlterable (.andi sz)
        | 2 => immEa cpu m r sz EaKind.dataAlterable (.subi sz)
        | 3 => immEa cpu m r sz EaKind.dataAlterable (.addi sz)
        | 5 => immEa cpu m r sz EaKind.dataAlterable (.eori sz)
        | _ => immEa cpu m r sz (EaKind.cmpiOperand cpu) (.cmpi sz)

/-- MOVE: source address, then destination address with its halves swapped (R92, R93); both fields are checked before any
extension word is fetched. -/
def decodeMove (cpu : Cpu) (sz : Size) (x p m r : BitVec 3) (k : Ea → Ea → Instr) : Dec Instr :=
  match eaKind p x with
  | none => .reject .illegal
  | some dk =>
    if dk.dataAlterable then
      withEa cpu m r sz (EaKind.anySource sz) fun src => (eaOf cpu dk x sz).andThen fun dst => .done (k src dst)
    else .reject .illegal

/-- Lines `0001`, `0010` and `0011`: MOVE and MOVEA. -/
def decodeLine1 (cpu : Cpu) (x p m r : BitVec 3) : Dec Instr := decodeMove cpu .b x p m r .moveB

@[inherit_doc decodeLine1]
def decodeLine2 (cpu : Cpu) (x p m r : BitVec 3) : Dec Instr :=
  if p == 1#3 then eaOnly cpu m r .l (EaKind.anySource .l) fun ea => .moveaL ea (regOf x)
  else decodeMove cpu .l x p m r .moveL

@[inherit_doc decodeLine1]
def decodeLine3 (cpu : Cpu) (x p m r : BitVec 3) : Dec Instr :=
  if p == 1#3 then eaOnly cpu m r .w (EaKind.anySource .w) fun ea => .moveaW ea (regOf x)
  else decodeMove cpu .w x p m r .moveW

/-- `0100 1110 01 mmm rrr`: TRAP, LINK, UNLK, MOVE USP and the words without operands. -/
def decodeMisc (cpu : Cpu) (m r : BitVec 3) : Dec Instr :=
  match m.toNat with
  | 0 | 1 => .done (.trap (m.extractLsb' 0 1 ++ r : BitVec 4))
  | 2 => .need fun d => .done (.link (regOf r) d)
  | 3 => .done (.unlk (regOf r))
  | 4 => .privileged (.done (.moveUsp false (regOf r)))
  | 5 => .privileged (.done (.moveUsp true (regOf r)))
  | 6 =>
    match r.toNat with
    | 0 => .privileged (.done .reset)
    | 1 => .done .nop
    | 2 => .privileged (.need fun w => .done (.stop w))
    | 3 => .privileged (.done .rte)
    | 4 => hole010 cpu
    | 5 => .done .rts
    | 6 => .done .trapv
    | _ => .done .rtr
  | _ => if r == 2#3 || r == 3#3 then hole010 cpu else .reject .illegal

/-- Mark a decoder as a privileged instruction's, unless it rejects the word. -/
def Dec.markPrivileged (d : Dec Instr) : Dec Instr :=
  match d with
  | .reject r => .reject r
  | d => .privileged d

/-- Line `0100`. CHK has a long form on MC68020 and later (47_system_control.md R371), CPU32 among them.
Log 34. -/
def decodeLine4 (cpu : Cpu) (x p m r : BitVec 3) : Dec Instr :=
  match p.toNat with
  | 7 => if x == 4#3 && m == 0#3 then hole020 cpu else eaOnly cpu m r .l EaKind.isControl (.lea (regOf x))
  | 6 => eaOnly cpu m r .w EaKind.isData (fun ea => .chk (regOf x) ⟨false, ea⟩)
  | 5 => .reject .illegal
  | 4 => if cpu.hasFullExt then eaOnly cpu m r .l EaKind.isData (fun ea => .chk (regOf x) ⟨true, ea⟩) else .reject .illegal
  | _ =>
    match x.toNat with
    | 0 =>
      match sizeOf (low2 p) with
      | some sz => eaOnly cpu m r sz EaKind.dataAlterable (.negx sz)
      | none =>
        let d := eaOnly cpu m r .w EaKind.dataAlterable .moveFromSr
        if cpu.moveFromSrPrivileged then d.markPrivileged else d
    | 1 =>
      match sizeOf (low2 p) with
      | some sz => eaOnly cpu m r sz EaKind.dataAlterable (.clr sz)
      | none => hole010 cpu
    | 2 =>
      match sizeOf (low2 p) with
      | some sz => eaOnly cpu m r sz EaKind.dataAlterable (.neg sz)
      | none => eaOnly cpu m r .w EaKind.isData .moveToCcr
    | 3 =>
      match sizeOf (low2 p) with
      | some sz => eaOnly cpu m r sz EaKind.dataAlterable (.not sz)
      | none => (eaOnly cpu m r .w EaKind.isData .moveToSr).markPrivileged
    | 4 =>
      match p.toNat with
      | 0 => if m == 1#3 then hole020 cpu else eaOnly cpu m r .b EaKind.dataAlterable .nbcd
      | 1 =>
        if m == 0#3 then .done (.swap (regOf r))
        else if m == 1#3 then hole010 cpu
        else eaOnly cpu m r .l EaKind.isControl .pea
      | 2 =>
        if m == 0#3 then .done (.extW (regOf r))
        else wordEa cpu m r .w EaKind.movemDest (.movemToMem false)
      | _ =>
        if m == 0#3 then .done (.extL (regOf r))
        else wordEa cpu m r .l EaKind.movemDest (.movemToMem true)
    | 5 =>
      match sizeOf (low2 p) with
      | some sz => eaOnly cpu m r sz (EaKind.tstOperand cpu sz) (.tst sz)
      | none =>
        if m == 7#3 && r == 4#3 then .done .illegal else eaOnly cpu m r .b EaKind.dataAlterable .tas
    | 6 =>
      match p.toNat with
      | 2 => wordEa cpu m r .w EaKind.movemSource (.movemToReg false)
      | 3 => wordEa cpu m r .l EaKind.movemSource (.movemToReg true)
      | _ => hole020 cpu
    | _ =>
      match p.toNat with
      | 1 => decodeMisc cpu m r
      | 2 => eaOnly cpu m r .l EaKind.isControl .jsr
      | 3 => eaOnly cpu m r .l EaKind.isControl .jmp
      | _ => .reject .illegal

/-- Line `0101`: DBcc, Scc, ADDQ, SUBQ. -/
def decodeLine5 (cpu : Cpu) (x p m r : BitVec 3) : Dec Instr :=
  match sizeOf (low2 p) with
  | none =>
    if m == 1#3 then .need fun d => .done (.dbcc (opCond x p) (regOf r) d)
    else if m == 7#3 && (r == 2#3 || r == 3#3 || r == 4#3) then hole020 cpu
    else eaOnly cpu m r .b EaKind.dataAlterable (.scc (opCond x p))
  | some sz =>
    if top1 p then eaOnly cpu m r sz (EaKind.quickDest sz) (.subq x sz)
    else eaOnly cpu m r sz (EaKind.quickDest sz) (.addq x sz)

/-- Line `0110`: BRA, BSR, Bcc. -/
def decodeLine6 (cpu : Cpu) (x p m r : BitVec 3) : Dec Instr :=
  branchOf cpu (opLow8 p m r) fun d =>
    match opCond x p with
    | .t => .bra d
    | .f => .bsr d
    | c => .bcc c d

/-- Line `0111`: MOVEQ. -/
def decodeLine7 (x p m r : BitVec 3) : Dec Instr :=
  if top1 p then .reject .illegal else .done (.moveq (regOf x) (opLow8 p m r))

/-- The direction OPMODE names (R96). -/
def dirOf (p : BitVec 3) : Dir := if top1 p then .toEa else .toReg

/-- Line `1000`: DIVU, DIVS, SBCD, OR. -/
def decodeLine8 (cpu : Cpu) (x p m r : BitVec 3) : Dec Instr :=
  match sizeOf (low2 p) with
  | none =>
    if top1 p then eaOnly cpu m r .w EaKind.isData (.divs (regOf x))
    else eaOnly cpu m r .w EaKind.isData (.divu (regOf x))
  | some sz =>
    if top1 p && (m == 0#3 || m == 1#3) then
      if p == 4#3 then .done (.sbcd (regOf x) (m == 1#3) (regOf r)) else hole020 cpu
    else eaOnly cpu m r sz (EaKind.andOperand (dirOf p)) (.or (regOf x) sz (dirOf p))

/-- Line `1001`: SUBA, SUBX, SUB. -/
def decodeLine9 (cpu : Cpu) (x p m r : BitVec 3) : Dec Instr :=
  match sizeOf (low2 p) with
  | none =>
    eaOnly cpu m r (Size.ofLong (top1 p)) (EaKind.anySource (Size.ofLong (top1 p))) (.suba (regOf x) (top1 p))
  | some sz =>
    if top1 p && (m == 0#3 || m == 1#3) then .done (.subx (regOf x) sz (m == 1#3) (regOf r))
    else eaOnly cpu m r sz (EaKind.addOperand sz (dirOf p)) (.sub (regOf x) sz (dirOf p))

/-- Line `1011`: CMPA, CMP, CMPM, EOR. -/
def decodeLineB (cpu : Cpu) (x p m r : BitVec 3) : Dec Instr :=
  match sizeOf (low2 p) with
  | none =>
    eaOnly cpu m r (Size.ofLong (top1 p)) (EaKind.anySource (Size.ofLong (top1 p))) (.cmpa (regOf x) (top1 p))
  | some sz =>
    if !top1 p then eaOnly cpu m r sz (EaKind.anySource sz) (.cmp (regOf x) sz)
    else if m == 1#3 then .done (.cmpm (regOf x) sz (regOf r))
    else eaOnly cpu m r sz EaKind.dataAlterable (.eor (regOf x) sz)

/-- Line `1100`: MULU, MULS, ABCD, EXG, AND. -/
def decodeLineC (cpu : Cpu) (x p m r : BitVec 3) : Dec Instr :=
  match sizeOf (low2 p) with
  | none =>
    if top1 p then eaOnly cpu m r .w EaKind.isData (.muls (regOf x))
    else eaOnly cpu m r .w EaKind.isData (.mulu (regOf x))
  | some sz =>
    if p == 4#3 && (m == 0#3 || m == 1#3) then .done (.abcd (regOf x) (m == 1#3) (regOf r))
    else if p == 5#3 && m == 0#3 then .done (.exgDD (regOf x) (regOf r))
    else if p == 5#3 && m == 1#3 then .done (.exgAA (regOf x) (regOf r))
    else if p == 6#3 && m == 1#3 then .done (.exgDA (regOf x) (regOf r))
    else eaOnly cpu m r sz (EaKind.andOperand (dirOf p)) (.and (regOf x) sz (dirOf p))

/-- Line `1101`: ADDA, ADDX, ADD. -/
def decodeLineD (cpu : Cpu) (x p m r : BitVec 3) : Dec Instr :=
  match sizeOf (low2 p) with
  | none =>
    eaOnly cpu m r (Size.ofLong (top1 p)) (EaKind.anySource (Size.ofLong (top1 p))) (.adda (regOf x) (top1 p))
  | some sz =>
    if top1 p && (m == 0#3 || m == 1#3) then .done (.addx (regOf x) sz (m == 1#3) (regOf r))
    else eaOnly cpu m r sz (EaKind.addOperand sz (dirOf p)) (.add (regOf x) sz (dirOf p))

/-- The count of a register shift: i/r is bit 5, the top bit of the field `m` (44_shift_rotate.md R280). -/
def countOf (x m : BitVec 3) : ShiftCount := if top1 m then .reg (regOf x) else .imm x

/-- Line `1110`: shifts and rotates, memory and register forms (R280). -/
def decodeLineE (cpu : Cpu) (x p m r : BitVec 3) : Dec Instr :=
  match sizeOf (low2 p) with
  | none =>
    match x.toNat, top1 p with
    | 0, false => eaOnly cpu m r .w EaKind.memAlterable .asrMem
    | 0, true => eaOnly cpu m r .w EaKind.memAlterable .aslMem
    | 1, false => eaOnly cpu m r .w EaKind.memAlterable .lsrMem
    | 1, true => eaOnly cpu m r .w EaKind.memAlterable .lslMem
    | 2, false => eaOnly cpu m r .w EaKind.memAlterable .roxrMem
    | 2, true => eaOnly cpu m r .w EaKind.memAlterable .roxlMem
    | 3, false => eaOnly cpu m r .w EaKind.memAlterable .rorMem
    | 3, true => eaOnly cpu m r .w EaKind.memAlterable .rolMem
    | _, _ => hole020 cpu
  | some sz =>
    match (low2 m).toNat, top1 p with
    | 0, false => .done (.asrReg (countOf x m) sz (regOf r))
    | 0, true => .done (.aslReg (countOf x m) sz (regOf r))
    | 1, false => .done (.lsrReg (countOf x m) sz (regOf r))
    | 1, true => .done (.lslReg (countOf x m) sz (regOf r))
    | 2, false => .done (.roxrReg (countOf x m) sz (regOf r))
    | 2, true => .done (.roxlReg (countOf x m) sz (regOf r))
    | _, false => .done (.rorReg (countOf x m) sz (regOf r))
    | _, true => .done (.rolReg (countOf x m) sz (regOf r))

/-- The decode map of R105, by line. Which words of line `1111` are instructions of MC68020, MC68030, MC68040 and CPU32
(coprocessor, floating point, MOVE16, cache, MMU: R105's last column) the spec does not say, and R6 puts them all out of
scope: there every such word is refused by name rather than raising LineF. DESIGN CHOICE, safe: log 15. -/
def decodeFields (cpu : Cpu) (line : BitVec 4) (x p m r : BitVec 3) : Dec Instr :=
  match line.toNat with
  | 0 => decodeLine0 cpu x p m r
  | 1 => decodeLine1 cpu x p m r
  | 2 => decodeLine2 cpu x p m r
  | 3 => decodeLine3 cpu x p m r
  | 4 => decodeLine4 cpu x p m r
  | 5 => decodeLine5 cpu x p m r
  | 6 => decodeLine6 cpu x p m r
  | 7 => decodeLine7 x p m r
  | 8 => decodeLine8 cpu x p m r
  | 9 => decodeLine9 cpu x p m r
  | 10 => .reject .lineA
  | 11 => decodeLineB cpu x p m r
  | 12 => decodeLineC cpu x p m r
  | 13 => decodeLineD cpu x p m r
  | 14 => decodeLineE cpu x p m r
  | _ => .reject (if cpu.hasFullExt then .laterMember else .lineF)

/-- Decode after the operation word `w`: the rest of the instruction's words are asked for one by one. -/
def decodeOp (cpu : Cpu) (w : Word16) : Dec Instr := decodeFields cpu (opLine w) (opX w) (opP w) (opM w) (opR w)

/-- Decode a list of words, the operation word first. -/
def decode (cpu : Cpu) (ws : List Word16) : DecodeResult Instr := (Dec.need (decodeOp cpu)).run ws

/-- Two bytes as the hardware stores a word: high-order byte first (20_memory.md R61). -/
def wordOfBytes (hi lo : Byte) : Word16 := (hi ++ lo : BitVec 16)

/-- The words of a list of bytes; an odd byte at the end is dropped. -/
def wordsOfBytes : List Byte → List Word16
  | hi :: lo :: rest => wordOfBytes hi lo :: wordsOfBytes rest
  | _ => []

/-- The bytes of a list of words. -/
def bytesOfWords : List Word16 → List Byte
  | [] => []
  | w :: ws => w.extractLsb' 8 8 :: w.extractLsb' 0 8 :: bytesOfWords ws

/-- Decode bytes as they stand in memory. -/
def decodeBytes (cpu : Cpu) (bs : List Byte) : DecodeResult Instr := decode cpu (wordsOfBytes bs)

/-! ## Encoding -/

/-- The mode field of an effective address (40_addressing_modes.md R156). -/
def eaMode : Ea → BitVec 3
  | .dn _ => 0#3
  | .an _ => 1#3
  | .ind _ => 2#3
  | .postInc _ => 3#3
  | .preDec _ => 4#3
  | .disp _ _ => 5#3
  | .index _ _ _ | .full _ _ => 6#3
  | .absShort _ | .absLong _ | .pcDisp _ | .pcIndex _ _ | .pcFull _ | .imm _ => 7#3

/-- The register field of an effective address (R156). -/
def eaReg : Ea → BitVec 3
  | .dn n | .an n | .ind n | .postInc n | .preDec n | .disp n _ | .index n _ _ | .full n _ => regBits n
  | .absShort _ => 0#3
  | .absLong _ => 1#3
  | .pcDisp _ => 2#3
  | .pcIndex _ _ | .pcFull _ => 3#3
  | .imm _ => 4#3

/-- A long word as two words, the high-order one first (20_memory.md R62). -/
def splitLong (v : Word) : List Word16 := [v.extractLsb' 16 16, v.extractLsb' 0 16]

/-- A byte in the low half of a word whose upper byte an assembler writes as zero (R97, D23). -/
def byteWord (v : Byte) : Word16 := (0#8 ++ v : BitVec 16)

/-- The words of immediate data (R97). -/
def immWords (sz : Size) (v : Word) : List Word16 :=
  match sz with
  | .b => [byteWord (v.setWidth 8)]
  | .w => [v.extractLsb' 0 16]
  | .l => splitLong v

/-- Bits 15–9 of an extension word (R149). -/
def indexBits (x : IndexSpec) : BitVec 7 := (BitVec.ofBool x.isAddr ++ regBits x.reg ++ BitVec.ofBool x.long ++ x.scale : BitVec 7)

/-- A brief extension word (R149). -/
def briefWord (x : IndexSpec) (d : Byte) : Word16 := (indexBits x ++ 0#1 ++ d : BitVec 16)

/-- The size field of a displacement (R150). -/
def displBits : Displ → BitVec 2
  | .null => 1#2
  | .word _ => 2#2
  | .long _ => 3#2

/-- The words of a displacement. -/
def displWords : Displ → List Word16
  | .null => []
  | .word d => [d]
  | .long d => splitLong d

/-- The I/IS field (R151). -/
def indirectBits : Indirect → BitVec 3
  | .none => 0#3
  | .pre od => (0#1 ++ displBits od : BitVec 3)
  | .post od => (1#1 ++ displBits od : BitVec 3)

/-- The words of an outer displacement. -/
def indirectWords : Indirect → List Word16
  | .none => []
  | .pre od | .post od => displWords od

/-- A full extension word and its displacements (R150). -/
def fullWords (e : FullExt) : List Word16 :=
  (indexBits e.index ++ 1#1 ++ BitVec.ofBool e.baseSuppress ++ BitVec.ofBool e.indexSuppress ++ displBits e.bd ++ 0#1 ++
      indirectBits e.indirect : BitVec 16) ::
    (displWords e.bd ++ indirectWords e.indirect)

/-- The extension words of an effective address (R155). -/
def eaWords (sz : Size) : Ea → List Word16
  | .dn _ | .an _ | .ind _ | .postInc _ | .preDec _ => []
  | .disp _ d => [d]
  | .index _ x d | .pcIndex x d => [briefWord x d]
  | .full _ e | .pcFull e => fullWords e
  | .absShort a => [a]
  | .absLong a => splitLong a
  | .pcDisp d => [d]
  | .imm v => immWords sz v

/-- The operation word with fields `line`, `x`, `p` and an effective address. -/
def opEa (line : BitVec 4) (x p : BitVec 3) (ea : Ea) : Word16 := mkOp line x p (eaMode ea) (eaReg ea)

/-- A 1-bit and a 2-bit part of the field in bits 8–6. -/
def pBits (top : Bool) (low : BitVec 2) : BitVec 3 := (BitVec.ofBool top ++ low : BitVec 3)

/-- The OPMODE of a direction and a size (R96). -/
def dirBits (dir : Dir) (sz : Size) : BitVec 3 := pBits (dir == .toEa) (sizeBits sz)

/-- The 8-bit field of a branch displacement (R99). -/
def branchField : BranchDisp → Byte
  | .short d => d
  | .word _ => 0#8
  | .long _ => 0xFF#8

/-- The words of a branch displacement. -/
def branchWords : BranchDisp → List Word16
  | .short _ => []
  | .word d => [d]
  | .long d => splitLong d

/-- The operation word of a branch: line, condition field, 8-bit displacement. -/
def branchOp (c : Cond) (d : BranchDisp) : Word16 := (6#4 ++ condBits c ++ branchField d : BitVec 16)

/-- The fields of bits 11–9 and 5 of a register shift. -/
def countBits : ShiftCount → BitVec 3
  | .imm c => c
  | .reg n => regBits n

/-- i/r of a register shift. -/
def countIsReg : ShiftCount → Bool
  | .imm _ => false
  | .reg _ => true

/-- A register shift: direction, type, count, size, register (R280). -/
def shiftOp (left : Bool) (type : BitVec 2) (cnt : ShiftCount) (sz : Size) (r : RegNum) : Word16 :=
  mkOp 14#4 (countBits cnt) (pBits left (sizeBits sz)) (pBits (countIsReg cnt) type) (regBits r)

/-- The words of an instruction (R92, R104, R105). -/
def encode : Instr → List Word16
  | .oriCcr v => [0x003C#16, byteWord v]
  | .oriSr v => [0x007C#16, v]
  | .andiCcr v => [0x023C#16, byteWord v]
  | .andiSr v => [0x027C#16, v]
  | .eoriCcr v => [0x0A3C#16, byteWord v]
  | .eoriSr v => [0x0A7C#16, v]
  | .movep dr toMem long ar d =>
    [mkOp 0#4 (regBits dr) (1#1 ++ BitVec.ofBool toMem ++ BitVec.ofBool long : BitVec 3) 1#3 (regBits ar), d]
  | .btstDyn n ea => opEa 0#4 (regBits n) 4#3 ea :: eaWords .b ea
  | .bchgDyn n ea => opEa 0#4 (regBits n) 5#3 ea :: eaWords .b ea
  | .bclrDyn n ea => opEa 0#4 (regBits n) 6#3 ea :: eaWords .b ea
  | .bsetDyn n ea => opEa 0#4 (regBits n) 7#3 ea :: eaWords .b ea
  | .btstImm b ea => opEa 0#4 4#3 0#3 ea :: byteWord b :: eaWords .b ea
  | .bchgImm b ea => opEa 0#4 4#3 1#3 ea :: byteWord b :: eaWords .b ea
  | .bclrImm b ea => opEa 0#4 4#3 2#3 ea :: byteWord b :: eaWords .b ea
  | .bsetImm b ea => opEa 0#4 4#3 3#3 ea :: byteWord b :: eaWords .b ea
  | .ori sz v ea => opEa 0#4 0#3 (pBits false (sizeBits sz)) ea :: (immWords sz v ++ eaWords sz ea)
  | .andi sz v ea => opEa 0#4 1#3 (pBits false (sizeBits sz)) ea :: (immWords sz v ++ eaWords sz ea)
  | .subi sz v ea => opEa 0#4 2#3 (pBits false (sizeBits sz)) ea :: (immWords sz v ++ eaWords sz ea)
  | .addi sz v ea => opEa 0#4 3#3 (pBits false (sizeBits sz)) ea :: (immWords sz v ++ eaWords sz ea)
  | .eori sz v ea => opEa 0#4 5#3 (pBits false (sizeBits sz)) ea :: (immWords sz v ++ eaWords sz ea)
  | .cmpi sz v ea => opEa 0#4 6#3 (pBits false (sizeBits sz)) ea :: (immWords sz v ++ eaWords sz ea)
  | .moveaL src r => opEa 2#4 (regBits r) 1#3 src :: eaWords .l src
  | .moveaW src r => opEa 3#4 (regBits r) 1#3 src :: eaWords .w src
  | .moveB src dst => opEa 1#4 (eaReg dst) (eaMode dst) src :: (eaWords .b src ++ eaWords .b dst)
  | .moveL src dst => opEa 2#4 (eaReg dst) (eaMode dst) src :: (eaWords .l src ++ eaWords .l dst)
  | .moveW src dst => opEa 3#4 (eaReg dst) (eaMode dst) src :: (eaWords .w src ++ eaWords .w dst)
  | .illegal => [0x4AFC#16]
  | .reset => [0x4E70#16]
  | .nop => [0x4E71#16]
  | .rte => [0x4E73#16]
  | .rts => [0x4E75#16]
  | .trapv => [0x4E76#16]
  | .rtr => [0x4E77#16]
  | .stop v => [0x4E72#16, v]
  | .trap v => [(0x4E4#12 ++ v : BitVec 16)]
  | .link r d => [mkOp 4#4 7#3 1#3 2#3 (regBits r), d]
  | .unlk r => [mkOp 4#4 7#3 1#3 3#3 (regBits r)]
  | .moveUsp toAn r => [mkOp 4#4 7#3 1#3 (2#2 ++ BitVec.ofBool toAn : BitVec 3) (regBits r)]
  | .jsr ea => opEa 4#4 7#3 2#3 ea :: eaWords .l ea
  | .jmp ea => opEa 4#4 7#3 3#3 ea :: eaWords .l ea
  | .swap r => [mkOp 4#4 4#3 1#3 0#3 (regBits r)]
  | .extW r => [mkOp 4#4 4#3 2#3 0#3 (regBits r)]
  | .extL r => [mkOp 4#4 4#3 3#3 0#3 (regBits r)]
  | .moveFromSr ea => opEa 4#4 0#3 3#3 ea :: eaWords .w ea
  | .moveToCcr ea => opEa 4#4 2#3 3#3 ea :: eaWords .w ea
  | .moveToSr ea => opEa 4#4 3#3 3#3 ea :: eaWords .w ea
  | .nbcd ea => opEa 4#4 4#3 0#3 ea :: eaWords .b ea
  | .pea ea => opEa 4#4 4#3 1#3 ea :: eaWords .l ea
  | .tas ea => opEa 4#4 5#3 3#3 ea :: eaWords .b ea
  | .movemToMem long mask ea =>
    opEa 4#4 4#3 (1#2 ++ BitVec.ofBool long : BitVec 3) ea :: mask :: eaWords (Size.ofLong long) ea
  | .movemToReg long mask ea =>
    opEa 4#4 6#3 (1#2 ++ BitVec.ofBool long : BitVec 3) ea :: mask :: eaWords (Size.ofLong long) ea
  | .negx sz ea => opEa 4#4 0#3 (pBits false (sizeBits sz)) ea :: eaWords sz ea
  | .clr sz ea => opEa 4#4 1#3 (pBits false (sizeBits sz)) ea :: eaWords sz ea
  | .neg sz ea => opEa 4#4 2#3 (pBits false (sizeBits sz)) ea :: eaWords sz ea
  | .not sz ea => opEa 4#4 3#3 (pBits false (sizeBits sz)) ea :: eaWords sz ea
  | .tst sz ea => opEa 4#4 5#3 (pBits false (sizeBits sz)) ea :: eaWords sz ea
  | .chk r b => opEa 4#4 (regBits r) (if b.long then 4#3 else 6#3) b.ea :: eaWords b.size b.ea
  | .lea r ea => opEa 4#4 (regBits r) 7#3 ea :: eaWords .l ea
  | .dbcc c r d => [(5#4 ++ condBits c ++ 3#2 ++ 1#3 ++ regBits r : BitVec 16), d]
  | .scc c ea => (5#4 ++ condBits c ++ 3#2 ++ eaMode ea ++ eaReg ea : BitVec 16) :: eaWords .b ea
  | .addq q sz ea => opEa 5#4 q (pBits false (sizeBits sz)) ea :: eaWords sz ea
  | .subq q sz ea => opEa 5#4 q (pBits true (sizeBits sz)) ea :: eaWords sz ea
  | .bra d => branchOp .t d :: branchWords d
  | .bsr d => branchOp .f d :: branchWords d
  | .bcc c d => branchOp c d :: branchWords d
  | .moveq r v => [(7#4 ++ regBits r ++ 0#1 ++ v : BitVec 16)]
  | .divu r ea => opEa 8#4 (regBits r) 3#3 ea :: eaWords .w ea
  | .divs r ea => opEa 8#4 (regBits r) 7#3 ea :: eaWords .w ea
  | .sbcd rx mem ry => [mkOp 8#4 (regBits rx) 4#3 (0#2 ++ BitVec.ofBool mem : BitVec 3) (regBits ry)]
  | .or r sz dir ea => opEa 8#4 (regBits r) (dirBits dir sz) ea :: eaWords sz ea
  | .suba r long ea => opEa 9#4 (regBits r) (pBits long 3#2) ea :: eaWords (Size.ofLong long) ea
  | .subx rx sz mem ry =>
    [mkOp 9#4 (regBits rx) (pBits true (sizeBits sz)) (0#2 ++ BitVec.ofBool mem : BitVec 3) (regBits ry)]
  | .sub r sz dir ea => opEa 9#4 (regBits r) (dirBits dir sz) ea :: eaWords sz ea
  | .cmpa r long ea => opEa 11#4 (regBits r) (pBits long 3#2) ea :: eaWords (Size.ofLong long) ea
  | .cmpm ax sz ay => [mkOp 11#4 (regBits ax) (pBits true (sizeBits sz)) 1#3 (regBits ay)]
  | .cmp r sz ea => opEa 11#4 (regBits r) (pBits false (sizeBits sz)) ea :: eaWords sz ea
  | .eor r sz ea => opEa 11#4 (regBits r) (pBits true (sizeBits sz)) ea :: eaWords sz ea
  | .mulu r ea => opEa 12#4 (regBits r) 3#3 ea :: eaWords .w ea
  | .muls r ea => opEa 12#4 (regBits r) 7#3 ea :: eaWords .w ea
  | .abcd rx mem ry => [mkOp 12#4 (regBits rx) 4#3 (0#2 ++ BitVec.ofBool mem : BitVec 3) (regBits ry)]
  | .exgDD rx ry => [mkOp 12#4 (regBits rx) 5#3 0#3 (regBits ry)]
  | .exgAA rx ry => [mkOp 12#4 (regBits rx) 5#3 1#3 (regBits ry)]
  | .exgDA rx ry => [mkOp 12#4 (regBits rx) 6#3 1#3 (regBits ry)]
  | .and r sz dir ea => opEa 12#4 (regBits r) (dirBits dir sz) ea :: eaWords sz ea
  | .adda r long ea => opEa 13#4 (regBits r) (pBits long 3#2) ea :: eaWords (Size.ofLong long) ea
  | .addx rx sz mem ry =>
    [mkOp 13#4 (regBits rx) (pBits true (sizeBits sz)) (0#2 ++ BitVec.ofBool mem : BitVec 3) (regBits ry)]
  | .add r sz dir ea => opEa 13#4 (regBits r) (dirBits dir sz) ea :: eaWords sz ea
  | .asrMem ea => opEa 14#4 0#3 3#3 ea :: eaWords .w ea
  | .aslMem ea => opEa 14#4 0#3 7#3 ea :: eaWords .w ea
  | .lsrMem ea => opEa 14#4 1#3 3#3 ea :: eaWords .w ea
  | .lslMem ea => opEa 14#4 1#3 7#3 ea :: eaWords .w ea
  | .roxrMem ea => opEa 14#4 2#3 3#3 ea :: eaWords .w ea
  | .roxlMem ea => opEa 14#4 2#3 7#3 ea :: eaWords .w ea
  | .rorMem ea => opEa 14#4 3#3 3#3 ea :: eaWords .w ea
  | .rolMem ea => opEa 14#4 3#3 7#3 ea :: eaWords .w ea
  | .asrReg cnt sz r => [shiftOp false 0#2 cnt sz r]
  | .aslReg cnt sz r => [shiftOp true 0#2 cnt sz r]
  | .lsrReg cnt sz r => [shiftOp false 1#2 cnt sz r]
  | .lslReg cnt sz r => [shiftOp true 1#2 cnt sz r]
  | .roxrReg cnt sz r => [shiftOp false 2#2 cnt sz r]
  | .roxlReg cnt sz r => [shiftOp true 2#2 cnt sz r]
  | .rorReg cnt sz r => [shiftOp false 3#2 cnt sz r]
  | .rolReg cnt sz r => [shiftOp true 3#2 cnt sz r]

/-! ## Lengths (R91) -/

/-- How many words immediate data takes (R91). -/
def Size.immLength : Size → Nat
  | .b | .w => 1
  | .l => 2

/-- How many words a displacement of a full extension word takes (R150). -/
def Displ.length : Displ → Nat
  | .null => 0
  | .word _ => 1
  | .long _ => 2

/-- How many words the outer displacement takes. -/
def Indirect.length : Indirect → Nat
  | .none => 0
  | .pre od | .post od => od.length

/-- How many extension words an effective address takes (40_addressing_modes.md R155). -/
def Ea.length (sz : Size) : Ea → Nat
  | .dn _ | .an _ | .ind _ | .postInc _ | .preDec _ => 0
  | .disp _ _ | .index _ _ _ | .pcIndex _ _ | .absShort _ | .pcDisp _ => 1
  | .full _ e | .pcFull e => 1 + e.bd.length + e.indirect.length
  | .absLong _ => 2
  | .imm _ => sz.immLength

/-- How many words a branch displacement takes (R99). -/
def BranchDisp.length : BranchDisp → Nat
  | .short _ => 0
  | .word _ => 1
  | .long _ => 2

/-- How many words an instruction takes (R91). -/
def Instr.words : Instr → Nat
  | .oriCcr _ | .oriSr _ | .andiCcr _ | .andiSr _ | .eoriCcr _ | .eoriSr _ | .movep _ _ _ _ _ | .stop _ | .link _ _
  | .dbcc _ _ _ => 2
  | .btstDyn _ ea | .bchgDyn _ ea | .bclrDyn _ ea | .bsetDyn _ ea | .nbcd ea | .tas ea | .scc _ ea => 1 + ea.length .b
  | .btstImm _ ea | .bchgImm _ ea | .bclrImm _ ea | .bsetImm _ ea => 2 + ea.length .b
  | .ori sz _ ea | .andi sz _ ea | .subi sz _ ea | .addi sz _ ea | .eori sz _ ea | .cmpi sz _ ea =>
    1 + sz.immLength + ea.length sz
  | .moveaL ea _ | .jsr ea | .jmp ea | .pea ea | .lea _ ea => 1 + ea.length .l
  | .moveaW ea _ | .moveFromSr ea | .moveToCcr ea | .moveToSr ea | .divu _ ea | .divs _ ea | .mulu _ ea
  | .muls _ ea | .asrMem ea | .aslMem ea | .lsrMem ea | .lslMem ea | .roxrMem ea | .roxlMem ea | .rorMem ea
  | .rolMem ea => 1 + ea.length .w
  | .moveB src dst => 1 + src.length .b + dst.length .b
  | .moveL src dst => 1 + src.length .l + dst.length .l
  | .moveW src dst => 1 + src.length .w + dst.length .w
  | .movemToMem long _ ea | .movemToReg long _ ea => 2 + ea.length (Size.ofLong long)
  | .negx sz ea | .clr sz ea | .neg sz ea | .not sz ea | .tst sz ea | .addq _ sz ea | .subq _ sz ea | .or _ sz _ ea
  | .sub _ sz _ ea | .cmp _ sz ea | .eor _ sz ea | .and _ sz _ ea | .add _ sz _ ea => 1 + ea.length sz
  | .chk _ b => 1 + b.ea.length b.size
  | .suba _ long ea | .cmpa _ long ea | .adda _ long ea => 1 + ea.length (Size.ofLong long)
  | .bra d | .bsr d | .bcc _ d => 1 + d.length
  | .illegal | .reset | .nop | .rte | .rts | .trapv | .rtr | .trap _ | .unlk _ | .moveUsp _ _ | .swap _ | .extW _
  | .extL _ | .moveq _ _ | .sbcd _ _ _ | .subx _ _ _ _ | .cmpm _ _ _ | .abcd _ _ _ | .exgDD _ _ | .exgAA _ _
  | .exgDA _ _ | .addx _ _ _ _ | .asrReg _ _ _ | .aslReg _ _ _ | .lsrReg _ _ _ | .lslReg _ _ _ | .roxrReg _ _ _
  | .roxlReg _ _ _ | .rorReg _ _ _ | .rolReg _ _ _ => 1

/-- The longest instruction has eleven words (R90, R91). -/
def maxWords : Nat := 11

/-! ## The host's question -/

/-- Word `k` of an instruction given as one number: its first word is bits 15–0 (spec/opcode_table.json's numbering),
bits from `nbits` on count as zero. -/
def tableWord (nbits w k : Nat) : Word16 := BitVec.ofNat 16 ((w % 2 ^ nbits) / 2 ^ (16 * k))

/-- The words of an instruction given as one number, up to the longest instruction. -/
def tableWords (nbits w : Nat) : List Word16 := (List.range maxWords).map (tableWord nbits w)

/-- The instruction the decoder of the baseline member reads from an instruction whose bits are `w`: the words are laid
out as bytes, high-order byte first, and decoded from those bytes. -/
def decodeTableWord (nbits w : Nat) : Option Instr :=
  match decodeBytes .mc68000 (bytesOfWords (tableWords nbits w)) with
  | .done i _ => some i
  | .reject _ | .truncated => none

end Sys2Proof
end

