-- ==== Sys2Proof/Machine/State.lean ====
section
/-! DEFINITION. The state of the machine, as plain data (10_state.md R20 to R47), the reasons a step can stop, and the
machine right after reset (R45, 70_reset_and_hazards.md R480). -/

namespace Sys2Proof.Machine

/-- `run_state` (10_state.md R44, 60_exceptions.md R457). -/
inductive RunState where
  | running | stopped | halted
  deriving DecidableEq, Repr

/-- How the platform answers the acknowledge of an interrupt (60_exceptions.md R449, R450). -/
inductive Ack where
  /-- A device supplies a vector number. -/
  | vector (v : BitVec 8)
  /-- Autovector: 24 plus the level. -/
  | auto
  /-- The acknowledge cycle ends in a bus error: vector 24. -/
  | spurious
  /-- The device's vector register is uninitialised: vector 15. -/
  | uninitialized
  deriving DecidableEq, Repr

/-- The input pins at one boundary (60_exceptions.md R450, R457; 70_reset_and_hazards.md R480, R490). Log 7. -/
structure Pins where
  /-- The reset input. -/
  reset : Bool
  /-- The halt input. -/
  halt : Bool
  /-- `ipl`: the interrupt level presented. -/
  ipl : BitVec 3
  /-- The answer to the acknowledge, if this level is taken. -/
  ack : Ack
  deriving DecidableEq, Repr

/-- No reset, no halt, no interrupt. -/
def Pins.quiet : Pins := { reset := false, halt := false, ipl := 0#3, ack := .auto }

/-- A word that a store has changed and that a fetch may still see in its old value (20_memory.md R76). Log 17. -/
structure StaleWord where
  /-- The word's even address in memory. -/
  addr : Nat
  /-- What it held before the store, apart from bytes whose later stores every fetch sees. -/
  old : Word16
  /-- `pc` at the store: the prefetch window is the ten bytes from here. -/
  base : Word
  deriving DecidableEq, Repr

/-- The trace condition sampled at the start of an instruction (60_exceptions.md R444, 10_state.md R38). Log 23. -/
inductive TraceMode where
  | off
  /-- T0 alone: trace if the flow changes (MC68020/030/040). -/
  | flow
  /-- T (T1): trace every instruction. -/
  | all
  deriving DecidableEq, Repr

/-- The five flags of the CCR (10_state.md R29). -/
structure Ccr where
  x : Bool
  n : Bool
  z : Bool
  v : Bool
  c : Bool
  deriving DecidableEq, Repr

/-- Memory: the bytes that differ from what an unlisted address reads as, addresses strictly rising. -/
abbrev Memory := List Host.Cell

/-- The state of the machine. -/
structure State where
  /-- The platform's parameters (00_scope.md R7); no step changes them. -/
  cfg : Config
  /-- D0 to D7 (10_state.md R21). -/
  d : Vector Word 8
  /-- A0 to A6 (R23). -/
  a : Vector Word 7
  /-- User stack pointer (R24, R40). -/
  usp : Word
  /-- Supervisor stack pointer; the interrupt stack pointer of MC68020/030/040 (R24). -/
  ssp : Word
  /-- Master stack pointer of MC68020/030/040 (R24). -/
  msp : Word
  /-- Program counter: the address of the operation word between instructions (R27). -/
  pc : Word
  /-- The system byte of the status register, SR[15:8]: T, T0, S, M, I2–I0 (R38). -/
  sys : Byte
  /-- The condition codes, SR[4:0]; SR[7:5] are not implemented (R29). SR as a word is `State.sr` (Ops.lean). -/
  ccr : Ccr
  /-- Vector base register of later members (20_memory.md R72). -/
  vbr : Word
  /-- `run_state` (R44). -/
  run : RunState
  /-- Memory (20_memory.md R60, R61). -/
  mem : Memory
  /-- The pins at the last boundary (60_exceptions.md R450). -/
  pins : Pins
  /-- MODEL: the samples of the pins still to come, one for each step. Log 7. -/
  inputs : List Pins
  /-- MODEL: how many pulses RESET has sent to external devices (47_system_control.md R376). Log 20. -/
  resetPulses : Nat
  /-- MODEL: words the prefetch may still hold in their old value (20_memory.md R76). Log 17. -/
  stale : List StaleWord
  /-- MODEL: the sampled trace condition. Log 23. -/
  tracing : TraceMode
  /-- MODEL: how many free values have been drawn; a free value is an opaque constant of Config applied to it. Log 8. -/
  draws : Nat
  deriving DecidableEq, Repr

/-- The access of a bus or address error: `BusError(addr, rw, fc)`, `AddressError(addr, rw, fc)` (60_exceptions.md
R460). -/
structure AccessFault where
  /-- Bus error, not address error. -/
  bus : Bool
  addr : Word
  write : Bool
  fc : FuncCode
  deriving DecidableEq, Repr

/-- The exceptions outside group 0 (60_exceptions.md R460). `op` is the address of the instruction that raises it, where
that instruction has moved `pc` on before (`pc <- ip`: 42_integer_arithmetic.md R224, 47_system_control.md R371 to R373). -/
inductive Exc where
  | illegal
  | lineA
  | lineF
  | privilege
  | trace
  | formatError
  | zeroDivide (op : Word)
  | chk (op : Word)
  | trapV (op : Word)
  | trap (n : BitVec 4) (op : Word)
  | interrupt (level : BitVec 3) (vec : BitVec 8)
  deriving DecidableEq, Repr

/-- Why the machine makes no further step. -/
inductive Fault where
  /-- The processor is halted and no input is to come: only reset leaves this state (60_exceptions.md R447, R457). Raised
  by `step`. Safe: it is the stuck state the spec gives. Log 10. -/
  | halted
  /-- The processor is stopped, no interrupt is pending and no input is to come (47_system_control.md R378,
  70_reset_and_hazards.md R488). Raised by `step`. Safe. Log 10. -/
  | stopped
  /-- The run has ended by (a) or (b) of `HALT_CONVENTION` (70_reset_and_hazards.md R489). Raised by `step`, under those
  two conventions only. Safe. Log 32. -/
  | ended
  /-- The run has ended at its first `raise`, (d) of `HALT_CONVENTION` (R489, 92_eei_decisions.md D6): an exception outside
  group 0, with the state at the raise. Raised by taking an exception, under that convention only. Safe. Log 32. -/
  | exception (e : Exc) (s : State)
  /-- The same for a bus or address error. Safe. Log 32. -/
  | access (f : AccessFault) (s : State)
  deriving DecidableEq, Repr

/-- Why the model gives no outcome. -/
inductive Refusal where
  /-- The instruction with this mnemonic has no meaning in the model yet. Raised by `exec`. Safe. -/
  | notModelled (mnemonic : String)
  /-- An access to a device window of `MEMMAP`, whose behaviour the spec does not give (20_memory.md R71). Raised by every
  memory access. Safe. Log 5. -/
  | deviceAccess (addr : Word)
  /-- RTE of a frame of MC68010 or later whose layout the spec does not give (60_exceptions.md R441, R443). Raised by RTE.
  Safe. Log 12. -/
  | longFrame
  /-- An operation word that a later member gives an instruction without a row in the opcode table (00_scope.md R6). Raised
  by the fetch. Safe. Log 15. -/
  | laterMember (opword : Word16)
  /-- A reserved value in a full extension word (30_encoding.md R119). Raised by the fetch. Safe. Log 22. -/
  | reservedExtension
  deriving DecidableEq, Repr

/-- The machine right after reset, with a memory that lists nothing: SR[15:8] = $27 and VBR = 0 as R480 says; SSP and pc
hold the long words at addresses 0 and 4. Every register the spec leaves unspecified is 0. DESIGN CHOICE, unsafe: log 1,
log 2. -/
def State.reset : State where
  cfg := Config.baseline
  d := Vector.replicate 8 0#32
  a := Vector.replicate 7 0#32
  usp := 0#32
  ssp := 0#32
  msp := 0#32
  pc := 0#32
  sys := 0x27#8
  ccr := { x := false, n := false, z := false, v := false, c := false }
  vbr := 0#32
  run := .running
  mem := []
  pins := Pins.quiet
  inputs := []
  resetPulses := 0
  stale := []
  tracing := .off
  draws := 0

end Sys2Proof.Machine
end

