-- ==== Sys2Proof/Machine/Ops.lean ====
section
/-! DEFINITION. The shared operations: memory, registers, the status register, free values, taking an exception and
returning from one (10_state.md, 20_memory.md, 60_exceptions.md). -/

namespace Sys2Proof.Machine

/-! ## Memory as bytes (20_memory.md R60, R61) -/

/-- What an unlisted address reads as. DESIGN CHOICE, unsafe: log 2. -/
def Memory.blank : Byte := 0#8

/-- The byte at an address. -/
def Memory.peek (m : Memory) (a : Nat) : Byte :=
  match m with
  | [] => Memory.blank
  | (k, v) :: rest => if k = a then v else Memory.peek rest a

/-- The memory with `b` at address `a`, in canonical form. -/
def Memory.poke (m : Memory) (a : Nat) (b : Byte) : Memory :=
  match m with
  | [] => if b = Memory.blank then [] else [(a, b)]
  | (k, v) :: rest =>
    if a < k then if b = Memory.blank then (k, v) :: rest else (a, b) :: (k, v) :: rest
    else if a = k then if b = Memory.blank then rest else (a, b) :: rest
    else (k, v) :: Memory.poke rest a b

/-- Every address of the list is at least `lo`, they rise strictly, stay below 2^32, and no entry is blank. -/
def Memory.wfFrom (lo : Nat) : Memory → Bool
  | [] => true
  | (k, v) :: rest => decide (lo ≤ k) && decide (k < 2 ^ 32) && decide (v ≠ Memory.blank) && Memory.wfFrom (k + 1) rest

/-- The canonical form of memory. -/
def Memory.wf (m : Memory) : Bool := Memory.wfFrom 0 m

/-- How many bytes the platform's address lines tell apart (`ADDR_BITS`, R79). -/
def State.space (s : State) : Nat := 2 ^ min s.cfg.addrBits 32

/-- The byte an address reaches: its `ADDR_BITS` low bits (R79). -/
def State.phys (s : State) (a : Word) : Nat := a.toNat % s.space

/-- The byte at an address. -/
def State.byteAt (s : State) (a : Word) : Byte := s.mem.peek (s.phys a)

/-- The word at an address, high-order byte first (R61). -/
def State.wordAt (s : State) (a : Word) : Word16 := (s.byteAt a ++ s.byteAt (a + 1#32) : BitVec 16)

/-- The long word at an address, high-order byte first (R61). -/
def State.longAt (s : State) (a : Word) : Word := (s.wordAt a ++ s.wordAt (a + 2#32) : BitVec 32)

/-- The operand at an address, zero-extended (R61). -/
def State.valueAt (s : State) (sz : Size) (a : Word) : Word :=
  match sz with
  | .b => (s.byteAt a).setWidth 32
  | .w => (s.wordAt a).setWidth 32
  | .l => s.longAt a

/-- The state with one byte of memory changed. -/
def State.setByte (s : State) (a : Word) (b : Byte) : State := { s with mem := s.mem.poke (s.phys a) b }

/-- The addresses of an operand's bytes, rising, modulo 2^32 (R61, R79). -/
def bytesFrom (sz : Size) (a : Word) : List Word :=
  match sz with
  | .b => [a]
  | .w => [a, a + 1#32]
  | .l => [a, a + 1#32, a + 2#32, a + 3#32]

/-- The bytes of a value of a size, high-order first (R61). -/
def bytesOf (sz : Size) (v : Word) : List Byte :=
  match sz with
  | .b => [v.extractLsb' 0 8]
  | .w => [v.extractLsb' 8 8, v.extractLsb' 0 8]
  | .l => [v.extractLsb' 24 8, v.extractLsb' 16 8, v.extractLsb' 8 8, v.extractLsb' 0 8]

/-- An address lies within the ten bytes from `base` (R76). -/
def State.inWindow (s : State) (base a : Word) : Bool := (s.phys a + s.space - s.phys base) % s.space < 10

/-- A fetch may miss a store to byte `a` now: the byte lies in the window of the instruction at `pc`, or the member has an
instruction cache (R76). Log 17. -/
def State.mayMiss (s : State) (a : Word) : Bool := s.cfg.cpu.hasCache || s.inWindow s.pc a

/-- The entry after a store of `b` to one of its bytes, the one at the odd address if `odd`, that every fetch sees. -/
def StaleWord.seen (e : StaleWord) (odd : Bool) (b : Byte) : StaleWord :=
  { e with old := if odd then e.old.extractLsb' 8 8 ++ b else b ++ e.old.extractLsb' 0 8 }

/-- The entries after a store of one byte (R76): the old word is noted if a fetch may miss the store; otherwise every fetch
sees the byte, whatever was noted before. Log 17. -/
def State.noteByte (s : State) (l : List StaleWord) (p : Word × Byte) : List StaleWord :=
  let word := p.1 &&& 0xFFFFFFFE#32
  if s.mayMiss p.1 then List.insert { addr := s.phys word, old := s.wordAt word, base := s.pc } l
  else l.map fun e => if e.addr == s.phys word then e.seen (p.1.getLsbD 0) p.2 else e

/-- A completed store: the bytes change, and the words a fetch may still see in their old value are noted (R61, R76). -/
def State.store (s : State) (sz : Size) (a v : Word) : State :=
  let bytes := (bytesFrom sz a).zip (bytesOf sz v)
  { (bytes.foldl (fun t p => t.setByte p.1 p.2) s) with stale := bytes.foldl s.noteByte s.stale }

/-! ## Registers (10_state.md R21 to R24, R38) -/

/-- S: supervisor mode (R38). -/
def State.isSuper (s : State) : Bool := s.sys.getLsbD 5

/-- The master stack pointer is the supervisor stack pointer (R24, R38). -/
def State.onMaster (s : State) : Bool := s.cfg.cpu.is020 && s.sys.getLsbD 4

/-- The active stack pointer: USP, or SSP (on MC68020/030/040 MSP or ISP by M) (R24). -/
def State.sp (s : State) : Word := if !s.isSuper then s.usp else if s.onMaster then s.msp else s.ssp

/-- The active stack pointer written (R24). -/
def State.setSp (s : State) (v : Word) : State :=
  if !s.isSuper then { s with usp := v } else if s.onMaster then { s with msp := v } else { s with ssp := v }

/-- Data register `n` (R21). -/
def State.getD (s : State) (n : RegNum) : Word := s.d[n]

/-- Data register `n` written whole. -/
def State.setD (s : State) (n : RegNum) (v : Word) : State := { s with d := s.d.set n v }

/-- Address register `n`; A7 is the active stack pointer (R23, R24). -/
def State.getA (s : State) (n : RegNum) : Word := if h : n.val < 7 then s.a[n.val] else s.sp

/-- Address register `n` written: always all 32 bits (R23). -/
def State.setA (s : State) (n : RegNum) (v : Word) : State :=
  if h : n.val < 7 then { s with a := s.a.set n.val v } else s.setSp v

/-- The low `sz` bits of a data register written, the others unchanged (R22). -/
def State.setDPart (s : State) (sz : Size) (n : RegNum) (v : Word) : State := s.setD n (sz.merge (s.getD n) v)

/-- Flags from bits 4–0 of a word (R29, R30). -/
def Ccr.ofWord (w : Word16) : Ccr :=
  { x := w.getLsbD 4, n := w.getLsbD 3, z := w.getLsbD 2, v := w.getLsbD 1, c := w.getLsbD 0 }

/-- The low byte of SR: bits 7–5 read as zero (R29). -/
def Ccr.toByte (c : Ccr) : Byte :=
  (0#3 ++ BitVec.ofBool c.x ++ BitVec.ofBool c.n ++ BitVec.ofBool c.z ++ BitVec.ofBool c.v ++ BitVec.ofBool c.c : BitVec 8)

/-- The status register as a word (R38). -/
def State.sr (s : State) : Word16 := (s.sys ++ s.ccr.toByte : BitVec 16)

/-- SR written: unimplemented bits stay 0 (R38, R42). -/
def State.setSr (s : State) (w : Word16) : State :=
  { s with sys := (w &&& s.cfg.cpu.srMask).extractLsb' 8 8, ccr := Ccr.ofWord w }

/-- The flags written; the system byte is unchanged (R29, R30). -/
def State.setCcr (s : State) (c : Ccr) : State := { s with ccr := c }

/-- The interrupt mask I2–I0 (R38). -/
def State.mask (s : State) : BitVec 3 := s.sys.extractLsb' 0 3

/-- The base of the vector table: fixed 0 on MC68000/MC68008 (20_memory.md R72). -/
def State.vectorBase (s : State) : Word := if s.cfg.cpu.isBaseline then 0#32 else s.vbr

/-- The function code of an access by the current mode (20_memory.md R60). -/
def State.fc (s : State) (program : Bool) : FuncCode :=
  match s.isSuper, program with
  | false, false => .userData
  | false, true => .userProgram
  | true, false => .superData
  | true, true => .superProgram

/-! ## The meanings' monad: an error keeps the state, so what was written before a `raise` has happened
(00_scope.md R14) -/

/-- Why an instruction is abandoned. -/
inductive Stop where
  /-- A bus or address error. -/
  | access (f : AccessFault)
  /-- Another exception. -/
  | exc (e : Exc)
  /-- No outcome in the model. -/
  | refuse (r : Refusal)
  deriving DecidableEq, Repr

/-- An action on the state that may stop. -/
abbrev M := EStateM Stop State

/-- `raise` (R14). -/
def raise {α : Type} (e : Exc) : M α := throw (.exc e)

/-- Give no outcome, under a name. -/
def refuse {α : Type} (r : Refusal) : M α := throw (.refuse r)

/-! ## Free values. Log 8 -/

/-- The index of a fresh free value. -/
def draw : M Nat := fun s => .ok s.draws { s with draws := s.draws + 1 }

/-- A fresh free bit. -/
def drawBit : M Bool := do return Config.freeBit (← draw)

/-- A fresh free byte. -/
def drawByte : M Byte := do return Config.freeByte (← draw)

/-- A fresh free word. -/
def drawWord : M Word16 := do return Config.freeWord (← draw)

/-- A fresh free number. -/
def drawNat : M Nat := do return Config.freeNat (← draw)

/-! ## Memory accesses (20_memory.md R64, R66, R80) -/

/-- What the platform does with one byte of an access. -/
def State.byteVerdict (s : State) (fc : FuncCode) (write : Bool) (a : Word) : Verdict :=
  s.cfg.verdict (s.phys a) fc write

/-- What the platform does with a whole access: a byte that it does not admit ends it in a bus error, whatever the others are
(R66, R80); else a device byte leaves it without an outcome. Log 5. -/
def State.verdict (s : State) (fc : FuncCode) (write : Bool) (sz : Size) (a : Word) : Verdict :=
  let vs := (bytesFrom sz a).map (s.byteVerdict fc write)
  if vs.contains .busError then .busError else if vs.contains .device then .device else .granted

/-- A word or long access at an odd address, on a member with `ALIGN_FAULT` (R64). -/
def State.misaligned (s : State) (sz : Size) (a : Word) : Bool := s.cfg.cpu.alignFault && sz != .b && a.getLsbD 0

/-- An access of this size completes (R80). -/
def State.accessible (s : State) (fc : FuncCode) (write : Bool) (sz : Size) (a : Word) : Bool :=
  !s.misaligned sz a && s.verdict fc write sz a == .granted

/-- `MemRead` (00_scope.md R12): address error, then bus error, then the value (R80). -/
def memRead (fc : FuncCode) (sz : Size) (a : Word) : M Word := do
  let s ← get
  if s.misaligned sz a then throw (.access { bus := false, addr := a, write := false, fc := fc })
  else
    match s.verdict fc false sz a with
    | .granted => return s.valueAt sz a
    | .busError => throw (.access { bus := true, addr := a, write := false, fc := fc })
    | .device => refuse (.deviceAccess a)

/-- The transfers a store is made of, in order: single bytes at rising addresses where the operand's address is odd (R64,
92_eei_decisions.md D3); else one transfer of a byte or a word, and two of a long word, the low-order one first if `lowFirst`
(R69, R70, D10). Log 16. -/
def storeTransfers (lowFirst : Bool) (sz : Size) (a v : Word) : List (Size × Word × Word) :=
  if a.getLsbD 0 then (bytesFrom sz a).zipWith (fun x b => (.b, x, b.setWidth 32)) (bytesOf sz v)
  else
    match sz with
    | .b | .w => [(sz, a, v)]
    | .l =>
      let high : Size × Word × Word := (.w, a, v >>> 16)
      let low : Size × Word × Word := (.w, a + 2#32, v)
      if lowFirst then [low, high] else [high, low]

/-- A transfer of which bytes go to a device: memory takes the others, the device has no state in the model. Log 5. -/
def State.storeBeside (s : State) (fc : FuncCode) (sz : Size) (a v : Word) : State :=
  ((bytesFrom sz a).zip (bytesOf sz v)).foldl
    (fun t p => if t.byteVerdict fc true p.1 == .granted then t.store .b p.1 (p.2.setWidth 32) else t) s

/-- Transfers one after another up to the first that the platform does not admit. -/
def storeUntil (fc : FuncCode) : List (Size × Word × Word) → State → State
  | [], s => s
  | (sz, a, v) :: rest, s =>
    match s.verdict fc true sz a with
    | .granted => storeUntil fc rest (s.store sz a v)
    | .device => storeUntil fc rest (s.storeBeside fc sz a v)
    | .busError => s

/-- A store that a bus error cuts short: the transfers before the one that fails have landed, no other. Which half of a long
word goes first is free (R70, 93_implementation_defined.md U21). Log 16. -/
def storePartly (fc : FuncCode) (sz : Size) (a v : Word) : M Unit := do
  let lowFirst ← if sz == .l && !a.getLsbD 0 then drawBit else pure false
  modify (storeUntil fc (storeTransfers lowFirst sz a v))

/-- `MemWrite` (R12): address error, then bus error, then the store (R80). -/
def memWrite (fc : FuncCode) (sz : Size) (a v : Word) : M Unit := do
  let s ← get
  if s.misaligned sz a then throw (.access { bus := false, addr := a, write := true, fc := fc })
  else
    match s.verdict fc true sz a with
    | .granted => set (s.store sz a v)
    | .busError =>
      storePartly fc sz a v
      throw (.access { bus := true, addr := a, write := true, fc := fc })
    | .device => refuse (.deviceAccess a)

/-- The old words a fetch of the word at `a` may still see (R76). Log 17. -/
def State.staleAt (s : State) (a : Word) : List Word16 := (s.stale.filter fun e => e.addr == s.phys a).map (·.old)

/-- `fetch16` at an address (00_scope.md R13): a program reference; an odd address raises Address Error on every member
(R67); the word in memory, or freely an old one that is noted (R76). -/
def fetch16 (a : Word) : M Word16 := do
  let s ← get
  let fc := s.fc true
  if a.getLsbD 0 then throw (.access { bus := false, addr := a, write := false, fc := fc })
  else
    match s.verdict fc false .w a with
    | .busError => throw (.access { bus := true, addr := a, write := false, fc := fc })
    | .device => refuse (.deviceAccess a)
    | .granted =>
      match s.staleAt a with
      | [] => return s.wordAt a
      | olds => return olds.getD ((← drawNat) % (olds.length + 1)) (s.wordAt a)

/-! ## The stack (40_addressing_modes.md R161) -/

/-- Push on the active stack: decrement, then store. -/
def push (sz : Size) (v : Word) : M Unit := do
  modify fun s => s.setSp (s.sp - BitVec.ofNat 32 sz.bytes)
  let s ← get
  memWrite (s.fc false) sz s.sp v

/-- Pull from the active stack: load, then increment. -/
def pull (sz : Size) : M Word := do
  let s ← get
  let v ← memRead (s.fc false) sz s.sp
  modify fun s => s.setSp (s.sp + BitVec.ofNat 32 sz.bytes)
  return v

/-- The instruction ends without a transfer of control: `pc` advances past its `n` words (10_state.md R28). -/
def advance (n : Nat) : M Unit := modify fun s => { s with pc := s.pc + BitVec.ofNat 32 (2 * n) }

/-- The address `n` words after the operation word. -/
def State.ipAt (s : State) (n : Nat) : Word := s.pc + BitVec.ofNat 32 (2 * n)

/-- A privileged instruction raises Privilege Violation in user mode (47_system_control.md R377). -/
def requireSuper : M Unit := do if !(← get).isSuper then raise .privilege

/-! ## Taking an exception (60_exceptions.md R440 to R447) -/

/-- The vector number (R431). -/
def Exc.vector : Exc → BitVec 8
  | .illegal => 4#8
  | .zeroDivide _ => 5#8
  | .chk _ => 6#8
  | .trapV _ => 7#8
  | .privilege => 8#8
  | .trace => 9#8
  | .lineA => 10#8
  | .lineF => 11#8
  | .formatError => 14#8
  | .trap n _ => 32#8 + n.setWidth 8
  | .interrupt _ vec => vec

/-- The PC to stack (R442) is `pc`: the next instruction's address for TRAP, TRAPV, CHK and zero divide, which have moved
`pc` on before they raise, and for trace and an interrupt; the instruction's own address for the others. R442 does not list
Format Error (vector 14, MC68010 and later), nor does 47_system_control.md R375 give its stacked PC: here it is the address
of the RTE. DESIGN CHOICE, unsafe on those members: log 33. -/
def Exc.stackedPc (s : State) (_ : Exc) : Word := s.pc

/-- The address of the instruction that raises an exception, or that comes next if none does. -/
def Exc.origin (s : State) : Exc → Word
  | .zeroDivide op | .chk op | .trapV op | .trap _ op => op
  | .illegal | .lineA | .lineF | .privilege | .trace | .formatError | .interrupt _ _ => s.pc

/-- No trace exception follows an instruction that these end (R444). Log 23. -/
def Exc.endsTrace : Exc → Bool
  | .illegal | .lineA | .lineF | .privilege => true
  | .trace | .formatError | .zeroDivide _ | .chk _ | .trapV _ | .trap _ _ | .interrupt _ _ => false

/-- The system byte on entry (R440 step 1): S set, T and T0 cleared, the rest kept, M among it (log 13). -/
def entrySys (sys : Byte) : Byte := (sys &&& 0x3F#8) ||| 0x20#8

/-- The system byte with the interrupt mask at `level` (R440 step 1, R450). -/
def withMask (sys : Byte) (level : BitVec 3) : Byte := (sys &&& 0xF8#8) ||| level.setWidth 8

/-- The system byte after step 1 of R440. An interrupt also clears M, so that its frame goes to the interrupt stack
(log 13). -/
def Exc.newSys (sys : Byte) : Exc → Byte
  | .interrupt level _ => withMask (entrySys sys &&& 0xEF#8) level
  | _ => entrySys sys

/-- R440 steps 2, 4 and 5: the format word where the member has one, the PC, the old SR. Format 0: log 12. R440 and
93_implementation_defined.md U21 leave the order of the stores on the bus open; here it is that of the steps, which shows only where
one of them faults. DESIGN CHOICE, log 37. -/
def pushFrame (vec : BitVec 8) (ret : Word) (old : Word16) : M Unit := do
  if (← get).cfg.cpu.formatWord then push .w (vec.setWidth 32 <<< 2)
  push .l ret
  push .w (old.setWidth 32)

/-- The space a vector is read in: vectors 0 and 1 are supervisor program, the others supervisor data (R431,
20_memory.md R72). -/
def vectorSpace (vec : BitVec 8) : FuncCode := if vec.toNat < 2 then .superProgram else .superData

/-- After a transfer of control out of a prefetch window, its stores are seen (70_reset_and_hazards.md R485), but on the
members with an instruction cache (20_memory.md R76). Log 17. -/
def settle (s : State) : State :=
  { s with stale := if s.cfg.cpu.hasCache then s.stale else s.stale.filter fun e => s.inWindow e.base s.pc }

/-- R440 step 6: the PC from the vector, and the processor runs. The handler is a transfer of control (R485). -/
def loadVector (vec : BitVec 8) : M Unit := do
  let s ← get
  let target ← memRead (vectorSpace vec) .l (s.vectorBase + (vec.setWidth 32 <<< 2))
  modify fun s => settle { s with pc := target, run := .running }

/-- Exception processing outside group 0 (R440). -/
def enter (e : Exc) : M Unit := do
  let s ← get
  set { s with sys := e.newSys s.sys }
  pushFrame e.vector (e.stackedPc s) s.sr
  loadVector e.vector

/-- The first word of the group 0 frame: bits 15–5 free, R/W, I/N, function code (R443). Log 11. -/
def statusWord (free : Word16) (f : AccessFault) (inException : Bool) : Word16 :=
  (free.extractLsb' 5 11 ++ BitVec.ofBool (!f.write) ++ BitVec.ofBool inException ++ f.fc.bits : BitVec 16)

/-- The stacked PC of a group 0 frame: 2 to 10 bytes beyond `op`, the address of the faulting instruction's first word,
freely (R443). Log 11. -/
def loosePc (op : Word) (free : Nat) : Word := op + 2#32 + BitVec.ofNat 32 (free % 9)

/-- The vector of a bus or address error (R431). -/
def AccessFault.vector (f : AccessFault) : BitVec 8 := if f.bus then 2#8 else 3#8

/-- The 14-byte frame of MC68000/MC68008 (R443); `op` is the address of the faulting instruction. The stores go from the highest
address to the lowest, PC and SR first; the spec leaves their order open (R440, 93_implementation_defined.md U21).
DESIGN CHOICE, log 37. -/
def pushAccessFrame (f : AccessFault) (inException : Bool) (op : Word) (old : Word16) : M Unit := do
  push .l (loosePc op (← drawNat))
  push .w (old.setWidth 32)
  push .w ((← drawWord).setWidth 32)
  push .l f.addr
  push .w ((statusWord (← drawWord) f inException).setWidth 32)

/-- So many free words. -/
def pushFree : Nat → M Unit
  | 0 => return
  | n + 1 => do
    push .w ((← drawWord).setWidth 32)
    pushFree n

/-- The frame of a bus or address error on MC68010 and later: at its highest address the format word, a free format above the
vector offset (R441); below it three or more words, PC and SR somewhere among them, whose number and contents the spec does not
give (R443): free, but that the frame overwrites no part of itself. DESIGN CHOICE, log 12. -/
def pushLongFrame (vec : BitVec 8) : M Unit := do
  push .w (((← drawWord) &&& 0xF000#16 ||| vec.setWidth 16 <<< 2).setWidth 32)
  let s ← get
  pushFree (3 + (← drawNat) % (s.space / 2 - 3))

/-- Exception processing of a bus or address error of the instruction at `op` (R440, R441, R443). -/
def enterGroup0 (f : AccessFault) (inException : Bool) (op : Word) : M Unit := do
  let s ← get
  set { s with sys := entrySys s.sys }
  if s.cfg.cpu.formatWord then pushLongFrame f.vector else pushAccessFrame f inException op s.sr
  loadVector f.vector

/-- Take a bus or address error of the instruction at `op`. A further one while it is processed halts the processor
(R447). Where exceptions are terminal, the run ends (70_reset_and_hazards.md R489 (d)). -/
def takeAccessFault (f : AccessFault) (inException : Bool) (op : Word) (s : State) : Host.Outcome State Fault Refusal :=
  if s.cfg.halt == .firstRaise then .fault (.access f s)
  else
    match (enterGroup0 f inException op).run { s with tracing := .off } with
    | .ok _ s' => .next s'
    | .error (.refuse r) _ => .refused r
    | .error _ s' => .next { s' with run := .halted }

/-- Take an exception outside group 0. A bus or address error meanwhile is processed as an ordinary group 0 exception
(R447). Where exceptions are terminal, the run ends (70_reset_and_hazards.md R489 (d)). -/
def takeException (e : Exc) (s : State) : Host.Outcome State Fault Refusal :=
  if s.cfg.halt == .firstRaise then .fault (.exception e s)
  else
    match (enter e).run { s with tracing := if e.endsTrace then .off else s.tracing } with
    | .ok _ s' => .next s'
    | .error (.refuse r) _ => .refused r
    | .error (.access f) s' => takeAccessFault f true (e.origin s) s'
    | .error (.exc _) s' => .next { s' with run := .halted }

/-- How an action ends as an outcome: a raise takes its exception. -/
def finish (s : EStateM.Result Stop State Unit) : Host.Outcome State Fault Refusal :=
  match s with
  | .ok _ s' => .next s'
  | .error (.refuse r) _ => .refused r
  | .error (.exc e) s' => takeException e s'
  | .error (.access f) s' => takeAccessFault f false s'.pc s'

/-- The meaning of an instruction, from the action of its rule. -/
def runInstr (body : M Unit) (s : State) : Host.Outcome State Fault Refusal := finish (body.run s)

/-! ## Returning from an exception (47_system_control.md R375) -/

/-- The size of the frame that format word `f` names. Log 12. -/
def frameSize (cpu : Cpu) (f : Word) : M Word :=
  match (f.extractLsb' 12 4).toNat with
  | 0 => return 8#32
  | 1 => if cpu.is020 then refuse .longFrame else raise .formatError
  | 2 | 8 | 9 | 10 | 11 => refuse .longFrame
  | 7 => if cpu == .mc68040 then refuse .longFrame else raise .formatError
  | _ => raise .formatError

/-- RTE after its privilege check (R375). -/
def returnFromException : M Unit := do
  let s ← get
  let w ← memRead .superData .w s.sp
  let t ← memRead .superData .l (s.sp + 2#32)
  let size ←
    if s.cfg.cpu.formatWord then do
      let f ← memRead .superData .w (s.sp + 6#32)
      frameSize s.cfg.cpu f
    else pure 6#32
  set { (s.setSp (s.sp + size)).setSr (w.extractLsb' 0 16) with pc := t }

/-! ## Reset (70_reset_and_hazards.md R480) -/

/-- The reset sequence. -/
def resetSequence : M Unit := do
  modify fun s => { s with sys := 0x27#8, vbr := 0#32, tracing := .off }
  let sp ← memRead .superProgram .l 0#32
  modify fun s => { s with ssp := sp }
  let pc ← memRead .superProgram .l 4#32
  modify fun s => { s with pc := pc, run := .running }

/-- Reset; a bus or address error meanwhile halts the processor (60_exceptions.md R447). -/
def takeReset (s : State) : Host.Outcome State Fault Refusal :=
  match resetSequence.run s with
  | .ok _ s' => .next s'
  | .error (.refuse r) _ => .refused r
  | .error _ s' => .next { s' with run := .halted }

end Sys2Proof.Machine
end

