-- ==== Sys2Proof/Machine/Flags.lean ====
section
/-! DEFINITION. Flag computations: the conditions (10_state.md R36), binary arithmetic (42_integer_arithmetic.md R200 to
R203), shifts (44_shift_rotate.md R270 to R282) and decimal arithmetic (45_bit_bcd.md R305 to R309). Operands are long
words of which the low `sz` bits count; results are zero-extended. -/

namespace Sys2Proof.Machine

/-- The conditions (10_state.md R36). -/
def Ccr.holds (c : Ccr) : Cond → Bool
  | .t => true
  | .f => false
  | .hi => !c.c && !c.z
  | .ls => c.c || c.z
  | .cc => !c.c
  | .cs => c.c
  | .ne => !c.z
  | .eq => c.z
  | .vc => !c.v
  | .vs => c.v
  | .pl => !c.n
  | .mi => c.n
  | .ge => (c.n && c.v) || (!c.n && !c.v)
  | .lt => (c.n && !c.v) || (!c.n && c.v)
  | .gt => (c.n && c.v && !c.z) || (!c.n && !c.v && !c.z)
  | .le => c.z || (c.n && !c.v) || (!c.n && c.v)

/-- Bit `m` of an operand: its most significant bit (00_scope.md R9). -/
def Size.top (sz : Size) (v : Word) : Bool := v.getLsbD (sz.bits - 1)

/-- The low `sz` bits are zero (10_state.md R33). -/
def Size.zero (sz : Size) (v : Word) : Bool := sz.low v == 0#32

/-- A result and the flags N, Z, V, C it defines. -/
structure Arith where
  res : Word
  n : Bool
  z : Bool
  v : Bool
  c : Bool
  deriving DecidableEq, Repr

/-- `add(s, d, x, sz)`: source, destination, carry in (42_integer_arithmetic.md R201). -/
def addOf (sz : Size) (s d : Word) (x : Bool) : Arith :=
  let t := (sz.low s).toNat + (sz.low d).toNat + x.toNat
  let r := sz.low (BitVec.ofNat 32 t)
  { res := r
    n := Size.top sz r
    z := Size.zero sz r
    v := Size.top sz s == Size.top sz d && Size.top sz r != Size.top sz s
    c := decide (2 ^ sz.bits ≤ t) }

/-- `sub(s, d, x, sz)`: destination minus source minus borrow in (R202). -/
def subOf (sz : Size) (s d : Word) (x : Bool) : Arith :=
  let t : Int := ((sz.low d).toNat : Int) - ((sz.low s).toNat : Int) - (x.toNat : Int)
  let r := sz.low (BitVec.ofInt 32 t)
  { res := r
    n := Size.top sz r
    z := Size.zero sz r
    v := Size.top sz s != Size.top sz d && Size.top sz r != Size.top sz d
    c := decide (t < 0) }

/-- `flags_logic` (R200): X is kept. -/
def Ccr.logic (old : Ccr) (sz : Size) (r : Word) : Ccr :=
  { old with n := Size.top sz r, z := Size.zero sz r, v := false, c := false }

/-- All five flags from an addition or subtraction; X is set as C (R205, R210). -/
def Ccr.arith (a : Arith) : Ccr := { x := a.c, n := a.n, z := a.z, v := a.v, c := a.c }

/-- As `Ccr.arith`, but Z is cleared by a nonzero result and else kept (R209, R214, R220). -/
def Ccr.arithX (old : Ccr) (a : Arith) : Ccr := { Ccr.arith a with z := old.z && a.z }

/-- The flags of a comparison: X is kept (R215). -/
def Ccr.compare (old : Ccr) (a : Arith) : Ccr := { Ccr.arith a with x := old.x }

/-- The flags written by an action. -/
def putCcr (f : Ccr → Ccr) : M Unit := modify fun s => s.setCcr (f s.ccr)

/-! ## Shifts and rotates (44_shift_rotate.md) -/

/-- The eight shifts and rotates. -/
inductive ShiftOp where
  | asr | asl | lsr | lsl | roxr | roxl | ror | rol
  deriving DecidableEq, Repr

/-- What one step leaves: the operand, the bit shifted out, the new X. -/
structure ShiftStep where
  v : Word
  out : Bool
  x : Bool
  deriving DecidableEq, Repr

/-- The operand moved one place left, `b` entering bit 0. -/
def leftOne (sz : Size) (v : Word) (b : Bool) : Word := sz.low ((v <<< 1) ||| (BitVec.ofBool b).setWidth 32)

/-- The operand moved one place right, `b` entering bit `m`. -/
def rightOne (sz : Size) (v : Word) (b : Bool) : Word :=
  (sz.low v >>> 1) ||| ((BitVec.ofBool b).setWidth 32 <<< (sz.bits - 1))

/-- `step(v, X)` of each instruction (R271 to R278). -/
def ShiftOp.step (sz : Size) (v : Word) (x : Bool) : ShiftOp → ShiftStep
  | .asl => { v := leftOne sz v false, out := Size.top sz v, x := Size.top sz v }
  | .lsl => { v := leftOne sz v false, out := Size.top sz v, x := Size.top sz v }
  | .asr => { v := rightOne sz v (Size.top sz v), out := v.getLsbD 0, x := v.getLsbD 0 }
  | .lsr => { v := rightOne sz v false, out := v.getLsbD 0, x := v.getLsbD 0 }
  | .rol => { v := leftOne sz v (Size.top sz v), out := Size.top sz v, x := x }
  | .ror => { v := rightOne sz v (v.getLsbD 0), out := v.getLsbD 0, x := x }
  | .roxl => { v := leftOne sz v x, out := Size.top sz v, x := Size.top sz v }
  | .roxr => { v := rightOne sz v x, out := v.getLsbD 0, x := v.getLsbD 0 }

/-- The state of the shift loop of R280: `v`, `X'`, `C'`, and whether bit `m` has changed. -/
structure ShiftAcc where
  v : Word
  x : Bool
  c : Bool
  moved : Bool
  deriving DecidableEq, Repr

/-- `r` steps (R280). -/
def ShiftOp.loop (op : ShiftOp) (sz : Size) : Nat → ShiftAcc → ShiftAcc
  | 0, a => a
  | r + 1, a =>
    let t := op.step sz a.v a.x
    op.loop sz r { v := t.v, x := t.x, c := t.out, moved := a.moved || Size.top sz t.v != Size.top sz a.v }

/-- C after a count of zero: X for the rotates through X, else 0 (R280). -/
def ShiftOp.carryIn (x : Bool) : ShiftOp → Bool
  | .roxl | .roxr => x
  | .asr | .asl | .lsr | .lsl | .ror | .rol => false

/-- ASL is the one with V (R271). -/
def ShiftOp.hasV : ShiftOp → Bool
  | .asl => true
  | .asr | .lsr | .lsl | .roxr | .roxl | .ror | .rol => false

/-- `shift(d, r, sz)`: the result and the flags (R280). -/
def ShiftOp.apply (op : ShiftOp) (sz : Size) (r : Nat) (d : Word) (old : Ccr) : Word × Ccr :=
  let a := op.loop sz r { v := sz.low d, x := old.x, c := op.carryIn old.x, moved := false }
  (a.v, { x := a.x, n := Size.top sz a.v, z := Size.zero sz a.v, v := op.hasV && a.moved, c := a.c })

/-! ## Decimal arithmetic (45_bit_bcd.md) -/

/-- Both digits of a byte are 0 to 9 (R305). -/
def bcdValid (b : Byte) : Bool := decide ((b.extractLsb' 4 4).toNat ≤ 9) && decide ((b.extractLsb' 0 4).toNat ≤ 9)

/-- `dec` (R305). -/
def bcdToNat (b : Byte) : Nat := 10 * (b.extractLsb' 4 4).toNat + (b.extractLsb' 0 4).toNat

/-- `bcd` (R305). -/
def natToBcd (k : Nat) : Byte := (BitVec.ofNat 4 (k / 10) ++ BitVec.ofNat 4 (k % 10) : BitVec 8)

/-- A decimal result: the byte and the decimal carry or borrow. -/
structure Decimal where
  res : Byte
  c : Bool
  deriving DecidableEq, Repr

/-- Decimal addition of valid operands (R306). -/
def bcdAdd (s d : Byte) (x : Bool) : Decimal :=
  let t := bcdToNat s + bcdToNat d + x.toNat
  { res := natToBcd (t % 100), c := decide (99 < t) }

/-- Decimal subtraction of valid operands, destination minus source (R307, R308). -/
def bcdSub (s d : Byte) (x : Bool) : Decimal :=
  let t := 100 + bcdToNat d - bcdToNat s - x.toNat
  { res := natToBcd (t % 100), c := decide (t < 100) }

/-- The byte and the flags of a decimal operation. On valid operands: X = C, Z sticky, N and V free (R306). On others
the byte, X, C and Z are free as well (R309; log 18, log 19). -/
def decimal (valid : Bool) (r : Decimal) (old : Ccr) : M (Byte × Ccr) := do
  let n ← drawBit
  let v ← drawBit
  if valid then return (r.res, { x := r.c, n := n, z := old.z && r.res == 0#8, v := v, c := r.c })
  else
    let res ← drawByte
    let x ← drawBit
    let z ← drawBit
    let c ← drawBit
    return (res, { x := x, n := n, z := z, v := v, c := c })

end Sys2Proof.Machine
end

