-- ==== Sys2Proof/Machine/Operands.lean ====
section
/-! DEFINITION. Effective addresses: `resolve`, `read` and `write` of 40_addressing_modes.md R154, with every mode of R131
to R153. The extension words are decoded already (Decode.lean), so `ip` is an argument. -/

namespace Sys2Proof.Machine

/-- A location (R154). -/
inductive Loc where
  | dreg (n : RegNum)
  | areg (n : RegNum)
  /-- `program`: the access is a program reference, read only (R158). -/
  | mem (addr : Word) (program : Bool)
  | imm (v : Word)
  deriving DecidableEq, Repr

/-- `inc(n, sz)`: bytes move A7 by two (R134). -/
def incOf (n : RegNum) (sz : Size) : Word := if n == 7 && sz == .b then 2#32 else BitVec.ofNat 32 sz.bytes

/-- `x[i]`: D0 to D7, then A0 to A7 (00_scope.md R11). -/
def State.getX (s : State) (i : Nat) : Word := if i < 8 then s.getD (Fin.ofNat 8 i) else s.getA (Fin.ofNat 8 (i - 8))

/-- `x[i]` written. -/
def State.setX (s : State) (i : Nat) (v : Word) : State :=
  if i < 8 then s.setD (Fin.ofNat 8 i) v else s.setA (Fin.ofNat 8 (i - 8)) v

/-- `index(w)` (R152); without scaling the scale is 1 (R160). -/
def State.indexValue (s : State) (x : IndexSpec) : Word :=
  let r := if x.isAddr then s.getA x.reg else s.getD x.reg
  let v := if x.long then r else Size.sext .w r
  if s.cfg.cpu.hasFullExt then v <<< x.scale.toNat else v

/-- A displacement, sign-extended; null is 0 (R150, R153). -/
def displValue : Displ → Word
  | .null => 0#32
  | .word d => d.signExtend 32
  | .long d => d

/-- The base of a full extension word: 0 if suppressed (R153). -/
def FullExt.base (e : FullExt) (b : Word) : Word := if e.baseSuppress then 0#32 else b

/-- The index operand of a full extension word: 0 if suppressed (R153). -/
def State.fullIndex (s : State) (e : FullExt) : Word := if e.indexSuppress then 0#32 else s.indexValue e.index

/-- The address of a full extension word over base `b` (R138 to R140, R143 to R145, R153); the pointer of an indirect mode
is a data reference for An, a program reference for PC. -/
def fullAddress (program : Bool) (b : Word) (e : FullExt) : M Word := do
  let s ← get
  let bd := displValue e.bd
  let idx := s.fullIndex e
  let base := FullExt.base e b
  match e.indirect with
  | .none => return base + bd + idx
  | .pre od => do
    let p ← memRead (s.fc program) .l (base + bd + idx)
    return p + displValue od
  | .post od => do
    let p ← memRead (s.fc program) .l (base + bd)
    return p + idx + displValue od

/-- `resolve` (R154) for an operand of size `sz` whose extension words begin at `ip`. -/
def resolve (ip : Word) (sz : Size) : Ea → M Loc
  | .dn n => return .dreg n
  | .an n => return .areg n
  | .ind n => return .mem ((← get).getA n) false
  | .postInc n => do
    let a := (← get).getA n
    modify fun s => s.setA n (a + incOf n sz)
    return .mem a false
  | .preDec n => do
    let a := (← get).getA n - incOf n sz
    modify fun s => s.setA n a
    return .mem a false
  | .disp n d => return .mem ((← get).getA n + d.signExtend 32) false
  | .index n x d => do
    let s ← get
    return .mem (s.getA n + d.signExtend 32 + s.indexValue x) false
  | .full n e => do
    let a ← fullAddress false ((← get).getA n) e
    return .mem a false
  | .absShort a => return .mem (a.signExtend 32) false
  | .absLong a => return .mem a false
  | .pcDisp d => return .mem (ip + d.signExtend 32) true
  | .pcIndex x d => return .mem (ip + d.signExtend 32 + (← get).indexValue x) true
  | .pcFull e => do
    let a ← fullAddress true ip e
    return .mem a true
  | .imm v => return .imm v

/-- `read` (R154). A byte of an address register is no operand (10_state.md R23; log 27). -/
def readLoc (sz : Size) : Loc → M Word
  | .dreg n => return sz.low ((← get).getD n)
  | .areg n => do
    if sz == .b then raise .illegal
    return sz.low ((← get).getA n)
  | .mem a program => do
    memRead ((← get).fc program) sz a
  | .imm v => return sz.low v

/-- `write` (R154). Only alterable operands other than address registers (R158; log 27). -/
def writeLoc (sz : Size) (v : Word) : Loc → M Unit
  | .dreg n => modify fun s => s.setDPart sz n v
  | .mem a false => do
    memWrite ((← get).fc false) sz a v
  | .mem _ true | .areg _ | .imm _ => raise .illegal

/-- The address of a location in memory. -/
def Loc.isMem : Loc → Bool
  | .mem _ _ => true
  | .dreg _ | .areg _ | .imm _ => false

/-- MC68000 and MC68008 read a memory destination of CLR, Scc and MOVE from SR before they write it (20_memory.md R71). -/
def readBefore (sz : Size) (loc : Loc) : M Unit := do
  if (← get).cfg.cpu.readsBeforeWrite && loc.isMem then
    let _ ← readLoc sz loc

/-- Resolve an operand whose extension words begin `k` words after the operation word. -/
def resolveAt (k : Nat) (sz : Size) (ea : Ea) : M Loc := do
  resolve ((← get).ipAt k) sz ea

/-- Resolve and read a source operand. -/
def readEa (k : Nat) (sz : Size) (ea : Ea) : M Word := do
  readLoc sz (← resolveAt k sz ea)

/-- The address of a control operand (R154); others are no operand (log 27). -/
def controlAddress (k : Nat) (ea : Ea) : M Word := do
  if ea.kind.isControl then
    match ← resolveAt k .l ea with
    | .mem a _ => return a
    | .dreg _ | .areg _ | .imm _ => raise .illegal
  else raise .illegal

/-- Read, modify, write: the operand is resolved once (R154). -/
def modifyEa (k : Nat) (sz : Size) (ea : Ea) (f : Word → Ccr → Word × Ccr) : M Unit := do
  let loc ← resolveAt k sz ea
  let d ← readLoc sz loc
  let r := f d (← get).ccr
  writeLoc sz r.1 loc
  putCcr fun _ => r.2

/-- `<ea> op Dn → Dn` (R154): the low `sz` bits of the register are replaced. -/
def modifyReg (k : Nat) (sz : Size) (r : RegNum) (ea : Ea) (f : Word → Word → Ccr → Word × Ccr) : M Unit := do
  let v ← readEa k sz ea
  let s ← get
  let res := f v (sz.low (s.getD r)) s.ccr
  modify fun s => s.setDPart sz r res.1
  putCcr fun _ => res.2

/-- `<ea> op Dn → Dn` or `Dn op <ea> → <ea>` by the direction; `f` takes source, destination and the flags
(42_integer_arithmetic.md R205). -/
def dirOp (sz : Size) (r : RegNum) (dir : Dir) (ea : Ea) (f : Word → Word → Ccr → Word × Ccr) : M Unit := do
  match dir with
  | .toReg => modifyReg 1 sz r ea f
  | .toEa => do
    let v := sz.low ((← get).getD r)
    modifyEa 1 sz ea (f v)

/-- The location of one operand of ADDX, SUBX, ABCD and SBCD: a data register or, if `mem`, a predecrement address
(42_integer_arithmetic.md R209). -/
def pairLoc (sz : Size) (mem : Bool) (n : RegNum) : M Loc :=
  if mem then resolveAt 1 sz (.preDec n) else return .dreg n

/-- The target of a branch: `pc + 2 + disp` (46_program_control.md R321, R335). -/
def branchTarget (s : State) : BranchDisp → Word
  | .short d => s.pc + 2#32 + d.signExtend 32
  | .word d => s.pc + 2#32 + d.signExtend 32
  | .long d => s.pc + 2#32 + d

/-- A transfer of control. -/
def jump (target : Word) : M Unit := modify fun s => { s with pc := target }

end Sys2Proof.Machine
end

