-- ==== Sys2Proof/Machine/Arithmetic.lean ====
section
/-! DEFINITION. Integer arithmetic (42_integer_arithmetic.md R200 to R231). -/

namespace Sys2Proof.Machine

/-- `add` with all five flags, as a function of source and destination (R201, R205). -/
def addOp (sz : Size) (s d : Word) (_ : Ccr) : Word × Ccr :=
  let t := addOf sz s d false
  (t.res, Ccr.arith t)

/-- `sub` with all five flags (R202, R210). -/
def subOp (sz : Size) (s d : Word) (_ : Ccr) : Word × Ccr :=
  let t := subOf sz s d false
  (t.res, Ccr.arith t)

/-- Compare: the flags of `sub`, X kept (R215). -/
def compare (sz : Size) (s d : Word) : M Unit := putCcr fun old => old.compare (subOf sz s d false)

/-- The value of a quick immediate: 0 stands for 8 (R208). -/
def quick (q : BitVec 3) : Word := if q == 0#3 then 8#32 else q.setWidth 32

/-- ADDQ and SUBQ: on an address register all 32 bits and no flags (R208). -/
def quickOp (sz : Size) (ea : Ea) (onAddr : Word → Word) (f : Word → Ccr → Word × Ccr) : M Unit :=
  match ea with
  | .an n => do
    if sz == .b then raise .illegal
    modify fun s => s.setA n (onAddr (s.getA n))
  | _ => modifyEa 1 sz ea f

/-- ADDX and SUBX: X and sticky Z; the flags are written after the result (R209). -/
def extendOp (sz : Size) (x : RegNum) (mem : Bool) (y : RegNum) (op : Word → Word → Bool → Arith) : M Unit := do
  let src ← pairLoc sz mem y
  let v ← readLoc sz src
  let dst ← pairLoc sz mem x
  let d ← readLoc sz dst
  let old := (← get).ccr
  let t := op v d old.x
  writeLoc sz t.res dst
  putCcr fun _ => Ccr.arithX old t

/-! ## Addition -/

/-- ADD (R205). -/
def execAdd (r : RegNum) (sz : Size) (dir : Dir) (ea : Ea) : State → Host.Outcome State Fault Refusal :=
  runInstr do
    dirOp sz r dir ea (addOp sz)
    advance (Instr.add r sz dir ea).words

/-- ADDA (R206): the source is read, then added to all 32 bits; no flags. -/
def execAdda (r : RegNum) (long : Bool) (ea : Ea) : State → Host.Outcome State Fault Refusal :=
  runInstr do
    let v ← readEa 1 (Size.ofLong long) ea
    modify fun s => s.setA r (s.getA r + Size.sext (Size.ofLong long) v)
    advance (Instr.adda r long ea).words

/-- ADDI (R207). -/
def execAddi (sz : Size) (v : Word) (ea : Ea) : State → Host.Outcome State Fault Refusal :=
  runInstr do
    modifyEa (1 + sz.immLength) sz ea (fun d ccr => addOp sz v d ccr)
    advance (Instr.addi sz v ea).words

/-- ADDQ (R208). -/
def execAddq (q : BitVec 3) (sz : Size) (ea : Ea) : State → Host.Outcome State Fault Refusal :=
  runInstr do
    quickOp sz ea (fun a => a + quick q) (addOp sz (quick q))
    advance (Instr.addq q sz ea).words

/-- ADDX (R209). -/
def execAddx (rx : RegNum) (sz : Size) (mem : Bool) (ry : RegNum) : State → Host.Outcome State Fault Refusal :=
  runInstr do
    extendOp sz rx mem ry (addOf sz)
    advance (Instr.addx rx sz mem ry).words

/-! ## Subtraction -/

/-- SUB (R210). -/
def execSub (r : RegNum) (sz : Size) (dir : Dir) (ea : Ea) : State → Host.Outcome State Fault Refusal :=
  runInstr do
    dirOp sz r dir ea (subOp sz)
    advance (Instr.sub r sz dir ea).words

/-- SUBA (R211). -/
def execSuba (r : RegNum) (long : Bool) (ea : Ea) : State → Host.Outcome State Fault Refusal :=
  runInstr do
    let v ← readEa 1 (Size.ofLong long) ea
    modify fun s => s.setA r (s.getA r - Size.sext (Size.ofLong long) v)
    advance (Instr.suba r long ea).words

/-- SUBI (R212). -/
def execSubi (sz : Size) (v : Word) (ea : Ea) : State → Host.Outcome State Fault Refusal :=
  runInstr do
    modifyEa (1 + sz.immLength) sz ea (fun d ccr => subOp sz v d ccr)
    advance (Instr.subi sz v ea).words

/-- SUBQ (R213). -/
def execSubq (q : BitVec 3) (sz : Size) (ea : Ea) : State → Host.Outcome State Fault Refusal :=
  runInstr do
    quickOp sz ea (fun a => a - quick q) (subOp sz (quick q))
    advance (Instr.subq q sz ea).words

/-- SUBX (R214). -/
def execSubx (rx : RegNum) (sz : Size) (mem : Bool) (ry : RegNum) : State → Host.Outcome State Fault Refusal :=
  runInstr do
    extendOp sz rx mem ry (subOf sz)
    advance (Instr.subx rx sz mem ry).words

/-! ## Comparison -/

/-- CMP (R215). -/
def execCmp (r : RegNum) (sz : Size) (ea : Ea) : State → Host.Outcome State Fault Refusal :=
  runInstr do
    let v ← readEa 1 sz ea
    compare sz v ((← get).getD r)
    advance (Instr.cmp r sz ea).words

/-- CMPA (R216): always a 32-bit comparison. -/
def execCmpa (r : RegNum) (long : Bool) (ea : Ea) : State → Host.Outcome State Fault Refusal :=
  runInstr do
    let v ← readEa 1 (Size.ofLong long) ea
    compare .l (Size.sext (Size.ofLong long) v) ((← get).getA r)
    advance (Instr.cmpa r long ea).words

/-- CMPI (R217). -/
def execCmpi (sz : Size) (v : Word) (ea : Ea) : State → Host.Outcome State Fault Refusal :=
  runInstr do
    let d ← readEa (1 + sz.immLength) sz ea
    compare sz v d
    advance (Instr.cmpi sz v ea).words

/-- CMPM (R218): `(Ay)+` first, then `(Ax)+`. -/
def execCmpm (ax : RegNum) (sz : Size) (ay : RegNum) : State → Host.Outcome State Fault Refusal :=
  runInstr do
    let v ← readEa 1 sz (.postInc ay)
    let d ← readEa 1 sz (.postInc ax)
    compare sz v d
    advance (Instr.cmpm ax sz ay).words

/-! ## Negate, clear, test, extend -/

/-- NEG (R219, R203). -/
def execNeg (sz : Size) (ea : Ea) : State → Host.Outcome State Fault Refusal :=
  runInstr do
    modifyEa 1 sz ea (fun d ccr => subOp sz d 0#32 ccr)
    advance (Instr.neg sz ea).words

/-- NEGX (R220): borrow in X, sticky Z. -/
def execNegx (sz : Size) (ea : Ea) : State → Host.Outcome State Fault Refusal :=
  runInstr do
    modifyEa 1 sz ea (fun d old => let t := subOf sz d 0#32 old.x; (t.res, Ccr.arithX old t))
    advance (Instr.negx sz ea).words

/-- CLR (R228): MC68000 and MC68008 read the memory destination first. -/
def execClr (sz : Size) (ea : Ea) : State → Host.Outcome State Fault Refusal :=
  runInstr do
    let loc ← resolveAt 1 sz ea
    readBefore sz loc
    writeLoc sz 0#32 loc
    putCcr fun old => old.logic sz 0#32
    advance (Instr.clr sz ea).words

/-- TST (R221): nothing is written. -/
def execTst (sz : Size) (ea : Ea) : State → Host.Outcome State Fault Refusal :=
  runInstr do
    let v ← readEa 1 sz ea
    putCcr fun old => old.logic sz v
    advance (Instr.tst sz ea).words

/-- EXT.W (R222): byte to word; bits 31–16 are unchanged. -/
def execExtW (r : RegNum) : State → Host.Outcome State Fault Refusal :=
  runInstr do
    let v := Size.sext .b ((← get).getD r)
    modify fun s => s.setDPart .w r v
    putCcr fun old => old.logic .w v
    advance (Instr.extW r).words

/-- EXT.L (R222): word to long. -/
def execExtL (r : RegNum) : State → Host.Outcome State Fault Refusal :=
  runInstr do
    let v := Size.sext .w ((← get).getD r)
    modify fun s => s.setD r v
    putCcr fun old => old.logic .l v
    advance (Instr.extL r).words

/-! ## Multiply and divide -/

/-- The low word as an unsigned number (R10). -/
def unsignedLow (v : Word) : Nat := (v.extractLsb' 0 16).toNat

/-- The low word as a signed number (R10). -/
def signedLow (v : Word) : Int := (v.extractLsb' 0 16).toInt

/-- A multiplication: the product replaces the whole register; V and C are 0 (R223). -/
def multiply (r : RegNum) (ea : Ea) (product : Word → Word → Word) : M Unit := do
  let v ← readEa 1 .w ea
  let p := product v ((← get).getD r)
  modify fun s => s.setD r p
  putCcr fun old => old.logic .l p

/-- MULU (R223). -/
def execMulu (r : RegNum) (ea : Ea) : State → Host.Outcome State Fault Refusal :=
  runInstr do
    multiply r ea (fun s d => BitVec.ofNat 32 (unsignedLow s * unsignedLow d))
    advance (Instr.mulu r ea).words

/-- MULS (R223). -/
def execMuls (r : RegNum) (ea : Ea) : State → Host.Outcome State Fault Refusal :=
  runInstr do
    multiply r ea (fun s d => BitVec.ofInt 32 (signedLow s * signedLow d))
    advance (Instr.muls r ea).words

/-- Quotient and remainder as integers, and whether the quotient overflows (R224). -/
structure Quotient where
  q : Int
  rem : Int
  overflow : Bool
  deriving DecidableEq, Repr

/-- DIVU on a nonzero divisor (R224). -/
def divUnsigned (s d : Word) : Quotient :=
  let q := d.toNat / unsignedLow s
  { q := q, rem := (d.toNat % unsignedLow s : Nat), overflow := decide (0xFFFF < q) }

/-- DIVS on a nonzero divisor: the quotient rounds toward zero, the remainder has the dividend's sign (R224). -/
def divSigned (s d : Word) : Quotient :=
  let q := Int.tdiv d.toInt (signedLow s)
  { q := q, rem := d.toInt - q * signedLow s, overflow := decide (q < -32768) || decide (32767 < q) }

/-- Division (R224). By zero: C is 0, N, Z and V are free, `pc` moves on, and ZeroDivide is raised. On overflow: V is 1, C is 0, N and Z
are free, the register is unchanged. Log 19. -/
def divide (r : RegNum) (ea : Ea) (n : Nat) (op : Word → Word → Quotient) : M Unit := do
  let v ← readEa 1 .w ea
  let d := (← get).getD r
  if unsignedLow v = 0 then
    let fn ← drawBit
    let fz ← drawBit
    let fv ← drawBit
    putCcr fun old => { x := old.x, n := fn, z := fz, v := fv, c := false }
    let op := (← get).pc
    advance n
    raise (.zeroDivide op)
  else
    let t := op v d
    if t.overflow then
      let fn ← drawBit
      let fz ← drawBit
      putCcr fun old => { x := old.x, n := fn, z := fz, v := true, c := false }
    else
      let q := BitVec.ofInt 16 t.q
      modify fun s => s.setD r (BitVec.ofInt 16 t.rem ++ q : BitVec 32)
      putCcr fun old => old.logic .w (q.setWidth 32)

/-- DIVU (R224). -/
def execDivu (r : RegNum) (ea : Ea) : State → Host.Outcome State Fault Refusal :=
  runInstr do
    divide r ea (Instr.divu r ea).words divUnsigned
    advance (Instr.divu r ea).words

/-- DIVS (R224). -/
def execDivs (r : RegNum) (ea : Ea) : State → Host.Outcome State Fault Refusal :=
  runInstr do
    divide r ea (Instr.divs r ea).words divSigned
    advance (Instr.divs r ea).words

end Sys2Proof.Machine
end

