-- ==== Sys2Proof/Machine/BitBcd.lean ====
section
/-! DEFINITION. Bit manipulation and decimal arithmetic (45_bit_bcd.md R300 to R311). -/

namespace Sys2Proof.Machine

/-- What a bit instruction does to the operand after the test (R300). -/
inductive BitOp where
  | test | change | clear | set
  deriving DecidableEq, Repr

/-- `f(v, b)` (R300). -/
def BitOp.apply (v : Word) (b : Nat) : BitOp → Word
  | .test => v
  | .change => v ^^^ (1#32 <<< b)
  | .clear => v &&& ~~~(1#32 <<< b)
  | .set => v ||| (1#32 <<< b)

/-- The common frame (R300): a data register is a long operand, bit number modulo 32; another operand is a byte, modulo
8. BTST writes nothing. `k` is where the operand's extension words begin, `n` the bit number. -/
def bitOp (op : BitOp) (k : Nat) (n : Nat) (ea : Ea) : M Unit := do
  let sz : Size := if ea.kind == .dn then .l else .b
  let b := n % sz.bits
  let loc ← resolveAt k sz ea
  let v ← readLoc sz loc
  if op != .test then writeLoc sz (op.apply v b) loc
  putCcr fun old => { old with z := !v.getLsbD b }

/-- BTST, bit number in a data register (R301). -/
def execBtstDyn (n : RegNum) (ea : Ea) : State → Host.Outcome State Fault Refusal :=
  runInstr do
    bitOp .test 1 ((← get).getD n).toNat ea
    advance (Instr.btstDyn n ea).words

/-- BTST, bit number in an extension word (R301). -/
def execBtstImm (bit : Byte) (ea : Ea) : State → Host.Outcome State Fault Refusal :=
  runInstr do
    bitOp .test 2 bit.toNat ea
    advance (Instr.btstImm bit ea).words

/-- BCHG, bit number in a data register (R302). -/
def execBchgDyn (n : RegNum) (ea : Ea) : State → Host.Outcome State Fault Refusal :=
  runInstr do
    bitOp .change 1 ((← get).getD n).toNat ea
    advance (Instr.bchgDyn n ea).words

/-- BCHG, bit number in an extension word (R302). -/
def execBchgImm (bit : Byte) (ea : Ea) : State → Host.Outcome State Fault Refusal :=
  runInstr do
    bitOp .change 2 bit.toNat ea
    advance (Instr.bchgImm bit ea).words

/-- BCLR, bit number in a data register (R303). -/
def execBclrDyn (n : RegNum) (ea : Ea) : State → Host.Outcome State Fault Refusal :=
  runInstr do
    bitOp .clear 1 ((← get).getD n).toNat ea
    advance (Instr.bclrDyn n ea).words

/-- BCLR, bit number in an extension word (R303). -/
def execBclrImm (bit : Byte) (ea : Ea) : State → Host.Outcome State Fault Refusal :=
  runInstr do
    bitOp .clear 2 bit.toNat ea
    advance (Instr.bclrImm bit ea).words

/-- BSET, bit number in a data register (R304). -/
def execBsetDyn (n : RegNum) (ea : Ea) : State → Host.Outcome State Fault Refusal :=
  runInstr do
    bitOp .set 1 ((← get).getD n).toNat ea
    advance (Instr.bsetDyn n ea).words

/-- BSET, bit number in an extension word (R304). -/
def execBsetImm (bit : Byte) (ea : Ea) : State → Host.Outcome State Fault Refusal :=
  runInstr do
    bitOp .set 2 bit.toNat ea
    advance (Instr.bsetImm bit ea).words

/-- The low byte of an operand. -/
def byteOf (v : Word) : Byte := v.extractLsb' 0 8

/-- ABCD and SBCD: source and destination as in R310, then the decimal operation; the flags are written after the result
(R306). -/
def decimalOp (rx : RegNum) (mem : Bool) (ry : RegNum) (op : Byte → Byte → Bool → Decimal) : M Unit := do
  let src ← pairLoc .b mem ry
  let v ← readLoc .b src
  let dst ← pairLoc .b mem rx
  let d ← readLoc .b dst
  let old := (← get).ccr
  let t ← decimal (bcdValid (byteOf v) && bcdValid (byteOf d)) (op (byteOf v) (byteOf d) old.x) old
  writeLoc .b (t.1.setWidth 32) dst
  putCcr fun _ => t.2

/-- ABCD (R306). -/
def execAbcd (rx : RegNum) (mem : Bool) (ry : RegNum) : State → Host.Outcome State Fault Refusal :=
  runInstr do
    decimalOp rx mem ry bcdAdd
    advance (Instr.abcd rx mem ry).words

/-- SBCD (R307). -/
def execSbcd (rx : RegNum) (mem : Bool) (ry : RegNum) : State → Host.Outcome State Fault Refusal :=
  runInstr do
    decimalOp rx mem ry bcdSub
    advance (Instr.sbcd rx mem ry).words

/-- NBCD (R308): zero minus the operand minus X. -/
def execNbcd (ea : Ea) : State → Host.Outcome State Fault Refusal :=
  runInstr do
    let loc ← resolveAt 1 .b ea
    let d ← readLoc .b loc
    let old := (← get).ccr
    let t ← decimal (bcdValid (byteOf d)) (bcdSub (byteOf d) 0#8 old.x) old
    writeLoc .b (t.1.setWidth 32) loc
    putCcr fun _ => t.2
    advance (Instr.nbcd ea).words

end Sys2Proof.Machine
end

