-- ==== Sys2Proof/Machine/Control.lean ====
section
/-! DEFINITION. Program control (46_program_control.md R320 to R336). -/

namespace Sys2Proof.Machine

/-- Bcc (R321): not taken, `pc` advances past all the instruction's words. -/
def execBcc (c : Cond) (d : BranchDisp) : State → Host.Outcome State Fault Refusal :=
  runInstr do
    let s ← get
    if s.ccr.holds c then jump (branchTarget s d) else advance (Instr.bcc c d).words

/-- BRA (R322). -/
def execBra (d : BranchDisp) : State → Host.Outcome State Fault Refusal :=
  runInstr do
    jump (branchTarget (← get) d)

/-- BSR (R323): the return address is the next instruction's. -/
def execBsr (d : BranchDisp) : State → Host.Outcome State Fault Refusal :=
  runInstr do
    let s ← get
    push .l (s.ipAt (Instr.bsr d).words)
    jump (branchTarget s d)

/-- DBcc (R324): the low word of the counter counts. -/
def execDbcc (c : Cond) (r : RegNum) (d : Word16) : State → Host.Outcome State Fault Refusal :=
  runInstr do
    let s ← get
    if s.ccr.holds c then advance (Instr.dbcc c r d).words
    else
      let n := (s.getD r).extractLsb' 0 16 - 1#16
      modify fun s => s.setDPart .w r (n.setWidth 32)
      if n == 0xFFFF#16 then advance (Instr.dbcc c r d).words else jump (branchTarget s (.word d))

/-- JMP (R325): the effective address is the new `pc`. -/
def execJmp (ea : Ea) : State → Host.Outcome State Fault Refusal :=
  runInstr do
    jump (← controlAddress 1 ea)

/-- JSR (R326): the effective address is computed before the stack pointer moves. -/
def execJsr (ea : Ea) : State → Host.Outcome State Fault Refusal :=
  runInstr do
    let target ← controlAddress 1 ea
    push .l ((← get).ipAt (Instr.jsr ea).words)
    jump target

/-- RTS (R327). -/
def execRts : State → Host.Outcome State Fault Refusal :=
  runInstr do
    jump (← pull .l)

/-- RTR (R328): the CCR is written after both reads; the system byte is unchanged. -/
def execRtr : State → Host.Outcome State Fault Refusal :=
  runInstr do
    let w ← pull .w
    let t ← pull .l
    putCcr fun _ => Ccr.ofWord (w.extractLsb' 0 16)
    jump t

/-- NOP (R329). -/
def execNop : State → Host.Outcome State Fault Refusal :=
  runInstr do
    advance Instr.nop.words

/-- Scc (R333): MC68000 and MC68008 read the memory destination first. -/
def execScc (c : Cond) (ea : Ea) : State → Host.Outcome State Fault Refusal :=
  runInstr do
    let loc ← resolveAt 1 .b ea
    readBefore .b loc
    writeLoc .b (if (← get).ccr.holds c then 0xFF#32 else 0#32) loc
    advance (Instr.scc c ea).words

/-! ## Transfers of control -/

/-- The rule of the instruction, run in this state, ends in a transfer of control, be it to the next instruction's own address
(R321 to R328; RTE: 47_system_control.md R375). A DBcc counts on while the low word of its counter is not 0 (R324). -/
def State.transfers (s : State) : Instr → Bool
  | .bra _ | .bsr _ | .jmp _ | .jsr _ | .rts | .rtr | .rte => true
  | .bcc c _ => s.ccr.holds c
  | .dbcc c r _ => !s.ccr.holds c && (s.getD r).extractLsb' 0 16 != 0#16
  | _ => false

end Sys2Proof.Machine
end

