-- ==== Sys2Proof/Machine/DataMovement.lean ====
section
/-! DEFINITION. Data movement: MOVE, MOVEA, LEA, MOVEQ, EXG, PEA, LINK, UNLK, MOVEM, MOVEP (41_data_movement.md R170 to
R186). -/

namespace Sys2Proof.Machine

/-! ## MOVE and MOVEA -/

/-- MOVE of size `sz` (R171): the source is resolved and read before the destination is resolved. -/
def moveBody (sz : Size) (src dst : Ea) : M Unit := do
  let v ← readEa 1 sz src
  let loc ← resolveAt (1 + src.length sz) sz dst
  writeLoc sz v loc
  putCcr fun old => old.logic sz v

/-- MOVE.B (R171). -/
def execMoveB (src dst : Ea) : State → Host.Outcome State Fault Refusal :=
  runInstr do
    moveBody .b src dst
    advance (Instr.moveB src dst).words

/-- MOVE.W (R171). -/
def execMoveW (src dst : Ea) : State → Host.Outcome State Fault Refusal :=
  runInstr do
    moveBody .w src dst
    advance (Instr.moveW src dst).words

/-- MOVE.L (R171). -/
def execMoveL (src dst : Ea) : State → Host.Outcome State Fault Refusal :=
  runInstr do
    moveBody .l src dst
    advance (Instr.moveL src dst).words

/-- MOVEA.W (R172): the source is sign-extended; no flags. -/
def execMoveaW (src : Ea) (r : RegNum) : State → Host.Outcome State Fault Refusal :=
  runInstr do
    let v ← readEa 1 .w src
    modify fun s => s.setA r (Size.sext .w v)
    advance (Instr.moveaW src r).words

/-- MOVEA.L (R172). -/
def execMoveaL (src : Ea) (r : RegNum) : State → Host.Outcome State Fault Refusal :=
  runInstr do
    let v ← readEa 1 .l src
    modify fun s => s.setA r v
    advance (Instr.moveaL src r).words

/-! ## LEA, PEA, MOVEQ, EXG -/

/-- LEA (R173). -/
def execLea (r : RegNum) (ea : Ea) : State → Host.Outcome State Fault Refusal :=
  runInstr do
    let a ← controlAddress 1 ea
    modify fun s => s.setA r a
    advance (Instr.lea r ea).words

/-- PEA (R176): the address is computed before the stack pointer moves. -/
def execPea (ea : Ea) : State → Host.Outcome State Fault Refusal :=
  runInstr do
    let a ← controlAddress 1 ea
    push .l a
    advance (Instr.pea ea).words

/-- MOVEQ (R174). -/
def execMoveq (r : RegNum) (v : Byte) : State → Host.Outcome State Fault Refusal :=
  runInstr do
    modify fun s => s.setD r (v.signExtend 32)
    putCcr fun old => old.logic .l (v.signExtend 32)
    advance (Instr.moveq r v).words

/-- EXG Dx,Dy (R175). -/
def execExgDD (rx ry : RegNum) : State → Host.Outcome State Fault Refusal :=
  runInstr do
    modify fun s => (s.setD rx (s.getD ry)).setD ry (s.getD rx)
    advance (Instr.exgDD rx ry).words

/-- EXG Ax,Ay (R175). -/
def execExgAA (rx ry : RegNum) : State → Host.Outcome State Fault Refusal :=
  runInstr do
    modify fun s => (s.setA rx (s.getA ry)).setA ry (s.getA rx)
    advance (Instr.exgAA rx ry).words

/-- EXG Dx,Ay (R175). -/
def execExgDA (rx ry : RegNum) : State → Host.Outcome State Fault Refusal :=
  runInstr do
    modify fun s => (s.setD rx (s.getA ry)).setA ry (s.getD rx)
    advance (Instr.exgDA rx ry).words

/-! ## LINK and UNLK -/

/-- LINK (R177), in the order of the operation line: An is read after the stack pointer has moved. -/
def execLink (r : RegNum) (d : Word16) : State → Host.Outcome State Fault Refusal :=
  runInstr do
    modify fun s => s.setSp (s.sp - 4#32)
    let s ← get
    memWrite (s.fc false) .l s.sp (s.getA r)
    modify fun s => s.setA r s.sp
    modify fun s => s.setSp (s.sp + d.signExtend 32)
    advance (Instr.link r d).words

/-- UNLK (R178), in the order of the operation line. -/
def execUnlk (r : RegNum) : State → Host.Outcome State Fault Refusal :=
  runInstr do
    modify fun s => s.setSp (s.getA r)
    let s ← get
    let v ← memRead (s.fc false) .l s.sp
    modify fun s => s.setA r v
    modify fun s => s.setSp (s.sp + 4#32)
    advance (Instr.unlk r).words

/-! ## MOVEM (R183) -/

/-- The set bits of a mask, rising. -/
def maskBits (mask : Word16) : List Nat := (List.range 16).filter fun i => mask.getLsbD i

/-- Registers to memory at rising addresses from `a`. -/
def movemUp (sz : Size) (a : Word) : List Nat → M Unit
  | [] => return
  | i :: rest => do
    let s ← get
    memWrite (s.fc false) sz a (sz.low (s.getX i))
    movemUp sz (a + BitVec.ofNat 32 sz.bytes) rest

/-- What MOVEM with predecrement stores for `x[j]`: the base register's initial value, or on later members that value
less `n` (R183). -/
def State.movemValue (s : State) (sz : Size) (base : RegNum) (j : Nat) : Word :=
  if j = 8 + base.val && !s.cfg.cpu.movemStoresInitial then s.getX j - BitVec.ofNat 32 sz.bytes else s.getX j

/-- Registers to memory at falling addresses below `a`; mask bit `i` selects `x[15 - i]`. The base register `base` keeps
its initial value meanwhile. Answers the last address. The stores go to descending addresses in R183's order, A7 first;
92_eei_decisions.md D9 says 'MOVEM: ascending addresses' of the whole family. R183 is followed: DESIGN CHOICE, log 35. -/
def movemDown (sz : Size) (base : RegNum) (a : Word) : List Nat → M Word
  | [] => return a
  | i :: rest => do
    let s ← get
    let a' := a - BitVec.ofNat 32 sz.bytes
    memWrite (s.fc false) sz a' (sz.low (s.movemValue sz base (15 - i)))
    movemDown sz base a' rest

/-- Memory to registers at rising addresses from `a`; words are sign-extended. `skip` is the postincrement base, whose
loaded value is overwritten at the end. Answers the address after the last. -/
def movemLoad (program : Bool) (sz : Size) (skip : Option Nat) (a : Word) : List Nat → M Word
  | [] => return a
  | i :: rest => do
    let s ← get
    let v ← memRead (s.fc program) sz a
    if skip != some i then modify fun s => s.setX i (Size.sext sz v)
    movemLoad program sz skip (a + BitVec.ofNat 32 sz.bytes) rest

/-- MOVEM, registers to memory (R183). -/
def execMovemToMem (long : Bool) (mask : Word16) (ea : Ea) : State → Host.Outcome State Fault Refusal :=
  runInstr do
    let sz := Size.ofLong long
    match ea with
    | .preDec n => do
      let a ← movemDown sz n ((← get).getA n) (maskBits mask)
      modify fun s => s.setA n a
    | _ => do
      let a ← controlAddress 2 ea
      movemUp sz a (maskBits mask)
    advance (Instr.movemToMem long mask ea).words

/-- The word beyond the last one that some members read in a MOVEM to registers, where the platform gives it a consequence
(R183, 93_implementation_defined.md U19). Log 28. -/
def movemExtra (program : Bool) (a : Word) : M Unit := do
  let s ← get
  if s.cfg.movemReadsExtra then
    let _ ← memRead (s.fc program) .w a

/-- MOVEM, memory to registers (R183). A faulting postincrement form leaves its base register unchanged. -/
def execMovemToReg (long : Bool) (mask : Word16) (ea : Ea) : State → Host.Outcome State Fault Refusal :=
  runInstr do
    let sz := Size.ofLong long
    match ea with
    | .postInc n => do
      let a ← movemLoad false sz (some (8 + n.val)) ((← get).getA n) (maskBits mask)
      movemExtra false a
      modify fun s => s.setA n a
    | _ => do
      let a ← controlAddress 2 ea
      let program := ea.kind == .pcDisp || ea.kind == .pcIndex
      let b ← movemLoad program sz none a (maskBits mask)
      movemExtra program b
    advance (Instr.movemToReg long mask ea).words

/-! ## MOVEP (R185) -/

/-- Bytes to every second address from `a`. -/
def movepStore (a : Word) : List Byte → M Unit
  | [] => return
  | b :: rest => do
    memWrite ((← get).fc false) .b a (b.setWidth 32)
    movepStore (a + 2#32) rest

/-- Bytes from every second address from `a` into bits `8 (k - 1)` and down of a data register, high-order first. -/
def movepLoad (r : RegNum) (a : Word) : Nat → M Unit
  | 0 => return
  | k + 1 => do
    let v ← memRead ((← get).fc false) .b a
    modify fun s => s.setD r ((s.getD r &&& ~~~(0xFF#32 <<< (8 * k))) ||| (v <<< (8 * k)))
    movepLoad r (a + 2#32) k

/-- MOVEP (R185). -/
def execMovep (dreg : RegNum) (toMem long : Bool) (areg : RegNum) (d : Word16) : State → Host.Outcome State Fault Refusal :=
  runInstr do
    let s ← get
    let a := s.getA areg + d.signExtend 32
    if toMem then movepStore a (bytesOf (Size.ofLong long) (s.getD dreg))
    else movepLoad dreg a (Size.ofLong long).bytes
    advance (Instr.movep dreg toMem long areg d).words

end Sys2Proof.Machine
end

