-- ==== Sys2Proof/Machine/Logical.lean ====
section
/-! DEFINITION. Logical instructions (43_logical.md R250 to R258). -/

namespace Sys2Proof.Machine

/-- A logical operation with `flags_logic` (R200, R251). -/
def logicOp (sz : Size) (f : Word → Word → Word) (s d : Word) (old : Ccr) : Word × Ccr :=
  (sz.low (f s d), old.logic sz (f s d))

/-- AND (R251). -/
def execAnd (r : RegNum) (sz : Size) (dir : Dir) (ea : Ea) : State → Host.Outcome State Fault Refusal :=
  runInstr do
    dirOp sz r dir ea (logicOp sz (· &&& ·))
    advance (Instr.and r sz dir ea).words

/-- OR (R253). -/
def execOr (r : RegNum) (sz : Size) (dir : Dir) (ea : Ea) : State → Host.Outcome State Fault Refusal :=
  runInstr do
    dirOp sz r dir ea (logicOp sz (· ||| ·))
    advance (Instr.or r sz dir ea).words

/-- EOR (R255): register to operand only. -/
def execEor (r : RegNum) (sz : Size) (ea : Ea) : State → Host.Outcome State Fault Refusal :=
  runInstr do
    dirOp sz r .toEa ea (logicOp sz (· ^^^ ·))
    advance (Instr.eor r sz ea).words

/-- ANDI (R252). -/
def execAndi (sz : Size) (v : Word) (ea : Ea) : State → Host.Outcome State Fault Refusal :=
  runInstr do
    modifyEa (1 + sz.immLength) sz ea (logicOp sz (· &&& ·) v)
    advance (Instr.andi sz v ea).words

/-- ORI (R254). -/
def execOri (sz : Size) (v : Word) (ea : Ea) : State → Host.Outcome State Fault Refusal :=
  runInstr do
    modifyEa (1 + sz.immLength) sz ea (logicOp sz (· ||| ·) v)
    advance (Instr.ori sz v ea).words

/-- EORI (R256). -/
def execEori (sz : Size) (v : Word) (ea : Ea) : State → Host.Outcome State Fault Refusal :=
  runInstr do
    modifyEa (1 + sz.immLength) sz ea (logicOp sz (· ^^^ ·) v)
    advance (Instr.eori sz v ea).words

/-- NOT (R257). -/
def execNot (sz : Size) (ea : Ea) : State → Host.Outcome State Fault Refusal :=
  runInstr do
    modifyEa 1 sz ea (fun d old => logicOp sz (fun _ d => ~~~d) 0#32 d old)
    advance (Instr.not sz ea).words

end Sys2Proof.Machine
end

