-- ==== Sys2Proof/Machine/Shift.lean ====
section
/-! DEFINITION. Shifts, rotates and SWAP (44_shift_rotate.md R270 to R282). -/

namespace Sys2Proof.Machine

/-- The count of a register form: 0 in the field stands for 8; a register counts modulo 64 (R280). -/
def State.shiftCount (s : State) : ShiftCount → Nat
  | .imm c => if c == 0#3 then 8 else c.toNat
  | .reg n => (s.getD n).toNat % 64

/-- The register form (R280): the count is read before the shift. -/
def shiftReg (op : ShiftOp) (cnt : ShiftCount) (sz : Size) (r : RegNum) : M Unit := do
  let s ← get
  let res := op.apply sz (s.shiftCount cnt) (s.getD r) s.ccr
  modify fun s => s.setDPart sz r res.1
  putCcr fun _ => res.2

/-- The memory form (R280): a word, one place. -/
def shiftMem (op : ShiftOp) (ea : Ea) : M Unit := modifyEa 1 .w ea (fun d old => op.apply .w 1 d old)

/-- ASR, memory form (R272). -/
def execAsrMem (ea : Ea) : State → Host.Outcome State Fault Refusal :=
  runInstr do
    shiftMem .asr ea
    advance (Instr.asrMem ea).words

/-- ASR, register form (R272). -/
def execAsrReg (cnt : ShiftCount) (sz : Size) (r : RegNum) : State → Host.Outcome State Fault Refusal :=
  runInstr do
    shiftReg .asr cnt sz r
    advance (Instr.asrReg cnt sz r).words

/-- ASL, memory form (R271). -/
def execAslMem (ea : Ea) : State → Host.Outcome State Fault Refusal :=
  runInstr do
    shiftMem .asl ea
    advance (Instr.aslMem ea).words

/-- ASL, register form (R271). -/
def execAslReg (cnt : ShiftCount) (sz : Size) (r : RegNum) : State → Host.Outcome State Fault Refusal :=
  runInstr do
    shiftReg .asl cnt sz r
    advance (Instr.aslReg cnt sz r).words

/-- LSR, memory form (R274). -/
def execLsrMem (ea : Ea) : State → Host.Outcome State Fault Refusal :=
  runInstr do
    shiftMem .lsr ea
    advance (Instr.lsrMem ea).words

/-- LSR, register form (R274). -/
def execLsrReg (cnt : ShiftCount) (sz : Size) (r : RegNum) : State → Host.Outcome State Fault Refusal :=
  runInstr do
    shiftReg .lsr cnt sz r
    advance (Instr.lsrReg cnt sz r).words

/-- LSL, memory form (R273). -/
def execLslMem (ea : Ea) : State → Host.Outcome State Fault Refusal :=
  runInstr do
    shiftMem .lsl ea
    advance (Instr.lslMem ea).words

/-- LSL, register form (R273). -/
def execLslReg (cnt : ShiftCount) (sz : Size) (r : RegNum) : State → Host.Outcome State Fault Refusal :=
  runInstr do
    shiftReg .lsl cnt sz r
    advance (Instr.lslReg cnt sz r).words

/-- ROXR, memory form (R278). -/
def execRoxrMem (ea : Ea) : State → Host.Outcome State Fault Refusal :=
  runInstr do
    shiftMem .roxr ea
    advance (Instr.roxrMem ea).words

/-- ROXR, register form (R278). -/
def execRoxrReg (cnt : ShiftCount) (sz : Size) (r : RegNum) : State → Host.Outcome State Fault Refusal :=
  runInstr do
    shiftReg .roxr cnt sz r
    advance (Instr.roxrReg cnt sz r).words

/-- ROXL, memory form (R277). -/
def execRoxlMem (ea : Ea) : State → Host.Outcome State Fault Refusal :=
  runInstr do
    shiftMem .roxl ea
    advance (Instr.roxlMem ea).words

/-- ROXL, register form (R277). -/
def execRoxlReg (cnt : ShiftCount) (sz : Size) (r : RegNum) : State → Host.Outcome State Fault Refusal :=
  runInstr do
    shiftReg .roxl cnt sz r
    advance (Instr.roxlReg cnt sz r).words

/-- ROR, memory form (R276). -/
def execRorMem (ea : Ea) : State → Host.Outcome State Fault Refusal :=
  runInstr do
    shiftMem .ror ea
    advance (Instr.rorMem ea).words

/-- ROR, register form (R276). -/
def execRorReg (cnt : ShiftCount) (sz : Size) (r : RegNum) : State → Host.Outcome State Fault Refusal :=
  runInstr do
    shiftReg .ror cnt sz r
    advance (Instr.rorReg cnt sz r).words

/-- ROL, memory form (R275). -/
def execRolMem (ea : Ea) : State → Host.Outcome State Fault Refusal :=
  runInstr do
    shiftMem .rol ea
    advance (Instr.rolMem ea).words

/-- ROL, register form (R275). -/
def execRolReg (cnt : ShiftCount) (sz : Size) (r : RegNum) : State → Host.Outcome State Fault Refusal :=
  runInstr do
    shiftReg .rol cnt sz r
    advance (Instr.rolReg cnt sz r).words

/-- SWAP (R279). -/
def execSwap (r : RegNum) : State → Host.Outcome State Fault Refusal :=
  runInstr do
    let v := (← get).getD r
    let w : Word := v.extractLsb' 0 16 ++ v.extractLsb' 16 16
    modify fun s => s.setD r w
    putCcr fun old => old.logic .l w
    advance (Instr.swap r).words

end Sys2Proof.Machine
end

