-- ==== Sys2Proof/Machine/System.lean ====
section
/-! DEFINITION. System control (47_system_control.md R360 to R382). -/

namespace Sys2Proof.Machine

/-! ## Immediate operations on CCR and SR -/

/-- An operation on the five flags from bits 4–0 of a byte (R361). -/
def ccrImm (f : Bool → Bool → Bool) (v : Byte) : M Unit :=
  putCcr fun old =>
    { x := f old.x (v.getLsbD 4)
      n := f old.n (v.getLsbD 3)
      z := f old.z (v.getLsbD 2)
      v := f old.v (v.getLsbD 1)
      c := f old.c (v.getLsbD 0) }

/-- ANDI to CCR (R361). -/
def execAndiCcr (v : Byte) : State → Host.Outcome State Fault Refusal :=
  runInstr do
    ccrImm (· && ·) v
    advance (Instr.andiCcr v).words

/-- ORI to CCR (R362). -/
def execOriCcr (v : Byte) : State → Host.Outcome State Fault Refusal :=
  runInstr do
    ccrImm (· || ·) v
    advance (Instr.oriCcr v).words

/-- EORI to CCR (R363). -/
def execEoriCcr (v : Byte) : State → Host.Outcome State Fault Refusal :=
  runInstr do
    ccrImm (· ^^ ·) v
    advance (Instr.eoriCcr v).words

/-- ANDI to SR (R364): privileged. -/
def execAndiSr (v : Word16) : State → Host.Outcome State Fault Refusal :=
  runInstr do
    requireSuper
    modify fun s => s.setSr (s.sr &&& v)
    advance (Instr.andiSr v).words

/-- ORI to SR (R365): privileged. -/
def execOriSr (v : Word16) : State → Host.Outcome State Fault Refusal :=
  runInstr do
    requireSuper
    modify fun s => s.setSr (s.sr ||| v)
    advance (Instr.oriSr v).words

/-- EORI to SR (R366): privileged. -/
def execEoriSr (v : Word16) : State → Host.Outcome State Fault Refusal :=
  runInstr do
    requireSuper
    modify fun s => s.setSr (s.sr ^^^ v)
    advance (Instr.eoriSr v).words

/-! ## Moves to and from CCR, SR and USP -/

/-- MOVE to CCR (R367): the upper byte of the word is ignored. -/
def execMoveToCcr (ea : Ea) : State → Host.Outcome State Fault Refusal :=
  runInstr do
    let v ← readEa 1 .w ea
    putCcr fun _ => Ccr.ofWord (v.extractLsb' 0 16)
    advance (Instr.moveToCcr ea).words

/-- MOVE from SR (R368): privileged from the MC68010 on; before it a memory destination is read first. -/
def execMoveFromSr (ea : Ea) : State → Host.Outcome State Fault Refusal :=
  runInstr do
    if (← get).cfg.cpu.moveFromSrPrivileged then requireSuper
    let loc ← resolveAt 1 .w ea
    readBefore .w loc
    writeLoc .w ((← get).sr.setWidth 32) loc
    advance (Instr.moveFromSr ea).words

/-- MOVE to SR (R369): privileged. -/
def execMoveToSr (ea : Ea) : State → Host.Outcome State Fault Refusal :=
  runInstr do
    requireSuper
    let v ← readEa 1 .w ea
    modify fun s => s.setSr (v.extractLsb' 0 16)
    advance (Instr.moveToSr ea).words

/-- MOVE USP (R370): privileged. -/
def execMoveUsp (toAn : Bool) (r : RegNum) : State → Host.Outcome State Fault Refusal :=
  runInstr do
    requireSuper
    modify fun s => if toAn then s.setA r s.usp else { s with usp := s.getA r }
    advance (Instr.moveUsp toAn r).words

/-! ## Trap-generating instructions -/

/-- CHK (R371), word, or long on MC68020 and later: Z, V and C are free in every case, N is free when there is no trap;
`pc` moves on before a trap is raised. Log 19, log 34. -/
def execChk (r : RegNum) (b : ChkBound) : State → Host.Outcome State Fault Refusal :=
  runInstr do
    let bound ← readEa 1 b.size b.ea
    let s ← get
    let v := (b.size.sext (s.getD r)).toInt
    let low := decide (v < 0)
    let high := decide ((b.size.sext bound).toInt < v)
    advance (Instr.chk r b).words
    let fz ← drawBit
    let fv ← drawBit
    let fc ← drawBit
    let fn ← drawBit
    putCcr fun old => { x := old.x, n := if low then true else if high then false else fn, z := fz, v := fv, c := fc }
    if low || high then raise (.chk s.pc)

/-- TRAP (R372): `pc` moves on, then the trap is raised. -/
def execTrap (v : BitVec 4) : State → Host.Outcome State Fault Refusal :=
  runInstr do
    let op := (← get).pc
    advance (Instr.trap v).words
    raise (.trap v op)

/-- TRAPV (R373): `pc` moves on, then the trap is raised if V is set. -/
def execTrapv : State → Host.Outcome State Fault Refusal :=
  runInstr do
    let s ← get
    advance Instr.trapv.words
    if s.ccr.v then raise (.trapV s.pc)

/-- ILLEGAL (R374). -/
def execIllegal : State → Host.Outcome State Fault Refusal :=
  runInstr do
    raise .illegal

/-! ## RTE, RESET, STOP -/

/-- RTE (R375): privileged. -/
def execRte : State → Host.Outcome State Fault Refusal :=
  runInstr do
    requireSuper
    returnFromException

/-- RESET (R376): privileged; a pulse to the external devices, nothing else changes. Log 20. -/
def execReset : State → Host.Outcome State Fault Refusal :=
  runInstr do
    requireSuper
    modify fun s => { s with resetPulses := s.resetPulses + 1 }
    advance Instr.reset.words

/-- STOP (R378): privileged. An immediate with S clear stops MC68000/MC68008 in user mode; later members take a privilege
violation. -/
def execStop (v : Word16) : State → Host.Outcome State Fault Refusal :=
  runInstr do
    requireSuper
    if !(← get).cfg.cpu.isBaseline && !v.getLsbD 13 then raise .privilege
    modify fun s => { s.setSr v with run := .stopped }
    advance (Instr.stop v).words

/-! ## TAS -/

/-- TAS (R380): the flags describe the byte before bit 7 is set. The flags are written before the store, as the rule
has them. -/
def execTas (ea : Ea) : State → Host.Outcome State Fault Refusal :=
  runInstr do
    let loc ← resolveAt 1 .b ea
    let v ← readLoc .b loc
    putCcr fun old => old.logic .b v
    writeLoc .b (v ||| 0x80#32) loc
    advance (Instr.tas ea).words

end Sys2Proof.Machine
end

