-- ==== Sys2Proof/Machine/Dispatch.lean ====
section
/-! DEFINITION. The meaning of every instruction, by constructor. -/

namespace Sys2Proof.Machine

def exec (i : Instr) (s : State) : Host.Outcome State Fault Refusal :=
  match i with
  | .oriCcr v => Sys2Proof.Machine.execOriCcr v s
  | .oriSr v => Sys2Proof.Machine.execOriSr v s
  | .andiCcr v => Sys2Proof.Machine.execAndiCcr v s
  | .andiSr v => Sys2Proof.Machine.execAndiSr v s
  | .eoriCcr v => Sys2Proof.Machine.execEoriCcr v s
  | .eoriSr v => Sys2Proof.Machine.execEoriSr v s
  | .movep dreg toMem long areg d => Sys2Proof.Machine.execMovep dreg toMem long areg d s
  | .btstDyn n ea => Sys2Proof.Machine.execBtstDyn n ea s
  | .bchgDyn n ea => Sys2Proof.Machine.execBchgDyn n ea s
  | .bclrDyn n ea => Sys2Proof.Machine.execBclrDyn n ea s
  | .bsetDyn n ea => Sys2Proof.Machine.execBsetDyn n ea s
  | .btstImm bit ea => Sys2Proof.Machine.execBtstImm bit ea s
  | .bchgImm bit ea => Sys2Proof.Machine.execBchgImm bit ea s
  | .bclrImm bit ea => Sys2Proof.Machine.execBclrImm bit ea s
  | .bsetImm bit ea => Sys2Proof.Machine.execBsetImm bit ea s
  | .ori sz v ea => Sys2Proof.Machine.execOri sz v ea s
  | .andi sz v ea => Sys2Proof.Machine.execAndi sz v ea s
  | .subi sz v ea => Sys2Proof.Machine.execSubi sz v ea s
  | .addi sz v ea => Sys2Proof.Machine.execAddi sz v ea s
  | .eori sz v ea => Sys2Proof.Machine.execEori sz v ea s
  | .cmpi sz v ea => Sys2Proof.Machine.execCmpi sz v ea s
  | .moveaL src r => Sys2Proof.Machine.execMoveaL src r s
  | .moveaW src r => Sys2Proof.Machine.execMoveaW src r s
  | .moveB src dst => Sys2Proof.Machine.execMoveB src dst s
  | .moveL src dst => Sys2Proof.Machine.execMoveL src dst s
  | .moveW src dst => Sys2Proof.Machine.execMoveW src dst s
  | .illegal => Sys2Proof.Machine.execIllegal s
  | .reset => Sys2Proof.Machine.execReset s
  | .nop => Sys2Proof.Machine.execNop s
  | .rte => Sys2Proof.Machine.execRte s
  | .rts => Sys2Proof.Machine.execRts s
  | .trapv => Sys2Proof.Machine.execTrapv s
  | .rtr => Sys2Proof.Machine.execRtr s
  | .stop v => Sys2Proof.Machine.execStop v s
  | .trap v => Sys2Proof.Machine.execTrap v s
  | .link r d => Sys2Proof.Machine.execLink r d s
  | .unlk r => Sys2Proof.Machine.execUnlk r s
  | .moveUsp toAn r => Sys2Proof.Machine.execMoveUsp toAn r s
  | .jsr ea => Sys2Proof.Machine.execJsr ea s
  | .jmp ea => Sys2Proof.Machine.execJmp ea s
  | .swap r => Sys2Proof.Machine.execSwap r s
  | .extW r => Sys2Proof.Machine.execExtW r s
  | .extL r => Sys2Proof.Machine.execExtL r s
  | .moveFromSr ea => Sys2Proof.Machine.execMoveFromSr ea s
  | .moveToCcr ea => Sys2Proof.Machine.execMoveToCcr ea s
  | .moveToSr ea => Sys2Proof.Machine.execMoveToSr ea s
  | .nbcd ea => Sys2Proof.Machine.execNbcd ea s
  | .pea ea => Sys2Proof.Machine.execPea ea s
  | .tas ea => Sys2Proof.Machine.execTas ea s
  | .movemToMem long mask ea => Sys2Proof.Machine.execMovemToMem long mask ea s
  | .movemToReg long mask ea => Sys2Proof.Machine.execMovemToReg long mask ea s
  | .negx sz ea => Sys2Proof.Machine.execNegx sz ea s
  | .clr sz ea => Sys2Proof.Machine.execClr sz ea s
  | .neg sz ea => Sys2Proof.Machine.execNeg sz ea s
  | .not sz ea => Sys2Proof.Machine.execNot sz ea s
  | .tst sz ea => Sys2Proof.Machine.execTst sz ea s
  | .chk r ea => Sys2Proof.Machine.execChk r ea s
  | .lea r ea => Sys2Proof.Machine.execLea r ea s
  | .dbcc c r d => Sys2Proof.Machine.execDbcc c r d s
  | .scc c ea => Sys2Proof.Machine.execScc c ea s
  | .addq data sz ea => Sys2Proof.Machine.execAddq data sz ea s
  | .subq data sz ea => Sys2Proof.Machine.execSubq data sz ea s
  | .bra d => Sys2Proof.Machine.execBra d s
  | .bsr d => Sys2Proof.Machine.execBsr d s
  | .bcc c d => Sys2Proof.Machine.execBcc c d s
  | .moveq r v => Sys2Proof.Machine.execMoveq r v s
  | .divu r ea => Sys2Proof.Machine.execDivu r ea s
  | .divs r ea => Sys2Proof.Machine.execDivs r ea s
  | .sbcd rx mem ry => Sys2Proof.Machine.execSbcd rx mem ry s
  | .or r sz dir ea => Sys2Proof.Machine.execOr r sz dir ea s
  | .suba r long ea => Sys2Proof.Machine.execSuba r long ea s
  | .subx rx sz mem ry => Sys2Proof.Machine.execSubx rx sz mem ry s
  | .sub r sz dir ea => Sys2Proof.Machine.execSub r sz dir ea s
  | .cmpa r long ea => Sys2Proof.Machine.execCmpa r long ea s
  | .cmpm ax sz ay => Sys2Proof.Machine.execCmpm ax sz ay s
  | .cmp r sz ea => Sys2Proof.Machine.execCmp r sz ea s
  | .eor r sz ea => Sys2Proof.Machine.execEor r sz ea s
  | .mulu r ea => Sys2Proof.Machine.execMulu r ea s
  | .muls r ea => Sys2Proof.Machine.execMuls r ea s
  | .abcd rx mem ry => Sys2Proof.Machine.execAbcd rx mem ry s
  | .exgDD rx ry => Sys2Proof.Machine.execExgDD rx ry s
  | .exgAA rx ry => Sys2Proof.Machine.execExgAA rx ry s
  | .exgDA rx ry => Sys2Proof.Machine.execExgDA rx ry s
  | .and r sz dir ea => Sys2Proof.Machine.execAnd r sz dir ea s
  | .adda r long ea => Sys2Proof.Machine.execAdda r long ea s
  | .addx rx sz mem ry => Sys2Proof.Machine.execAddx rx sz mem ry s
  | .add r sz dir ea => Sys2Proof.Machine.execAdd r sz dir ea s
  | .asrMem ea => Sys2Proof.Machine.execAsrMem ea s
  | .aslMem ea => Sys2Proof.Machine.execAslMem ea s
  | .lsrMem ea => Sys2Proof.Machine.execLsrMem ea s
  | .lslMem ea => Sys2Proof.Machine.execLslMem ea s
  | .roxrMem ea => Sys2Proof.Machine.execRoxrMem ea s
  | .roxlMem ea => Sys2Proof.Machine.execRoxlMem ea s
  | .rorMem ea => Sys2Proof.Machine.execRorMem ea s
  | .rolMem ea => Sys2Proof.Machine.execRolMem ea s
  | .asrReg cnt sz r => Sys2Proof.Machine.execAsrReg cnt sz r s
  | .aslReg cnt sz r => Sys2Proof.Machine.execAslReg cnt sz r s
  | .lsrReg cnt sz r => Sys2Proof.Machine.execLsrReg cnt sz r s
  | .lslReg cnt sz r => Sys2Proof.Machine.execLslReg cnt sz r s
  | .roxrReg cnt sz r => Sys2Proof.Machine.execRoxrReg cnt sz r s
  | .roxlReg cnt sz r => Sys2Proof.Machine.execRoxlReg cnt sz r s
  | .rorReg cnt sz r => Sys2Proof.Machine.execRorReg cnt sz r s
  | .rolReg cnt sz r => Sys2Proof.Machine.execRolReg cnt sz r s

end Sys2Proof.Machine
end

