-- ==== Sys2Proof/Machine/Cycle.lean ====
section
/-! DEFINITION. The execution loop: fetching and decoding the next instruction, trace, interrupts, reset and the idle
states (70_reset_and_hazards.md R480 to R485, 60_exceptions.md R444 to R450). -/

namespace Sys2Proof.Machine

/-! ## Fetch and decode (00_scope.md R13) -/

/-- What a rejected operation word `op` does (30_encoding.md R118, R119). Log 15, log 22. -/
def rejected {α : Type} (op : Word16) : Reject → M α
  | .illegal => raise .illegal
  | .lineA => raise .lineA
  | .lineF => raise .lineF
  | .reservedExt => refuse .reservedExtension
  | .laterMember => refuse (.laterMember op)

/-- The rest of an instruction, its words fetched one by one from `ip`. A privileged instruction checks S before any
further fetch (47_system_control.md R377). -/
def fetchRest (op : Word16) (ip : Word) (d : Dec Instr) : M Instr :=
  match d with
  | .done i => return i
  | .need k => do
    let w ← fetch16 ip
    fetchRest op (ip + 2#32) (k w)
  | .privileged d => do
    requireSuper
    fetchRest op ip d
  | .reject r => rejected op r

/-- The instruction at `pc`. -/
def fetchInstr : M Instr := do
  let s ← get
  let op ← fetch16 s.pc
  fetchRest op (s.pc + 2#32) (decodeOp s.cfg.cpu op)

/-! ## One instruction -/

/-- The trace condition at the start of an instruction (60_exceptions.md R444; T0: 10_state.md R38, log 14). -/
def State.traceMode (s : State) : TraceMode :=
  if s.sys.getLsbD 7 then .all else if s.cfg.cpu.is020 && s.sys.getLsbD 6 then .flow else .off

/-- `settle` on a next state. -/
def settled : Host.Outcome State Fault Refusal → Host.Outcome State Fault Refusal
  | .next s => .next (settle s)
  | .fault f => .fault f
  | .refused r => .refused r

/-- The end of an instruction: its stores are seen after a transfer of control (`changed`); then trace, if the sampled
condition asks for it (60_exceptions.md R444; 70_reset_and_hazards.md R485). -/
def endInstr (changed : Bool) (s : State) : Host.Outcome State Fault Refusal :=
  let s' := { s with tracing := .off }
  let s' := if changed then settle s' else s'
  if s.tracing == .all || (s.tracing == .flow && changed) then takeException .trace s' else .next s'

/-- Run the end of an instruction on a next state. Control was transferred if the instruction's own rule does so (`taken`),
to whatever address, or if an exception left `pc` elsewhere than at `seq`, the address of the instruction after it. Log 14. -/
def afterExec (taken : Bool) (seq : Word) : Host.Outcome State Fault Refusal → Host.Outcome State Fault Refusal
  | .next s => endInstr (taken || s.pc != seq) s
  | .fault f => .fault f
  | .refused r => .refused r

/-- Run the end of an instruction whose fetch ended in an exception. -/
def afterRaise : Host.Outcome State Fault Refusal → Host.Outcome State Fault Refusal
  | .next s => endInstr true s
  | .fault f => .fault f
  | .refused r => .refused r

/-- One instruction (70_reset_and_hazards.md R483). -/
def runOne (s : State) : Host.Outcome State Fault Refusal :=
  match fetchInstr.run { s with tracing := s.traceMode } with
  | .ok i s' => afterExec (s'.transfers i) (s.ipAt i.words) (exec i s')
  | .error e s' => afterRaise (finish (.error e s'))

/-! ## The boundary between instructions (60_exceptions.md R450, R457; 70_reset_and_hazards.md R483). Log 7, 9, 10, 26 -/

/-- The vector the platform answers for level `l` (60_exceptions.md R449, R450). -/
def Ack.vectorFor (l : BitVec 3) : Ack → BitVec 8
  | .vector v => v
  | .auto => 24#8 + l.setWidth 8
  | .spurious => 24#8
  | .uninitialized => 15#8

/-- The pins after this boundary: the next sample, or the same as before when none is to come. -/
def State.nextPins (s : State) : Pins := s.inputs.headD s.pins

/-- An interrupt is taken: the level is above the mask, or has just risen to 7 (60_exceptions.md R450). -/
def State.interrupted (s : State) : Bool :=
  decide (s.mask < s.nextPins.ipl) || (s.nextPins.ipl == 7#3 && s.pins.ipl != 7#3)

/-- The state with its pins sampled. -/
def State.sampled (s : State) : State := { s with pins := s.nextPins, inputs := s.inputs.tail }

/-- A state in which the processor makes no step: it waits for the next sample, or is stuck if none is to come. -/
def idle (s : State) (f : Fault) : Host.Outcome State Fault Refusal :=
  if s.inputs.isEmpty then .fault f else .next s.sampled

/-- The run has ended by (a) or (b) of `HALT_CONVENTION` (70_reset_and_hazards.md R489). Its (c) is the stuck state
`Fault.stopped` of `idle`, its (d) is in taking an exception. For (b), R489 does not say what 'the instruction at `pc`' is
where a fetch there would fail or might see an old word: here the two bytes that memory holds at `pc` decide, also where `pc` is
odd or the platform does not admit the fetch. DESIGN CHOICE, log 32. -/
def State.ended (s : State) : Bool :=
  match s.cfg.halt with
  | .sentinel endAddr => s.pc == endAddr
  | .selfBranch => s.wordAt s.pc == 0x60FE#16
  | .stopped | .firstRaise => false

/-- One step of the machine (70_reset_and_hazards.md R483). The spec gives the halt input no place in that order (R490; 60_exceptions.md
R457): here it comes after reset and before an interrupt, so that a halt and an interrupt at one boundary halt the processor and the
interrupt is not taken. DESIGN CHOICE, log 36; reset before the halted test: log 9. -/
def cycle (s : State) : Host.Outcome State Fault Refusal :=
  let p := s.nextPins
  if s.ended then .fault .ended
  else if p.reset then settled (takeReset s.sampled)
  else if s.run == .halted then idle s .halted
  else if p.halt then .next { s.sampled with run := .halted }
  else if s.interrupted then takeException (.interrupt p.ipl (Ack.vectorFor p.ipl p.ack)) s.sampled
  else if s.run == .stopped then idle s .stopped
  else runOne s.sampled

/-! ## Placing an instruction (log 3) -/

/-- The state with bytes in memory from `a`. -/
def State.placeBytes (s : State) (a : Word) : List Byte → State
  | [] => s
  | b :: rest => State.placeBytes (s.setByte a b) (a + 1#32) rest

/-- The state with these words at `pc`, so that the next step fetches them: running, no pin active, nothing stale. -/
def State.placeWords (s : State) (ws : List Word16) : State :=
  { s.placeBytes s.pc (bytesOfWords ws) with run := .running, pins := Pins.quiet, inputs := [], stale := [] }

end Sys2Proof.Machine
end

