-- ==== Sys2Proof/Machine/Step.lean ====
section
/-! DEFINITION. One step of the machine, and the placing of an instruction where the step fetches it. -/

namespace Sys2Proof.Machine

/-- One step: an instruction, an exception entry, a reset, or an idle boundary (70_reset_and_hazards.md R483). -/
def step (s : State) : Host.Outcome State Fault Refusal := cycle s

/-- The state with the instruction whose bits are `w`, numbered as spec/opcode_table.json numbers them, at `pc`. Log 3. -/
def State.withFetchWord (s : State) (nbits w : Nat) : State := s.placeWords (tableWords nbits w)

end Sys2Proof.Machine
end

