-- ==== Sys2Proof/Safety.lean ====
section
/-! DEFINITION. What claims are stated in: the invariant, the states a run reaches, operands that can be read and written,
and what a store or an exception entry leaves unchanged. -/

namespace Sys2Proof

open Machine

/-! ## Runs -/

/-- What every step keeps: memory is canonical (log 2), and the unimplemented bits of SR read 0 (10_state.md R42). -/
def Machine.State.Inv (s : State) : Prop := s.mem.wf = true ∧ s.sr &&& s.cfg.cpu.srMask = s.sr

/-- The states a run of next states reaches. -/
inductive Reaches : State → State → Prop where
  | refl (s : State) : Reaches s s
  | tail {s t u : State} : Reaches s t → step t = .next u → Reaches s u

/-- A run from `s` never ends in a refusal: it stays inside what the model gives a meaning. -/
def Safe (s : State) : Prop := ∀ t, Reaches s t → ∀ r, step t ≠ .refused r

/-! ## Operands -/

/-- The operand `ea` of size `sz`, its extension words `k` words after the operation word, resolves to `loc` and leaves
`t` (40_addressing_modes.md R154). -/
def Resolves (s : State) (k : Nat) (sz : Size) (ea : Ea) (loc : Loc) (t : State) : Prop :=
  (resolveAt k sz ea).run s = .ok loc t

/-- An operand of ADDX, SUBX, ABCD and SBCD: the register `n`, or the predecrement address of `An`. -/
def PairResolves (s : State) (sz : Size) (mem : Bool) (n : RegNum) (loc : Loc) (t : State) : Prop :=
  (pairLoc sz mem n).run s = .ok loc t

/-- The control operand `ea` has the address `a` and leaves `t`. -/
def ControlResolves (s : State) (k : Nat) (ea : Ea) (a : Word) (t : State) : Prop :=
  (controlAddress k ea).run s = .ok a t

/-- A location can be read: in memory, the access is aligned as the member asks and the platform admits it. -/
def Readable (s : State) (sz : Size) : Loc → Prop
  | .dreg _ | .imm _ => True
  | .areg _ => sz ≠ .b
  | .mem a program => s.accessible (s.fc program) false sz a = true

/-- A location can be written. -/
def Writable (s : State) (sz : Size) : Loc → Prop
  | .dreg _ => True
  | .mem a false => s.accessible (s.fc false) true sz a = true
  | .mem _ true | .areg _ | .imm _ => False

/-- What a location holds, zero-extended (R154). -/
def valueOf (s : State) (sz : Size) : Loc → Word
  | .dreg n => sz.low (s.getD n)
  | .areg n => sz.low (s.getA n)
  | .mem a _ => s.valueAt sz a
  | .imm v => sz.low v

/-- Byte `j` of a value of size `sz`, counted from the lowest address (20_memory.md R61). -/
def byteOfValue (sz : Size) (v : Word) (j : Nat) : Byte := v.extractLsb' (8 * (sz.bytes - 1 - j)) 8

/-! ## What a change leaves alone -/

/-- All but the data registers, memory and the model's own record of the prefetch window. -/
structure SameControl (s t : State) : Prop where
  cfg : t.cfg = s.cfg
  a : t.a = s.a
  usp : t.usp = s.usp
  ssp : t.ssp = s.ssp
  msp : t.msp = s.msp
  pc : t.pc = s.pc
  sys : t.sys = s.sys
  ccr : t.ccr = s.ccr
  vbr : t.vbr = s.vbr
  run : t.run = s.run
  pins : t.pins = s.pins
  inputs : t.inputs = s.inputs
  resetPulses : t.resetPulses = s.resetPulses
  tracing : t.tracing = s.tracing
  draws : t.draws = s.draws

/-- Every byte of memory but the `n` bytes from `a` reads as before. -/
def BytesKept (s t : State) (a : Word) (n : Nat) : Prop :=
  ∀ x : Word, (∀ j < n, s.phys x ≠ s.phys (a + BitVec.ofNat 32 j)) → t.byteAt x = s.byteAt x

/-- `t` is `s` with the `sz` value `v` at `loc`, and nothing else changed: a data register keeps its upper bits, a memory
operand changes the bytes at its address only. -/
structure StoresOnly (sz : Size) (loc : Loc) (v : Word) (s t : State) : Prop where
  same : SameControl s t
  dregs : ∀ n, t.getD n = if loc = .dreg n then sz.merge (s.getD n) v else s.getD n
  inside : ∀ a p, loc = .mem a p → s.mem.wf = true → 2 ≤ s.cfg.addrBits →
    ∀ j < sz.bytes, t.byteAt (a + BitVec.ofNat 32 j) = byteOfValue sz v j
  outside : ∀ a p, loc = .mem a p → BytesKept s t a sz.bytes
  noMem : (∀ a p, loc ≠ .mem a p) → t.mem = s.mem

/-! ## Exceptions -/

/-- The state after step 1 of exception processing: supervisor mode (60_exceptions.md R440). -/
def Machine.State.entered (s : State) (sys : Byte) : State := { s with sys := sys }

/-- How many bytes the short frame takes: 6, or 8 with a format word (R440, R441). -/
def frameBytes (s : State) : Nat := if s.cfg.cpu.formatWord then 8 else 6

/-- Exceptions are processed (not terminal, 92_eei_decisions.md D6), the short frame of `e` can be pushed and its vector be
read: every access is aligned and admitted (R440). -/
def EntryReady (s : State) (e : Exc) : Prop :=
  let u := s.entered (e.newSys s.sys)
  let top := if s.cfg.cpu.formatWord then u.sp - 2#32 else u.sp
  s.cfg.halt ≠ .firstRaise ∧
  (s.cfg.cpu.formatWord = true → u.accessible .superData true .w (u.sp - 2#32) = true) ∧
  u.accessible .superData true .l (top - 4#32) = true ∧
  u.accessible .superData true .w (top - 6#32) = true ∧
  u.accessible (vectorSpace e.vector) false .l (u.vectorBase + (e.vector.setWidth 32 <<< 2)) = true

/-- What exception processing outside group 0 leaves (R440): the frame at the supervisor stack pointer, SR, pc, and all
else as before. -/
structure Entered (s : State) (e : Exc) (t : State) : Prop where
  sys : t.sys = e.newSys s.sys
  ccr : t.ccr = s.ccr
  run : t.run = .running
  pc : t.pc = t.longAt (s.vectorBase + (e.vector.setWidth 32 <<< 2))
  sp : t.sp = (s.entered (e.newSys s.sys)).sp - BitVec.ofNat 32 (frameBytes s)
  usp : t.usp = s.usp
  otherSp : if (s.entered (e.newSys s.sys)).onMaster then t.ssp = s.ssp else t.msp = s.msp
  d : t.d = s.d
  a : t.a = s.a
  vbr : t.vbr = s.vbr
  cfg : t.cfg = s.cfg
  pins : t.pins = s.pins
  inputs : t.inputs = s.inputs
  resetPulses : t.resetPulses = s.resetPulses
  draws : t.draws = s.draws
  tracing : t.tracing = if e.endsTrace then .off else s.tracing
  frameSr : s.mem.wf = true → 3 ≤ s.cfg.addrBits → t.wordAt t.sp = s.sr
  framePc : s.mem.wf = true → 3 ≤ s.cfg.addrBits → t.longAt (t.sp + 2#32) = e.stackedPc s
  frameFormat : s.mem.wf = true → 3 ≤ s.cfg.addrBits → s.cfg.cpu.formatWord = true →
    t.wordAt (t.sp + 6#32) = e.vector.setWidth 16 <<< 2
  bytes : BytesKept s t t.sp (frameBytes s)

/-- Exceptions are processed, the supervisor stack pointer of MC68000 and MC68008 can take the 14-byte frame of a bus or
address error, and the vector can be read (R443). -/
def Group0Ready (s : State) (bus : Bool) : Prop :=
  let u := s.entered (entrySys s.sys)
  s.cfg.halt ≠ .firstRaise ∧
  u.accessible .superData true .l (s.ssp - 4#32) = true ∧
  u.accessible .superData true .w (s.ssp - 6#32) = true ∧
  u.accessible .superData true .w (s.ssp - 8#32) = true ∧
  u.accessible .superData true .l (s.ssp - 12#32) = true ∧
  u.accessible .superData true .w (s.ssp - 14#32) = true ∧
  u.accessible .superData false .l (if bus then 8#32 else 12#32) = true

/-- What a bus or address error of the instruction at `op` leaves on MC68000 and MC68008 (R440, R443). The stacked PC, the instruction register word
and bits 15–5 of the first word are free. -/
structure Group0Entered (s : State) (f : AccessFault) (inException : Bool) (op : Word) (t : State) : Prop where
  sys : t.sys = entrySys s.sys
  ccr : t.ccr = s.ccr
  run : t.run = .running
  pc : t.pc = t.longAt (if f.bus then 8#32 else 12#32)
  ssp : t.ssp = s.ssp - 14#32
  usp : t.usp = s.usp
  msp : t.msp = s.msp
  d : t.d = s.d
  a : t.a = s.a
  vbr : t.vbr = s.vbr
  cfg : t.cfg = s.cfg
  pins : t.pins = s.pins
  inputs : t.inputs = s.inputs
  resetPulses : t.resetPulses = s.resetPulses
  tracing : t.tracing = .off
  functionCode : s.mem.wf = true → 4 ≤ s.cfg.addrBits → (t.wordAt t.ssp).extractLsb' 0 3 = f.fc.bits
  readWrite : s.mem.wf = true → 4 ≤ s.cfg.addrBits → (t.wordAt t.ssp).getLsbD 4 = !f.write
  notInstr : s.mem.wf = true → 4 ≤ s.cfg.addrBits → (t.wordAt t.ssp).getLsbD 3 = inException
  address : s.mem.wf = true → 4 ≤ s.cfg.addrBits → t.longAt (t.ssp + 2#32) = f.addr
  frameSr : s.mem.wf = true → 4 ≤ s.cfg.addrBits → t.wordAt (t.ssp + 8#32) = s.sr
  framePc : s.mem.wf = true → 4 ≤ s.cfg.addrBits →
    ∃ k : Nat, 2 ≤ k ∧ k ≤ 10 ∧ t.longAt (t.ssp + 10#32) = op + BitVec.ofNat 32 k
  bytes : BytesKept s t t.ssp 14

/-! ## The instruction at the program counter -/

/-- The `n` words from `a`. -/
def Machine.State.wordsAt (s : State) (a : Word) : Nat → List Word16
  | 0 => []
  | n + 1 => s.wordAt a :: Machine.State.wordsAt s (a + 2#32) n

/-- Every one of the `n` words from `a` can be fetched: even addresses that the platform admits as program references
(20_memory.md R67). -/
def Machine.State.fetchable (s : State) (a : Word) : Nat → Bool
  | 0 => true
  | n + 1 => !a.getLsbD 0 && s.verdict (s.fc true) false .w a == .granted && Machine.State.fetchable s (a + 2#32) n

/-- The privileged instructions of a member (47_system_control.md R377). -/
def privileged (cpu : Cpu) : Instr → Bool
  | .oriSr _ | .andiSr _ | .eoriSr _ | .moveToSr _ | .moveUsp _ _ | .rte | .reset | .stop _ => true
  | .moveFromSr _ => cpu.moveFromSrPrivileged
  | _ => false

end Sys2Proof
end

