-- ==== Sys2Proof/Certificates/Slice0/Obligations.lean ====
section
/-! DEFINITION. The statements for the provers. Words used below: an operand `Resolves` to a location; a location is
`Readable`, `Writable`, and holds `valueOf`; `StoresOnly` says what a store changes (Sys2Proof/Safety.lean). -/

open Sys2Proof Sys2Proof.Machine

/-! ## Encoding -/

/-- Words written out from the encodings of 30_encoding.md R104, R105 and of the instruction rules decode to their
instructions. -/
def Obligations.DecodeSpecWords : Prop :=
  decode .mc68000 [0xD041#16] = .done (.add 0 .w .toReg (.dn 1)) [] ∧
  decode .mc68000 [0x2318#16] = .done (.moveL (.postInc 0) (.preDec 1)) [] ∧
  decode .mc68000 [0x0603#16, 0x007F#16] = .done (.addi .b 0x7F#32 (.dn 3)) [] ∧
  decode .mc68000 [0x48E7#16, 0xC080#16] = .done (.movemToMem true 0xC080#16 (.preDec 7)) [] ∧
  decode .mc68000 [0x51C8#16, 0xFFFC#16] = .done (.dbcc .f 0 0xFFFC#16) [] ∧
  decode .mc68000 [0xE2A2#16] = .done (.asrReg (.reg 1) .l 2) [] ∧
  decode .mc68000 [0x4AFC#16] = .done .illegal [] ∧
  decode .mc68000 [0xA000#16] = .reject .lineA

/-- Decoding the words of a well-formed instruction gives the instruction back and leaves the words after it, for every
member, every instruction and every operand (30_encoding.md R92, R104, R105; 40_addressing_modes.md R149, R150, R156). -/
def Obligations.DecodeOfEncode : Prop :=
  ∀ (cpu : Cpu) (i : Instr) (rest : List Word16), i.wf cpu = true → decode cpu (encode i ++ rest) = .done i rest

/-- What the decoder accepts is a well-formed instruction of the member, and it consumes exactly the instruction's words
(30_encoding.md R91, R118; 40_addressing_modes.md R155). -/
def Obligations.DecodedIsWellFormed : Prop :=
  ∀ (cpu : Cpu) (ws rest : List Word16) (i : Instr),
    decode cpu ws = .done i rest → i.wf cpu = true ∧ ws.length = i.words + rest.length

/-! ## Conditions, flags, shifts, decimal arithmetic -/

/-- The sixteen conditions by their 4-bit encodings, and their mnemonics in that order (10_state.md R36). -/
def Obligations.ConditionTable : Prop :=
  [Cond.t, .f, .hi, .ls, .cc, .cs, .ne, .eq, .vc, .vs, .pl, .mi, .ge, .lt, .gt, .le].map condBits =
    (List.range 16).map (BitVec.ofNat 4) ∧
  ∀ f : Ccr,
    f.holds (condOf 0#4) = true ∧ f.holds (condOf 1#4) = false ∧
    f.holds (condOf 2#4) = (!f.c && !f.z) ∧ f.holds (condOf 3#4) = (f.c || f.z) ∧
    f.holds (condOf 4#4) = !f.c ∧ f.holds (condOf 5#4) = f.c ∧
    f.holds (condOf 6#4) = !f.z ∧ f.holds (condOf 7#4) = f.z ∧
    f.holds (condOf 8#4) = !f.v ∧ f.holds (condOf 9#4) = f.v ∧
    f.holds (condOf 10#4) = !f.n ∧ f.holds (condOf 11#4) = f.n ∧
    f.holds (condOf 12#4) = ((f.n && f.v) || (!f.n && !f.v)) ∧ f.holds (condOf 13#4) = ((f.n && !f.v) || (!f.n && f.v)) ∧
    f.holds (condOf 14#4) = ((f.n && f.v && !f.z) || (!f.n && !f.v && !f.z)) ∧
    f.holds (condOf 15#4) = (f.z || (f.n && !f.v) || (!f.n && f.v))

/-- `add(s, d, x, sz)` (42_integer_arithmetic.md R201): the sum modulo 2^sz, C the carry out, V the signed overflow, N and Z
of the result; and the two Boolean formulas that R201 says equal C and V (without carry in). -/
def Obligations.AdditionFlags : Prop :=
  ∀ (sz : Size) (s d : Word) (x : Bool),
    let a := addOf sz s d x
    let us := s.toNat % 2 ^ sz.bits
    let ud := d.toNat % 2 ^ sz.bits
    let sm := s.getLsbD (sz.bits - 1)
    let dm := d.getLsbD (sz.bits - 1)
    let rm := a.res.getLsbD (sz.bits - 1)
    a.res.toNat = (us + ud + x.toNat) % 2 ^ sz.bits ∧
    a.c = decide (2 ^ sz.bits ≤ us + ud + x.toNat) ∧
    a.v = (sm == dm && rm != sm) ∧
    a.n = rm ∧ a.z = (a.res == 0#32) ∧
    a.v = ((sm && dm && !rm) || (!sm && !dm && rm)) ∧
    a.c = ((sm && dm) || (!rm && dm) || (sm && !rm))

/-- `sub(s, d, x, sz)` (42_integer_arithmetic.md R202): the difference modulo 2^sz, C the borrow, V the signed overflow, N and
Z of the result; and the two Boolean formulas that R202 says equal C and V. -/
def Obligations.SubtractionFlags : Prop :=
  ∀ (sz : Size) (s d : Word) (x : Bool),
    let a := subOf sz s d x
    let us := s.toNat % 2 ^ sz.bits
    let ud := d.toNat % 2 ^ sz.bits
    let sm := s.getLsbD (sz.bits - 1)
    let dm := d.getLsbD (sz.bits - 1)
    let rm := a.res.getLsbD (sz.bits - 1)
    (a.res.toNat : Int) = ((ud : Int) - us - x.toNat) % 2 ^ sz.bits ∧
    a.c = decide (ud < us + x.toNat) ∧
    a.v = (sm != dm && rm != dm) ∧
    a.n = rm ∧ a.z = (a.res == 0#32) ∧
    a.v = ((!sm && dm && !rm) || (sm && !dm && rm)) ∧
    a.c = ((sm && !dm) || (rm && !dm) || (sm && rm))

/-- Negation is `sub(d, 0, x, sz)` (42_integer_arithmetic.md R203): V = Dm & Rm and C = Dm | Rm; without borrow V is set only
for the operand 100…0 and C for every nonzero operand. -/
def Obligations.NegationFlags : Prop :=
  ∀ (sz : Size) (d : Word) (x : Bool),
    let a := subOf sz d 0#32 x
    let dm := d.getLsbD (sz.bits - 1)
    let rm := a.res.getLsbD (sz.bits - 1)
    a.v = (dm && rm) ∧ a.c = (dm || rm) ∧
    (x = false → (a.v = true ↔ d.toNat % 2 ^ sz.bits = 2 ^ (sz.bits - 1)) ∧ (a.c = true ↔ d.toNat % 2 ^ sz.bits ≠ 0))

/-- `flags_logic(r, sz)` (42_integer_arithmetic.md R200): N is the most significant bit, Z whether the result is zero, V and C
are cleared, X is kept. -/
def Obligations.LogicFlags : Prop :=
  ∀ (old : Ccr) (sz : Size) (r : Word),
    old.logic sz r =
      { x := old.x, n := r.getLsbD (sz.bits - 1), z := decide (r.toNat % 2 ^ sz.bits = 0), v := false, c := false }

/-- The carry after a shift of one to 63 places, in closed form (44_shift_rotate.md R281): ASL, LSL `d[sz - r]` if `r <= sz`
else 0; ASR `d[min(r - 1, m)]`; LSR `d[r - 1]` if `r <= sz` else 0; ROL `d[(sz - r) mod sz]`, which is bit 0 of the result; ROR
`d[(r - 1) mod sz]`, which is bit m of the result; ROXL and ROXR bit `sz` of the rotated `sz + 1`-bit quantity, which is the
new X. -/
def Obligations.ShiftCarry : Prop :=
  ∀ (sz : Size) (r : Nat) (d : Word) (f : Ccr), 1 ≤ r → r ≤ 63 →
    let n := sz.bits
    let k := r % (n + 1)
    let t := f.x.toNat * 2 ^ n + d.toNat % 2 ^ n
    let out (op : ShiftOp) := (op.apply sz r d f).2
    let res (op : ShiftOp) := (op.apply sz r d f).1
    (out .asl).c = (if r ≤ n then d.getLsbD (n - r) else false) ∧ (out .asl).x = (out .asl).c ∧
    (out .lsl).c = (if r ≤ n then d.getLsbD (n - r) else false) ∧ (out .lsl).x = (out .lsl).c ∧
    (out .asr).c = d.getLsbD (min (r - 1) (n - 1)) ∧ (out .asr).x = (out .asr).c ∧
    (out .lsr).c = (if r ≤ n then d.getLsbD (r - 1) else false) ∧ (out .lsr).x = (out .lsr).c ∧
    (out .rol).c = d.getLsbD ((64 * n - r) % n) ∧ (out .rol).c = (res .rol).getLsbD 0 ∧
    (out .ror).c = d.getLsbD ((r - 1) % n) ∧ (out .ror).c = (res .ror).getLsbD (n - 1) ∧
    (out .roxl).c = (t * 2 ^ k + t / 2 ^ (n + 1 - k)).testBit n ∧ (out .roxl).x = (out .roxl).c ∧
    (out .roxr).c = (t / 2 ^ k + t * 2 ^ (n + 1 - k)).testBit n ∧ (out .roxr).x = (out .roxr).c

/-- The results of shifts and rotates in closed form, ROXL and ROXR as the low bits of X above the operand rotated by the
count modulo sz + 1, the V of ASL, and the flags after a count of zero (44_shift_rotate.md R271 to R278, R282). -/
def Obligations.ShiftResults : Prop :=
  ∀ (sz : Size) (r : Nat) (d : Word) (f : Ccr), r ≤ 63 →
    let n := sz.bits
    let u := d.toNat % 2 ^ n
    let k := r % n
    let x := f.x.toNat * 2 ^ n + u
    let j := r % (n + 1)
    let res (op : ShiftOp) := (op.apply sz r d f).1.toNat
    let out (op : ShiftOp) := (op.apply sz r d f).2
    res .asl = u * 2 ^ r % 2 ^ n ∧ res .lsl = u * 2 ^ r % 2 ^ n ∧ res .lsr = u / 2 ^ r ∧
    (∀ j < n, (res .asr).testBit j = d.getLsbD (min (j + r) (n - 1))) ∧
    res .rol = (u * 2 ^ k + u / 2 ^ (n - k)) % 2 ^ n ∧
    res .ror = (u / 2 ^ k + u * 2 ^ (n - k)) % 2 ^ n ∧
    res .roxl = (x * 2 ^ j + x / 2 ^ (n + 1 - j)) % 2 ^ (n + 1) % 2 ^ n ∧
    res .roxr = (x / 2 ^ j + x * 2 ^ (n + 1 - j)) % 2 ^ (n + 1) % 2 ^ n ∧
    ((out .asl).v = true ↔ ∃ j ≤ r, (decide (j < n) && d.getLsbD (n - 1 - j)) ≠ d.getLsbD (n - 1)) ∧
    (∀ op : ShiftOp, op ≠ .asl → (out op).v = false) ∧
    (∀ op : ShiftOp, (out op).n = (res op).testBit (n - 1) ∧ (out op).z = decide (res op = 0)) ∧
    (out .rol).x = f.x ∧ (out .ror).x = f.x ∧
    (r = 0 → ∀ op : ShiftOp,
      (out op).x = f.x ∧ (out op).v = false ∧ (out op).c = (if op = .roxl ∨ op = .roxr then f.x else false))

/-- Decimal addition and subtraction of valid digits (45_bit_bcd.md R305 to R308): the result is valid, and with the carry or
borrow it is the exact decimal sum or difference. -/
def Obligations.DecimalArithmetic : Prop :=
  ∀ (s d : Byte) (x : Bool), bcdValid s = true → bcdValid d = true →
    bcdValid (bcdAdd s d x).res = true ∧
    bcdToNat (bcdAdd s d x).res + 100 * (bcdAdd s d x).c.toNat = bcdToNat s + bcdToNat d + x.toNat ∧
    bcdValid (bcdSub s d x).res = true ∧
    bcdToNat (bcdSub s d x).res + bcdToNat s + x.toNat = bcdToNat d + 100 * (bcdSub s d x).c.toNat

/-! ## Memory -/

/-- Memory is big-endian (20_memory.md R61): a store of size `sz` puts the value's bytes at rising addresses, high-order
first; the operand reads back; the byte at `a` is bits 31–24 of the long word at `a` and the word at `a + 2` its bits 15–0;
every other byte keeps its value. -/
def Obligations.StoreThenRead : Prop :=
  ∀ (s : State) (sz : Size) (a v : Word), s.mem.wf = true → 2 ≤ s.cfg.addrBits →
    (∀ j < sz.bytes, (s.store sz a v).byteAt (a + BitVec.ofNat 32 j) = byteOfValue sz v j) ∧
    (s.store sz a v).valueAt sz a = sz.low v ∧
    (s.store .l a v).byteAt a = v.extractLsb' 24 8 ∧
    (s.store .l a v).wordAt (a + 2#32) = v.extractLsb' 0 16 ∧
    BytesKept s (s.store sz a v) a sz.bytes ∧
    (s.store sz a v).mem.wf = true

/-- What a memory access may raise, in order (20_memory.md R64, R66, R80): Address Error for a word or long word at an odd
address on the members with ALIGN_FAULT, with no byte written; then Bus Error, where the platform does not admit one of the bytes,
whatever the others are; otherwise the access completes (one that reaches a device has no outcome: log 5). Of a store that a
bus error ends, the transfers before the failing one have landed and no other: nothing of an aligned byte or word, at most one word
half of an aligned long word (20_memory.md R69, R70), the bytes below the first failing one at an odd address of the members
without ALIGN_FAULT (R64; 92_eei_decisions.md D3, D10; that these add up to just that, on the MC68008 too, is the model's reading:
log 16). That a bus error records the operand's address, also where only a later byte of the operand has no memory, is the model's
choice (log 25). -/
def Obligations.AccessChecks : Prop :=
  ∀ (s : State) (fc : FuncCode) (sz : Size) (a v : Word),
    (s.cfg.cpu.is020 = false → sz ≠ .b → a.getLsbD 0 = true →
      (memRead fc sz a).run s = .error (.access ⟨false, a, false, fc⟩) s ∧
      (memWrite fc sz a v).run s = .error (.access ⟨false, a, true, fc⟩) s) ∧
    (s.misaligned sz a = false → s.verdict fc false sz a = .busError →
      (memRead fc sz a).run s = .error (.access ⟨true, a, false, fc⟩) s) ∧
    (s.misaligned sz a = false → s.verdict fc true sz a = .busError →
      ∃ t, (memWrite fc sz a v).run s = .error (.access ⟨true, a, true, fc⟩) t ∧ BytesKept s t a sz.bytes ∧
        (a.getLsbD 0 = false → sz ≠ .l → t = s) ∧
        (a.getLsbD 0 = false → sz = .l → t.mem = s.mem ∨
          (s.verdict fc true .w a ≠ .busError ∧ BytesKept s t a 2 ∧
            (s.verdict fc true .w a = .granted → t.mem = (s.store .w a (v >>> 16)).mem)) ∨
          (s.verdict fc true .w (a + 2#32) ≠ .busError ∧ BytesKept s t (a + 2#32) 2 ∧
            (s.verdict fc true .w (a + 2#32) = .granted → t.mem = (s.store .w (a + 2#32) v).mem))) ∧
        (a.getLsbD 0 = true → ∃ n < sz.bytes,
          (∀ j < n, s.byteVerdict fc true (a + BitVec.ofNat 32 j) ≠ .busError) ∧
          s.byteVerdict fc true (a + BitVec.ofNat 32 n) = .busError ∧
          (s.mem.wf = true → 2 ≤ s.cfg.addrBits → ∀ j < n,
            let x := a + BitVec.ofNat 32 j
            t.byteAt x = if s.byteVerdict fc true x = .granted then byteOfValue sz v j else s.byteAt x) ∧
          BytesKept s t a n)) ∧
    ((∃ x ∈ bytesFrom sz a, s.byteVerdict fc false x = .busError) → s.verdict fc false sz a = .busError) ∧
    ((∃ x ∈ bytesFrom sz a, s.byteVerdict fc true x = .busError) → s.verdict fc true sz a = .busError) ∧
    (s.accessible fc false sz a = true → (memRead fc sz a).run s = .ok (s.valueAt sz a) s) ∧
    (s.accessible fc true sz a = true → (memWrite fc sz a v).run s = .ok () (s.store sz a v))

/-- The instruction fetches that end in an exception. An odd `pc` raises Address Error on every member, as a program read
(20_memory.md R67), and no instruction runs (70_reset_and_hazards.md R483). An operation word that decodes to no instruction
raises Line A where its bits 15–12 are 1010, Line F where they are 1111, else Illegal Instruction (30_encoding.md R118;
60_exceptions.md R435): the frame holds the word's own address and the SR, no extension word is fetched, no register changes, and
no trace follows (that lines A and F count with the illegal word for that: log 23). On later members the frame's format 0 (log 12)
and the stack that M, being kept, selects (log 13) are the model's choices. Words that a later member gives an
instruction without a row in the table, line 1111 of MC68020, MC68030, MC68040 and CPU32 among them, are refused by name, the
model's choice (log 15). -/
def Obligations.FetchExceptions : Prop :=
  (∀ s : State, s.pc.getLsbD 0 = true →
    fetchInstr.run s = .error (.access ⟨false, s.pc, false, s.fc true⟩) s ∧
    runOne s = afterRaise (takeAccessFault ⟨false, s.pc, false, s.fc true⟩ false s.pc { s with tracing := s.traceMode })) ∧
  (∀ (cpu : Cpu) (op : Word16),
    (op.extractLsb' 12 4 = 0xA#4 → decodeOp cpu op = .reject .lineA) ∧
    (op.extractLsb' 12 4 = 0xF#4 → decodeOp cpu op = .reject (if cpu.hasFullExt then .laterMember else .lineF))) ∧
  (∀ s : State, s.fetchable s.pc 1 = true → s.staleAt s.pc = [] →
    (∀ (r : Reject) (e : Exc), (r, e) ∈ [(Reject.illegal, Exc.illegal), (.lineA, .lineA), (.lineF, .lineF)] →
      decodeOp s.cfg.cpu (s.wordAt s.pc) = .reject r →
      runOne s = afterRaise (takeException e { s with tracing := s.traceMode }) ∧
      (s.ended = false → s.nextPins.reset = false → s.nextPins.halt = false → s.run = .running → s.interrupted = false →
        EntryReady s e →
        ∃ t, step s = .next t ∧ t.isSuper = true ∧ t.usp = s.usp ∧ t.d = s.d ∧ t.a = s.a ∧ t.ccr = s.ccr ∧ t.tracing = .off ∧
          t.pc = t.longAt (s.vectorBase + (e.vector.setWidth 32 <<< 2)) ∧
          (s.mem.wf = true → 3 ≤ s.cfg.addrBits → t.longAt (t.sp + 2#32) = s.pc ∧ t.wordAt t.sp = s.sr))) ∧
    (decodeOp s.cfg.cpu (s.wordAt s.pc) = .reject .laterMember → runOne s = .refused (.laterMember (s.wordAt s.pc))))

/-! ## Addressing modes -/

/-- What each addressing mode designates and leaves (40_addressing_modes.md R131 to R137, R141, R142, R146 to R148, R154):
only postincrement and predecrement change a register, by the operand size, by two for a byte through A7 (R134, R135); the
PC-based modes start from the address of their extension word (R159). -/
def Obligations.AddressingModes : Prop :=
  ∀ (s : State) (k : Nat) (sz : Size) (n : RegNum) (x : IndexSpec) (d8 : Byte) (d16 : Word16) (v : Word),
    let inc : Word := if n = 7 ∧ sz = .b then 2#32 else BitVec.ofNat 32 sz.bytes
    let ip := s.pc + BitVec.ofNat 32 (2 * k)
    Resolves s k sz (.dn n) (.dreg n) s ∧ Resolves s k sz (.an n) (.areg n) s ∧
    Resolves s k sz (.ind n) (.mem (s.getA n) false) s ∧
    Resolves s k sz (.postInc n) (.mem (s.getA n) false) (s.setA n (s.getA n + inc)) ∧
    Resolves s k sz (.preDec n) (.mem (s.getA n - inc) false) (s.setA n (s.getA n - inc)) ∧
    Resolves s k sz (.disp n d16) (.mem (s.getA n + d16.signExtend 32) false) s ∧
    Resolves s k sz (.index n x d8) (.mem (s.getA n + d8.signExtend 32 + s.indexValue x) false) s ∧
    Resolves s k sz (.absShort d16) (.mem (d16.signExtend 32) false) s ∧
    Resolves s k sz (.absLong v) (.mem v false) s ∧
    Resolves s k sz (.pcDisp d16) (.mem (ip + d16.signExtend 32) true) s ∧
    Resolves s k sz (.pcIndex x d8) (.mem (ip + d8.signExtend 32 + s.indexValue x) true) s ∧
    Resolves s k sz (.imm v) (.imm v) s

/-- The index operand (40_addressing_modes.md R152): the register named by D/A and REGISTER, its low word sign-extended unless
W/L is set, times the scale where scaling exists; 0 if suppressed. And the addresses of the full extension word modes (40_addressing_modes.md
R138 to R140, R143 to R145, R153), for a pointer that can be read: no indirection, preindexed, postindexed; the base is An, or the
address of the first extension word; a base or outer displacement is 0 if null, sign-extended if a word, as it is if a long word
(40_addressing_modes.md R150, R153). -/
def Obligations.IndexAndFullExtension : Prop :=
  ∀ (s : State) (k : Nat) (sz : Size) (n : RegNum) (x : IndexSpec) (e : FullExt) (od : Displ) (program : Bool),
    let r := s.getX ((if x.isAddr then 8 else 0) + x.reg.val)
    let v := if x.long then r else (r.extractLsb' 0 16).signExtend 32
    let sc := if s.cfg.cpu.hasFullExt then 2 ^ x.scale.toNat else 1
    let ip := s.pc + BitVec.ofNat 32 (2 * k)
    let b := if e.baseSuppress then 0#32 else if program then ip else s.getA n
    let idx := if e.indexSuppress then 0#32 else s.indexValue e.index
    let ea := if program then Ea.pcFull e else Ea.full n e
    let p1 := b + displValue e.bd + idx
    let p2 := b + displValue e.bd
    s.indexValue x = BitVec.ofNat 32 (v.toNat * sc) ∧ s.getX 15 = s.sp ∧
    displValue .null = 0#32 ∧ (∀ w : Word16, displValue (.word w) = w.signExtend 32) ∧
    (∀ l : Word, displValue (.long l) = l) ∧
    (e.indirect = .none → Resolves s k sz ea (.mem p1 program) s) ∧
    (e.indirect = .pre od → s.accessible (s.fc program) false .l p1 = true →
      Resolves s k sz ea (.mem (s.longAt p1 + displValue od) program) s) ∧
    (e.indirect = .post od → s.accessible (s.fc program) false .l p2 = true →
      Resolves s k sz ea (.mem (s.longAt p2 + idx + displValue od) program) s)

/-! ## Data movement -/

/-- MOVE completes when its source can be read and its destination written (41_data_movement.md R171): the source is resolved
and read before the destination is resolved; the value is stored, nothing else changes; N and Z from the value, V = C = 0, X
kept. For MOVE An,-(An) and MOVE An,(An)+ on MC68010 and later the stored value is a parameter of the member
(93_implementation_defined.md U20); that it is An's initial value on every member is the model's choice (log 28). -/
def Obligations.MoveCompletes : Prop :=
  ∀ (s t u : State) (sz : Size) (src dst : Ea) (l m : Loc),
    Resolves s 1 sz src l t → Readable t sz l →
    Resolves t (1 + src.length sz) sz dst m u → Writable u sz m →
    let v := valueOf t sz l
    let i : Instr := match sz with | .b => .moveB src dst | .w => .moveW src dst | .l => .moveL src dst
    ∃ w, exec i s = .next { w with ccr := s.ccr.logic sz v, pc := s.ipAt i.words } ∧ StoresOnly sz m v u w

/-- MOVEA, ADDA, SUBA and LEA write all 32 bits of their address register and nothing else (41_data_movement.md R172, R173;
42_integer_arithmetic.md R206, R211); a word source is sign-extended; the flags are not affected. -/
def Obligations.AddressRegisterWrites : Prop :=
  (∀ (s t : State) (r : RegNum) (ea : Ea) (long : Bool) (l : Loc),
    Resolves s 1 (Size.ofLong long) ea l t → Readable t (Size.ofLong long) l →
    let v := (Size.ofLong long).sext (valueOf t (Size.ofLong long) l)
    let next (i : Instr) (x : Word) := exec i s = .next { t.setA r x with pc := s.ipAt i.words }
    next (if long then .moveaL ea r else .moveaW ea r) v ∧
    next (.adda r long ea) (t.getA r + v) ∧
    next (.suba r long ea) (t.getA r - v)) ∧
  (∀ (s t : State) (r : RegNum) (ea : Ea) (a : Word), ControlResolves s 1 ea a t →
    exec (.lea r ea) s = .next { t.setA r a with pc := s.ipAt (Instr.lea r ea).words })

/-- A control operand is its address: every control mode of the baseline, and the memory indirect ones whose pointer can be
read, has one; resolving it changes nothing (40_addressing_modes.md R154, R157). -/
def Obligations.ControlAddress : Prop :=
  ∀ (s : State) (k : Nat) (ea : Ea), ea.kind.isControl = true →
    (∀ a p t, Resolves s k .l ea (.mem a p) t → ControlResolves s k ea a s ∧ t = s) ∧
    (s.cfg.cpu.is020 = false → ea.wf s.cfg.cpu .l = true → ∃ a, ControlResolves s k ea a s)

/-- PEA, JSR and BSR push one long word on the active stack and nothing else changes in memory (41_data_movement.md R176;
46_program_control.md R323, R326): PEA the address, JSR and BSR the address of the next instruction; the address is computed
before the stack pointer moves. -/
def Obligations.PushesAddress : Prop :=
  ∀ (s : State),
    let top := s.sp - 4#32
    s.accessible (s.fc false) true .l top = true →
    (∀ ea a, ControlResolves s 1 ea a s →
      (∃ w, exec (.pea ea) s = .next { w with pc := s.ipAt (Instr.pea ea).words } ∧
        StoresOnly .l (.mem top false) a (s.setSp top) w) ∧
      (∃ w, exec (.jsr ea) s = .next { w with pc := a } ∧
        StoresOnly .l (.mem top false) (s.ipAt (Instr.jsr ea).words) (s.setSp top) w)) ∧
    (∀ d : BranchDisp, ∃ w, exec (.bsr d) s = .next { w with pc := branchTarget s d } ∧
      StoresOnly .l (.mem top false) (s.ipAt (Instr.bsr d).words) (s.setSp top) w)

/-- MOVEQ, SWAP, EXT, EXG and NOP: the new register values and flags; nothing else changes but `pc` (41_data_movement.md R174,
R175; 42_integer_arithmetic.md R222; 44_shift_rotate.md R279; 46_program_control.md R329). -/
def Obligations.RegisterOnly : Prop :=
  ∀ (s : State) (x y : RegNum) (v : Byte),
    let q : Word := v.signExtend 32
    let b : Word := ((s.getD x).extractLsb' 0 8).signExtend 32
    let w : Word := ((s.getD x).extractLsb' 0 16).signExtend 32
    let h : Word := (s.getD x).extractLsb' 0 16 ++ (s.getD x).extractLsb' 16 16
    let pc := s.pc + 2#32
    exec (.moveq x v) s = .next { s.setD x q with ccr := s.ccr.logic .l q, pc := pc } ∧
    exec (.swap x) s = .next { s.setD x h with ccr := s.ccr.logic .l h, pc := pc } ∧
    exec (.extW x) s = .next { s.setDPart .w x b with ccr := s.ccr.logic .w b, pc := pc } ∧
    exec (.extL x) s = .next { s.setD x w with ccr := s.ccr.logic .l w, pc := pc } ∧
    exec (.exgDD x y) s = .next { (s.setD x (s.getD y)).setD y (s.getD x) with pc := pc } ∧
    exec (.exgAA x y) s = .next { (s.setA x (s.getA y)).setA y (s.getA x) with pc := pc } ∧
    exec (.exgDA x y) s = .next { (s.setD x (s.getA y)).setA y (s.getD x) with pc := pc } ∧
    exec .nop s = .next { s with pc := pc }

/-- LINK and UNLK in the order of their operation lines (41_data_movement.md R177, R178): the stack slot, An and the stack
pointer, nothing else; LINK A7 pushes the decremented stack pointer, UNLK A7 adds 4 to the loaded value. -/
def Obligations.LinkAndUnlink : Prop :=
  ∀ (s : State) (r : RegNum) (d : Word16),
    (let top := s.sp - 4#32
     let s1 := s.setSp top
     s.accessible (s.fc false) true .l top = true →
      ∃ w, exec (.link r d) s =
        .next { (w.setA r top).setSp (top + d.signExtend 32) with pc := s.pc + 4#32 } ∧
        StoresOnly .l (.mem top false) (s1.getA r) s1 w) ∧
    (let a := s.getA r
     s.accessible (s.fc false) false .l a = true →
      exec (.unlk r) s =
        .next { ((s.setSp a).setA r (s.longAt a)).setSp (if r = 7 then s.longAt a + 4#32 else a + 4#32) with
          pc := s.pc + 2#32 })

/-- MOVEM registers to memory (41_data_movement.md R183): the registers of the mask, D0 first, at rising addresses; with
predecrement A7 first at falling addresses, the base register ending at the last address (the value stored for a listed base
register is its initial one on MC68000, MC68008 and MC68010, that less the size on later members). Nothing else changes. -/
def Obligations.MovemStores : Prop :=
  ∀ (s : State) (long : Bool) (mask : Word16) (ea : Ea) (n : RegNum) (a : Word),
    let sz := Size.ofLong long
    let regs := maskBits mask
    let up (j : Nat) : Word := a + BitVec.ofNat 32 (sz.bytes * j)
    let down (j : Nat) : Word := s.getA n - BitVec.ofNat 32 (sz.bytes * (j + 1))
    (ControlResolves s 2 ea a s →
      (∀ j < regs.length, s.accessible (s.fc false) true sz (up j) = true) →
      ∃ w, exec (.movemToMem long mask ea) s = .next { w with pc := s.ipAt (Instr.movemToMem long mask ea).words } ∧
        SameControl s w ∧ w.d = s.d ∧ BytesKept s w a (sz.bytes * regs.length) ∧
        (s.mem.wf = true → 6 ≤ s.cfg.addrBits → ∀ j (h : j < regs.length),
          w.valueAt sz (up j) = sz.low (s.getX regs[j]))) ∧
    ((∀ j < regs.length, s.accessible (s.fc false) true sz (down j) = true) →
      ∃ w, exec (.movemToMem long mask (.preDec n)) s =
          .next { w.setA n (s.getA n - BitVec.ofNat 32 (sz.bytes * regs.length)) with pc := s.pc + 4#32 } ∧
        SameControl s w ∧ w.d = s.d ∧
        BytesKept s w (s.getA n - BitVec.ofNat 32 (sz.bytes * regs.length)) (sz.bytes * regs.length) ∧
        (s.mem.wf = true → 6 ≤ s.cfg.addrBits → ∀ j (h : j < regs.length),
          w.valueAt sz (down j) = sz.low
            (if 15 - regs[j] = 8 + n.val ∧ (s.cfg.cpu.is020 = true ∨ s.cfg.cpu = .cpu32) then
              s.getA n - BitVec.ofNat 32 sz.bytes
             else s.getX (15 - regs[j]))))

/-- MOVEM memory to registers (41_data_movement.md R183): each register of the mask, D0 first, receives the word
(sign-extended) or long word at its rising address; with postincrement the base register ends after the last one, whatever
the list loads into it. Memory, the flags and every other register are unchanged. Where the platform's parameter makes MC68000 or
MC68010 read one word beyond the last (93_implementation_defined.md U19), that word must be readable too. -/
def Obligations.MovemLoads : Prop :=
  ∀ (s : State) (long : Bool) (mask : Word16) (ea : Ea) (n : RegNum) (a : Word),
    let sz := Size.ofLong long
    let regs := maskBits mask
    let program := ea.kind == .pcDisp || ea.kind == .pcIndex
    let addr (b : Word) (j : Nat) : Word := b + BitVec.ofNat 32 (sz.bytes * j)
    let loaded (b : Word) (l : List Nat) : State :=
      (l.zip (List.range l.length)).foldl (fun u p => u.setX p.1 (sz.sext (s.valueAt sz (addr b p.2)))) s
    (ea.kind ≠ .postInc → ControlResolves s 2 ea a s →
      (∀ j < regs.length, s.accessible (s.fc program) false sz (addr a j) = true) →
      (s.cfg.movemReadsExtra = true → s.accessible (s.fc program) false .w (addr a regs.length) = true) →
      exec (.movemToReg long mask ea) s =
        .next { loaded a regs with pc := s.ipAt (Instr.movemToReg long mask ea).words }) ∧
    ((∀ j < regs.length, s.accessible (s.fc false) false sz (addr (s.getA n) j) = true) →
      (s.cfg.movemReadsExtra = true → s.accessible (s.fc false) false .w (addr (s.getA n) regs.length) = true) →
      exec (.movemToReg long mask (.postInc n)) s =
        .next { (loaded (s.getA n) regs).setA n (addr (s.getA n) regs.length) with pc := s.pc + 4#32 })

/-- MOVEP (41_data_movement.md R185): two or four bytes at every second address, high-order byte first; the bytes between and
all else are unchanged; the word form keeps bits 31–16 of the register it loads. -/
def Obligations.MovepTransfers : Prop :=
  ∀ (s : State) (dr ar : RegNum) (long : Bool) (d : Word16),
    let k := if long then 4 else 2
    let a (j : Nat) : Word := s.getA ar + d.signExtend 32 + BitVec.ofNat 32 (2 * j)
    ((∀ j < k, s.accessible (s.fc false) true .b (a j) = true) →
      ∃ w, exec (.movep dr true long ar d) s = .next { w with pc := s.pc + 4#32 } ∧ SameControl s w ∧ w.d = s.d ∧
        (∀ x : Word, (∀ j < k, s.phys x ≠ s.phys (a j)) → w.byteAt x = s.byteAt x) ∧
        (s.mem.wf = true → 3 ≤ s.cfg.addrBits → ∀ j < k, w.byteAt (a j) = (s.getD dr).extractLsb' (8 * (k - 1 - j)) 8)) ∧
    ((∀ j < k, s.accessible (s.fc false) false .b (a j) = true) →
      exec (.movep dr false long ar d) s =
        .next { s.setD dr (if long then s.byteAt (a 0) ++ s.byteAt (a 1) ++ s.byteAt (a 2) ++ s.byteAt (a 3)
                           else (s.getD dr).extractLsb' 16 16 ++ s.byteAt (a 0) ++ s.byteAt (a 1)) with
          pc := s.pc + 4#32 })

/-! ## Arithmetic and logic -/

/-- ADD, SUB, AND and OR to a data register (42_integer_arithmetic.md R205, R210; 43_logical.md R251, R253): the low part of the
register is replaced, the flags follow R200 to R202, nothing else changes beyond the source's own side effect. -/
def Obligations.RegisterDestination : Prop :=
  ∀ (s t : State) (r : RegNum) (sz : Size) (ea : Ea) (l : Loc), Resolves s 1 sz ea l t → Readable t sz l →
    let v := valueOf t sz l
    let d := s.getD r
    ∀ (i : Instr) (x : Word) (c : Ccr),
      (i, x, c) ∈ [(Instr.add r sz .toReg ea, (addOf sz v d false).res, Ccr.arith (addOf sz v d false)),
        (Instr.sub r sz .toReg ea, (subOf sz v d false).res, Ccr.arith (subOf sz v d false)),
        (Instr.and r sz .toReg ea, v &&& d, s.ccr.logic sz (v &&& d)),
        (Instr.or r sz .toReg ea, v ||| d, s.ccr.logic sz (v ||| d))] →
      exec i s = .next { t.setDPart sz r x with ccr := c, pc := s.ipAt i.words }

/-- ADD, SUB, AND, OR and EOR from a data register to an operand (42_integer_arithmetic.md R205, R210; 43_logical.md R251, R253,
R255, R258): the operand is resolved once, read, and written at the same place; nothing else changes. -/
def Obligations.OperandDestination : Prop :=
  ∀ (s t : State) (r : RegNum) (sz : Size) (ea : Ea) (l : Loc),
    Resolves s 1 sz ea l t → Readable t sz l → Writable t sz l →
    let v := s.getD r
    let d := valueOf t sz l
    ∀ (i : Instr) (x : Word) (c : Ccr),
      (i, x, c) ∈ [(Instr.add r sz .toEa ea, (addOf sz v d false).res, Ccr.arith (addOf sz v d false)),
        (Instr.sub r sz .toEa ea, (subOf sz v d false).res, Ccr.arith (subOf sz v d false)),
        (Instr.and r sz .toEa ea, v &&& d, s.ccr.logic sz (v &&& d)),
        (Instr.or r sz .toEa ea, v ||| d, s.ccr.logic sz (v ||| d)),
        (Instr.eor r sz ea, v ^^^ d, s.ccr.logic sz (v ^^^ d))] →
      ∃ w, exec i s = .next { w with ccr := c, pc := s.ipAt i.words } ∧ StoresOnly sz l x t w

/-- ADDI, SUBI, ANDI, ORI and EORI (42_integer_arithmetic.md R207, R212; 43_logical.md R252, R254, R256): the operand's extension
words follow the immediate's. -/
def Obligations.ImmediateDestination : Prop :=
  ∀ (s t : State) (sz : Size) (v : Word) (ea : Ea) (l : Loc),
    Resolves s (1 + sz.immLength) sz ea l t → Readable t sz l → Writable t sz l →
    let d := valueOf t sz l
    ∀ (i : Instr) (x : Word) (c : Ccr),
      (i, x, c) ∈ [(Instr.addi sz v ea, (addOf sz v d false).res, Ccr.arith (addOf sz v d false)),
        (Instr.subi sz v ea, (subOf sz v d false).res, Ccr.arith (subOf sz v d false)),
        (Instr.andi sz v ea, v &&& d, s.ccr.logic sz (v &&& d)),
        (Instr.ori sz v ea, v ||| d, s.ccr.logic sz (v ||| d)),
        (Instr.eori sz v ea, v ^^^ d, s.ccr.logic sz (v ^^^ d))] →
      ∃ w, exec i s = .next { w with ccr := c, pc := s.ipAt i.words } ∧ StoresOnly sz l x t w

/-- ADDQ and SUBQ (42_integer_arithmetic.md R208, R213): one to eight, a field of zero standing for eight; on an address register
all 32 bits whatever the size, and no flags. -/
def Obligations.QuickArithmetic : Prop :=
  ∀ (s : State) (q : BitVec 3) (sz : Size),
    let v : Word := if q = 0#3 then 8#32 else q.setWidth 32
    (∀ n : RegNum, sz ≠ .b →
      exec (.addq q sz (.an n)) s = .next { s.setA n (s.getA n + v) with pc := s.pc + 2#32 } ∧
      exec (.subq q sz (.an n)) s = .next { s.setA n (s.getA n - v) with pc := s.pc + 2#32 }) ∧
    (∀ (t : State) (ea : Ea) (l : Loc), Resolves s 1 sz ea l t → Readable t sz l → Writable t sz l →
      let d := valueOf t sz l
      (∃ w, exec (.addq q sz ea) s =
          .next { w with ccr := Ccr.arith (addOf sz v d false), pc := s.ipAt (Instr.addq q sz ea).words } ∧
        StoresOnly sz l (addOf sz v d false).res t w) ∧
      (∃ w, exec (.subq q sz ea) s =
          .next { w with ccr := Ccr.arith (subOf sz v d false), pc := s.ipAt (Instr.subq q sz ea).words } ∧
        StoresOnly sz l (subOf sz v d false).res t w))

/-- CMP, CMPA, CMPI, CMPM and TST write nothing but the flags (42_integer_arithmetic.md R215 to R218, R221): beyond the operands'
own side effects the state keeps every register and every byte of memory; CMPA always compares 32 bits; CMPM reads `(Ay)+`
before `(Ax)+`. -/
def Obligations.Comparisons : Prop :=
  (∀ (s t : State) (r : RegNum) (sz : Size) (ea : Ea) (l : Loc), Resolves s 1 sz ea l t → Readable t sz l →
    let v := valueOf t sz l
    exec (.cmp r sz ea) s =
      .next { t with ccr := s.ccr.compare (subOf sz v (s.getD r) false), pc := s.ipAt (Instr.cmp r sz ea).words } ∧
    exec (.tst sz ea) s = .next { t with ccr := s.ccr.logic sz v, pc := s.ipAt (Instr.tst sz ea).words }) ∧
  (∀ (s t : State) (r : RegNum) (long : Bool) (ea : Ea) (l : Loc),
    Resolves s 1 (Size.ofLong long) ea l t → Readable t (Size.ofLong long) l →
    let v := (Size.ofLong long).sext (valueOf t (Size.ofLong long) l)
    exec (.cmpa r long ea) s =
      .next { t with ccr := s.ccr.compare (subOf .l v (t.getA r) false), pc := s.ipAt (Instr.cmpa r long ea).words }) ∧
  (∀ (s t : State) (sz : Size) (v : Word) (ea : Ea) (l : Loc),
    Resolves s (1 + sz.immLength) sz ea l t → Readable t sz l →
    exec (.cmpi sz v ea) s =
      .next { t with
        ccr := s.ccr.compare (subOf sz v (valueOf t sz l) false), pc := s.ipAt (Instr.cmpi sz v ea).words }) ∧
  (∀ (s t u : State) (x y : RegNum) (sz : Size) (l m : Loc),
    Resolves s 1 sz (.postInc y) l t → Readable t sz l → Resolves t 1 sz (.postInc x) m u → Readable u sz m →
    exec (.cmpm x sz y) s =
      .next { u with
        ccr := s.ccr.compare (subOf sz (valueOf t sz l) (valueOf u sz m) false), pc := s.pc + 2#32 })

/-- ADDX and SUBX (42_integer_arithmetic.md R209, R214): X is the carry or borrow in; Z is cleared by a nonzero result and else
kept; in the memory form the source is decremented and read before the destination is decremented and read. -/
def Obligations.ExtendedArithmetic : Prop :=
  ∀ (s t u : State) (x y : RegNum) (sz : Size) (mem : Bool) (l m : Loc),
    PairResolves s sz mem y l t → Readable t sz l → PairResolves t sz mem x m u → Readable u sz m → Writable u sz m →
    let v := valueOf t sz l
    let d := valueOf u sz m
    let flags (a : Arith) : Ccr := { x := a.c, n := a.n, z := s.ccr.z && a.z, v := a.v, c := a.c }
    (∃ w, exec (.addx x sz mem y) s = .next { w with ccr := flags (addOf sz v d s.ccr.x), pc := s.pc + 2#32 } ∧
      StoresOnly sz m (addOf sz v d s.ccr.x).res u w) ∧
    (∃ w, exec (.subx x sz mem y) s = .next { w with ccr := flags (subOf sz v d s.ccr.x), pc := s.pc + 2#32 } ∧
      StoresOnly sz m (subOf sz v d s.ccr.x).res u w)

/-- NEG, NEGX, NOT and TAS (42_integer_arithmetic.md R219, R220; 43_logical.md R257; 47_system_control.md R380): the operand is
read, then written at the same place; the flags of TAS describe the byte before its bit 7 is set. -/
def Obligations.UnaryReadModifyWrite : Prop :=
  ∀ (s t : State) (sz : Size) (ea : Ea) (l : Loc), Resolves s 1 sz ea l t → Readable t sz l → Writable t sz l →
    let d := valueOf t sz l
    let a := subOf sz d 0#32 false
    let b := subOf sz d 0#32 s.ccr.x
    (∀ (i : Instr) (x : Word) (c : Ccr),
      (i, x, c) ∈ [(Instr.neg sz ea, a.res, Ccr.arith a),
        (Instr.negx sz ea, b.res, { Ccr.arith b with z := s.ccr.z && b.z }),
        (Instr.not sz ea, ~~~d, s.ccr.logic sz (~~~d))] →
      ∃ w, exec i s = .next { w with ccr := c, pc := s.ipAt i.words } ∧ StoresOnly sz l x t w) ∧
    (sz = .b →
      ∃ w, exec (.tas ea) s = .next { w with ccr := s.ccr.logic .b d, pc := s.ipAt (Instr.tas ea).words } ∧
        StoresOnly .b l (d ||| 0x80#32) t w)

/-- CLR, Scc and MOVE from SR write without using the old operand (42_integer_arithmetic.md R228; 46_program_control.md R333;
47_system_control.md R368); MC68000 and MC68008 read it first, so there it must be readable. MOVE from SR is stated for a mode
that may run it. -/
def Obligations.SetOperand : Prop :=
  ∀ (s t : State) (ea : Ea) (l : Loc),
    (∀ sz, Resolves s 1 sz ea l t → (s.cfg.cpu.isBaseline = true → Readable t sz l) → Writable t sz l →
      ∃ w, exec (.clr sz ea) s =
          .next { w with ccr := { s.ccr with n := false, z := true, v := false, c := false },
                         pc := s.ipAt (Instr.clr sz ea).words } ∧
        StoresOnly sz l 0#32 t w) ∧
    (∀ c, Resolves s 1 .b ea l t → (s.cfg.cpu.isBaseline = true → Readable t .b l) → Writable t .b l →
      ∃ w, exec (.scc c ea) s = .next { w with pc := s.ipAt (Instr.scc c ea).words } ∧
        StoresOnly .b l (if s.ccr.holds c then 0xFF#32 else 0#32) t w) ∧
    (Resolves s 1 .w ea l t → (s.cfg.cpu.isBaseline = true → Readable t .w l) → Writable t .w l →
      (s.cfg.cpu.isBaseline = true ∨ s.isSuper = true) →
      ∃ w, exec (.moveFromSr ea) s = .next { w with pc := s.ipAt (Instr.moveFromSr ea).words } ∧
        StoresOnly .w l (s.sr.setWidth 32) t w)

/-- MULU and MULS (42_integer_arithmetic.md R223): the 32-bit product of the low words replaces the whole register; N and Z from
the product, V = C = 0. -/
def Obligations.Multiply : Prop :=
  ∀ (s t : State) (r : RegNum) (ea : Ea) (l : Loc), Resolves s 1 .w ea l t → Readable t .w l →
    let v := (valueOf t .w l).extractLsb' 0 16
    let d := (s.getD r).extractLsb' 0 16
    let pu : Word := v.setWidth 32 * d.setWidth 32
    let ps : Word := v.signExtend 32 * d.signExtend 32
    exec (.mulu r ea) s = .next { t.setD r pu with ccr := s.ccr.logic .l pu, pc := s.ipAt (Instr.mulu r ea).words } ∧
    exec (.muls r ea) s = .next { t.setD r ps with ccr := s.ccr.logic .l ps, pc := s.ipAt (Instr.muls r ea).words }

/-- DIVU and DIVS (42_integer_arithmetic.md R224). A quotient that fits: remainder in the high word, quotient in the low word,
N and Z from the quotient, V = C = 0. An overflow: V = 1, C = 0, N and Z free, the register unchanged. A divisor of zero: C = 0,
N, Z and V free (log 19), and the zero divide exception is taken with `pc` at the next instruction. -/
def Obligations.Divide : Prop :=
  ∀ (s t : State) (r : RegNum) (ea : Ea) (l : Loc) (signed : Bool), Resolves s 1 .w ea l t → Readable t .w l →
    let i := if signed then Instr.divs r ea else Instr.divu r ea
    let v := (valueOf t .w l).extractLsb' 0 16
    let d := s.getD r
    let q : Int := if signed then Int.tdiv d.toInt v.toInt else (d.toNat : Int) / (v.toNat : Int)
    let rem : Int := if signed then Int.tmod d.toInt v.toInt else (d.toNat : Int) % (v.toNat : Int)
    let fits : Prop := if signed then -32768 ≤ q ∧ q ≤ 32767 else q ≤ 0xFFFF
    let q16 : Word16 := BitVec.ofInt 16 q
    (v ≠ 0#16 → fits →
      exec i s = .next { t.setD r (BitVec.ofInt 16 rem ++ q16 : BitVec 32) with
        ccr := { s.ccr with n := q16.getLsbD 15, z := q16 == 0#16, v := false, c := false }, pc := s.ipAt i.words }) ∧
    (v ≠ 0#16 → ¬ fits → ∃ n z,
      exec i s = .next { t with
        ccr := { s.ccr with n := n, z := z, v := true, c := false }, pc := s.ipAt i.words, draws := s.draws + 2 }) ∧
    (v = 0#16 → ∃ n z o,
      exec i s = takeException (.zeroDivide s.pc)
        { t with
          ccr := { s.ccr with n := n, z := z, v := o, c := false }, pc := s.ipAt i.words, draws := s.draws + 3 })

/-! ## Shifts, bits, decimal -/

/-- The memory forms of the shifts and rotates: a word, one place (44_shift_rotate.md R270, R280). -/
def Obligations.MemoryShifts : Prop :=
  ∀ (s t : State) (ea : Ea) (l : Loc), Resolves s 1 .w ea l t → Readable t .w l → Writable t .w l →
    ∀ (i : Instr) (op : ShiftOp),
      (i, op) ∈ [(Instr.asrMem ea, ShiftOp.asr), (Instr.aslMem ea, ShiftOp.asl), (Instr.lsrMem ea, ShiftOp.lsr),
        (Instr.lslMem ea, ShiftOp.lsl), (Instr.roxrMem ea, ShiftOp.roxr), (Instr.roxlMem ea, ShiftOp.roxl),
        (Instr.rorMem ea, ShiftOp.ror), (Instr.rolMem ea, ShiftOp.rol)] →
      let a := op.apply .w 1 (valueOf t .w l) s.ccr
      ∃ w, exec i s = .next { w with ccr := a.2, pc := s.ipAt i.words } ∧ StoresOnly .w l a.1 t w

/-- The register forms of the shifts and rotates (44_shift_rotate.md R280): the count is one to eight, or the whole count
register modulo 64 as it was before the shift; the low part of the register and the flags change, nothing else. -/
def Obligations.RegisterShifts : Prop :=
  ∀ (s : State) (cnt : ShiftCount) (sz : Size) (r : RegNum) (i : Instr) (op : ShiftOp),
    (i, op) ∈ [(Instr.asrReg cnt sz r, ShiftOp.asr), (Instr.aslReg cnt sz r, ShiftOp.asl),
      (Instr.lsrReg cnt sz r, ShiftOp.lsr), (Instr.lslReg cnt sz r, ShiftOp.lsl), (Instr.roxrReg cnt sz r, ShiftOp.roxr),
      (Instr.roxlReg cnt sz r, ShiftOp.roxl), (Instr.rorReg cnt sz r, ShiftOp.ror), (Instr.rolReg cnt sz r, ShiftOp.rol)] →
    let count := match cnt with | .imm c => if c = 0#3 then 8 else c.toNat | .reg n => (s.getD n).toNat % 64
    let a := op.apply sz count (s.getD r) s.ccr
    exec i s = .next { s.setDPart sz r a.1 with ccr := a.2, pc := s.pc + 2#32 }

/-- BTST, BCHG, BCLR and BSET on a data register (45_bit_bcd.md R300 to R304): a long operand, the bit number modulo 32; Z is the
complement of the bit before the change; no other flag and no other register changes. -/
def Obligations.BitOnRegister : Prop :=
  ∀ (s : State) (n m : RegNum) (bit : Byte) (dynamic : Bool),
    let b := (if dynamic then (s.getD n).toNat else bit.toNat) % 32
    let v := s.getD m
    let pc := if dynamic then s.pc + 2#32 else s.pc + 4#32
    let flags : Ccr := { s.ccr with z := !v.getLsbD b }
    let ea := Ea.dn m
    let next (i : Instr) (x : Word) := exec i s = .next { s.setD m x with ccr := flags, pc := pc }
    next (if dynamic then .btstDyn n ea else .btstImm bit ea) v ∧
    next (if dynamic then .bchgDyn n ea else .bchgImm bit ea) (v ^^^ (1#32 <<< b)) ∧
    next (if dynamic then .bclrDyn n ea else .bclrImm bit ea) (v &&& ~~~(1#32 <<< b)) ∧
    next (if dynamic then .bsetDyn n ea else .bsetImm bit ea) (v ||| (1#32 <<< b))

/-- BTST, BCHG, BCLR and BSET on a byte (45_bit_bcd.md R300 to R304): the bit number modulo 8; BTST writes nothing. -/
def Obligations.BitOnByte : Prop :=
  ∀ (s t : State) (n : RegNum) (bit : Byte) (dynamic : Bool) (ea : Ea) (l : Loc), ea.kind ≠ .dn →
    Resolves s (if dynamic then 1 else 2) .b ea l t → Readable t .b l →
    let b := (if dynamic then (s.getD n).toNat else bit.toNat) % 8
    let v := valueOf t .b l
    let flags : Ccr := { s.ccr with z := !v.getLsbD b }
    (let i := if dynamic then Instr.btstDyn n ea else Instr.btstImm bit ea
     exec i s = .next { t with ccr := flags, pc := s.ipAt i.words }) ∧
    (Writable t .b l →
      ∀ (i : Instr) (x : Word),
        (i, x) ∈ [(if dynamic then Instr.bchgDyn n ea else Instr.bchgImm bit ea, v ^^^ (1#32 <<< b)),
          (if dynamic then Instr.bclrDyn n ea else Instr.bclrImm bit ea, v &&& ~~~(1#32 <<< b)),
          (if dynamic then Instr.bsetDyn n ea else Instr.bsetImm bit ea, v ||| (1#32 <<< b))] →
        ∃ w, exec i s = .next { w with ccr := flags, pc := s.ipAt i.words } ∧ StoresOnly .b l x t w)

/-- ABCD, SBCD and NBCD (45_bit_bcd.md R306 to R310) complete on every operand: N and V are free; on valid digits the byte is the
decimal result, X = C the decimal carry or borrow and Z is sticky; on others the byte and all flags are free (log 18, log 19). Only the
destination byte and the flags change. -/
def Obligations.DecimalInstructions : Prop :=
  (∀ (s t u : State) (x y : RegNum) (mem : Bool) (l m : Loc) (subtract : Bool),
    PairResolves s .b mem y l t → Readable t .b l → PairResolves t .b mem x m u → Readable u .b m → Writable u .b m →
    let a : Byte := (valueOf t .b l).extractLsb' 0 8
    let b : Byte := (valueOf u .b m).extractLsb' 0 8
    let i := if subtract then Instr.sbcd x mem y else Instr.abcd x mem y
    let r := if subtract then bcdSub a b s.ccr.x else bcdAdd a b s.ccr.x
    ∃ (w : State) (byte : Byte) (f : Ccr) (k : Nat),
      exec i s = .next { w with ccr := f, pc := s.pc + 2#32, draws := s.draws + k } ∧
      StoresOnly .b m (byte.setWidth 32) u w ∧
      (bcdValid a = true → bcdValid b = true →
        byte = r.res ∧ f.x = r.c ∧ f.c = r.c ∧ f.z = (s.ccr.z && r.res == 0#8) ∧ k = 2)) ∧
  (∀ (s t : State) (ea : Ea) (l : Loc), Resolves s 1 .b ea l t → Readable t .b l → Writable t .b l →
    let a : Byte := (valueOf t .b l).extractLsb' 0 8
    let r := bcdSub a 0#8 s.ccr.x
    ∃ (w : State) (byte : Byte) (f : Ccr) (k : Nat),
      exec (.nbcd ea) s = .next { w with ccr := f, pc := s.ipAt (Instr.nbcd ea).words, draws := s.draws + k } ∧
      StoresOnly .b l (byte.setWidth 32) t w ∧
      (bcdValid a = true → byte = r.res ∧ f.x = r.c ∧ f.c = r.c ∧ f.z = (s.ccr.z && r.res == 0#8) ∧ k = 2))

/-! ## Program control -/

/-- Bcc, BRA, DBcc and JMP (46_program_control.md R321, R322, R324, R325, R335): targets are `pc + 2` plus the displacement, or
the effective address; only `pc` changes, and for DBcc the low word of the counter. -/
def Obligations.BranchesAndJumps : Prop :=
  ∀ (s : State) (c : Cond) (d : BranchDisp) (r : RegNum) (d16 : Word16),
    let disp : Word := match d with | .short b => b.signExtend 32 | .word w => w.signExtend 32 | .long l => l
    let count := (s.getD r).extractLsb' 0 16 - 1#16
    exec (.bra d) s = .next { s with pc := s.pc + 2#32 + disp } ∧
    exec (.bcc c d) s =
      .next { s with pc := if s.ccr.holds c then s.pc + 2#32 + disp else s.ipAt (Instr.bcc c d).words } ∧
    exec (.dbcc c r d16) s =
      .next (if s.ccr.holds c then { s with pc := s.pc + 4#32 }
             else { s.setDPart .w r (count.setWidth 32) with
               pc := if count = 0xFFFF#16 then s.pc + 4#32 else s.pc + 2#32 + d16.signExtend 32 }) ∧
    (∀ ea a, ControlResolves s 1 ea a s → exec (.jmp ea) s = .next { s with pc := a })

/-- RTS and RTR (46_program_control.md R327, R328): the long word at the stack pointer becomes `pc`; RTR first takes the flags
from bits 4–0 of a word; the system byte of SR and memory are unchanged. -/
def Obligations.Returns : Prop :=
  ∀ (s : State),
    (s.accessible (s.fc false) false .l s.sp = true →
      exec .rts s = .next { s.setSp (s.sp + 4#32) with pc := s.longAt s.sp }) ∧
    (s.accessible (s.fc false) false .w s.sp = true → s.accessible (s.fc false) false .l (s.sp + 2#32) = true →
      exec .rtr s =
        .next { s.setSp (s.sp + 6#32) with pc := s.longAt (s.sp + 2#32), ccr := Ccr.ofWord (s.wordAt s.sp) })

/-! ## System control -/

/-- ANDI, ORI and EORI to CCR and MOVE to CCR (47_system_control.md R361 to R363, R367): bits 4–0 act on X N Z V C; the system
byte and everything else are unchanged, in either mode. -/
def Obligations.CcrWrites : Prop :=
  ∀ (s : State) (v : Byte),
    let b := Ccr.ofWord (v.setWidth 16)
    let f := s.ccr
    exec (.andiCcr v) s = .next { s with
      ccr := ⟨f.x && b.x, f.n && b.n, f.z && b.z, f.v && b.v, f.c && b.c⟩, pc := s.pc + 4#32 } ∧
    exec (.oriCcr v) s = .next { s with
      ccr := ⟨f.x || b.x, f.n || b.n, f.z || b.z, f.v || b.v, f.c || b.c⟩, pc := s.pc + 4#32 } ∧
    exec (.eoriCcr v) s = .next { s with
      ccr := ⟨f.x != b.x, f.n != b.n, f.z != b.z, f.v != b.v, f.c != b.c⟩, pc := s.pc + 4#32 } ∧
    (∀ (t : State) (ea : Ea) (l : Loc), Resolves s 1 .w ea l t → Readable t .w l →
      exec (.moveToCcr ea) s =
        .next { t with ccr := Ccr.ofWord ((valueOf t .w l).extractLsb' 0 16), pc := s.ipAt (Instr.moveToCcr ea).words })

/-- In supervisor mode, ANDI, ORI and EORI to SR, MOVE to SR and STOP write SR whole, its unimplemented bits staying 0
(47_system_control.md R364 to R366, R369, R378; 10_state.md R42); STOP stops the processor; MOVE USP moves USP; RESET changes no
register, no flag and no memory
(47_system_control.md R370, R376). Both stack pointers keep their values when S changes (47_system_control.md R382). -/
def Obligations.SupervisorInstructions : Prop :=
  ∀ (s : State) (v : Word16), s.isSuper = true →
    let m := s.cfg.cpu.srMask
    (∀ (t : State) (i : Instr) (w : Word16) (n : Nat),
      ((i, w, t, n) ∈ [(Instr.andiSr v, s.sr &&& v, s, 2), (Instr.oriSr v, s.sr ||| v, s, 2),
          (Instr.eoriSr v, s.sr ^^^ v, s, 2)] ∨
        (∃ ea l, Resolves s 1 .w ea l t ∧ Readable t .w l ∧ i = .moveToSr ea ∧ w = (valueOf t .w l).extractLsb' 0 16 ∧
          n = i.words)) →
      ∃ u : State, exec i s = .next { t with sys := u.sys, ccr := u.ccr, pc := s.ipAt n } ∧ u.sr = w &&& m) ∧
    ((s.cfg.cpu.isBaseline = true ∨ v.getLsbD 13 = true) →
      ∃ u : State, exec (.stop v) s = .next { s with sys := u.sys, ccr := u.ccr, pc := s.pc + 4#32, run := .stopped } ∧
        u.sr = v &&& m) ∧
    (∀ r : RegNum,
      exec (.moveUsp false r) s = .next { s with usp := s.getA r, pc := s.pc + 2#32 } ∧
      exec (.moveUsp true r) s = .next { s.setA r s.usp with pc := s.pc + 2#32 }) ∧
    exec .reset s = .next { s with resetPulses := s.resetPulses + 1, pc := s.pc + 2#32 }

/-- A privileged instruction in user mode takes the privilege violation and has no effect of its own
(47_system_control.md R377; 60_exceptions.md R436); on MC68010 and later so does a STOP whose immediate clears S (R378). A step
takes it where only the operation word at `pc` can be fetched, before any extension word (R377; 70_reset_and_hazards.md R483): vector
8, the frame holds the word's own address and the SR, no register changes, no trace follows (60_exceptions.md R442, R444). On later
members the frame's format 0 (log 12) and the stack that M, being kept, selects (log 13) are the model's choices. -/
def Obligations.PrivilegeViolation : Prop :=
  ∀ (s : State),
    (∀ i : Instr, s.isSuper = false → privileged s.cfg.cpu i = true → exec i s = takeException .privilege s) ∧
    (∀ v : Word16, s.isSuper = true → s.cfg.cpu.isBaseline = false → v.getLsbD 13 = false →
      exec (.stop v) s = takeException .privilege s) ∧
    (∀ i : Instr, s.isSuper = false → i.wf s.cfg.cpu = true → privileged s.cfg.cpu i = true →
      s.fetchable s.pc 1 = true → s.staleAt s.pc = [] → (encode i).head? = some (s.wordAt s.pc) →
      runOne s = afterRaise (takeException .privilege { s with tracing := s.traceMode }) ∧
      (s.ended = false → s.nextPins.reset = false → s.nextPins.halt = false → s.run = .running → s.interrupted = false →
        EntryReady s .privilege →
        ∃ t, step s = .next t ∧ t.isSuper = true ∧ t.usp = s.usp ∧ t.d = s.d ∧ t.a = s.a ∧ t.ccr = s.ccr ∧ t.tracing = .off ∧
          t.pc = t.longAt (s.vectorBase + 32#32) ∧
          (s.mem.wf = true → 3 ≤ s.cfg.addrBits → t.longAt (t.sp + 2#32) = s.pc ∧ t.wordAt t.sp = s.sr)))

/-- CHK, word and long (47_system_control.md R371): no trap when the register, or its low word, lies between 0 and the bound;
else `pc` moves on and the CHK exception is taken, with N telling which; Z, V and C, and N without a trap, are free (log 19); X is
kept. R371's pseudocode is the word form only: that the long form, which it names for MC68020 and later, is the same with 32-bit
operands is the model's choice (log 34). -/
def Obligations.CheckBounds : Prop :=
  ∀ (s t : State) (r : RegNum) (long : Bool) (ea : Ea) (l : Loc),
    Resolves s 1 (Size.ofLong long) ea l t → Readable t (Size.ofLong long) l →
    let signed (x : Word) : Int := if long then x.toInt else (x.extractLsb' 0 16).toInt
    let v := signed (s.getD r)
    let bound := signed (valueOf t (Size.ofLong long) l)
    let i := Instr.chk r ⟨long, ea⟩
    (0 ≤ v → v ≤ bound → ∃ f : Ccr, f.x = s.ccr.x ∧
      exec i s = .next { t with ccr := f, pc := s.ipAt i.words, draws := s.draws + 4 }) ∧
    (v < 0 ∨ bound < v → ∃ f : Ccr, f.x = s.ccr.x ∧ f.n = decide (v < 0) ∧
      exec i s = takeException (.chk s.pc) { t with ccr := f, pc := s.ipAt i.words, draws := s.draws + 4 })

/-- TRAP, TRAPV and ILLEGAL (47_system_control.md R372 to R374; 60_exceptions.md R435, R438 to R441): when the frame can be
pushed and the vector read, exec answers the state after entry, for TRAP and TRAPV from the state with `pc` at the next
instruction; without V, TRAPV only advances `pc`. On later members two parts of that entry are the model's choices: format 0 for
every frame, that of TRAPV among them (log 12), and M being kept (log 13). -/
def Obligations.TrapInstructions : Prop :=
  ∀ (s : State) (v : BitVec 4),
    let next : State := { s with pc := s.pc + 2#32 }
    (EntryReady s (.trap v s.pc) →
      ∃ t, exec (.trap v) s = .next t ∧ Entered next (.trap v s.pc) t ∧
        (s.mem.wf = true → 3 ≤ s.cfg.addrBits → t.longAt (t.sp + 2#32) = s.pc + 2#32)) ∧
    (EntryReady s .illegal → ∃ t, exec .illegal s = .next t ∧ Entered s .illegal t) ∧
    (s.ccr.v = true → EntryReady s (.trapV s.pc) →
      ∃ t, exec .trapv s = .next t ∧ Entered next (.trapV s.pc) t ∧
        (s.mem.wf = true → 3 ≤ s.cfg.addrBits → t.longAt (t.sp + 2#32) = s.pc + 2#32)) ∧
    (s.ccr.v = false → exec .trapv s = .next next)

/-! ## Exceptions, reset, interrupts, trace -/

/-- Exception processing outside group 0 (60_exceptions.md R431, R440 to R442), for every exception: the frame is pushed on the
supervisor stack, S is set, T and T0 are cleared, an interrupt sets the mask to its level; `pc` comes from the vector, read as
supervisor program for vectors 0 and 1; nothing else changes. The vector numbers are those of R431's table. Where exceptions are terminal, the run ends with the state at the raise (70_reset_and_hazards.md R489). The model's
choices: format 0 on every later member (log 12), M cleared by an interrupt and kept otherwise (log 13), the stacked PC of Format
Error (log 33). -/
def Obligations.ExceptionEntry : Prop :=
  ∀ (s : State) (e : Exc),
    (EntryReady s e → ∃ t, takeException e s = .next t ∧ Entered s e t ∧
      t.sys.getLsbD 5 = true ∧ t.sys.getLsbD 7 = false ∧ t.sys.getLsbD 6 = false ∧
      t.mask = (match e with | .interrupt level _ => level | _ => s.mask)) ∧
    (s.cfg.halt = .firstRaise → takeException e s = .fault (.exception e s)) ∧
    (∀ (op : Word) (n : BitVec 4) (level : BitVec 3) (vec : BitVec 8),
      Exc.illegal.vector = 4#8 ∧ (Exc.zeroDivide op).vector = 5#8 ∧ (Exc.chk op).vector = 6#8 ∧ (Exc.trapV op).vector = 7#8 ∧
      Exc.privilege.vector = 8#8 ∧ Exc.trace.vector = 9#8 ∧ Exc.lineA.vector = 10#8 ∧ Exc.lineF.vector = 11#8 ∧
      Exc.formatError.vector = 14#8 ∧ (Exc.trap n op).vector.toNat = 32 + n.toNat ∧ (Exc.interrupt level vec).vector = vec)

/-- A bus or address error on MC68000 and MC68008 pushes the 14-byte frame (60_exceptions.md R443). On MC68010 and later, where all
of memory is RAM, it pushes a frame of four or more words that ends in a format word with the vector's offset (60_exceptions.md R441), whose
number of words, format and other contents are the model's free values (log 12); S is set, T and T0 are cleared, `pc` comes from the
vector (60_exceptions.md R440), nothing else changes; that on MC68020, MC68030 and MC68040 M is kept and selects the stack of the
frame is the model's choice (log 13). Where exceptions are terminal, the error ends the run on every member
(70_reset_and_hazards.md R489). -/
def Obligations.AccessFaultFrame : Prop :=
  ∀ (s : State) (f : AccessFault) (inException : Bool) (op : Word),
    (s.cfg.cpu.isBaseline = true → Group0Ready s f.bus →
      ∃ t, takeAccessFault f inException op s = .next t ∧ Group0Entered s f inException op t) ∧
    (let u := s.entered (entrySys s.sys)
     let offset : Nat := if f.bus then 8 else 12
     s.cfg.cpu.formatWord = true → s.cfg.halt ≠ .firstRaise → s.cfg.memMap = [] →
      u.misaligned .w u.sp = false → u.misaligned .l s.vbr = false →
      ∃ (t : State) (n : Nat), 4 ≤ n ∧ takeAccessFault f inException op s = .next t ∧
        t.sys = entrySys s.sys ∧ t.sys.getLsbD 5 = true ∧ t.sys.getLsbD 7 = false ∧ t.sys.getLsbD 6 = false ∧
        t.ccr = s.ccr ∧ t.run = .running ∧ t.tracing = .off ∧ t.usp = s.usp ∧ t.d = s.d ∧ t.a = s.a ∧ t.vbr = s.vbr ∧
        t.cfg = s.cfg ∧ (if u.onMaster then t.ssp = s.ssp else t.msp = s.msp) ∧
        t.sp = u.sp - BitVec.ofNat 32 (2 * n) ∧ t.pc = t.longAt (s.vbr + BitVec.ofNat 32 offset) ∧
        t.pins = s.pins ∧ t.inputs = s.inputs ∧ t.resetPulses = s.resetPulses ∧
        (s.mem.wf = true → 3 ≤ s.cfg.addrBits → 2 * n ≤ s.space ∧
          ((t.wordAt (u.sp - 2#32)).extractLsb' 0 12).toNat = offset) ∧
        BytesKept s t t.sp (2 * n)) ∧
    (s.cfg.halt = .firstRaise → takeAccessFault f inException op s = .fault (.access f s))

/-- Double bus faults (60_exceptions.md R447), where exceptions are processed. A supervisor stack pointer that is odd halts the
members with ALIGN_FAULT at the next exception of any kind: the push raises address error, its own push raises another (20_memory.md
R65). A bus or address error halts MC68010 and later where the format word, their frame's highest word (60_exceptions.md R441), cannot
be stored (that it is stored first: log 37; that M, kept at entry, selects its stack: log 13), and every member where the vector cannot be read and no device is in the way. A halted processor with nothing to come makes no step (this stuck state is the model's fault, log 10). -/
def Obligations.DoubleFaultHalts : Prop :=
  ∀ (s : State), s.cfg.halt ≠ .firstRaise →
    let u := s.entered (entrySys s.sys)
    (s.cfg.cpu.is020 = false → s.ssp.getLsbD 0 = true →
      (∀ e : Exc, ∃ t, takeException e s = .next t ∧ t.run = .halted ∧ t.pc = s.pc) ∧
      (∀ f b op, ∃ t, takeAccessFault f b op s = .next t ∧ t.run = .halted ∧ t.pc = s.pc)) ∧
    (s.cfg.cpu.formatWord = true → u.verdict .superData true .w (u.sp - 2#32) = .busError →
      ∀ f b op, ∃ t, takeAccessFault f b op s = .next t ∧ t.run = .halted ∧ t.pc = s.pc) ∧
    ((∀ r ∈ s.cfg.memMap, r.kind ≠ .device) → ∀ f b op,
      s.verdict .superData false .l (s.vectorBase + if f.bus then 8#32 else 12#32) = .busError →
      ∃ t, takeAccessFault f b op s = .next t ∧ t.run = .halted ∧ t.pc = s.pc) ∧
    (s.run = .halted → s.inputs = [] → s.pins.reset = false → s.ended = false → step s = .fault .halted)

/-- RTE in supervisor mode on a frame of format 0 (47_system_control.md R375): SR and `pc` come from the frame, the stack
pointer moves past it, memory and all other registers are unchanged. -/
def Obligations.RteCompletes : Prop :=
  ∀ (s : State), s.isSuper = true →
    s.accessible .superData false .w s.sp = true → s.accessible .superData false .l (s.sp + 2#32) = true →
    (s.cfg.cpu.formatWord = true →
      s.accessible .superData false .w (s.sp + 6#32) = true ∧ (s.wordAt (s.sp + 6#32)).extractLsb' 12 4 = 0#4) →
    ∃ u : State, exec .rte s =
        .next { s.setSp (s.sp + BitVec.ofNat 32 (frameBytes s)) with
          sys := u.sys, ccr := u.ccr, pc := s.longAt (s.sp + 2#32) } ∧
      u.sr = s.wordAt s.sp &&& s.cfg.cpu.srMask

/-- TRAP from any mode, then RTE, where the frame can be pushed and read back: the machine is back after the TRAP with SR, both
modes' registers and every byte outside the frame as before (60_exceptions.md R451, R461).
On later members two parts are the model's choices: the frame has format 0 (log 12), and M is kept and selects its stack (log 13). -/
def Obligations.TrapThenReturn : Prop :=
  ∀ (s : State) (v : BitVec 4), s.Inv → 3 ≤ s.cfg.addrBits → EntryReady s (.trap v s.pc) →
    let frame := (s.entered (entrySys s.sys)).sp - BitVec.ofNat 32 (frameBytes s)
    s.accessible .superData false .w frame = true → s.accessible .superData false .l (frame + 2#32) = true →
    (s.cfg.cpu.formatWord = true → s.accessible .superData false .w (frame + 6#32) = true) →
    ∃ t u, exec (.trap v) s = .next t ∧ exec .rte t = .next u ∧
      u.sr = s.sr ∧ u.pc = s.pc + 2#32 ∧ u.usp = s.usp ∧ u.ssp = s.ssp ∧ u.msp = s.msp ∧ u.d = s.d ∧ u.a = s.a ∧
      u.run = .running ∧ BytesKept s u t.sp (frameBytes s)

/-- Reset (70_reset_and_hazards.md R480): the system byte of SR is $27, VBR is 0, SSP and `pc` are the long words at 0 and 4 read
as supervisor program, the processor runs; nothing else of the machine changes. If a read fails, the one at 0 or the one at 4, it
halts (60_exceptions.md R447) in the state reached so far (log 30). A step with the reset input asserted is the reset: for a
running or stopped processor by 70_reset_and_hazards.md R483; that it is so for a halted one too, which R483's line order tests
first, is the model's reading of 60_exceptions.md R457, 'left only by reset' (log 9). Two more choices of the model: reset comes
before a halt input at the same boundary (log 36), and a failing read halts the processor also where exceptions end the run
(log 32). -/
def Obligations.ResetSequence : Prop :=
  ∀ (s : State),
    (s.accessible .superProgram false .l 0#32 = true → s.accessible .superProgram false .l 4#32 = true →
      takeReset s = .next { s with
        sys := 0x27#8, vbr := 0#32, ssp := s.longAt 0#32, pc := s.longAt 4#32, run := .running, tracing := .off }) ∧
    (s.verdict .superProgram false .l 0#32 = .busError →
      takeReset s = .next { s with sys := 0x27#8, vbr := 0#32, run := .halted, tracing := .off }) ∧
    (s.accessible .superProgram false .l 0#32 = true → s.verdict .superProgram false .l 4#32 = .busError →
      takeReset s = .next { s with
        sys := 0x27#8, vbr := 0#32, ssp := s.longAt 0#32, run := .halted, tracing := .off }) ∧
    (s.ended = false → s.nextPins.reset = true → step s = settled (takeReset s.sampled))

/-- An interrupt (60_exceptions.md R450): at a boundary where the run has not ended and reset and halt are not asserted, a level
above the mask, or one that has just risen to 7, is taken from the running and the stopped state alike; the mask becomes the
level, the stacked PC is the next instruction's; a level at or below the mask, not such an edge, leaves a stopped processor
stopped. The acknowledge gives the device's vector, or 24 + level, or 24, or 15 (60_exceptions.md R449, R450). The model's: the list
of pin samples (log 7), the stuck state (log 10), format 0 on later members (log 12), M cleared on MC68020/030/040 (log 13). -/
def Obligations.InterruptTaken : Prop :=
  (∀ (level : BitVec 3) (vec : BitVec 8),
    Ack.vectorFor level (.vector vec) = vec ∧ (Ack.vectorFor level .auto).toNat = 24 + level.toNat ∧
    Ack.vectorFor level .spurious = 24#8 ∧ Ack.vectorFor level .uninitialized = 15#8) ∧
  ∀ (s : State),
    let p := s.nextPins
    let e : Exc := .interrupt p.ipl (Ack.vectorFor p.ipl p.ack)
    s.ended = false → p.reset = false → p.halt = false → s.run ≠ .halted →
    ((s.mask < p.ipl ∨ (p.ipl = 7#3 ∧ s.pins.ipl ≠ 7#3)) → EntryReady s e →
      ∃ t, step s = .next t ∧ t.mask = p.ipl ∧ t.isSuper = true ∧ t.onMaster = false ∧ t.run = .running ∧
        t.usp = s.usp ∧ t.msp = s.msp ∧ t.d = s.d ∧ t.a = s.a ∧
        t.pc = t.longAt (s.vectorBase + (e.vector.setWidth 32 <<< 2)) ∧
        (s.mem.wf = true → 3 ≤ s.cfg.addrBits → t.longAt (t.sp + 2#32) = s.pc ∧ t.wordAt t.sp = s.sr)) ∧
    (¬ (s.mask < p.ipl ∨ (p.ipl = 7#3 ∧ s.pins.ipl ≠ 7#3)) → s.run = .stopped →
      step s = if s.inputs = [] then .fault .stopped else .next s.sampled)

/-- Trace (60_exceptions.md R444): an instruction that began with T set and completed is followed by the trace exception, with
the address of the next instruction to execute; one that began with T and T0 clear is not followed by it, whatever SR is now.
A step runs the end of the instruction in which this happens. How the model holds the sampled condition, which an instruction that
ended in illegal, privilege, bus or address error processing drops: log 23. On later members the frame's format 0 (log 12) and the
stack that M, being kept, selects (log 13) are the model's choices. -/
def Obligations.TraceFollows : Prop :=
  (∀ (s : State) (changed : Bool), s.tracing = .all → EntryReady s .trace →
    ∃ t, endInstr changed s = .next t ∧ t.isSuper = true ∧
      t.pc = t.longAt (s.vectorBase + 36#32) ∧
      (s.mem.wf = true → 3 ≤ s.cfg.addrBits → t.longAt (t.sp + 2#32) = s.pc ∧ t.wordAt t.sp = s.sr)) ∧
  (∀ (s : State) (changed : Bool), s.tracing = .off →
    ∃ l, endInstr changed s = .next { s with stale := l }) ∧
  (∀ (s : State) (taken : Bool) (seq : Word),
    afterExec taken seq (.next s) = endInstr (taken || s.pc != seq) s) ∧
  (∀ (s u : State) (i : Instr),
    s.ended = false → s.nextPins.reset = false → s.nextPins.halt = false → s.run = .running → s.interrupted = false →
    (∀ j < i.words, s.staleAt (s.pc + BitVec.ofNat 32 (2 * j)) = []) → s.fetchable s.pc i.words = true →
    decode s.cfg.cpu (s.wordsAt s.pc i.words) = .done i [] →
    (privileged s.cfg.cpu i = true → s.isSuper = true) →
    (s.sys.getLsbD 7 = true → exec i { s.sampled with tracing := .all } = .next u → u.tracing = .all → EntryReady u .trace →
      ∃ t, step s = .next t ∧ t.isSuper = true ∧ t.pc = t.longAt (u.vectorBase + 36#32) ∧
        (u.mem.wf = true → 3 ≤ u.cfg.addrBits → t.longAt (t.sp + 2#32) = u.pc ∧ t.wordAt t.sp = u.sr)) ∧
    (s.sys.getLsbD 7 = false → s.sys.getLsbD 6 = false →
      exec i { s.sampled with tracing := .off } = .next u → u.tracing = .off → ∃ l, step s = .next { u with stale := l })) ∧
  (∀ s : State, s.sys.getLsbD 7 = true → s.traceMode = .all) ∧
  (∀ s : State, s.sys.getLsbD 7 = false → s.sys.getLsbD 6 = false → s.traceMode = .off)

/-- A step runs the decoded instruction (70_reset_and_hazards.md R483): when the run has not ended, no reset, halt or interrupt is
there, no word of the instruction is stale and the words at `pc` decode to `i`, which the mode may run, the step is `exec` of `i` at
the state with its pins and its trace condition sampled, followed by the end of the instruction (trace, and the prefetch window).
No step is made where the run has ended: at the sentinel address or at `BRA *`, under the convention that says so
(70_reset_and_hazards.md R489; how a step shows it, and that for `BRA *` the bytes that memory holds at `pc` decide, are the model's
choices: log 32). -/
def Obligations.StepRunsDecoded : Prop :=
  (∀ (s : State) (i : Instr),
    s.ended = false → s.nextPins.reset = false → s.nextPins.halt = false → s.run = .running → s.interrupted = false →
    (∀ j < i.words, s.staleAt (s.pc + BitVec.ofNat 32 (2 * j)) = []) → s.fetchable s.pc i.words = true →
    decode s.cfg.cpu (s.wordsAt s.pc i.words) = .done i [] →
    (privileged s.cfg.cpu i = true → s.isSuper = true) →
    step s = afterExec (s.transfers i) (s.ipAt i.words) (exec i { s.sampled with tracing := s.traceMode })) ∧
  (∀ s : State,
    s.cfg.halt = .sentinel s.pc ∨ (s.cfg.halt = .selfBranch ∧ s.wordAt s.pc = 0x60FE#16) → step s = .fault .ended)

/-! ## The whole machine -/

/-- The invariant holds after reset (10_state.md R42, R45): memory is canonical and the unimplemented bits of SR are 0. -/
def Obligations.ResetInvariant : Prop := State.reset.Inv

/-- Every step keeps the invariant: memory stays canonical, and the unimplemented bits of SR read 0 (10_state.md R42). -/
def Obligations.StepKeepsInvariant : Prop :=
  ∀ s t : State, s.Inv → step s = .next t → t.Inv

/-- Whatever a program does in user mode, as long as a step leaves it there it changes neither SSP nor MSP, nor the system byte
of SR, nor the vector base, nor pulses the reset line (10_state.md R39, R40; 60_exceptions.md R448). -/
def Obligations.UserModeIsolation : Prop :=
  ∀ s t : State, s.isSuper = false → step s = .next t → t.isSuper = false →
    t.ssp = s.ssp ∧ t.msp = s.msp ∧ t.sys = s.sys ∧ t.vbr = s.vbr ∧ t.resetPulses = s.resetPulses ∧ t.cfg = s.cfg

/-- User mode is left only by exception processing, reset among it (60_exceptions.md R448): then `pc` is a long word of the
vector table, unless the processor has halted; and the trace bits are clear. -/
def Obligations.SupervisorEntry : Prop :=
  ∀ s t : State, s.isSuper = false → step s = .next t → t.isSuper = true →
    t.sys.getLsbD 7 = false ∧ t.sys.getLsbD 6 = false ∧
    (t.run = .halted ∨ ∃ v : BitVec 8, t.pc = t.longAt (t.vectorBase + (v.setWidth 32 <<< 2)))
end

