-- ==== Sys2Proof/Laws/State.lean ====
section
/-! SUPPORT. The fields of State after each update, and registers after a write to a register. -/

namespace Sys2Proof.Machine

/-! ## setD -/

@[simp] theorem State.setD_cfg (s : State) (n : RegNum) (v : Word) : (s.setD n v).cfg = s.cfg := rfl
@[simp] theorem State.setD_a (s : State) (n : RegNum) (v : Word) : (s.setD n v).a = s.a := rfl
@[simp] theorem State.setD_usp (s : State) (n : RegNum) (v : Word) : (s.setD n v).usp = s.usp := rfl
@[simp] theorem State.setD_ssp (s : State) (n : RegNum) (v : Word) : (s.setD n v).ssp = s.ssp := rfl
@[simp] theorem State.setD_msp (s : State) (n : RegNum) (v : Word) : (s.setD n v).msp = s.msp := rfl
@[simp] theorem State.setD_pc (s : State) (n : RegNum) (v : Word) : (s.setD n v).pc = s.pc := rfl
@[simp] theorem State.setD_sys (s : State) (n : RegNum) (v : Word) : (s.setD n v).sys = s.sys := rfl
@[simp] theorem State.setD_ccr (s : State) (n : RegNum) (v : Word) : (s.setD n v).ccr = s.ccr := rfl
@[simp] theorem State.setD_vbr (s : State) (n : RegNum) (v : Word) : (s.setD n v).vbr = s.vbr := rfl
@[simp] theorem State.setD_run (s : State) (n : RegNum) (v : Word) : (s.setD n v).run = s.run := rfl
@[simp] theorem State.setD_mem (s : State) (n : RegNum) (v : Word) : (s.setD n v).mem = s.mem := rfl
@[simp] theorem State.setD_pins (s : State) (n : RegNum) (v : Word) : (s.setD n v).pins = s.pins := rfl
@[simp] theorem State.setD_inputs (s : State) (n : RegNum) (v : Word) : (s.setD n v).inputs = s.inputs := rfl
@[simp] theorem State.setD_resetPulses (s : State) (n : RegNum) (v : Word) : (s.setD n v).resetPulses = s.resetPulses := rfl
@[simp] theorem State.setD_stale (s : State) (n : RegNum) (v : Word) : (s.setD n v).stale = s.stale := rfl
@[simp] theorem State.setD_tracing (s : State) (n : RegNum) (v : Word) : (s.setD n v).tracing = s.tracing := rfl
@[simp] theorem State.setD_draws (s : State) (n : RegNum) (v : Word) : (s.setD n v).draws = s.draws := rfl

/-! ## setDPart -/

@[simp] theorem State.setDPart_cfg (s : State) (sz : Size) (n : RegNum) (v : Word) : (s.setDPart sz n v).cfg = s.cfg := rfl
@[simp] theorem State.setDPart_a (s : State) (sz : Size) (n : RegNum) (v : Word) : (s.setDPart sz n v).a = s.a := rfl
@[simp] theorem State.setDPart_usp (s : State) (sz : Size) (n : RegNum) (v : Word) : (s.setDPart sz n v).usp = s.usp := rfl
@[simp] theorem State.setDPart_ssp (s : State) (sz : Size) (n : RegNum) (v : Word) : (s.setDPart sz n v).ssp = s.ssp := rfl
@[simp] theorem State.setDPart_msp (s : State) (sz : Size) (n : RegNum) (v : Word) : (s.setDPart sz n v).msp = s.msp := rfl
@[simp] theorem State.setDPart_pc (s : State) (sz : Size) (n : RegNum) (v : Word) : (s.setDPart sz n v).pc = s.pc := rfl
@[simp] theorem State.setDPart_sys (s : State) (sz : Size) (n : RegNum) (v : Word) : (s.setDPart sz n v).sys = s.sys := rfl
@[simp] theorem State.setDPart_ccr (s : State) (sz : Size) (n : RegNum) (v : Word) : (s.setDPart sz n v).ccr = s.ccr := rfl
@[simp] theorem State.setDPart_vbr (s : State) (sz : Size) (n : RegNum) (v : Word) : (s.setDPart sz n v).vbr = s.vbr := rfl
@[simp] theorem State.setDPart_run (s : State) (sz : Size) (n : RegNum) (v : Word) : (s.setDPart sz n v).run = s.run := rfl
@[simp] theorem State.setDPart_mem (s : State) (sz : Size) (n : RegNum) (v : Word) : (s.setDPart sz n v).mem = s.mem := rfl
@[simp] theorem State.setDPart_pins (s : State) (sz : Size) (n : RegNum) (v : Word) : (s.setDPart sz n v).pins = s.pins := rfl
@[simp] theorem State.setDPart_inputs (s : State) (sz : Size) (n : RegNum) (v : Word) : (s.setDPart sz n v).inputs = s.inputs := rfl
@[simp] theorem State.setDPart_resetPulses (s : State) (sz : Size) (n : RegNum) (v : Word) : (s.setDPart sz n v).resetPulses = s.resetPulses := rfl
@[simp] theorem State.setDPart_stale (s : State) (sz : Size) (n : RegNum) (v : Word) : (s.setDPart sz n v).stale = s.stale := rfl
@[simp] theorem State.setDPart_tracing (s : State) (sz : Size) (n : RegNum) (v : Word) : (s.setDPart sz n v).tracing = s.tracing := rfl
@[simp] theorem State.setDPart_draws (s : State) (sz : Size) (n : RegNum) (v : Word) : (s.setDPart sz n v).draws = s.draws := rfl

/-! ## setSr -/

@[simp] theorem State.setSr_cfg (s : State) (w : Word16) : (s.setSr w).cfg = s.cfg := rfl
@[simp] theorem State.setSr_d (s : State) (w : Word16) : (s.setSr w).d = s.d := rfl
@[simp] theorem State.setSr_a (s : State) (w : Word16) : (s.setSr w).a = s.a := rfl
@[simp] theorem State.setSr_usp (s : State) (w : Word16) : (s.setSr w).usp = s.usp := rfl
@[simp] theorem State.setSr_ssp (s : State) (w : Word16) : (s.setSr w).ssp = s.ssp := rfl
@[simp] theorem State.setSr_msp (s : State) (w : Word16) : (s.setSr w).msp = s.msp := rfl
@[simp] theorem State.setSr_pc (s : State) (w : Word16) : (s.setSr w).pc = s.pc := rfl
@[simp] theorem State.setSr_vbr (s : State) (w : Word16) : (s.setSr w).vbr = s.vbr := rfl
@[simp] theorem State.setSr_run (s : State) (w : Word16) : (s.setSr w).run = s.run := rfl
@[simp] theorem State.setSr_mem (s : State) (w : Word16) : (s.setSr w).mem = s.mem := rfl
@[simp] theorem State.setSr_pins (s : State) (w : Word16) : (s.setSr w).pins = s.pins := rfl
@[simp] theorem State.setSr_inputs (s : State) (w : Word16) : (s.setSr w).inputs = s.inputs := rfl
@[simp] theorem State.setSr_resetPulses (s : State) (w : Word16) : (s.setSr w).resetPulses = s.resetPulses := rfl
@[simp] theorem State.setSr_stale (s : State) (w : Word16) : (s.setSr w).stale = s.stale := rfl
@[simp] theorem State.setSr_tracing (s : State) (w : Word16) : (s.setSr w).tracing = s.tracing := rfl
@[simp] theorem State.setSr_draws (s : State) (w : Word16) : (s.setSr w).draws = s.draws := rfl

/-! ## setCcr -/

@[simp] theorem State.setCcr_cfg (s : State) (c : Ccr) : (s.setCcr c).cfg = s.cfg := rfl
@[simp] theorem State.setCcr_d (s : State) (c : Ccr) : (s.setCcr c).d = s.d := rfl
@[simp] theorem State.setCcr_a (s : State) (c : Ccr) : (s.setCcr c).a = s.a := rfl
@[simp] theorem State.setCcr_usp (s : State) (c : Ccr) : (s.setCcr c).usp = s.usp := rfl
@[simp] theorem State.setCcr_ssp (s : State) (c : Ccr) : (s.setCcr c).ssp = s.ssp := rfl
@[simp] theorem State.setCcr_msp (s : State) (c : Ccr) : (s.setCcr c).msp = s.msp := rfl
@[simp] theorem State.setCcr_pc (s : State) (c : Ccr) : (s.setCcr c).pc = s.pc := rfl
@[simp] theorem State.setCcr_sys (s : State) (c : Ccr) : (s.setCcr c).sys = s.sys := rfl
@[simp] theorem State.setCcr_vbr (s : State) (c : Ccr) : (s.setCcr c).vbr = s.vbr := rfl
@[simp] theorem State.setCcr_run (s : State) (c : Ccr) : (s.setCcr c).run = s.run := rfl
@[simp] theorem State.setCcr_mem (s : State) (c : Ccr) : (s.setCcr c).mem = s.mem := rfl
@[simp] theorem State.setCcr_pins (s : State) (c : Ccr) : (s.setCcr c).pins = s.pins := rfl
@[simp] theorem State.setCcr_inputs (s : State) (c : Ccr) : (s.setCcr c).inputs = s.inputs := rfl
@[simp] theorem State.setCcr_resetPulses (s : State) (c : Ccr) : (s.setCcr c).resetPulses = s.resetPulses := rfl
@[simp] theorem State.setCcr_stale (s : State) (c : Ccr) : (s.setCcr c).stale = s.stale := rfl
@[simp] theorem State.setCcr_tracing (s : State) (c : Ccr) : (s.setCcr c).tracing = s.tracing := rfl
@[simp] theorem State.setCcr_draws (s : State) (c : Ccr) : (s.setCcr c).draws = s.draws := rfl

/-! ## setByte -/

@[simp] theorem State.setByte_cfg (s : State) (x : Word) (b : Byte) : (s.setByte x b).cfg = s.cfg := rfl
@[simp] theorem State.setByte_d (s : State) (x : Word) (b : Byte) : (s.setByte x b).d = s.d := rfl
@[simp] theorem State.setByte_a (s : State) (x : Word) (b : Byte) : (s.setByte x b).a = s.a := rfl
@[simp] theorem State.setByte_usp (s : State) (x : Word) (b : Byte) : (s.setByte x b).usp = s.usp := rfl
@[simp] theorem State.setByte_ssp (s : State) (x : Word) (b : Byte) : (s.setByte x b).ssp = s.ssp := rfl
@[simp] theorem State.setByte_msp (s : State) (x : Word) (b : Byte) : (s.setByte x b).msp = s.msp := rfl
@[simp] theorem State.setByte_pc (s : State) (x : Word) (b : Byte) : (s.setByte x b).pc = s.pc := rfl
@[simp] theorem State.setByte_sys (s : State) (x : Word) (b : Byte) : (s.setByte x b).sys = s.sys := rfl
@[simp] theorem State.setByte_ccr (s : State) (x : Word) (b : Byte) : (s.setByte x b).ccr = s.ccr := rfl
@[simp] theorem State.setByte_vbr (s : State) (x : Word) (b : Byte) : (s.setByte x b).vbr = s.vbr := rfl
@[simp] theorem State.setByte_run (s : State) (x : Word) (b : Byte) : (s.setByte x b).run = s.run := rfl
@[simp] theorem State.setByte_pins (s : State) (x : Word) (b : Byte) : (s.setByte x b).pins = s.pins := rfl
@[simp] theorem State.setByte_inputs (s : State) (x : Word) (b : Byte) : (s.setByte x b).inputs = s.inputs := rfl
@[simp] theorem State.setByte_resetPulses (s : State) (x : Word) (b : Byte) : (s.setByte x b).resetPulses = s.resetPulses := rfl
@[simp] theorem State.setByte_stale (s : State) (x : Word) (b : Byte) : (s.setByte x b).stale = s.stale := rfl
@[simp] theorem State.setByte_tracing (s : State) (x : Word) (b : Byte) : (s.setByte x b).tracing = s.tracing := rfl
@[simp] theorem State.setByte_draws (s : State) (x : Word) (b : Byte) : (s.setByte x b).draws = s.draws := rfl

/-! ## store -/

@[simp] theorem State.store_cfg (s : State) (sz : Size) (x v : Word) : (s.store sz x v).cfg = s.cfg := by cases sz <;> rfl
@[simp] theorem State.store_d (s : State) (sz : Size) (x v : Word) : (s.store sz x v).d = s.d := by cases sz <;> rfl
@[simp] theorem State.store_a (s : State) (sz : Size) (x v : Word) : (s.store sz x v).a = s.a := by cases sz <;> rfl
@[simp] theorem State.store_usp (s : State) (sz : Size) (x v : Word) : (s.store sz x v).usp = s.usp := by cases sz <;> rfl
@[simp] theorem State.store_ssp (s : State) (sz : Size) (x v : Word) : (s.store sz x v).ssp = s.ssp := by cases sz <;> rfl
@[simp] theorem State.store_msp (s : State) (sz : Size) (x v : Word) : (s.store sz x v).msp = s.msp := by cases sz <;> rfl
@[simp] theorem State.store_pc (s : State) (sz : Size) (x v : Word) : (s.store sz x v).pc = s.pc := by cases sz <;> rfl
@[simp] theorem State.store_sys (s : State) (sz : Size) (x v : Word) : (s.store sz x v).sys = s.sys := by cases sz <;> rfl
@[simp] theorem State.store_ccr (s : State) (sz : Size) (x v : Word) : (s.store sz x v).ccr = s.ccr := by cases sz <;> rfl
@[simp] theorem State.store_vbr (s : State) (sz : Size) (x v : Word) : (s.store sz x v).vbr = s.vbr := by cases sz <;> rfl
@[simp] theorem State.store_run (s : State) (sz : Size) (x v : Word) : (s.store sz x v).run = s.run := by cases sz <;> rfl
@[simp] theorem State.store_pins (s : State) (sz : Size) (x v : Word) : (s.store sz x v).pins = s.pins := by cases sz <;> rfl
@[simp] theorem State.store_inputs (s : State) (sz : Size) (x v : Word) : (s.store sz x v).inputs = s.inputs := by cases sz <;> rfl
@[simp] theorem State.store_resetPulses (s : State) (sz : Size) (x v : Word) : (s.store sz x v).resetPulses = s.resetPulses := by cases sz <;> rfl
@[simp] theorem State.store_tracing (s : State) (sz : Size) (x v : Word) : (s.store sz x v).tracing = s.tracing := by cases sz <;> rfl
/-- What a store leaves for a fetch to miss, byte by byte. -/
theorem State.store_stale (s : State) (sz : Size) (x v : Word) :
    (s.store sz x v).stale = ((bytesFrom sz x).zip (bytesOf sz v)).foldl s.noteByte s.stale := rfl
@[simp] theorem State.store_draws (s : State) (sz : Size) (x v : Word) : (s.store sz x v).draws = s.draws := by cases sz <;> rfl

/-! ## setSp -/

@[simp] theorem State.setSp_cfg (s : State) (v : Word) : (s.setSp v).cfg = s.cfg := by
  unfold State.setSp
  split
  · rfl
  · split <;> rfl
@[simp] theorem State.setSp_d (s : State) (v : Word) : (s.setSp v).d = s.d := by
  unfold State.setSp
  split
  · rfl
  · split <;> rfl
@[simp] theorem State.setSp_a (s : State) (v : Word) : (s.setSp v).a = s.a := by
  unfold State.setSp
  split
  · rfl
  · split <;> rfl
@[simp] theorem State.setSp_pc (s : State) (v : Word) : (s.setSp v).pc = s.pc := by
  unfold State.setSp
  split
  · rfl
  · split <;> rfl
@[simp] theorem State.setSp_sys (s : State) (v : Word) : (s.setSp v).sys = s.sys := by
  unfold State.setSp
  split
  · rfl
  · split <;> rfl
@[simp] theorem State.setSp_ccr (s : State) (v : Word) : (s.setSp v).ccr = s.ccr := by
  unfold State.setSp
  split
  · rfl
  · split <;> rfl
@[simp] theorem State.setSp_vbr (s : State) (v : Word) : (s.setSp v).vbr = s.vbr := by
  unfold State.setSp
  split
  · rfl
  · split <;> rfl
@[simp] theorem State.setSp_run (s : State) (v : Word) : (s.setSp v).run = s.run := by
  unfold State.setSp
  split
  · rfl
  · split <;> rfl
@[simp] theorem State.setSp_mem (s : State) (v : Word) : (s.setSp v).mem = s.mem := by
  unfold State.setSp
  split
  · rfl
  · split <;> rfl
@[simp] theorem State.setSp_pins (s : State) (v : Word) : (s.setSp v).pins = s.pins := by
  unfold State.setSp
  split
  · rfl
  · split <;> rfl
@[simp] theorem State.setSp_inputs (s : State) (v : Word) : (s.setSp v).inputs = s.inputs := by
  unfold State.setSp
  split
  · rfl
  · split <;> rfl
@[simp] theorem State.setSp_resetPulses (s : State) (v : Word) : (s.setSp v).resetPulses = s.resetPulses := by
  unfold State.setSp
  split
  · rfl
  · split <;> rfl
@[simp] theorem State.setSp_stale (s : State) (v : Word) : (s.setSp v).stale = s.stale := by
  unfold State.setSp
  split
  · rfl
  · split <;> rfl
@[simp] theorem State.setSp_tracing (s : State) (v : Word) : (s.setSp v).tracing = s.tracing := by
  unfold State.setSp
  split
  · rfl
  · split <;> rfl
@[simp] theorem State.setSp_draws (s : State) (v : Word) : (s.setSp v).draws = s.draws := by
  unfold State.setSp
  split
  · rfl
  · split <;> rfl

/-! ## setA -/

@[simp] theorem State.setA_cfg (s : State) (n : RegNum) (v : Word) : (s.setA n v).cfg = s.cfg := by
  unfold State.setA
  split <;> simp
@[simp] theorem State.setA_d (s : State) (n : RegNum) (v : Word) : (s.setA n v).d = s.d := by
  unfold State.setA
  split <;> simp
@[simp] theorem State.setA_pc (s : State) (n : RegNum) (v : Word) : (s.setA n v).pc = s.pc := by
  unfold State.setA
  split <;> simp
@[simp] theorem State.setA_sys (s : State) (n : RegNum) (v : Word) : (s.setA n v).sys = s.sys := by
  unfold State.setA
  split <;> simp
@[simp] theorem State.setA_ccr (s : State) (n : RegNum) (v : Word) : (s.setA n v).ccr = s.ccr := by
  unfold State.setA
  split <;> simp
@[simp] theorem State.setA_vbr (s : State) (n : RegNum) (v : Word) : (s.setA n v).vbr = s.vbr := by
  unfold State.setA
  split <;> simp
@[simp] theorem State.setA_run (s : State) (n : RegNum) (v : Word) : (s.setA n v).run = s.run := by
  unfold State.setA
  split <;> simp
@[simp] theorem State.setA_mem (s : State) (n : RegNum) (v : Word) : (s.setA n v).mem = s.mem := by
  unfold State.setA
  split <;> simp
@[simp] theorem State.setA_pins (s : State) (n : RegNum) (v : Word) : (s.setA n v).pins = s.pins := by
  unfold State.setA
  split <;> simp
@[simp] theorem State.setA_inputs (s : State) (n : RegNum) (v : Word) : (s.setA n v).inputs = s.inputs := by
  unfold State.setA
  split <;> simp
@[simp] theorem State.setA_resetPulses (s : State) (n : RegNum) (v : Word) : (s.setA n v).resetPulses = s.resetPulses := by
  unfold State.setA
  split <;> simp
@[simp] theorem State.setA_stale (s : State) (n : RegNum) (v : Word) : (s.setA n v).stale = s.stale := by
  unfold State.setA
  split <;> simp
@[simp] theorem State.setA_tracing (s : State) (n : RegNum) (v : Word) : (s.setA n v).tracing = s.tracing := by
  unfold State.setA
  split <;> simp
@[simp] theorem State.setA_draws (s : State) (n : RegNum) (v : Word) : (s.setA n v).draws = s.draws := by
  unfold State.setA
  split <;> simp

/-! ## sampled -/

@[simp] theorem State.sampled_cfg (s : State) : (s.sampled).cfg = s.cfg := rfl
@[simp] theorem State.sampled_d (s : State) : (s.sampled).d = s.d := rfl
@[simp] theorem State.sampled_a (s : State) : (s.sampled).a = s.a := rfl
@[simp] theorem State.sampled_usp (s : State) : (s.sampled).usp = s.usp := rfl
@[simp] theorem State.sampled_ssp (s : State) : (s.sampled).ssp = s.ssp := rfl
@[simp] theorem State.sampled_msp (s : State) : (s.sampled).msp = s.msp := rfl
@[simp] theorem State.sampled_pc (s : State) : (s.sampled).pc = s.pc := rfl
@[simp] theorem State.sampled_sys (s : State) : (s.sampled).sys = s.sys := rfl
@[simp] theorem State.sampled_ccr (s : State) : (s.sampled).ccr = s.ccr := rfl
@[simp] theorem State.sampled_vbr (s : State) : (s.sampled).vbr = s.vbr := rfl
@[simp] theorem State.sampled_run (s : State) : (s.sampled).run = s.run := rfl
@[simp] theorem State.sampled_mem (s : State) : (s.sampled).mem = s.mem := rfl
@[simp] theorem State.sampled_resetPulses (s : State) : (s.sampled).resetPulses = s.resetPulses := rfl
@[simp] theorem State.sampled_stale (s : State) : (s.sampled).stale = s.stale := rfl
@[simp] theorem State.sampled_tracing (s : State) : (s.sampled).tracing = s.tracing := rfl
@[simp] theorem State.sampled_draws (s : State) : (s.sampled).draws = s.draws := rfl

/-! ## What an update sets -/

@[simp] theorem State.setD_d (s : State) (n : RegNum) (v : Word) : (s.setD n v).d = s.d.set n v := rfl
@[simp] theorem State.setCcr_ccr (s : State) (c : Ccr) : (s.setCcr c).ccr = c := rfl
@[simp] theorem State.setByte_mem (s : State) (x : Word) (b : Byte) :
    (s.setByte x b).mem = s.mem.poke (s.phys x) b := rfl

/-! ## Views that depend on few fields -/

theorem State.isSuper_congr {s t : State} (h : t.sys = s.sys) : t.isSuper = s.isSuper := by
  simp [State.isSuper, h]
theorem State.onMaster_congr {s t : State} (h : t.sys = s.sys) (hc : t.cfg = s.cfg) : t.onMaster = s.onMaster := by
  simp [State.onMaster, h, hc]
theorem State.fc_congr {s t : State} (h : t.sys = s.sys) (p : Bool) : t.fc p = s.fc p := by
  simp [State.fc, State.isSuper_congr h]
theorem State.phys_congr {s t : State} (hc : t.cfg = s.cfg) (x : Word) : t.phys x = s.phys x := by
  simp [State.phys, State.space, hc]
theorem State.verdict_congr {s t : State} (hc : t.cfg = s.cfg) (f : FuncCode) (w : Bool) (sz : Size) (x : Word) :
    t.verdict f w sz x = s.verdict f w sz x := by
  have hb : t.byteVerdict f w = s.byteVerdict f w := by
    funext y; simp [State.byteVerdict, hc, State.phys_congr hc]
  simp [State.verdict, hb]
theorem State.accessible_congr {s t : State} (hc : t.cfg = s.cfg) (f : FuncCode) (w : Bool) (sz : Size) (x : Word) :
    t.accessible f w sz x = s.accessible f w sz x := by
  simp [State.accessible, State.misaligned, hc, State.verdict_congr hc]
theorem State.valueAt_congr {s t : State} (hc : t.cfg = s.cfg) (hm : t.mem = s.mem) (sz : Size) (x : Word) :
    t.valueAt sz x = s.valueAt sz x := by
  have hb : ∀ y, t.byteAt y = s.byteAt y := fun y => by simp [State.byteAt, hm, State.phys_congr hc]
  cases sz <;> simp [State.valueAt, State.longAt, State.wordAt, hb]

/-! ## Registers -/

@[simp] theorem State.getD_setD_same (s : State) (n : RegNum) (v : Word) : (s.setD n v).getD n = v := by
  simp [State.getD, State.setD]
theorem State.getD_setD_ne (s : State) {n m : RegNum} (v : Word) (h : m ≠ n) : (s.setD n v).getD m = s.getD m := by
  have : (n : Nat) ≠ m := fun e => h (Fin.ext e.symm)
  simp [State.getD, State.setD, this]
@[simp] theorem State.getD_setA (s : State) (n m : RegNum) (v : Word) : (s.setA n v).getD m = s.getD m := by
  simp [State.getD]
@[simp] theorem State.getD_setSp (s : State) (m : RegNum) (v : Word) : (s.setSp v).getD m = s.getD m := by
  simp [State.getD]
@[simp] theorem State.sp_setSp (s : State) (v : Word) : (s.setSp v).sp = v := by
  have h1 : (s.setSp v).isSuper = s.isSuper := State.isSuper_congr (by simp)
  have h2 : (s.setSp v).onMaster = s.onMaster := State.onMaster_congr (by simp) (by simp)
  rw [State.sp, h1, h2]
  unfold State.setSp
  cases s.isSuper <;> cases s.onMaster <;> rfl
@[simp] theorem State.getA_setA_same (s : State) (n : RegNum) (v : Word) : (s.setA n v).getA n = v := by
  unfold State.getA State.setA
  by_cases h : n.val < 7
  · simp [h]
  · simp [h]
theorem State.sp_congr {s t : State} (h : t.sys = s.sys) (hc : t.cfg = s.cfg) (hu : t.usp = s.usp) (hs : t.ssp = s.ssp)
    (hm : t.msp = s.msp) : t.sp = s.sp := by
  simp [State.sp, State.isSuper_congr h, State.onMaster_congr h hc, hu, hs, hm]
theorem State.getA_congr {s t : State} (ha : t.a = s.a) (hsp : t.sp = s.sp) (n : RegNum) : t.getA n = s.getA n := by
  simp [State.getA, ha, hsp]
theorem State.getA_setA_ne (s : State) {n m : RegNum} (v : Word) (h : m ≠ n) : (s.setA n v).getA m = s.getA m := by
  have hv : (n : Nat) ≠ m := fun e => h (Fin.ext e.symm)
  unfold State.setA
  by_cases hn : n.val < 7
  · rw [dif_pos hn]
    unfold State.getA
    by_cases hm : m.val < 7
    · rw [dif_pos hm, dif_pos hm]
      simp [hv]
    · rw [dif_neg hm, dif_neg hm]
      exact State.sp_congr rfl rfl rfl rfl rfl
  · rw [dif_neg hn]
    have hm : m.val < 7 := by omega
    simp [State.getA, hm]
@[simp] theorem State.getA_setD (s : State) (n m : RegNum) (v : Word) : (s.setD n v).getA m = s.getA m :=
  State.getA_congr rfl (State.sp_congr rfl rfl rfl rfl rfl) m

/-! ## settle -/

@[simp] theorem settle_cfg (s : State) : (settle s).cfg = s.cfg := rfl
@[simp] theorem settle_d (s : State) : (settle s).d = s.d := rfl
@[simp] theorem settle_a (s : State) : (settle s).a = s.a := rfl
@[simp] theorem settle_usp (s : State) : (settle s).usp = s.usp := rfl
@[simp] theorem settle_ssp (s : State) : (settle s).ssp = s.ssp := rfl
@[simp] theorem settle_msp (s : State) : (settle s).msp = s.msp := rfl
@[simp] theorem settle_pc (s : State) : (settle s).pc = s.pc := rfl
@[simp] theorem settle_sys (s : State) : (settle s).sys = s.sys := rfl
@[simp] theorem settle_ccr (s : State) : (settle s).ccr = s.ccr := rfl
@[simp] theorem settle_vbr (s : State) : (settle s).vbr = s.vbr := rfl
@[simp] theorem settle_mem (s : State) : (settle s).mem = s.mem := rfl
@[simp] theorem settle_run (s : State) : (settle s).run = s.run := rfl
@[simp] theorem settle_pins (s : State) : (settle s).pins = s.pins := rfl
@[simp] theorem settle_inputs (s : State) : (settle s).inputs = s.inputs := rfl
@[simp] theorem settle_resetPulses (s : State) : (settle s).resetPulses = s.resetPulses := rfl
@[simp] theorem settle_tracing (s : State) : (settle s).tracing = s.tracing := rfl
@[simp] theorem settle_draws (s : State) : (settle s).draws = s.draws := rfl
@[simp] theorem settle_getD (s : State) (n : RegNum) : (settle s).getD n = s.getD n := rfl
@[simp] theorem settle_sp (s : State) : (settle s).sp = s.sp := rfl
@[simp] theorem settle_sr (s : State) : (settle s).sr = s.sr := rfl
@[simp] theorem settle_isSuper (s : State) : (settle s).isSuper = s.isSuper := rfl
@[simp] theorem settle_byteAt (s : State) (x : Word) : (settle s).byteAt x = s.byteAt x := rfl
@[simp] theorem settle_wordAt (s : State) (x : Word) : (settle s).wordAt x = s.wordAt x := rfl
@[simp] theorem settle_longAt (s : State) (x : Word) : (settle s).longAt x = s.longAt x := rfl

end Sys2Proof.Machine
end

