-- ==== Sys2Proof/Laws/Memory.lean ====
section
/-! SUPPORT. Memory: read after write, the canonical form, and what a store changes. -/

namespace Sys2Proof.Machine

/-! ## Lists of cells -/

theorem Memory.wfFrom_mono {lo lo' : Nat} (h : lo' ≤ lo) : ∀ {m : Memory}, Memory.wfFrom lo m = true → Memory.wfFrom lo' m = true
  | [], _ => rfl
  | (k, v) :: rest, hw => by
    simp only [Memory.wfFrom, Bool.and_eq_true, decide_eq_true_eq] at hw ⊢
    exact ⟨⟨⟨by omega, hw.1.1.2⟩, hw.1.2⟩, hw.2⟩

theorem Memory.peek_of_lt {lo a : Nat} (ha : a < lo) : ∀ {m : Memory}, Memory.wfFrom lo m = true → m.peek a = Memory.blank
  | [], _ => rfl
  | (k, v) :: rest, hw => by
    simp only [Memory.wfFrom, Bool.and_eq_true, decide_eq_true_eq] at hw
    have hk : k ≠ a := by omega
    simp only [Memory.peek, hk, if_false]
    exact Memory.peek_of_lt (lo := k + 1) (by omega) hw.2

theorem Memory.wfFrom_poke {lo a : Nat} (b : Byte) (hl : lo ≤ a) (ha : a < 2 ^ 32) :
    ∀ {m : Memory}, Memory.wfFrom lo m = true → Memory.wfFrom lo (m.poke a b) = true
  | [], _ => by
    unfold Memory.poke
    split
    · rfl
    · rename_i hb
      simp only [Memory.wfFrom, Bool.and_eq_true, decide_eq_true_eq]
      exact ⟨⟨⟨hl, ha⟩, hb⟩, trivial⟩
  | (k, v) :: rest, hw => by
    have hw' := hw
    simp only [Memory.wfFrom, Bool.and_eq_true, decide_eq_true_eq] at hw'
    obtain ⟨⟨⟨h1, h2⟩, h3⟩, h4⟩ := hw'
    unfold Memory.poke
    split
    · rename_i hak
      split
      · exact hw
      · rename_i hb
        have := Memory.wfFrom_mono (lo := k + 1) (lo' := k + 1) (Nat.le_refl _) h4
        simp only [Memory.wfFrom, Bool.and_eq_true, decide_eq_true_eq]
        exact ⟨⟨⟨hl, ha⟩, hb⟩, ⟨⟨by omega, h2⟩, h3⟩, h4⟩
    · split
      · rename_i hak
        subst hak
        split
        · exact Memory.wfFrom_mono (by omega) h4
        · rename_i hb
          simp only [Memory.wfFrom, Bool.and_eq_true, decide_eq_true_eq]
          exact ⟨⟨⟨hl, ha⟩, hb⟩, h4⟩
      · simp only [Memory.wfFrom, Bool.and_eq_true, decide_eq_true_eq]
        exact ⟨⟨⟨h1, h2⟩, h3⟩, Memory.wfFrom_poke b (by omega) ha h4⟩

/-- A write keeps the canonical form. -/
theorem Memory.wf_poke {m : Memory} {a : Nat} (b : Byte) (ha : a < 2 ^ 32) (h : m.wf = true) : (m.poke a b).wf = true :=
  Memory.wfFrom_poke b (Nat.zero_le a) ha h

/-- A read after a write to the same address gives the value written. -/
theorem Memory.peek_poke_same {lo : Nat} (a : Nat) (b : Byte) :
    ∀ {m : Memory}, Memory.wfFrom lo m = true → (m.poke a b).peek a = b
  | [], _ => by
    unfold Memory.poke
    split
    · rename_i h; rw [h]; rfl
    · simp [Memory.peek]
  | (k, v) :: rest, hw => by
    have hw' := hw
    simp only [Memory.wfFrom, Bool.and_eq_true, decide_eq_true_eq] at hw'
    obtain ⟨⟨⟨h1, h2⟩, h3⟩, h4⟩ := hw'
    unfold Memory.poke
    split
    · rename_i hak
      split
      · rename_i hb
        rw [hb]
        have hk : k ≠ a := by omega
        simp only [Memory.peek, hk, if_false]
        exact Memory.peek_of_lt (lo := k + 1) (by omega) h4
      · simp [Memory.peek]
    · split
      · rename_i hak
        split
        · rename_i hb
          rw [hb]
          exact Memory.peek_of_lt (lo := k + 1) (by omega) h4
        · simp [Memory.peek]
      · rename_i hne
        have hk : k ≠ a := fun e => hne e.symm
        simp only [Memory.peek, hk, if_false]
        exact Memory.peek_poke_same a b h4

/-- A write leaves every other address alone. -/
theorem Memory.peek_poke_ne {a x : Nat} (b : Byte) (hx : x ≠ a) : ∀ (m : Memory), (m.poke a b).peek x = m.peek x
  | [] => by
    unfold Memory.poke
    split
    · rfl
    · simp [Memory.peek, Ne.symm hx]
  | (k, v) :: rest => by
    unfold Memory.poke
    split
    · split
      · rfl
      · simp [Memory.peek, Ne.symm hx]
    · split
      · rename_i hak
        subst hak
        split
        · simp [Memory.peek, Ne.symm hx]
        · simp [Memory.peek, Ne.symm hx]
      · simp only [Memory.peek]
        rw [Memory.peek_poke_ne b hx rest]

/-! ## Bytes of a state -/

theorem State.space_pos (s : State) : 0 < s.space := Nat.two_pow_pos _

theorem State.phys_lt (s : State) (x : Word) : s.phys x < 2 ^ 32 :=
  Nat.lt_of_lt_of_le (Nat.mod_lt _ s.space_pos) (Nat.pow_le_pow_right (by decide) (Nat.min_le_right _ _))

theorem State.byteAt_setByte_same (s : State) (x : Word) (b : Byte) (h : s.mem.wf = true) : (s.setByte x b).byteAt x = b :=
  Memory.peek_poke_same _ _ h

theorem State.byteAt_setByte_ne (s : State) {x y : Word} (b : Byte) (h : s.phys y ≠ s.phys x) :
    (s.setByte x b).byteAt y = s.byteAt y :=
  Memory.peek_poke_ne b h s.mem

theorem State.wf_setByte (s : State) (x : Word) (b : Byte) (h : s.mem.wf = true) : (s.setByte x b).mem.wf = true :=
  Memory.wf_poke b (s.phys_lt x) h

theorem State.wf_setBytes : ∀ (l : List (Word × Byte)) (s : State), s.mem.wf = true →
    (l.foldl (fun t p => State.setByte t p.1 p.2) s).mem.wf = true
  | [], _, h => h
  | p :: l, s, h => State.wf_setBytes l _ (State.wf_setByte s p.1 p.2 h)

theorem State.setBytes_cfg : ∀ (l : List (Word × Byte)) (s : State),
    (l.foldl (fun t p => State.setByte t p.1 p.2) s).cfg = s.cfg
  | [], _ => rfl
  | p :: l, s => by rw [List.foldl_cons, State.setBytes_cfg l]; rfl

theorem State.setBytes_outside : ∀ (l : List (Word × Byte)) (s : State) (x : Word),
    (∀ p ∈ l, s.phys x ≠ s.phys p.1) → (l.foldl (fun t p => State.setByte t p.1 p.2) s).byteAt x = s.byteAt x
  | [], _, _, _ => rfl
  | p :: l, s, x, h => by
    rw [List.foldl_cons, State.setBytes_outside l]
    · exact State.byteAt_setByte_ne s _ (h p (by simp))
    · intro q hq
      exact h q (by simp [hq])

/-- A store keeps the canonical form. -/
theorem State.wf_store (s : State) (sz : Size) (x v : Word) (h : s.mem.wf = true) : (s.store sz x v).mem.wf = true :=
  State.wf_setBytes _ s h

theorem bytesFrom_eq (sz : Size) (a : Word) : bytesFrom sz a = (List.range sz.bytes).map fun j => a + BitVec.ofNat 32 j := by
  cases sz <;> simp [bytesFrom, Size.bytes, List.range_succ]

/-- A store changes no byte outside the operand's. -/
theorem State.byteAt_store_outside (s : State) (sz : Size) (a v x : Word)
    (h : ∀ j < sz.bytes, s.phys x ≠ s.phys (a + BitVec.ofNat 32 j)) : (s.store sz a v).byteAt x = s.byteAt x := by
  refine State.setBytes_outside _ s x ?_
  intro p hp
  have hm : p.1 ∈ bytesFrom sz a := (List.of_mem_zip hp).1
  rw [bytesFrom_eq] at hm
  obtain ⟨j, hj, he⟩ := List.mem_map.1 hm
  rw [← he]
  exact h j (List.mem_range.1 hj)

/-- Bytes written to distinct places read back. -/
theorem State.setBytes_inside : ∀ (l : List (Word × Byte)) (s : State), s.mem.wf = true →
    l.Pairwise (fun p q => s.phys p.1 ≠ s.phys q.1) → ∀ p ∈ l,
      (l.foldl (fun t q => State.setByte t q.1 q.2) s).byteAt p.1 = p.2
  | [], _, _, _, _, hp => by simp at hp
  | q :: l, s, hw, hd, p, hp => by
    rw [List.foldl_cons]
    rw [List.pairwise_cons] at hd
    rcases List.mem_cons.1 hp with rfl | hp
    · rw [State.setBytes_outside l (State.setByte s p.1 p.2) p.1 (fun r hr => hd.1 r hr)]
      exact State.byteAt_setByte_same s _ _ hw
    · exact State.setBytes_inside l _ (State.wf_setByte s _ _ hw) hd.2 p hp

/-- Distinct offsets below the size of the space reach distinct bytes. -/
theorem State.phys_add_ne (s : State) (h : 2 ≤ s.cfg.addrBits) (a : Word) {i j : Nat} (hi : i < 4) (hj : j < 4) (hne : i ≠ j) :
    s.phys (a + BitVec.ofNat 32 i) ≠ s.phys (a + BitVec.ofNat 32 j) := by
  unfold State.phys State.space
  have hd : 2 ^ 2 ∣ 2 ^ min s.cfg.addrBits 32 := Nat.pow_dvd_pow 2 (by omega)
  intro he
  have h4 := congrArg (· % 2 ^ 2) he
  simp only [Nat.mod_mod_of_dvd _ hd, BitVec.toNat_add, BitVec.toNat_ofNat] at h4
  omega

end Sys2Proof.Machine
end

