-- ==== Sys2Proof/Laws/Ops.lean ====
section
/-! SUPPORT. What each shared operation can do, said once: proofs cite these lemmas instead of unfolding the
operations. The runs of `bind`, `get`, `set`, `modify` and `pure` are simp lemmas of the library (`EStateM.run_…`). -/

namespace Sys2Proof.Machine

/-! ## The monad -/

@[simp] theorem throw_run {α : Type} (e : Stop) (s : State) : (throw e : M α).run s = .error e s := rfl
@[simp] theorem raise_run {α : Type} (e : Exc) (s : State) : (raise e : M α).run s = .error (.exc e) s := rfl
@[simp] theorem refuse_run {α : Type} (r : Refusal) (s : State) : (refuse r : M α).run s = .error (.refuse r) s := rfl
@[simp] theorem draw_run (s : State) : draw.run s = .ok s.draws { s with draws := s.draws + 1 } := rfl
@[simp] theorem drawBit_run (s : State) :
    drawBit.run s = .ok (Config.freeBit s.draws) { s with draws := s.draws + 1 } := rfl
@[simp] theorem drawByte_run (s : State) :
    drawByte.run s = .ok (Config.freeByte s.draws) { s with draws := s.draws + 1 } := rfl
@[simp] theorem drawWord_run (s : State) :
    drawWord.run s = .ok (Config.freeWord s.draws) { s with draws := s.draws + 1 } := rfl
@[simp] theorem drawNat_run (s : State) :
    drawNat.run s = .ok (Config.freeNat s.draws) { s with draws := s.draws + 1 } := rfl
@[simp] theorem putCcr_run (f : Ccr → Ccr) (s : State) : (putCcr f).run s = .ok () (s.setCcr (f s.ccr)) := rfl
@[simp] theorem advance_run (n : Nat) (s : State) : (advance n).run s = .ok () { s with pc := s.ipAt n } := rfl
@[simp] theorem jump_run (x : Word) (s : State) : (jump x).run s = .ok () { s with pc := x } := rfl

/-- The run of a conditional action. -/
theorem run_ite {α : Type} (c : Prop) [Decidable c] (x y : M α) (s : State) :
    (if c then x else y).run s = if c then x.run s else y.run s := by
  split <;> rfl

/-- A sequence completes if its first action does, and is then the run of the rest. -/
theorem run_bind_ok {α β : Type} {x : M α} {f : α → M β} {s t : State} {a : α} (h : x.run s = .ok a t) :
    (x >>= f).run s = (f a).run t := by
  rw [EStateM.run_bind, h]

/-- A sequence stops where its first action stops. -/
theorem run_bind_error {α β : Type} {x : M α} {f : α → M β} {s t : State} {e : Stop} (h : x.run s = .error e t) :
    (x >>= f).run s = .error e t := by
  rw [EStateM.run_bind, h]

/-- A completed sequence taken apart. -/
theorem run_bind_eq_ok {α β : Type} {x : M α} {f : α → M β} {s u : State} {b : β} (h : (x >>= f).run s = .ok b u) :
    ∃ a t, x.run s = .ok a t ∧ (f a).run t = .ok b u := by
  rw [EStateM.run_bind] at h
  cases hx : x.run s with
  | ok a t => rw [hx] at h; exact ⟨a, t, rfl, h⟩
  | error e t => rw [hx] at h; cases h

theorem requireSuper_ok {s : State} (h : s.isSuper = true) : requireSuper.run s = .ok () s := by
  simp [requireSuper, h]

/-- In user mode a privileged instruction raises the privilege violation, the state untouched. -/
theorem requireSuper_user {s : State} (h : s.isSuper = false) : requireSuper.run s = .error (.exc .privilege) s := by
  simp [requireSuper, h]

theorem runInstr_ok {body : M Unit} {s t : State} (h : body.run s = .ok () t) : runInstr body s = .next t := by
  rw [runInstr, h]; rfl

theorem runInstr_raise {body : M Unit} {s t : State} {e : Exc} (h : body.run s = .error (.exc e) t) :
    runInstr body s = takeException e t := by
  rw [runInstr, h]; rfl

theorem runInstr_access {body : M Unit} {s t : State} {f : AccessFault} (h : body.run s = .error (.access f) t) :
    runInstr body s = takeAccessFault f false t.pc t := by
  rw [runInstr, h]; rfl

/-! ## Memory accesses -/

theorem State.not_misaligned {s : State} {fc : FuncCode} {w : Bool} {sz : Size} {a : Word}
    (h : s.accessible fc w sz a = true) : s.misaligned sz a = false := by
  simp only [State.accessible, Bool.and_eq_true, Bool.not_eq_true'] at h
  exact h.1

theorem State.verdict_granted {s : State} {fc : FuncCode} {w : Bool} {sz : Size} {a : Word}
    (h : s.accessible fc w sz a = true) : s.verdict fc w sz a = .granted := by
  simp only [State.accessible, Bool.and_eq_true, beq_iff_eq] at h
  exact h.2

theorem memRead_ok {s : State} {fc : FuncCode} {sz : Size} {a : Word} (h : s.accessible fc false sz a = true) :
    (memRead fc sz a).run s = .ok (s.valueAt sz a) s := by
  simp [memRead, State.not_misaligned h, State.verdict_granted h]

/-- A read completes only where the access is aligned and admitted, answers what is there and changes nothing. -/
theorem memRead_eq_ok {s t : State} {fc : FuncCode} {sz : Size} {a v : Word} (h : (memRead fc sz a).run s = .ok v t) :
    s.accessible fc false sz a = true ∧ v = s.valueAt sz a ∧ t = s := by
  unfold memRead at h
  simp only [EStateM.run_bind, EStateM.run_get] at h
  cases hm : s.misaligned sz a with
  | true => simp [hm] at h
  | false =>
    cases hv : s.verdict fc false sz a with
    | granted =>
      simp [hm, hv] at h
      exact ⟨by simp [State.accessible, hm, hv], h.1.symm, h.2.symm⟩
    | busError => simp [hm, hv] at h
    | device => simp [hm, hv] at h

/-- A read that stops changes nothing: it stops in an address or bus error of this access, or at a device. -/
theorem memRead_eq_error {s t : State} {fc : FuncCode} {sz : Size} {a : Word} {e : Stop}
    (h : (memRead fc sz a).run s = .error e t) :
    t = s ∧ ((∃ b, e = .access ⟨b, a, false, fc⟩) ∨ e = .refuse (.deviceAccess a)) := by
  unfold memRead at h
  simp only [EStateM.run_bind, EStateM.run_get] at h
  cases hm : s.misaligned sz a with
  | true => simp [hm] at h; exact ⟨h.2.symm, .inl ⟨false, h.1.symm⟩⟩
  | false =>
    cases hv : s.verdict fc false sz a with
    | granted => simp [hm, hv] at h
    | busError => simp [hm, hv] at h; exact ⟨h.2.symm, .inl ⟨true, h.1.symm⟩⟩
    | device => simp [hm, hv] at h; exact ⟨h.2.symm, .inr h.1.symm⟩

theorem memWrite_ok {s : State} {fc : FuncCode} {sz : Size} {a v : Word} (h : s.accessible fc true sz a = true) :
    (memWrite fc sz a v).run s = .ok () (s.store sz a v) := by
  simp [memWrite, State.not_misaligned h, State.verdict_granted h]

/-- A write completes only where the access is aligned and admitted, and is then the store. -/
theorem memWrite_eq_ok {s t : State} {fc : FuncCode} {sz : Size} {a v : Word}
    (h : (memWrite fc sz a v).run s = .ok () t) : s.accessible fc true sz a = true ∧ t = s.store sz a v := by
  unfold memWrite at h
  simp only [EStateM.run_bind, EStateM.run_get] at h
  cases hm : s.misaligned sz a with
  | true => simp [hm] at h
  | false =>
    cases hv : s.verdict fc true sz a with
    | granted => simp [hm, hv] at h; simp [State.accessible, hm, hv, h]
    | busError =>
      simp only [hm, hv, Bool.false_eq_true, ite_false] at h
      obtain ⟨_, _, _, h2⟩ := run_bind_eq_ok h
      cases h2
    | device => simp [hm, hv] at h

/-- The transfers of a cut store that land: the order of the halves of an aligned long word is free, and nothing else is. -/
theorem storePartly_run (fc : FuncCode) (sz : Size) (a v : Word) (s : State) :
    (storePartly fc sz a v).run s =
      if sz = .l ∧ a.getLsbD 0 = false then
        .ok () (storeUntil fc (storeTransfers (Config.freeBit s.draws) sz a v) { s with draws := s.draws + 1 })
      else .ok () (storeUntil fc (storeTransfers false sz a v) s) := by
  unfold storePartly
  cases sz <;> cases h : a.getLsbD 0 <;> rfl

/-- The write that a bus error ends. -/
theorem memWrite_bus_error {s : State} {fc : FuncCode} {sz : Size} {a v : Word} (hm : s.misaligned sz a = false)
    (hv : s.verdict fc true sz a = .busError) :
    (memWrite fc sz a v).run s =
      if sz = .l ∧ a.getLsbD 0 = false then
        .error (.access ⟨true, a, true, fc⟩)
          (storeUntil fc (storeTransfers (Config.freeBit s.draws) sz a v) { s with draws := s.draws + 1 })
      else .error (.access ⟨true, a, true, fc⟩) (storeUntil fc (storeTransfers false sz a v) s) := by
  simp only [memWrite, EStateM.run_bind, EStateM.run_get, hm, hv, Bool.false_eq_true, if_false, storePartly_run]
  by_cases h : sz = .l ∧ a.getLsbD 0 = false
  · simp only [if_pos h]; rfl
  · simp only [if_neg h]; rfl

/-- The misaligned write: Address Error and nothing else. -/
theorem memWrite_misaligned {s : State} {fc : FuncCode} {sz : Size} {a v : Word} (h : s.misaligned sz a = true) :
    (memWrite fc sz a v).run s = .error (.access ⟨false, a, true, fc⟩) s := by
  simp [memWrite, h]

theorem memRead_misaligned {s : State} {fc : FuncCode} {sz : Size} {a : Word} (h : s.misaligned sz a = true) :
    (memRead fc sz a).run s = .error (.access ⟨false, a, false, fc⟩) s := by
  simp [memRead, h]

/-- A fetch of a word that no store has left stale. -/
theorem fetch16_ok {s : State} {a : Word} (ho : a.getLsbD 0 = false) (hv : s.verdict (s.fc true) false .w a = .granted)
    (hs : s.staleAt a = []) : (fetch16 a).run s = .ok (s.wordAt a) s := by
  unfold fetch16
  simp only [EStateM.run_bind, EStateM.run_get, ho, hv, hs, Bool.false_eq_true, ite_false]
  rfl

theorem fetch16_odd {s : State} {a : Word} (ho : a.getLsbD 0 = true) :
    (fetch16 a).run s = .error (.access ⟨false, a, false, s.fc true⟩) s := by
  simp [fetch16, ho]

/-! ## The stack -/

/-- The state after a push that completes: the stack pointer moves down, and the value is stored there. -/
def State.pushed (s : State) (sz : Size) (v : Word) : State :=
  (s.setSp (s.sp - BitVec.ofNat 32 sz.bytes)).store sz (s.sp - BitVec.ofNat 32 sz.bytes) v

@[simp] theorem State.pushed_cfg (s : State) (sz : Size) (v : Word) : (s.pushed sz v).cfg = s.cfg := by simp [State.pushed]
@[simp] theorem State.pushed_d (s : State) (sz : Size) (v : Word) : (s.pushed sz v).d = s.d := by simp [State.pushed]
@[simp] theorem State.pushed_a (s : State) (sz : Size) (v : Word) : (s.pushed sz v).a = s.a := by simp [State.pushed]
@[simp] theorem State.pushed_pc (s : State) (sz : Size) (v : Word) : (s.pushed sz v).pc = s.pc := by simp [State.pushed]
@[simp] theorem State.pushed_sys (s : State) (sz : Size) (v : Word) : (s.pushed sz v).sys = s.sys := by simp [State.pushed]
@[simp] theorem State.pushed_ccr (s : State) (sz : Size) (v : Word) : (s.pushed sz v).ccr = s.ccr := by simp [State.pushed]
@[simp] theorem State.pushed_vbr (s : State) (sz : Size) (v : Word) : (s.pushed sz v).vbr = s.vbr := by simp [State.pushed]
@[simp] theorem State.pushed_run (s : State) (sz : Size) (v : Word) : (s.pushed sz v).run = s.run := by simp [State.pushed]
@[simp] theorem State.pushed_pins (s : State) (sz : Size) (v : Word) : (s.pushed sz v).pins = s.pins := by
  simp [State.pushed]
@[simp] theorem State.pushed_inputs (s : State) (sz : Size) (v : Word) : (s.pushed sz v).inputs = s.inputs := by
  simp [State.pushed]
@[simp] theorem State.pushed_resetPulses (s : State) (sz : Size) (v : Word) :
    (s.pushed sz v).resetPulses = s.resetPulses := by simp [State.pushed]
@[simp] theorem State.pushed_tracing (s : State) (sz : Size) (v : Word) : (s.pushed sz v).tracing = s.tracing := by
  simp [State.pushed]
@[simp] theorem State.pushed_draws (s : State) (sz : Size) (v : Word) : (s.pushed sz v).draws = s.draws := by
  simp [State.pushed]
@[simp] theorem State.pushed_sp (s : State) (sz : Size) (v : Word) : (s.pushed sz v).sp = s.sp - BitVec.ofNat 32 sz.bytes := by
  rw [State.pushed, State.sp_congr (State.store_sys _ _ _ _) (State.store_cfg _ _ _ _) (State.store_usp _ _ _ _)
    (State.store_ssp _ _ _ _) (State.store_msp _ _ _ _), State.sp_setSp]

theorem push_ok {s : State} {sz : Size} {v : Word}
    (h : s.accessible (s.fc false) true sz (s.sp - BitVec.ofNat 32 sz.bytes) = true) :
    (push sz v).run s = .ok () (s.pushed sz v) := by
  have h' : (s.setSp (s.sp - BitVec.ofNat 32 sz.bytes)).accessible
      ((s.setSp (s.sp - BitVec.ofNat 32 sz.bytes)).fc false) true sz (s.sp - BitVec.ofNat 32 sz.bytes) = true := by
    rw [State.accessible_congr (State.setSp_cfg s _), State.fc_congr (State.setSp_sys s _)]; exact h
  unfold push
  simp only [EStateM.run_bind, EStateM.run_modify, EStateM.run_get, State.sp_setSp]
  exact memWrite_ok h'

/-- A pull that completes: what stood at the stack pointer, which moves up. -/
theorem pull_ok {s : State} {sz : Size} (h : s.accessible (s.fc false) false sz s.sp = true) :
    (pull sz).run s = .ok (s.valueAt sz s.sp) (s.setSp (s.sp + BitVec.ofNat 32 sz.bytes)) := by
  unfold pull
  simp only [EStateM.run_bind, EStateM.run_get, memRead_ok h, EStateM.run_modify, EStateM.run_pure]

/-! ## Operands -/

theorem readLoc_ok {s : State} {sz : Size} {l : Loc} (h : Readable s sz l) : (readLoc sz l).run s = .ok (valueOf s sz l) s := by
  cases l with
  | dreg n => rfl
  | areg n =>
    have hb : (sz == Size.b) = false := by simpa [Readable] using h
    simp [readLoc, hb, valueOf]
  | mem a p => simpa [readLoc, valueOf] using memRead_ok (fc := s.fc p) h
  | imm v => rfl

/-- What `writeLoc` makes of the state: a data register's low part, or the bytes of a memory operand. -/
def State.putAt (s : State) (sz : Size) (v : Word) : Loc → State
  | .dreg n => s.setDPart sz n v
  | .mem a _ => s.store sz a v
  | .areg _ | .imm _ => s

theorem writeLoc_ok {s : State} {sz : Size} {v : Word} {l : Loc} (h : Writable s sz l) :
    (writeLoc sz v l).run s = .ok () (s.putAt sz v l) := by
  cases l with
  | dreg n => rfl
  | areg n => exact h.elim
  | mem a p =>
    cases p with
    | true => exact h.elim
    | false => simpa [writeLoc, State.putAt] using memWrite_ok (fc := s.fc false) h
  | imm v => exact h.elim

theorem byteOfValue_mem (sz : Size) (a v : Word) {j : Nat} (hj : j < sz.bytes) :
    (a + BitVec.ofNat 32 j, byteOfValue sz v j) ∈ (bytesFrom sz a).zip (bytesOf sz v) := by
  cases sz <;> simp only [Size.bytes] at hj <;> interval_cases j <;> simp [bytesFrom, bytesOf, byteOfValue, Size.bytes]

/-- The bytes of a store. -/
theorem State.byteAt_store_inside {s : State} (sz : Size) (a v : Word) (hw : s.mem.wf = true) (hb : 2 ≤ s.cfg.addrBits)
    {j : Nat} (hj : j < sz.bytes) : (s.store sz a v).byteAt (a + BitVec.ofNat 32 j) = byteOfValue sz v j := by
  have hd : ((bytesFrom sz a).zip (bytesOf sz v)).Pairwise (fun p q => s.phys p.1 ≠ s.phys q.1) := by
    have hne := fun {i k : Nat} => State.phys_add_ne s hb a (i := i) (j := k)
    have h01 : s.phys a ≠ s.phys (a + 1#32) := by simpa using hne (i := 0) (k := 1)
    have h02 : s.phys a ≠ s.phys (a + 2#32) := by simpa using hne (i := 0) (k := 2)
    have h03 : s.phys a ≠ s.phys (a + 3#32) := by simpa using hne (i := 0) (k := 3)
    have h12 : s.phys (a + 1#32) ≠ s.phys (a + 2#32) := by simpa using hne (i := 1) (k := 2)
    have h13 : s.phys (a + 1#32) ≠ s.phys (a + 3#32) := by simpa using hne (i := 1) (k := 3)
    have h23 : s.phys (a + 2#32) ≠ s.phys (a + 3#32) := by simpa using hne (i := 2) (k := 3)
    cases sz <;> simp [bytesFrom, bytesOf, h01, h02, h03, h12, h13, h23]
  exact State.setBytes_inside _ s hw hd _ (byteOfValue_mem sz a v hj)

/-- What `putAt` changes: the operand, and nothing else. -/
theorem storesOnly_putAt {s : State} {sz : Size} {v : Word} {l : Loc} (h : Writable s sz l) :
    StoresOnly sz l v s (s.putAt sz v l) := by
  cases l with
  | areg n => exact h.elim
  | imm w => exact h.elim
  | dreg n =>
    refine ⟨⟨rfl, rfl, rfl, rfl, rfl, rfl, rfl, rfl, rfl, rfl, rfl, rfl, rfl, rfl, rfl⟩, ?_, ?_, ?_, fun _ => rfl⟩
    · intro m
      by_cases hm : m = n
      · subst hm; simp [State.putAt, State.setDPart]
      · simp [State.putAt, State.setDPart, State.getD_setD_ne s _ hm, Ne.symm hm]
    · intro a p hl; cases hl
    · intro a p hl; cases hl
  | mem a p =>
    refine ⟨⟨?_, ?_, ?_, ?_, ?_, ?_, ?_, ?_, ?_, ?_, ?_, ?_, ?_, ?_, ?_⟩, ?_, ?_, ?_, fun hn => absurd rfl (hn a p)⟩
    case refine_16 => intro m; simp [State.putAt, State.getD]
    case refine_17 =>
      intro b q hl hw hb j hj
      cases hl
      exact State.byteAt_store_inside sz a v hw hb hj
    case refine_18 =>
      intro b q hl x hx
      cases hl
      exact State.byteAt_store_outside s sz a v x hx
    all_goals simp [State.putAt]

/-- All but the address registers and the stack pointers: what resolving an operand leaves alone. -/
structure OnlyAddressRegs (s t : State) : Prop where
  cfg : t.cfg = s.cfg
  d : t.d = s.d
  pc : t.pc = s.pc
  sys : t.sys = s.sys
  ccr : t.ccr = s.ccr
  vbr : t.vbr = s.vbr
  run : t.run = s.run
  mem : t.mem = s.mem
  pins : t.pins = s.pins
  inputs : t.inputs = s.inputs
  resetPulses : t.resetPulses = s.resetPulses
  stale : t.stale = s.stale
  tracing : t.tracing = s.tracing
  draws : t.draws = s.draws

theorem OnlyAddressRegs.rfl' (s : State) : OnlyAddressRegs s s :=
  ⟨rfl, rfl, rfl, rfl, rfl, rfl, rfl, rfl, rfl, rfl, rfl, rfl, rfl, rfl⟩

theorem OnlyAddressRegs.setA (s : State) (n : RegNum) (v : Word) : OnlyAddressRegs s (s.setA n v) := by
  constructor <;> simp

theorem OnlyAddressRegs.fc {s t : State} (h : OnlyAddressRegs s t) (p : Bool) : t.fc p = s.fc p := State.fc_congr h.sys p
theorem OnlyAddressRegs.getD {s t : State} (h : OnlyAddressRegs s t) (n : RegNum) : t.getD n = s.getD n := by
  simp [State.getD, h.d]
theorem OnlyAddressRegs.sr {s t : State} (h : OnlyAddressRegs s t) : t.sr = s.sr := by simp [State.sr, h.sys, h.ccr]
theorem OnlyAddressRegs.ipAt {s t : State} (h : OnlyAddressRegs s t) (k : Nat) : t.ipAt k = s.ipAt k := by
  simp [State.ipAt, h.pc]

/-- The address of a full extension word, where it is computed, leaves the state as it is. -/
theorem fullAddress_eq_ok {s t : State} {p : Bool} {b a : Word} {e : FullExt} (h : (fullAddress p b e).run s = .ok a t) :
    t = s := by
  unfold fullAddress at h
  obtain ⟨u, v, h0, h⟩ := run_bind_eq_ok h
  rw [EStateM.run_get] at h0
  injection h0 with h0 h1
  subst h0 h1
  split at h
  · rw [EStateM.run_pure] at h
    injection h with _ h; exact h.symm
  · obtain ⟨_, _, h1, h2⟩ := run_bind_eq_ok h
    rw [EStateM.run_pure, (memRead_eq_ok h1).2.2] at h2
    injection h2 with _ h2; exact h2.symm
  · obtain ⟨_, _, h1, h2⟩ := run_bind_eq_ok h
    rw [EStateM.run_pure, (memRead_eq_ok h1).2.2] at h2
    injection h2 with _ h2; exact h2.symm

/-- Resolving an operand changes at most the address registers. -/
theorem resolve_effect {s t : State} {ip : Word} {sz : Size} {ea : Ea} {l : Loc} (h : (resolve ip sz ea).run s = .ok l t) :
    OnlyAddressRegs s t := by
  cases ea with
  | postInc n =>
    simp [resolve] at h
    rw [← h.2]; exact OnlyAddressRegs.setA s n _
  | preDec n =>
    simp [resolve] at h
    rw [← h.2]; exact OnlyAddressRegs.setA s n _
  | full n e =>
    unfold resolve at h
    obtain ⟨_, _, h0, h⟩ := run_bind_eq_ok h
    simp at h0
    obtain ⟨_, _, h1, h2⟩ := run_bind_eq_ok h
    have := fullAddress_eq_ok h1
    simp at h2
    rw [← h2.2, this, ← h0.2]; exact OnlyAddressRegs.rfl' s
  | pcFull e =>
    unfold resolve at h
    obtain ⟨_, _, h1, h2⟩ := run_bind_eq_ok h
    have := fullAddress_eq_ok h1
    simp at h2
    rw [← h2.2, this]; exact OnlyAddressRegs.rfl' s
  | _ => simp [resolve] at h; rw [← h.2]; exact OnlyAddressRegs.rfl' s

theorem resolveAt_run (k : Nat) (sz : Size) (ea : Ea) (s : State) :
    (resolveAt k sz ea).run s = (resolve (s.ipAt k) sz ea).run s := by
  simp [resolveAt]

theorem resolves_effect {s t : State} {k : Nat} {sz : Size} {ea : Ea} {l : Loc} (h : Resolves s k sz ea l t) :
    OnlyAddressRegs s t := resolve_effect ((resolveAt_run k sz ea s).symm.trans h)

theorem pairResolves_effect {s t : State} {sz : Size} {mem : Bool} {n : RegNum} {l : Loc} (h : PairResolves s sz mem n l t) :
    OnlyAddressRegs s t := by
  cases mem with
  | true => exact resolves_effect h
  | false => cases h; exact OnlyAddressRegs.rfl' s

/-- A control operand resolves without any change. -/
theorem controlResolves_state {s t : State} {k : Nat} {ea : Ea} {a : Word} (h : ControlResolves s k ea a t) :
    OnlyAddressRegs s t := by
  unfold ControlResolves controlAddress at h
  cases hk : ea.kind.isControl with
  | false => simp [hk] at h
  | true =>
    simp only [hk, ite_true] at h
    obtain ⟨l, u, h1, h2⟩ := run_bind_eq_ok h
    have hu := resolves_effect h1
    cases l with
    | mem b p => simp at h2; rw [← h2.2]; exact hu
    | dreg n => simp at h2
    | areg n => simp at h2
    | imm v => simp at h2

theorem readEa_ok {s t : State} {k : Nat} {sz : Size} {ea : Ea} {l : Loc} (h : Resolves s k sz ea l t)
    (hr : Readable t sz l) : (readEa k sz ea).run s = .ok (valueOf t sz l) t := by
  unfold readEa
  rw [run_bind_ok h]; exact readLoc_ok hr

/-- Read, modify, write: the result at the operand's place, and the flags. -/
theorem modifyEa_ok {s t : State} {k : Nat} {sz : Size} {ea : Ea} {l : Loc} (f : Word → Ccr → Word × Ccr)
    (h : Resolves s k sz ea l t) (hr : Readable t sz l) (hw : Writable t sz l) :
    (modifyEa k sz ea f).run s =
      .ok () ((t.putAt sz (f (valueOf t sz l) t.ccr).1 l).setCcr (f (valueOf t sz l) t.ccr).2) := by
  unfold modifyEa
  rw [run_bind_ok h, run_bind_ok (readLoc_ok hr)]
  simp only [EStateM.run_bind, EStateM.run_get, writeLoc_ok hw, putCcr_run]

theorem modifyReg_ok {s t : State} {k : Nat} {sz : Size} {r : RegNum} {ea : Ea} {l : Loc}
    (f : Word → Word → Ccr → Word × Ccr) (h : Resolves s k sz ea l t) (hr : Readable t sz l) :
    (modifyReg k sz r ea f).run s =
      .ok () ((t.setDPart sz r (f (valueOf t sz l) (sz.low (t.getD r)) t.ccr).1).setCcr
        (f (valueOf t sz l) (sz.low (t.getD r)) t.ccr).2) := by
  unfold modifyReg
  rw [run_bind_ok (readEa_ok h hr)]
  simp

/-- The extra word of a MOVEM to registers, where it is not read or can be. -/
theorem movemExtra_ok {s : State} {p : Bool} {a : Word}
    (h : s.cfg.movemReadsExtra = true → s.accessible (s.fc p) false .w a = true) : (movemExtra p a).run s = .ok () s := by
  unfold movemExtra
  simp only [EStateM.run_bind, EStateM.run_get]
  cases hx : s.cfg.movemReadsExtra with
  | false => rfl
  | true =>
    simp only [if_true]
    rw [run_bind_ok (memRead_ok (h hx))]; rfl

/-! ## Taking an exception -/

/-- The supervisor function code of a state on the supervisor stack. -/
theorem State.fc_super {s : State} (h : s.isSuper = true) : s.fc false = .superData := by simp [State.fc, h]

/-- A push in supervisor mode, its access stated of another state with the same platform. -/
theorem push_super {s u : State} {sz : Size} {v x : Word} (hc : s.cfg = u.cfg) (hs : s.isSuper = true)
    (hx : s.sp - BitVec.ofNat 32 sz.bytes = x) (h : u.accessible .superData true sz x = true) :
    (push sz v).run s = .ok () (s.pushed sz v) := by
  apply push_ok
  rw [State.fc_super hs, hx, State.accessible_congr hc]; exact h

/-- The state with the short frame pushed. -/
def State.framed (s : State) (vec : BitVec 8) (ret : Word) (old : Word16) : State :=
  ((if s.cfg.cpu.formatWord then s.pushed .w (vec.setWidth 32 <<< 2) else s).pushed .l ret).pushed .w (old.setWidth 32)

/-- The state with the PC taken from a vector. -/
def State.vectored (s : State) (vec : BitVec 8) : State :=
  settle { s with pc := s.longAt (s.vectorBase + (vec.setWidth 32 <<< 2)), run := .running }

/-- The state that exception processing leaves when nothing fails. -/
def State.afterEntry (s : State) (e : Exc) : State :=
  ((s.entered (e.newSys s.sys)).framed e.vector (e.stackedPc s) s.sr).vectored e.vector

theorem loadVector_ok {s : State} {vec : BitVec 8}
    (h : s.accessible (vectorSpace vec) false .l (s.vectorBase + (vec.setWidth 32 <<< 2)) = true) :
    (loadVector vec).run s = .ok () (s.vectored vec) := by
  unfold loadVector
  simp only [EStateM.run_bind, EStateM.run_get, memRead_ok h, EStateM.run_modify]
  rfl

theorem entrySys_super (b : Byte) : (entrySys b).getLsbD 5 = true := by simp [entrySys]

theorem newSys_super (e : Exc) (b : Byte) : (e.newSys b).getLsbD 5 = true := by
  cases e <;> simp [Exc.newSys, entrySys, withMask]

/-- Exception processing outside group 0, where every access of it is admitted. -/
theorem enter_ok {s : State} {e : Exc} (h : EntryReady s e) : (enter e).run s = .ok () (s.afterEntry e) := by
  obtain ⟨_, h1, h2, h3, h4⟩ := h
  have hsup : (s.entered (e.newSys s.sys)).isSuper = true := newSys_super e s.sys
  have hf : (pushFrame e.vector (e.stackedPc s) s.sr).run (s.entered (e.newSys s.sys)) =
      .ok () ((s.entered (e.newSys s.sys)).framed e.vector (e.stackedPc s) s.sr) := by
    unfold pushFrame State.framed
    simp only [EStateM.run_bind, EStateM.run_get]
    cases hw : s.cfg.cpu.formatWord with
    | true =>
      have hw' : (s.entered (e.newSys s.sys)).cfg.cpu.formatWord = true := hw
      simp only [hw, if_true] at h1 h2 h3
      simp only [hw', if_true]
      rw [run_bind_ok (push_super rfl hsup rfl (h1 trivial)),
        run_bind_ok (push_super (State.pushed_cfg _ _ _) ((State.isSuper_congr (State.pushed_sys _ _ _)).trans hsup)
          (by rw [State.pushed_sp]; rfl) h2)]
      refine push_super (u := s.entered (e.newSys s.sys)) (by simp) ?_ ?_ h3
      · rw [State.isSuper_congr (State.pushed_sys _ _ _), State.isSuper_congr (State.pushed_sys _ _ _)]; exact hsup
      · simp only [State.pushed_sp, Size.bytes]; bv_omega
    | false =>
      have hw' : (s.entered (e.newSys s.sys)).cfg.cpu.formatWord = false := hw
      simp only [hw, Bool.false_eq_true, if_false] at h1 h2 h3
      simp only [hw', Bool.false_eq_true, if_false]
      rw [run_bind_ok (push_super rfl hsup rfl h2)]
      refine push_super (u := s.entered (e.newSys s.sys)) (by simp) ?_ ?_ h3
      · rw [State.isSuper_congr (State.pushed_sys _ _ _)]; exact hsup
      · simp only [State.pushed_sp, Size.bytes]; bv_omega
  have hcfg : ((s.entered (e.newSys s.sys)).framed e.vector (e.stackedPc s) s.sr).cfg = (s.entered (e.newSys s.sys)).cfg := by
    unfold State.framed; split <;> simp
  have hvbr : ((s.entered (e.newSys s.sys)).framed e.vector (e.stackedPc s) s.sr).vbr = (s.entered (e.newSys s.sys)).vbr := by
    unfold State.framed; split <;> simp
  unfold enter
  simp only [EStateM.run_bind, EStateM.run_get, EStateM.run_set]
  rw [show ({ s with sys := e.newSys s.sys } : State) = s.entered (e.newSys s.sys) from rfl, hf]
  refine loadVector_ok ?_
  rw [State.accessible_congr hcfg]
  simpa [State.vectorBase, hcfg, hvbr] using h4

/-- Taking an exception outside group 0 whose frame can be pushed and whose vector can be read. -/
theorem takeException_ok {s : State} {e : Exc} (h : EntryReady s e) :
    takeException e s = .next (({ s with tracing := if e.endsTrace then .off else s.tracing } : State).afterEntry e) := by
  have h' : EntryReady { s with tracing := if e.endsTrace then .off else s.tracing } e := h
  have hh : (s.cfg.halt == HaltConvention.firstRaise) = false := by simpa using h.1
  have he := enter_ok h'
  simp only [takeException, hh, Bool.false_eq_true, if_false]
  rw [he]

/-- Where exceptions are terminal, an exception outside group 0 ends the run with the state at the raise. -/
theorem takeException_terminal {s : State} {e : Exc} (h : s.cfg.halt = .firstRaise) :
    takeException e s = .fault (.exception e s) := by simp [takeException, h]

/-- Where exceptions are terminal, a bus or address error ends the run with the state at the raise. -/
theorem takeAccessFault_terminal {s : State} {f : AccessFault} {b : Bool} {op : Word} (h : s.cfg.halt = .firstRaise) :
    takeAccessFault f b op s = .fault (.access f s) := by simp [takeAccessFault, h]

/-- Where exceptions are processed, a bus or address error always gives an outcome: the frame, a halt, or the name of a
device. -/
theorem takeAccessFault_cases {s : State} {f : AccessFault} {b : Bool} {op : Word} (hh : s.cfg.halt ≠ .firstRaise) :
    (∃ t, (enterGroup0 f b op).run { s with tracing := .off } = .ok () t ∧ takeAccessFault f b op s = .next t) ∨
    (∃ r t, (enterGroup0 f b op).run { s with tracing := .off } = .error (.refuse r) t ∧
      takeAccessFault f b op s = .refused r) ∨
    (∃ e t, (enterGroup0 f b op).run { s with tracing := .off } = .error e t ∧
      takeAccessFault f b op s = .next { t with run := .halted }) := by
  have hh' : (s.cfg.halt == HaltConvention.firstRaise) = false := by simpa using hh
  unfold takeAccessFault
  simp only [hh', Bool.false_eq_true, if_false]
  cases hr : (enterGroup0 f b op).run { s with tracing := .off } with
  | ok x t => exact .inl ⟨t, rfl, rfl⟩
  | error e t =>
    cases e with
    | refuse r => exact .inr (.inl ⟨r, t, rfl, rfl⟩)
    | access g => exact .inr (.inr ⟨_, t, rfl, rfl⟩)
    | exc g => exact .inr (.inr ⟨_, t, rfl, rfl⟩)

/-! ## The end of an instruction -/

/-- What `settle` leaves noted: everything on a member with an instruction cache, else the windows that hold `pc`. -/
theorem mem_settle_stale {s : State} {e : StaleWord} :
    e ∈ (settle s).stale ↔ e ∈ s.stale ∧ (s.cfg.cpu.hasCache = true ∨ s.inWindow e.base s.pc = true) := by
  simp only [settle]
  split <;> simp [*]

theorem endInstr_off {s : State} (changed : Bool) (h : s.tracing = .off) :
    endInstr changed s = .next (if changed then settle { s with tracing := .off } else { s with tracing := .off }) := by
  simp [endInstr, h]

theorem endInstr_all {s : State} (changed : Bool) (h : s.tracing = .all) :
    endInstr changed s =
      takeException .trace (if changed then settle { s with tracing := .off } else { s with tracing := .off }) := by
  simp [endInstr, h]

end Sys2Proof.Machine
end

