-- ==== Sys2Proof/Laws/Invariant.lean ====
section
/-! SUPPORT. Relations between the state before an action and the state after it, whether it completed or stopped: one
lemma for each way of putting actions together, so that a claim about every step is built up from its parts. -/

namespace Sys2Proof.Machine

/-- The state an action leaves, completed or stopped. -/
def stateAfter {α : Type} : EStateM.Result Stop State α → State
  | .ok _ s => s
  | .error _ s => s

/-- Whatever an action does, it relates the state before to the state after. -/
def Keeps {α : Type} (R : State → State → Prop) (x : M α) : Prop := ∀ s, R s (stateAfter (x.run s))

section
variable {R : State → State → Prop} {α β : Type}

theorem keeps_pure (hr : ∀ s, R s s) (a : α) : Keeps R (pure a : M α) := fun s => hr s
theorem keeps_get (hr : ∀ s, R s s) : Keeps R (get : M State) := fun s => hr s
theorem keeps_raise (hr : ∀ s, R s s) (e : Exc) : Keeps R (raise e : M α) := fun s => hr s
theorem keeps_refuse (hr : ∀ s, R s s) (r : Refusal) : Keeps R (refuse r : M α) := fun s => hr s
theorem keeps_throw (hr : ∀ s, R s s) (e : Stop) : Keeps R (throw e : M α) := fun s => hr s
theorem keeps_modify {f : State → State} (h : ∀ s, R s (f s)) : Keeps R (modify f : M PUnit) := fun s => h s

theorem keeps_bind (ht : ∀ s t u, R s t → R t u → R s u) {x : M α} {f : α → M β} (hx : Keeps R x)
    (hf : ∀ a, Keeps R (f a)) : Keeps R (x >>= f) := by
  intro s
  have h := hx s
  rw [EStateM.run_bind]
  cases hr : x.run s with
  | ok a t => rw [hr] at h; exact ht _ _ _ h (hf a t)
  | error e t => rw [hr] at h; exact h

/-- Reading the state, then going on with what was read. -/
theorem keeps_get_bind {f : State → M β} (h : ∀ s, R s (stateAfter ((f s).run s))) : Keeps R (get >>= f) := by
  intro s; rw [EStateM.run_bind, EStateM.run_get]; exact h s

theorem keeps_ite {c : Prop} [Decidable c] {x y : M α} (hx : c → Keeps R x) (hy : ¬c → Keeps R y) :
    Keeps R (if c then x else y) := by
  split
  · exact hx ‹_›
  · exact hy ‹_›

theorem keeps_memRead (hr : ∀ s, R s s) (fc : FuncCode) (sz : Size) (a : Word) : Keeps R (memRead fc sz a) := by
  intro s
  cases h : (memRead fc sz a).run s with
  | ok v t => rw [(memRead_eq_ok h).2.2]; exact hr s
  | error e t => rw [(memRead_eq_error h).1]; exact hr s

theorem keeps_draw (hd : ∀ s, R s { s with draws := s.draws + 1 }) : Keeps R draw := fun s => hd s

theorem keeps_storeBeside (hr : ∀ s, R s s) (ht : ∀ s t u, R s t → R t u → R s u)
    (hs : ∀ s sz a v, R s (State.store s sz a v)) (fc : FuncCode) (sz : Size) (a v : Word) (s : State) :
    R s (s.storeBeside fc sz a v) := by
  unfold State.storeBeside
  generalize (bytesFrom sz a).zip (bytesOf sz v) = l
  induction l generalizing s with
  | nil => exact hr s
  | cons p rest ih =>
    refine ht _ _ _ ?_ (ih _)
    beta_reduce
    split
    · exact hs _ _ _ _
    · exact hr s

theorem keeps_storeUntil (hr : ∀ s, R s s) (ht : ∀ s t u, R s t → R t u → R s u)
    (hs : ∀ s sz a v, R s (State.store s sz a v)) (fc : FuncCode) : ∀ l s, R s (storeUntil fc l s)
  | [], s => hr s
  | (sz, a, v) :: rest, s => by
    unfold storeUntil
    split
    · exact ht _ _ _ (hs s sz a v) (keeps_storeUntil hr ht hs fc rest _)
    · exact ht _ _ _ (keeps_storeBeside hr ht hs fc sz a v s) (keeps_storeUntil hr ht hs fc rest _)
    · exact hr s

theorem keeps_storePartly (hr : ∀ s, R s s) (ht : ∀ s t u, R s t → R t u → R s u)
    (hd : ∀ s, R s { s with draws := s.draws + 1 }) (hs : ∀ s sz a v, R s (State.store s sz a v)) (fc : FuncCode)
    (sz : Size) (a v : Word) : Keeps R (storePartly fc sz a v) := by
  intro s
  rw [storePartly_run]
  split
  · exact ht _ _ _ (hd s) (keeps_storeUntil hr ht hs fc _ _)
  · exact keeps_storeUntil hr ht hs fc _ s

/-- A write relates the states if a store and a draw do. -/
theorem keeps_memWrite (hr : ∀ s, R s s) (ht : ∀ s t u, R s t → R t u → R s u)
    (hd : ∀ s, R s { s with draws := s.draws + 1 }) (hs : ∀ s sz a v, R s (State.store s sz a v)) (fc : FuncCode)
    (sz : Size) (a v : Word) : Keeps R (memWrite fc sz a v) := by
  unfold memWrite
  refine keeps_get_bind fun s => ?_
  cases hm : s.misaligned sz a with
  | true => simp only [if_true]; exact hr s
  | false =>
    simp only [Bool.false_eq_true, if_false]
    cases hv : s.verdict fc true sz a with
    | granted => exact hs s sz a v
    | device => exact hr s
    | busError => exact keeps_bind ht (keeps_storePartly hr ht hd hs fc sz a v) (fun _ => keeps_throw hr _) s

theorem keeps_push (hr : ∀ s, R s s) (ht : ∀ s t u, R s t → R t u → R s u)
    (hd : ∀ s, R s { s with draws := s.draws + 1 }) (hs : ∀ s sz a v, R s (State.store s sz a v))
    (hp : ∀ s v, R s (State.setSp s v)) (sz : Size) (v : Word) : Keeps R (push sz v) := by
  unfold push
  refine keeps_bind ht (keeps_modify fun s => hp s _) fun _ => keeps_bind ht (keeps_get hr) fun _ => ?_
  exact keeps_memWrite hr ht hd hs _ _ _ _

theorem keeps_pushFree (hr : ∀ s, R s s) (ht : ∀ s t u, R s t → R t u → R s u)
    (hd : ∀ s, R s { s with draws := s.draws + 1 }) (hs : ∀ s sz a v, R s (State.store s sz a v))
    (hp : ∀ s v, R s (State.setSp s v)) : ∀ n, Keeps R (pushFree n)
  | 0 => keeps_pure hr ()
  | n + 1 => keeps_bind ht (fun s => hd s) fun _ =>
    keeps_bind ht (keeps_push hr ht hd hs hp _ _) fun _ => keeps_pushFree hr ht hd hs hp n

/-- The free frame of a later member relates the states if a store, a draw and a write of the stack pointer do. -/
theorem keeps_pushLongFrame (hr : ∀ s, R s s) (ht : ∀ s t u, R s t → R t u → R s u)
    (hd : ∀ s, R s { s with draws := s.draws + 1 }) (hs : ∀ s sz a v, R s (State.store s sz a v))
    (hp : ∀ s v, R s (State.setSp s v)) (vec : BitVec 8) : Keeps R (pushLongFrame vec) := by
  unfold pushLongFrame
  refine keeps_bind ht (fun s => hd s) fun _ => keeps_bind ht (keeps_push hr ht hd hs hp _ _) fun _ => ?_
  refine keeps_bind ht (keeps_get hr) fun _ => keeps_bind ht (fun s => hd s) fun _ => ?_
  exact keeps_pushFree hr ht hd hs hp _

theorem keeps_pull (hr : ∀ s, R s s) (ht : ∀ s t u, R s t → R t u → R s u) (hp : ∀ s v, R s (State.setSp s v))
    (sz : Size) : Keeps R (pull sz) := by
  unfold pull
  refine keeps_bind ht (keeps_get hr) fun _ => keeps_bind ht (keeps_memRead hr _ _ _) fun _ => ?_
  exact keeps_bind ht (keeps_modify fun s => hp s _) fun _ => keeps_pure hr _

end

end Sys2Proof.Machine
end

