-- ==== Sys2Proof/Laws/PerInstr.lean ====
section
/-! SUPPORT. Statements made once per instruction. WordCount: an instruction encodes into as many words as R91 counts. -/

namespace Sys2Proof.Laws

theorem immWords_length (sz : Size) (v : Word) : (immWords sz v).length = sz.immLength := by cases sz <;> rfl

theorem displWords_length (d : Displ) : (displWords d).length = d.length := by cases d <;> rfl

theorem indirectWords_length (i : Indirect) : (indirectWords i).length = i.length := by
  cases i
  · rfl
  · exact displWords_length _
  · exact displWords_length _

theorem fullWords_length (e : FullExt) : (fullWords e).length = 1 + e.bd.length + e.indirect.length := by
  rw [fullWords, List.length_cons, List.length_append, displWords_length, indirectWords_length]; omega

theorem eaWords_length (sz : Size) (ea : Ea) : (eaWords sz ea).length = ea.length sz := by
  cases ea <;> first | rfl | exact fullWords_length _ | exact immWords_length _ _

theorem branchWords_length (d : BranchDisp) : (branchWords d).length = d.length := by cases d <;> rfl

theorem one_operand (op : Word16) (sz : Size) (ea : Ea) : (op :: eaWords sz ea).length = 1 + ea.length sz := by
  rw [List.length_cons, eaWords_length, Nat.add_comm]

theorem word_operand (op w : Word16) (sz : Size) (ea : Ea) : (op :: w :: eaWords sz ea).length = 2 + ea.length sz := by
  rw [List.length_cons, List.length_cons, eaWords_length]; omega

theorem immediate_operand (op : Word16) (sz : Size) (v : Word) (ea : Ea) :
    (op :: (immWords sz v ++ eaWords sz ea)).length = 1 + sz.immLength + ea.length sz := by
  rw [List.length_cons, List.length_append, eaWords_length, immWords_length]; omega

theorem two_operands (op : Word16) (sz : Size) (src dst : Ea) :
    (op :: (eaWords sz src ++ eaWords sz dst)).length = 1 + src.length sz + dst.length sz := by
  rw [List.length_cons, List.length_append, eaWords_length, eaWords_length]; omega

theorem branch_operand (op : Word16) (d : BranchDisp) : (op :: branchWords d).length = 1 + d.length := by
  rw [List.length_cons, branchWords_length, Nat.add_comm]

/-- The encoding of an instruction has `words` words (30_encoding.md R91). -/
def WordCount.Statement (i : Instr) : Prop := (encode i).length = i.words

theorem WordCount.oriCcr (v : Byte) :
    WordCount.Statement (.oriCcr v) := rfl
theorem WordCount.oriSr (v : Word16) :
    WordCount.Statement (.oriSr v) := rfl
theorem WordCount.andiCcr (v : Byte) :
    WordCount.Statement (.andiCcr v) := rfl
theorem WordCount.andiSr (v : Word16) :
    WordCount.Statement (.andiSr v) := rfl
theorem WordCount.eoriCcr (v : Byte) :
    WordCount.Statement (.eoriCcr v) := rfl
theorem WordCount.eoriSr (v : Word16) :
    WordCount.Statement (.eoriSr v) := rfl
theorem WordCount.movep (dreg : RegNum) (toMem : Bool) (long : Bool) (areg : RegNum) (d : Word16) :
    WordCount.Statement (.movep dreg toMem long areg d) := rfl
theorem WordCount.btstDyn (n : RegNum) (ea : Ea) :
    WordCount.Statement (.btstDyn n ea) := one_operand _ _ _
theorem WordCount.bchgDyn (n : RegNum) (ea : Ea) :
    WordCount.Statement (.bchgDyn n ea) := one_operand _ _ _
theorem WordCount.bclrDyn (n : RegNum) (ea : Ea) :
    WordCount.Statement (.bclrDyn n ea) := one_operand _ _ _
theorem WordCount.bsetDyn (n : RegNum) (ea : Ea) :
    WordCount.Statement (.bsetDyn n ea) := one_operand _ _ _
theorem WordCount.btstImm (bit : Byte) (ea : Ea) :
    WordCount.Statement (.btstImm bit ea) := word_operand _ _ _ _
theorem WordCount.bchgImm (bit : Byte) (ea : Ea) :
    WordCount.Statement (.bchgImm bit ea) := word_operand _ _ _ _
theorem WordCount.bclrImm (bit : Byte) (ea : Ea) :
    WordCount.Statement (.bclrImm bit ea) := word_operand _ _ _ _
theorem WordCount.bsetImm (bit : Byte) (ea : Ea) :
    WordCount.Statement (.bsetImm bit ea) := word_operand _ _ _ _
theorem WordCount.ori (sz : Size) (v : Word) (ea : Ea) :
    WordCount.Statement (.ori sz v ea) := immediate_operand _ _ _ _
theorem WordCount.andi (sz : Size) (v : Word) (ea : Ea) :
    WordCount.Statement (.andi sz v ea) := immediate_operand _ _ _ _
theorem WordCount.subi (sz : Size) (v : Word) (ea : Ea) :
    WordCount.Statement (.subi sz v ea) := immediate_operand _ _ _ _
theorem WordCount.addi (sz : Size) (v : Word) (ea : Ea) :
    WordCount.Statement (.addi sz v ea) := immediate_operand _ _ _ _
theorem WordCount.eori (sz : Size) (v : Word) (ea : Ea) :
    WordCount.Statement (.eori sz v ea) := immediate_operand _ _ _ _
theorem WordCount.cmpi (sz : Size) (v : Word) (ea : Ea) :
    WordCount.Statement (.cmpi sz v ea) := immediate_operand _ _ _ _
theorem WordCount.moveaL (src : Ea) (r : RegNum) :
    WordCount.Statement (.moveaL src r) := one_operand _ _ _
theorem WordCount.moveaW (src : Ea) (r : RegNum) :
    WordCount.Statement (.moveaW src r) := one_operand _ _ _
theorem WordCount.moveB (src dst : Ea) :
    WordCount.Statement (.moveB src dst) := two_operands _ _ _ _
theorem WordCount.moveL (src dst : Ea) :
    WordCount.Statement (.moveL src dst) := two_operands _ _ _ _
theorem WordCount.moveW (src dst : Ea) :
    WordCount.Statement (.moveW src dst) := two_operands _ _ _ _
theorem WordCount.illegal :
    WordCount.Statement (.illegal) := rfl
theorem WordCount.reset :
    WordCount.Statement (.reset) := rfl
theorem WordCount.nop :
    WordCount.Statement (.nop) := rfl
theorem WordCount.rte :
    WordCount.Statement (.rte) := rfl
theorem WordCount.rts :
    WordCount.Statement (.rts) := rfl
theorem WordCount.trapv :
    WordCount.Statement (.trapv) := rfl
theorem WordCount.rtr :
    WordCount.Statement (.rtr) := rfl
theorem WordCount.stop (v : Word16) :
    WordCount.Statement (.stop v) := rfl
theorem WordCount.trap (v : BitVec 4) :
    WordCount.Statement (.trap v) := rfl
theorem WordCount.link (r : RegNum) (d : Word16) :
    WordCount.Statement (.link r d) := rfl
theorem WordCount.unlk (r : RegNum) :
    WordCount.Statement (.unlk r) := rfl
theorem WordCount.moveUsp (toAn : Bool) (r : RegNum) :
    WordCount.Statement (.moveUsp toAn r) := rfl
theorem WordCount.jsr (ea : Ea) :
    WordCount.Statement (.jsr ea) := one_operand _ _ _
theorem WordCount.jmp (ea : Ea) :
    WordCount.Statement (.jmp ea) := one_operand _ _ _
theorem WordCount.swap (r : RegNum) :
    WordCount.Statement (.swap r) := rfl
theorem WordCount.extW (r : RegNum) :
    WordCount.Statement (.extW r) := rfl
theorem WordCount.extL (r : RegNum) :
    WordCount.Statement (.extL r) := rfl
theorem WordCount.moveFromSr (ea : Ea) :
    WordCount.Statement (.moveFromSr ea) := one_operand _ _ _
theorem WordCount.moveToCcr (ea : Ea) :
    WordCount.Statement (.moveToCcr ea) := one_operand _ _ _
theorem WordCount.moveToSr (ea : Ea) :
    WordCount.Statement (.moveToSr ea) := one_operand _ _ _
theorem WordCount.nbcd (ea : Ea) :
    WordCount.Statement (.nbcd ea) := one_operand _ _ _
theorem WordCount.pea (ea : Ea) :
    WordCount.Statement (.pea ea) := one_operand _ _ _
theorem WordCount.tas (ea : Ea) :
    WordCount.Statement (.tas ea) := one_operand _ _ _
theorem WordCount.movemToMem (long : Bool) (mask : Word16) (ea : Ea) :
    WordCount.Statement (.movemToMem long mask ea) := word_operand _ _ _ _
theorem WordCount.movemToReg (long : Bool) (mask : Word16) (ea : Ea) :
    WordCount.Statement (.movemToReg long mask ea) := word_operand _ _ _ _
theorem WordCount.negx (sz : Size) (ea : Ea) :
    WordCount.Statement (.negx sz ea) := one_operand _ _ _
theorem WordCount.clr (sz : Size) (ea : Ea) :
    WordCount.Statement (.clr sz ea) := one_operand _ _ _
theorem WordCount.neg (sz : Size) (ea : Ea) :
    WordCount.Statement (.neg sz ea) := one_operand _ _ _
theorem WordCount.not (sz : Size) (ea : Ea) :
    WordCount.Statement (.not sz ea) := one_operand _ _ _
theorem WordCount.tst (sz : Size) (ea : Ea) :
    WordCount.Statement (.tst sz ea) := one_operand _ _ _
theorem WordCount.chk (r : RegNum) (bound : ChkBound) :
    WordCount.Statement (.chk r bound) := one_operand _ _ _
theorem WordCount.lea (r : RegNum) (ea : Ea) :
    WordCount.Statement (.lea r ea) := one_operand _ _ _
theorem WordCount.dbcc (c : Cond) (r : RegNum) (d : Word16) :
    WordCount.Statement (.dbcc c r d) := rfl
theorem WordCount.scc (c : Cond) (ea : Ea) :
    WordCount.Statement (.scc c ea) := one_operand _ _ _
theorem WordCount.addq (data : BitVec 3) (sz : Size) (ea : Ea) :
    WordCount.Statement (.addq data sz ea) := one_operand _ _ _
theorem WordCount.subq (data : BitVec 3) (sz : Size) (ea : Ea) :
    WordCount.Statement (.subq data sz ea) := one_operand _ _ _
theorem WordCount.bra (d : BranchDisp) :
    WordCount.Statement (.bra d) := branch_operand _ _
theorem WordCount.bsr (d : BranchDisp) :
    WordCount.Statement (.bsr d) := branch_operand _ _
theorem WordCount.bcc (c : Cond) (d : BranchDisp) :
    WordCount.Statement (.bcc c d) := branch_operand _ _
theorem WordCount.moveq (r : RegNum) (v : Byte) :
    WordCount.Statement (.moveq r v) := rfl
theorem WordCount.divu (r : RegNum) (ea : Ea) :
    WordCount.Statement (.divu r ea) := one_operand _ _ _
theorem WordCount.divs (r : RegNum) (ea : Ea) :
    WordCount.Statement (.divs r ea) := one_operand _ _ _
theorem WordCount.sbcd (rx : RegNum) (mem : Bool) (ry : RegNum) :
    WordCount.Statement (.sbcd rx mem ry) := rfl
theorem WordCount.or (r : RegNum) (sz : Size) (dir : Dir) (ea : Ea) :
    WordCount.Statement (.or r sz dir ea) := one_operand _ _ _
theorem WordCount.suba (r : RegNum) (long : Bool) (ea : Ea) :
    WordCount.Statement (.suba r long ea) := one_operand _ _ _
theorem WordCount.subx (rx : RegNum) (sz : Size) (mem : Bool) (ry : RegNum) :
    WordCount.Statement (.subx rx sz mem ry) := rfl
theorem WordCount.sub (r : RegNum) (sz : Size) (dir : Dir) (ea : Ea) :
    WordCount.Statement (.sub r sz dir ea) := one_operand _ _ _
theorem WordCount.cmpa (r : RegNum) (long : Bool) (ea : Ea) :
    WordCount.Statement (.cmpa r long ea) := one_operand _ _ _
theorem WordCount.cmpm (ax : RegNum) (sz : Size) (ay : RegNum) :
    WordCount.Statement (.cmpm ax sz ay) := rfl
theorem WordCount.cmp (r : RegNum) (sz : Size) (ea : Ea) :
    WordCount.Statement (.cmp r sz ea) := one_operand _ _ _
theorem WordCount.eor (r : RegNum) (sz : Size) (ea : Ea) :
    WordCount.Statement (.eor r sz ea) := one_operand _ _ _
theorem WordCount.mulu (r : RegNum) (ea : Ea) :
    WordCount.Statement (.mulu r ea) := one_operand _ _ _
theorem WordCount.muls (r : RegNum) (ea : Ea) :
    WordCount.Statement (.muls r ea) := one_operand _ _ _
theorem WordCount.abcd (rx : RegNum) (mem : Bool) (ry : RegNum) :
    WordCount.Statement (.abcd rx mem ry) := rfl
theorem WordCount.exgDD (rx ry : RegNum) :
    WordCount.Statement (.exgDD rx ry) := rfl
theorem WordCount.exgAA (rx ry : RegNum) :
    WordCount.Statement (.exgAA rx ry) := rfl
theorem WordCount.exgDA (rx ry : RegNum) :
    WordCount.Statement (.exgDA rx ry) := rfl
theorem WordCount.and (r : RegNum) (sz : Size) (dir : Dir) (ea : Ea) :
    WordCount.Statement (.and r sz dir ea) := one_operand _ _ _
theorem WordCount.adda (r : RegNum) (long : Bool) (ea : Ea) :
    WordCount.Statement (.adda r long ea) := one_operand _ _ _
theorem WordCount.addx (rx : RegNum) (sz : Size) (mem : Bool) (ry : RegNum) :
    WordCount.Statement (.addx rx sz mem ry) := rfl
theorem WordCount.add (r : RegNum) (sz : Size) (dir : Dir) (ea : Ea) :
    WordCount.Statement (.add r sz dir ea) := one_operand _ _ _
theorem WordCount.asrMem (ea : Ea) :
    WordCount.Statement (.asrMem ea) := one_operand _ _ _
theorem WordCount.aslMem (ea : Ea) :
    WordCount.Statement (.aslMem ea) := one_operand _ _ _
theorem WordCount.lsrMem (ea : Ea) :
    WordCount.Statement (.lsrMem ea) := one_operand _ _ _
theorem WordCount.lslMem (ea : Ea) :
    WordCount.Statement (.lslMem ea) := one_operand _ _ _
theorem WordCount.roxrMem (ea : Ea) :
    WordCount.Statement (.roxrMem ea) := one_operand _ _ _
theorem WordCount.roxlMem (ea : Ea) :
    WordCount.Statement (.roxlMem ea) := one_operand _ _ _
theorem WordCount.rorMem (ea : Ea) :
    WordCount.Statement (.rorMem ea) := one_operand _ _ _
theorem WordCount.rolMem (ea : Ea) :
    WordCount.Statement (.rolMem ea) := one_operand _ _ _
theorem WordCount.asrReg (cnt : ShiftCount) (sz : Size) (r : RegNum) :
    WordCount.Statement (.asrReg cnt sz r) := rfl
theorem WordCount.aslReg (cnt : ShiftCount) (sz : Size) (r : RegNum) :
    WordCount.Statement (.aslReg cnt sz r) := rfl
theorem WordCount.lsrReg (cnt : ShiftCount) (sz : Size) (r : RegNum) :
    WordCount.Statement (.lsrReg cnt sz r) := rfl
theorem WordCount.lslReg (cnt : ShiftCount) (sz : Size) (r : RegNum) :
    WordCount.Statement (.lslReg cnt sz r) := rfl
theorem WordCount.roxrReg (cnt : ShiftCount) (sz : Size) (r : RegNum) :
    WordCount.Statement (.roxrReg cnt sz r) := rfl
theorem WordCount.roxlReg (cnt : ShiftCount) (sz : Size) (r : RegNum) :
    WordCount.Statement (.roxlReg cnt sz r) := rfl
theorem WordCount.rorReg (cnt : ShiftCount) (sz : Size) (r : RegNum) :
    WordCount.Statement (.rorReg cnt sz r) := rfl
theorem WordCount.rolReg (cnt : ShiftCount) (sz : Size) (r : RegNum) :
    WordCount.Statement (.rolReg cnt sz r) := rfl

end Sys2Proof.Laws
end

