-- ==== Sys2Proof/Tests/Slice0.lean ====
section
/-! SUPPORT. Tests. Sources of the expected results: 95_test_vectors.md sections 2 and 4 (a test named T<n> is that vector, at
times with another stack pointer or register), else worked out by hand from the rule of the instruction. -/

namespace Sys2Proof.Tests

open Machine

/-! ## WellFormed refuses an ill-formed term, once for each check -/

theorem test_wf_btst_address_register : Instr.wf .mc68000 (.btstDyn 0 (.an 0)) = false := by decide
theorem test_wf_bchg_immediate : Instr.wf .mc68000 (.bchgDyn 0 (.imm 0#32)) = false := by decide
theorem test_wf_btst_static_immediate : Instr.wf .mc68000 (.btstImm 0#8 (.imm 0#32)) = false := by decide
theorem test_wf_bset_static_pc_relative : Instr.wf .mc68000 (.bsetImm 0#8 (.pcDisp 0#16)) = false := by decide
theorem test_wf_ori_immediate_too_wide : Instr.wf .mc68000 (.ori .b 0x100#32 (.dn 0)) = false := by decide
theorem test_wf_andi_address_register : Instr.wf .mc68000 (.andi .w 0#32 (.an 0)) = false := by decide
theorem test_wf_cmpi_immediate_too_wide : Instr.wf .mc68000 (.cmpi .w 0x10000#32 (.dn 0)) = false := by decide
theorem test_wf_cmpi_pc_relative : Instr.wf .mc68000 (.cmpi .w 0#32 (.pcDisp 0#16)) = false := by decide
theorem test_wf_index_scale_without_scaling : Instr.wf .mc68000 (.moveaL (.index 0 { isAddr := false, reg := 0, long := false, scale := 1#2 } 0#8) 0) = false := by decide
theorem test_wf_operand_immediate_too_wide : Instr.wf .mc68000 (.moveaW (.imm 0x10000#32) 0) = false := by decide
theorem test_wf_move_byte_from_address_register : Instr.wf .mc68000 (.moveB (.an 0) (.dn 0)) = false := by decide
theorem test_wf_move_to_pc_relative : Instr.wf .mc68000 (.moveL (.dn 0) (.pcDisp 0#16)) = false := by decide
theorem test_wf_move_to_address_register : Instr.wf .mc68000 (.moveW (.dn 0) (.an 0)) = false := by decide
theorem test_wf_jsr_data_register : Instr.wf .mc68000 (.jsr (.dn 0)) = false := by decide
theorem test_wf_lea_postincrement : Instr.wf .mc68000 (.lea 0 (.postInc 0)) = false := by decide
theorem test_wf_move_from_sr_to_immediate : Instr.wf .mc68000 (.moveFromSr (.imm 0#32)) = false := by decide
theorem test_wf_move_to_ccr_from_address_register : Instr.wf .mc68000 (.moveToCcr (.an 0)) = false := by decide
theorem test_wf_tas_address_register : Instr.wf .mc68000 (.tas (.an 0)) = false := by decide
theorem test_wf_movem_store_postincrement : Instr.wf .mc68000 (.movemToMem true 1#16 (.postInc 0)) = false := by decide
theorem test_wf_movem_load_predecrement : Instr.wf .mc68000 (.movemToReg true 1#16 (.preDec 0)) = false := by decide
theorem test_wf_neg_address_register : Instr.wf .mc68000 (.neg .l (.an 0)) = false := by decide
theorem test_wf_tst_address_register : Instr.wf .mc68000 (.tst .w (.an 0)) = false := by decide
theorem test_wf_tst_byte_address_register : Instr.wf .mc68020 (.tst .b (.an 0)) = false := by decide
theorem test_wf_addq_byte_address_register : Instr.wf .mc68000 (.addq 1#3 .b (.an 0)) = false := by decide
theorem test_wf_branch_zero_displacement : Instr.wf .mc68000 (.bra (.short 0#8)) = false := by decide
theorem test_wf_branch_ones_displacement : Instr.wf .mc68020 (.bsr (.short 0xFF#8)) = false := by decide
theorem test_wf_branch_long : Instr.wf .mc68000 (.bra (.long 4#32)) = false := by decide
theorem test_wf_bcc_true : Instr.wf .mc68000 (.bcc .t (.short 2#8)) = false := by decide
theorem test_wf_bcc_false : Instr.wf .mc68000 (.bcc .f (.short 2#8)) = false := by decide
theorem test_wf_add_to_data_register : Instr.wf .mc68000 (.add 0 .w .toEa (.dn 0)) = false := by decide
theorem test_wf_and_from_address_register : Instr.wf .mc68000 (.and 0 .w .toReg (.an 0)) = false := by decide
theorem test_wf_cmp_byte_address_register : Instr.wf .mc68000 (.cmp 0 .b (.an 0)) = false := by decide
theorem test_wf_shift_of_register_as_memory : Instr.wf .mc68000 (.asrMem (.dn 0)) = false := by decide
theorem test_wf_full_extension_on_baseline : Instr.wf .mc68000 (.lea 0 (.full 0 ⟨⟨false, 0, false, 0#2⟩, false, false, .null, .none⟩)) = false := by decide
theorem test_wf_memory_indirect_on_cpu32 : Instr.wf .cpu32 (.lea 0 (.full 0 ⟨⟨false, 0, false, 0#2⟩, false, false, .null, .pre .null⟩)) = false := by decide
theorem test_wf_postindexed_without_index : Instr.wf .mc68020 (.lea 0 (.full 0 ⟨⟨false, 0, false, 0#2⟩, false, true, .null, .post .null⟩)) = false := by decide
theorem test_wf_chk_long_on_baseline : Instr.wf .mc68000 (.chk 0 ⟨true, .dn 1⟩) = false := by decide
theorem test_wf_accepts : Instr.wf .mc68000 (.moveW (.an 0) (.postInc 0)) = true := by decide

/-- LEA through a full extension word with bit 3 set: R153 reads the other bits only (log 22). -/
theorem test_full_extension_bit_3 :
    decode .mc68020 [0x41F0#16, 0x0118#16] =
      .done (.lea 0 (.full 0 ⟨⟨false, 0, false, 0#2⟩, false, false, .null, .none⟩)) [] := by decide

/-! ## Decoding: a word for every constructor, written out from its encoding (95_test_vectors.md section 4) -/

/-- Each list of words decodes to its instruction, with nothing left over, and is what the instruction encodes into. -/
def decodes (l : List (List Word16 × Instr)) : Bool :=
  l.all fun p => decide (decode .mc68000 p.1 = .done p.2 []) && decide (encode p.2 = p.1)

theorem test_decode_immediate : decodes [
    ([0x003C#16, 0x0011#16], .oriCcr 0x11#8),
    ([0x007C#16, 0x0700#16], .oriSr 0x700#16),
    ([0x023C#16, 0x00FB#16], .andiCcr 0xFB#8),
    ([0x027C#16, 0xDFFF#16], .andiSr 0xDFFF#16),
    ([0x0A3C#16, 0x001F#16], .eoriCcr 0x1F#8),
    ([0x0A7C#16, 0x2000#16], .eoriSr 0x2000#16),
    ([0x0000#16, 0x0080#16], .ori .b 0x80#32 (.dn 0)),
    ([0x0200#16, 0x000F#16], .andi .b 0xF#32 (.dn 0)),
    ([0x0400#16, 0x0001#16], .subi .b 1#32 (.dn 0)),
    ([0x0603#16, 0x007F#16], .addi .b 0x7F#32 (.dn 3)),
    ([0x0A40#16, 0xFFFF#16], .eori .w 0xFFFF#32 (.dn 0)),
    ([0x0C40#16, 0x1234#16], .cmpi .w 0x1234#32 (.dn 0))] = true := by decide

theorem test_decode_bits : decodes [
    ([0x0310#16], .btstDyn 1 (.ind 0)),
    ([0x0141#16], .bchgDyn 0 (.dn 1)),
    ([0x0390#16], .bclrDyn 1 (.ind 0)),
    ([0x03C0#16], .bsetDyn 1 (.dn 0)),
    ([0x0800#16, 0x0003#16], .btstImm 3#8 (.dn 0)),
    ([0x0850#16, 0x0009#16], .bchgImm 9#8 (.ind 0)),
    ([0x0890#16, 0x0007#16], .bclrImm 7#8 (.ind 0)),
    ([0x08D0#16, 0x0000#16], .bsetImm 0#8 (.ind 0)),
    ([0x4AD0#16], .tas (.ind 0))] = true := by decide

theorem test_decode_moves : decodes [
    ([0x2240#16], .moveaL (.dn 0) 1),
    ([0x3240#16], .moveaW (.dn 0) 1),
    ([0x1200#16], .moveB (.dn 0) (.dn 1)),
    ([0x2318#16], .moveL (.postInc 0) (.preDec 1)),
    ([0x30D8#16], .moveW (.postInc 0) (.postInc 0)),
    ([0x01C8#16, 0x0000#16], .movep 0 true true 0 0#16),
    ([0x48E7#16, 0xC080#16], .movemToMem true 0xC080#16 (.preDec 7)),
    ([0x4C98#16, 0x0201#16], .movemToReg false 0x201#16 (.postInc 0)),
    ([0x4878#16, 0x1234#16], .pea (.absShort 0x1234#16)),
    ([0x43E8#16, 0x0008#16], .lea 1 (.disp 0 8#16)),
    ([0x747F#16], .moveq 2 0x7F#8),
    ([0xC141#16], .exgDD 0 1),
    ([0xC149#16], .exgAA 0 1),
    ([0xC188#16], .exgDA 0 0),
    ([0x4E56#16, 0xFFF8#16], .link 6 0xFFF8#16),
    ([0x4E5E#16], .unlk 6)] = true := by decide

theorem test_decode_system : decodes [
    ([0x4AFC#16], .illegal),
    ([0x4E70#16], .reset),
    ([0x4E71#16], .nop),
    ([0x4E73#16], .rte),
    ([0x4E75#16], .rts),
    ([0x4E76#16], .trapv),
    ([0x4E77#16], .rtr),
    ([0x4E72#16, 0x2000#16], .stop 0x2000#16),
    ([0x4E4F#16], .trap 15#4),
    ([0x4E69#16], .moveUsp true 1),
    ([0x40C0#16], .moveFromSr (.dn 0)),
    ([0x44C0#16], .moveToCcr (.dn 0)),
    ([0x46FC#16, 0x2000#16], .moveToSr (.imm 0x2000#32)),
    ([0x4181#16], .chk 0 ⟨false, .dn 1⟩)] = true := by decide

theorem test_decode_control : decodes [
    ([0x4E90#16], .jsr (.ind 0)),
    ([0x4ED0#16], .jmp (.ind 0)),
    ([0x51C8#16, 0xFFFC#16], .dbcc .f 0 0xFFFC#16),
    ([0x57C0#16], .scc .eq (.dn 0)),
    ([0x60FE#16], .bra (.short 0xFE#8)),
    ([0x610E#16], .bsr (.short 0xE#8)),
    ([0x6710#16], .bcc .eq (.short 0x10#8))] = true := by decide

theorem test_decode_arithmetic : decodes [
    ([0xD041#16], .add 0 .w .toReg (.dn 1)),
    ([0xD0FC#16, 0x8000#16], .adda 0 false (.imm 0x8000#32)),
    ([0x508A#16], .addq 0#3 .l (.an 2)),
    ([0xD101#16], .addx 0 .b false 1),
    ([0x9041#16], .sub 0 .w .toReg (.dn 1)),
    ([0x91C0#16], .suba 0 true (.dn 0)),
    ([0x5340#16], .subq 1#3 .w (.dn 0)),
    ([0x9181#16], .subx 0 .l false 1),
    ([0xB218#16], .cmp 1 .b (.postInc 0)),
    ([0xB0C0#16], .cmpa 0 false (.dn 0)),
    ([0xB308#16], .cmpm 1 .b 0),
    ([0x4400#16], .neg .b (.dn 0)),
    ([0x4040#16], .negx .w (.dn 0)),
    ([0x4240#16], .clr .w (.dn 0)),
    ([0x4A00#16], .tst .b (.dn 0)),
    ([0x4880#16], .extW 0),
    ([0x48C0#16], .extL 0),
    ([0xC0C1#16], .mulu 0 (.dn 1)),
    ([0xC1C1#16], .muls 0 (.dn 1)),
    ([0x80C1#16], .divu 0 (.dn 1)),
    ([0x81C1#16], .divs 0 (.dn 1))] = true := by decide

theorem test_decode_logical_and_decimal : decodes [
    ([0xC041#16], .and 0 .w .toReg (.dn 1)),
    ([0x8041#16], .or 0 .w .toReg (.dn 1)),
    ([0xB141#16], .eor 0 .w (.dn 1)),
    ([0x4600#16], .not .b (.dn 0)),
    ([0x4840#16], .swap 0),
    ([0xC101#16], .abcd 0 false 1),
    ([0x8101#16], .sbcd 0 false 1),
    ([0x4800#16], .nbcd (.dn 0))] = true := by decide

theorem test_decode_shifts : decodes [
    ([0xE0D0#16], .asrMem (.ind 0)),
    ([0xE1D0#16], .aslMem (.ind 0)),
    ([0xE2D0#16], .lsrMem (.ind 0)),
    ([0xE3D0#16], .lslMem (.ind 0)),
    ([0xE4D0#16], .roxrMem (.ind 0)),
    ([0xE5D0#16], .roxlMem (.ind 0)),
    ([0xE6D0#16], .rorMem (.ind 0)),
    ([0xE7D0#16], .rolMem (.ind 0)),
    ([0xE000#16], .asrReg (.imm 0#3) .b 0),
    ([0xE340#16], .aslReg (.imm 1#3) .w 0),
    ([0xE248#16], .lsrReg (.imm 1#3) .w 0),
    ([0xE308#16], .lslReg (.imm 1#3) .b 0),
    ([0xE210#16], .roxrReg (.imm 1#3) .b 0),
    ([0xE310#16], .roxlReg (.imm 1#3) .b 0),
    ([0xE218#16], .rorReg (.imm 1#3) .b 0),
    ([0xE3B8#16], .rolReg (.reg 1) .l 0)] = true := by decide

/-- MOVE.L ([4,A0],D1.W*2,8),D2: a postindexed operand from the layout of 40_addressing_modes.md R150. -/
theorem test_decode_postindexed :
    decode .mc68020 [0x2430#16, 0x1326#16, 0x0004#16, 0x0008#16] =
      .done (.moveL (.full 0 ⟨⟨false, 1, false, 1#2⟩, false, false, .word 4#16, .post (.word 8#16)⟩) (.dn 2)) [] := by decide
/-- T23 and T24: operands off the lists are illegal. -/
theorem test_decode_illegal :
    decode .mc68000 [0x1008#16] = .reject .illegal ∧ decode .mc68000 [0x39C0#16] = .reject .illegal := by decide
/-- T236. -/
theorem test_decode_lines : decode .mc68000 [0xA000#16] = .reject .lineA ∧ decode .mc68000 [0xF000#16] = .reject .lineF := by
  decide
theorem test_decode_truncated : decode .mc68000 [0x0680#16, 0x0001#16] = .truncated := by decide
/-- The host's numbering: the second word is bits 31–16. -/
theorem test_table_word : decodeTableWord 32 0x007F0603 = some (.addi .b 0x7F#32 (.dn 3)) := by decide

/-! ## Steps -/

/-- A state of the baseline member: D0, D1, A0, A1, SR and some long words of memory; A6 = $AAAA5555, SSP = $8000,
USP = $6000, pc = $1000. -/
def at_ (d0 d1 a0 a1 : Word) (sr : Word16) (m : List (Word × Word)) : State :=
  let s := { State.reset.setSr sr with
    d := #v[d0, d1, 0#32, 0#32, 0#32, 0#32, 0#32, 0#32], a := #v[a0, a1, 0#32, 0#32, 0#32, 0#32, 0xAAAA5555#32]
    ssp := 0x8000#32, usp := 0x6000#32, pc := 0x1000#32 }
  m.foldl (fun t p => t.store .l p.1 p.2) s

/-- One step, with these words where it fetches. -/
def go (ws : List Word16) (s : State) : Host.Outcome State Fault Refusal := step (s.placeWords ws)

/-- A view of a next state. -/
def look {α : Type} (f : State → α) : Host.Outcome State Fault Refusal → Option α
  | .next t => some (f t)
  | .fault _ | .refused _ => none

theorem test_moveB_T1 :
    look (fun t => (t.getD 1, t.sr))
      (go [0x1200#16] (at_ 0x12345680#32 0xFFFFFFFF#32 0x0#32 0x0#32 0x271F#16 [])) =
    some (0xFFFFFF80#32, 0x2718#16) := by decide
theorem test_moveW_T6 :
    look (fun t => (t.longAt 0x2000#32, t.getA 0))
      (go [0x30D8#16] (at_ 0x0#32 0x0#32 0x2000#32 0x0#32 0x2700#16 [(0x2000#32, 0x12345678#32)])) =
    some (0x12341234#32, 0x2004#32) := by decide
theorem test_moveW_T7_odd :
    look (fun t => (t.pc, t.sr, t.sp))
      (go [0x3140#16, 0x1#16] (at_ 0x0#32 0x0#32 0x2000#32 0x0#32 0x2700#16 [(0xC#32, 0x11223344#32)])) =
    some (0x11223344#32, 0x2700#16, 0x7FF2#32) := by decide
theorem test_moveL_T3 :
    look (fun t => (t.longAt 0x3FFC#32, t.getA 0, t.getA 1, t.sr))
      (go [0x2318#16] (at_ 0x0#32 0x0#32 0x2000#32 0x4000#32 0x2700#16 [(0x2000#32, 0x80000001#32)])) =
    some (0x80000001#32, 0x2004#32, 0x3FFC#32, 0x2708#16) := by decide
theorem test_moveL_T8_index :
    look (fun t => (t.getD 2, t.pc))
      (go [0x2430#16, 0x1006#16] (at_ 0x0#32 0x1234FFFE#32 0x2000#32 0x0#32 0x2700#16 [(0x2004#32, 0xCAFEBABE#32)])) =
    some (0xCAFEBABE#32, 0x1004#32) := by decide
theorem test_moveaW_T11 :
    look (fun t => (t.getA 1, t.sr))
      (go [0x3240#16] (at_ 0x8000#32 0x0#32 0x0#32 0x0#32 0x271F#16 [])) =
    some (0xFFFF8000#32, 0x271F#16) := by decide
theorem test_moveaL_T12 :
    look (fun t => t.getA 1)
      (go [0x2240#16] (at_ 0x8000#32 0x0#32 0x0#32 0x0#32 0x2700#16 [])) =
    some 0x8000#32 := by decide
theorem test_lea_T14 :
    look (fun t => (t.getA 0, t.pc))
      (go [0x41FA#16, 0xFFFE#16] (at_ 0x0#32 0x0#32 0x0#32 0x0#32 0x2700#16 [])) =
    some (0x1000#32, 0x1004#32) := by decide
theorem test_moveq_T15 :
    look (fun t => (t.getD 2, t.sr))
      (go [0x74FF#16] (at_ 0x0#32 0x0#32 0x0#32 0x0#32 0x2710#16 [])) =
    some (0xFFFFFFFF#32, 0x2718#16) := by decide
theorem test_exgDA_T17 :
    look (fun t => (t.getD 0, t.getA 0))
      (go [0xC188#16] (at_ 0x1#32 0x0#32 0x2#32 0x0#32 0x2700#16 [])) =
    some (0x2#32, 0x1#32) := by decide
theorem test_exgDD :
    look (fun t => (t.getD 0, t.getD 1))
      (go [0xC141#16] (at_ 0x1#32 0x2#32 0x0#32 0x0#32 0x2700#16 [])) =
    some (0x2#32, 0x1#32) := by decide
theorem test_exgAA :
    look (fun t => (t.getA 0, t.getA 1))
      (go [0xC149#16] (at_ 0x0#32 0x0#32 0x1#32 0x2#32 0x2700#16 [])) =
    some (0x2#32, 0x1#32) := by decide
theorem test_pea_T18 :
    look (fun t => (t.sp, t.longAt 0x7FFC#32, t.pc))
      (go [0x4878#16, 0x1234#16] (at_ 0x0#32 0x0#32 0x0#32 0x0#32 0x2700#16 [])) =
    some (0x7FFC#32, 0x1234#32, 0x1004#32) := by decide
theorem test_link_T19 :
    look (fun t => (t.longAt 0x7FFC#32, t.getA 6, t.sp))
      (go [0x4E56#16, 0xFFF8#16] (at_ 0x0#32 0x0#32 0x0#32 0x0#32 0x2700#16 [])) =
    some (0xAAAA5555#32, 0x7FFC#32, 0x7FF4#32) := by decide
theorem test_unlk_T20_a0 :
    look (fun t => (t.getA 0, t.sp))
      (go [0x4E58#16] (at_ 0x0#32 0x0#32 0x2000#32 0x0#32 0x2700#16 [(0x2000#32, 0xAAAA5555#32)])) =
    some (0xAAAA5555#32, 0x2004#32) := by decide
theorem test_movemToMem_T21 :
    look (fun t => (t.longAt 0x7FFC#32, t.longAt 0x7FF8#32, t.longAt 0x7FF4#32, t.sp))
      (go [0x48E7#16, 0xC080#16] (at_ 0x1#32 0x2#32 0x3#32 0x0#32 0x2700#16 [])) =
    some (0x3#32, 0x2#32, 0x1#32, 0x7FF4#32) := by decide
theorem test_movemToReg_T22 :
    look (fun t => (t.getD 0, t.getA 1, t.getA 0))
      (go [0x4C98#16, 0x201#16] (at_ 0x55555555#32 0x0#32 0x2000#32 0x0#32 0x2700#16 [(0x2000#32, 0x8001FFFE#32)])) =
    some (0xFFFF8001#32, 0xFFFFFFFE#32, 0x2004#32) := by decide
theorem test_movep_to_memory :
    look (fun t => (t.longAt 0x2000#32, t.longAt 0x2004#32))
      (go [0x1C8#16, 0x0#16] (at_ 0x11223344#32 0x0#32 0x2001#32 0x0#32 0x2700#16 [(0x2000#32, 0xFFFFFFFF#32), (0x2004#32, 0xFFFFFFFF#32)])) =
    some (0xFF11FF22#32, 0xFF33FF44#32) := by decide
theorem test_movep_to_register :
    look (fun t => t.getD 0)
      (go [0x108#16, 0x1#16] (at_ 0xAABBCCDD#32 0x0#32 0x2000#32 0x0#32 0x2700#16 [(0x2000#32, 0x120034#32)])) =
    some 0xAABB1234#32 := by decide
theorem test_add_T42 :
    look (fun t => (t.getD 0, t.sr))
      (go [0xD041#16] (at_ 0x18000#32 0x8000#32 0x0#32 0x0#32 0x2700#16 [])) =
    some (0x10000#32, 0x2717#16) := by decide
theorem test_add_T44 :
    look (fun t => (t.longAt 0x2000#32, t.sr))
      (go [0xD150#16] (at_ 0x1#32 0x0#32 0x2000#32 0x0#32 0x2700#16 [(0x2000#32, 0xFFFF1234#32)])) =
    some (0x1234#32, 0x2715#16) := by decide
theorem test_adda_T46 :
    look (fun t => (t.getA 0, t.sr))
      (go [0xD0FC#16, 0x8000#16] (at_ 0x0#32 0x0#32 0x10000#32 0x0#32 0x271F#16 [])) =
    some (0x8000#32, 0x271F#16) := by decide
theorem test_addi_T49 :
    look (fun t => (t.getD 0, t.sr, t.pc))
      (go [0x680#16, 0x1#16, 0x0#16] (at_ 0xFFFF0000#32 0x0#32 0x0#32 0x0#32 0x2700#16 [])) =
    some (0x0#32, 0x2715#16, 0x1006#32) := by decide
theorem test_addq_T51 :
    look (fun t => (t.getA 0, t.sr))
      (go [0x5248#16] (at_ 0x0#32 0x0#32 0xFFFF#32 0x0#32 0x271F#16 [])) =
    some (0x10000#32, 0x271F#16) := by decide
theorem test_addq_T53 :
    look (fun t => (t.getD 0, t.sr))
      (go [0x5040#16] (at_ 0x7FF8#32 0x0#32 0x0#32 0x0#32 0x2700#16 [])) =
    some (0x8000#32, 0x270A#16) := by decide
theorem test_addx_T55 :
    look (fun t => (t.getD 0, t.sr))
      (go [0xD101#16] (at_ 0xFF#32 0x0#32 0x0#32 0x0#32 0x2710#16 [])) =
    some (0x0#32, 0x2711#16) := by decide
theorem test_addx_T57 :
    look (fun t => (t.wordAt 0x3000#32, t.getA 0, t.getA 1, t.sr))
      (go [0xD348#16] (at_ 0x0#32 0x0#32 0x2002#32 0x3002#32 0x2710#16 [(0x2000#32, 0x7FFF0000#32)])) =
    some (0x8000#16, 0x2000#32, 0x3000#32, 0x270A#16) := by decide
theorem test_sub_T59 :
    look (fun t => (t.getD 0, t.sr))
      (go [0x9001#16] (at_ 0x80#32 0x1#32 0x0#32 0x0#32 0x2700#16 [])) =
    some (0x7F#32, 0x2702#16) := by decide
theorem test_suba_T61 :
    look (fun t => (t.getA 0, t.sr))
      (go [0x91C0#16] (at_ 0x1#32 0x0#32 0x0#32 0x0#32 0x271F#16 [])) =
    some (0xFFFFFFFF#32, 0x271F#16) := by decide
theorem test_subi_T63 :
    look (fun t => (t.getD 0, t.sr))
      (go [0x400#16, 0x1#16] (at_ 0x100#32 0x0#32 0x0#32 0x0#32 0x2700#16 [])) =
    some (0x1FF#32, 0x2719#16) := by decide
theorem test_subq_T62 :
    look (fun t => (t.getA 0, t.sr))
      (go [0x5188#16] (at_ 0x0#32 0x0#32 0x4#32 0x0#32 0x2700#16 [])) =
    some (0xFFFFFFFC#32, 0x2700#16) := by decide
theorem test_subx_T65 :
    look (fun t => (t.getD 0, t.sr))
      (go [0x9181#16] (at_ 0x1#32 0x0#32 0x0#32 0x0#32 0x2714#16 [])) =
    some (0x0#32, 0x2704#16) := by decide
theorem test_cmp_T66 :
    look (fun t => (t.getD 0, t.sr))
      (go [0xB041#16] (at_ 0x1#32 0x2#32 0x0#32 0x0#32 0x2710#16 [])) =
    some (0x1#32, 0x2719#16) := by decide
theorem test_cmpa_T70 :
    look (fun t => (t.getA 0, t.sr))
      (go [0xB0C0#16] (at_ 0xFFFF#32 0x0#32 0xFFFF#32 0x0#32 0x2700#16 [])) =
    some (0xFFFF#32, 0x2701#16) := by decide
theorem test_cmpi_T71 :
    look (fun t => (t.sr, t.pc))
      (go [0xC40#16, 0x1234#16] (at_ 0xFFFF1234#32 0x0#32 0x0#32 0x0#32 0x2710#16 [])) =
    some (0x2714#16, 0x1004#32) := by decide
theorem test_cmpm_T72 :
    look (fun t => (t.getA 0, t.getA 1, t.sr))
      (go [0xB308#16] (at_ 0x0#32 0x0#32 0x2000#32 0x3000#32 0x2700#16 [(0x2000#32, 0x41000000#32), (0x3000#32, 0x40000000#32)])) =
    some (0x2001#32, 0x3001#32, 0x2709#16) := by decide
theorem test_neg_T74 :
    look (fun t => (t.getD 0, t.sr))
      (go [0x4400#16] (at_ 0x80#32 0x0#32 0x0#32 0x0#32 0x2700#16 [])) =
    some (0x80#32, 0x271B#16) := by decide
theorem test_negx_T78 :
    look (fun t => (t.getD 0, t.sr))
      (go [0x4040#16] (at_ 0x0#32 0x0#32 0x0#32 0x0#32 0x2714#16 [])) =
    some (0xFFFF#32, 0x2719#16) := by decide
theorem test_clr_T79 :
    look (fun t => (t.getD 0, t.sr))
      (go [0x4240#16] (at_ 0xFFFFFFFF#32 0x0#32 0x0#32 0x0#32 0x271B#16 [])) =
    some (0xFFFF0000#32, 0x2714#16) := by decide
theorem test_tst_T80 :
    look (fun t => (t.getD 0, t.sr))
      (go [0x4A00#16] (at_ 0x80#32 0x0#32 0x0#32 0x0#32 0x2713#16 [])) =
    some (0x80#32, 0x2718#16) := by decide
theorem test_extW_T82 :
    look (fun t => (t.getD 0, t.sr))
      (go [0x4880#16] (at_ 0x12340080#32 0x0#32 0x0#32 0x0#32 0x2713#16 [])) =
    some (0x1234FF80#32, 0x2718#16) := by decide
theorem test_extL_T83 :
    look (fun t => (t.getD 0, t.sr))
      (go [0x48C0#16] (at_ 0x12347FFF#32 0x0#32 0x0#32 0x0#32 0x271F#16 [])) =
    some (0x7FFF#32, 0x2710#16) := by decide
theorem test_mulu_T84 :
    look (fun t => (t.getD 0, t.sr))
      (go [0xC0C1#16] (at_ 0x1234FFFF#32 0xABCDFFFF#32 0x0#32 0x0#32 0x2713#16 [])) =
    some (0xFFFE0001#32, 0x2718#16) := by decide
theorem test_muls_T85 :
    look (fun t => (t.getD 0, t.sr))
      (go [0xC1C1#16] (at_ 0x1234FFFF#32 0xABCDFFFF#32 0x0#32 0x0#32 0x2713#16 [])) =
    some (0x1#32, 0x2710#16) := by decide
theorem test_divu_T88 :
    look (fun t => (t.getD 0, t.sr))
      (go [0x80C1#16] (at_ 0x7#32 0x2#32 0x0#32 0x0#32 0x271F#16 [])) =
    some (0x10003#32, 0x2710#16) := by decide
theorem test_divu_T97_zero :
    look (fun t => (t.getD 0, t.sp, t.pc))
      (go [0x80C1#16] (at_ 0x7#32 0x12340000#32 0x0#32 0x0#32 0x2704#16 [(0x14#32, 0x11223344#32)])) =
    some (0x7#32, 0x7FFA#32, 0x11223344#32) := by decide
theorem test_divs_T92 :
    look (fun t => (t.getD 0, t.sr))
      (go [0x81C1#16] (at_ 0xFFFFFFF9#32 0x2#32 0x0#32 0x0#32 0x2700#16 [])) =
    some (0xFFFFFFFD#32, 0x2708#16) := by decide
theorem test_divs_T96_overflow :
    look (fun t => (t.getD 0, t.ccr.v, t.ccr.c, t.pc))
      (go [0x81C1#16] (at_ 0x80000000#32 0xFFFF#32 0x0#32 0x0#32 0x2700#16 [])) =
    some (0x80000000#32, true, false, 0x1002#32) := by decide
theorem test_and_T101 :
    look (fun t => (t.longAt 0x3000#32, t.sr))
      (go [0xC191#16] (at_ 0xFFFF#32 0x0#32 0x0#32 0x3000#32 0x271F#16 [(0x3000#32, 0xFFFF0000#32)])) =
    some (0x0#32, 0x2714#16) := by decide
theorem test_andi_T103 :
    look (fun t => (t.getD 0, t.sr))
      (go [0x200#16, 0xFF0F#16] (at_ 0x123456A5#32 0x0#32 0x0#32 0x0#32 0x2700#16 [])) =
    some (0x12345605#32, 0x2700#16) := by decide
theorem test_or_T104 :
    look (fun t => (t.getD 0, t.sr))
      (go [0x8041#16] (at_ 0x8000#32 0x1#32 0x0#32 0x0#32 0x2717#16 [])) =
    some (0x8001#32, 0x2718#16) := by decide
theorem test_ori_T105 :
    look (fun t => (t.getD 0, t.sr))
      (go [0x0#16, 0x80#16] (at_ 0x0#32 0x0#32 0x0#32 0x0#32 0x2700#16 [])) =
    some (0x80#32, 0x2708#16) := by decide
theorem test_eor_T106 :
    look (fun t => (t.getD 1, t.sr))
      (go [0xB141#16] (at_ 0xFFFF#32 0xFFFF#32 0x0#32 0x0#32 0x271B#16 [])) =
    some (0x0#32, 0x2714#16) := by decide
theorem test_eori_T107 :
    look (fun t => (t.getD 0, t.sr))
      (go [0xA40#16, 0xFFFF#16] (at_ 0x12340F0F#32 0x0#32 0x0#32 0x0#32 0x2700#16 [])) =
    some (0x1234F0F0#32, 0x2708#16) := by decide
theorem test_not_T108 :
    look (fun t => (t.getD 0, t.sr))
      (go [0x4600#16] (at_ 0x123456FF#32 0x0#32 0x0#32 0x0#32 0x271B#16 [])) =
    some (0x12345600#32, 0x2714#16) := by decide
theorem test_aslReg_T122 :
    look (fun t => (t.getD 0, t.sr))
      (go [0xE500#16] (at_ 0xC0#32 0x0#32 0x0#32 0x0#32 0x2700#16 [])) =
    some (0x0#32, 0x2717#16) := by decide
theorem test_aslReg_T125 :
    look (fun t => (t.getD 0, t.sr))
      (go [0xE360#16] (at_ 0x1#32 0x11#32 0x0#32 0x0#32 0x2710#16 [])) =
    some (0x0#32, 0x2706#16) := by decide
theorem test_asrReg_T124 :
    look (fun t => (t.getD 0, t.sr))
      (go [0xE000#16] (at_ 0x80#32 0x0#32 0x0#32 0x0#32 0x2700#16 [])) =
    some (0xFF#32, 0x2719#16) := by decide
theorem test_lslReg :
    look (fun t => (t.getD 0, t.sr))
      (go [0xE308#16] (at_ 0xC0#32 0x0#32 0x0#32 0x0#32 0x2700#16 [])) =
    some (0x80#32, 0x2719#16) := by decide
theorem test_lsrReg_T136 :
    look (fun t => (t.getD 0, t.sr))
      (go [0xE2A8#16] (at_ 0x80000000#32 0x21#32 0x0#32 0x0#32 0x2710#16 [])) =
    some (0x0#32, 0x2704#16) := by decide
theorem test_rolReg_T139 :
    look (fun t => (t.getD 0, t.sr))
      (go [0xE318#16] (at_ 0x80#32 0x0#32 0x0#32 0x0#32 0x2710#16 [])) =
    some (0x1#32, 0x2711#16) := by decide
theorem test_rorReg_T142 :
    look (fun t => (t.getD 0, t.sr))
      (go [0xE218#16] (at_ 0x1#32 0x0#32 0x0#32 0x0#32 0x2700#16 [])) =
    some (0x80#32, 0x2709#16) := by decide
theorem test_roxlReg_T146 :
    look (fun t => (t.getD 0, t.sr))
      (go [0xE330#16] (at_ 0xA5#32 0x9#32 0x0#32 0x0#32 0x2710#16 [])) =
    some (0xA5#32, 0x2719#16) := by decide
theorem test_roxlReg_T147_zero :
    look (fun t => (t.getD 0, t.sr))
      (go [0xE370#16] (at_ 0x0#32 0x0#32 0x0#32 0x0#32 0x2710#16 [])) =
    some (0x0#32, 0x2715#16) := by decide
theorem test_roxrReg_T149 :
    look (fun t => (t.getD 0, t.sr))
      (go [0xE290#16] (at_ 0x0#32 0x0#32 0x0#32 0x0#32 0x2710#16 [])) =
    some (0x80000000#32, 0x2708#16) := by decide
theorem test_asrMem :
    look (fun t => (t.longAt 0x2000#32, t.sr))
      (go [0xE0D0#16] (at_ 0x0#32 0x0#32 0x2000#32 0x0#32 0x2700#16 [(0x2000#32, 0x80010000#32)])) =
    some (0xC0000000#32, 0x2719#16) := by decide
theorem test_aslMem :
    look (fun t => (t.longAt 0x2000#32, t.sr))
      (go [0xE1D0#16] (at_ 0x0#32 0x0#32 0x2000#32 0x0#32 0x2700#16 [(0x2000#32, 0x40000001#32)])) =
    some (0x80000001#32, 0x270A#16) := by decide
theorem test_lsrMem_T138 :
    look (fun t => (t.longAt 0x2000#32, t.sr))
      (go [0xE2D0#16] (at_ 0x0#32 0x0#32 0x2000#32 0x0#32 0x2700#16 [(0x2000#32, 0x10000#32)])) =
    some (0x0#32, 0x2715#16) := by decide
theorem test_lslMem :
    look (fun t => (t.longAt 0x2000#32, t.sr))
      (go [0xE3D0#16] (at_ 0x0#32 0x0#32 0x2000#32 0x0#32 0x2700#16 [(0x2000#32, 0x8001FFFF#32)])) =
    some (0x2FFFF#32, 0x2711#16) := by decide
theorem test_roxrMem :
    look (fun t => (t.longAt 0x2000#32, t.sr))
      (go [0xE4D0#16] (at_ 0x0#32 0x0#32 0x2000#32 0x0#32 0x2710#16 [(0x2000#32, 0x20000#32)])) =
    some (0x80010000#32, 0x2708#16) := by decide
theorem test_roxlMem_T150 :
    look (fun t => (t.longAt 0x2000#32, t.sr))
      (go [0xE5D0#16] (at_ 0x0#32 0x0#32 0x2000#32 0x0#32 0x2710#16 [(0x2000#32, 0x40000000#32)])) =
    some (0x80010000#32, 0x2708#16) := by decide
theorem test_rorMem :
    look (fun t => (t.longAt 0x2000#32, t.sr))
      (go [0xE6D0#16] (at_ 0x0#32 0x0#32 0x2000#32 0x0#32 0x2710#16 [(0x2000#32, 0x10000#32)])) =
    some (0x80000000#32, 0x2719#16) := by decide
theorem test_rolMem :
    look (fun t => (t.longAt 0x2000#32, t.sr))
      (go [0xE7D0#16] (at_ 0x0#32 0x0#32 0x2000#32 0x0#32 0x2700#16 [(0x2000#32, 0x80000000#32)])) =
    some (0x10000#32, 0x2701#16) := by decide
theorem test_swap_T151 :
    look (fun t => (t.getD 0, t.sr))
      (go [0x4840#16] (at_ 0x12348000#32 0x0#32 0x0#32 0x0#32 0x2713#16 [])) =
    some (0x80001234#32, 0x2718#16) := by decide
theorem test_btstImm_T153 :
    look (fun t => (t.getD 0, t.sr))
      (go [0x800#16, 0x23#16] (at_ 0x0#32 0x0#32 0x0#32 0x0#32 0x271B#16 [])) =
    some (0x0#32, 0x271F#16) := by decide
theorem test_btstDyn_T154 :
    look (fun t => (t.longAt 0x2000#32, t.sr))
      (go [0x310#16] (at_ 0x0#32 0x9#32 0x2000#32 0x0#32 0x2704#16 [(0x2000#32, 0x2000000#32)])) =
    some (0x2000000#32, 0x2700#16) := by decide
theorem test_bchgDyn_T155 :
    look (fun t => (t.getD 1, t.sr))
      (go [0x141#16] (at_ 0x1F#32 0x0#32 0x0#32 0x0#32 0x2700#16 [])) =
    some (0x80000000#32, 0x2704#16) := by decide
theorem test_bchgImm :
    look (fun t => (t.longAt 0x2000#32, t.sr))
      (go [0x850#16, 0x9#16] (at_ 0x0#32 0x0#32 0x2000#32 0x0#32 0x2700#16 [(0x2000#32, 0x3030303#32)])) =
    some (0x1030303#32, 0x2700#16) := by decide
theorem test_bclrImm_T156 :
    look (fun t => (t.longAt 0x2000#32, t.sr))
      (go [0x890#16, 0x7#16] (at_ 0x0#32 0x0#32 0x2000#32 0x0#32 0x2704#16 [(0x2000#32, 0xFFFFFFFF#32)])) =
    some (0x7FFFFFFF#32, 0x2700#16) := by decide
theorem test_bclrDyn :
    look (fun t => (t.getD 0, t.sr))
      (go [0x380#16] (at_ 0x3#32 0x21#32 0x0#32 0x0#32 0x2700#16 [])) =
    some (0x1#32, 0x2700#16) := by decide
theorem test_bsetDyn_T157 :
    look (fun t => (t.getD 0, t.sr))
      (go [0x3C0#16] (at_ 0x0#32 0x21#32 0x0#32 0x0#32 0x2700#16 [])) =
    some (0x2#32, 0x2704#16) := by decide
theorem test_bsetImm_T158 :
    look (fun t => (t.longAt 0x2000#32, t.sr))
      (go [0x8D0#16, 0x0#16] (at_ 0x0#32 0x0#32 0x2000#32 0x0#32 0x271F#16 [(0x2000#32, 0x1000000#32)])) =
    some (0x1000000#32, 0x271B#16) := by decide
theorem test_abcd_T162 :
    look (fun t => (t.byteAt 0x2000#32, t.ccr.x, t.ccr.z, t.getA 0))
      (go [0xC109#16] (at_ 0x0#32 0x0#32 0x2001#32 0x3001#32 0x2714#16 [(0x2000#32, 0x45000000#32), (0x3000#32, 0x54000000#32)])) =
    some (0x0#8, true, true, 0x2000#32) := by decide
theorem test_sbcd_T163 :
    look (fun t => (t.getD 0, t.ccr.c, t.ccr.z))
      (go [0x8101#16] (at_ 0x0#32 0x1#32 0x0#32 0x0#32 0x2704#16 [])) =
    some (0x99#32, true, false) := by decide
theorem test_nbcd_T165 :
    look (fun t => (t.getD 0, t.ccr.x, t.ccr.z))
      (go [0x4800#16] (at_ 0x25#32 0x0#32 0x0#32 0x0#32 0x2700#16 [])) =
    some (0x75#32, true, false) := by decide
theorem test_bcc_T172 :
    look (fun t => t.pc)
      (go [0x6600#16, 0xFFFC#16] (at_ 0x0#32 0x0#32 0x0#32 0x0#32 0x2700#16 [])) =
    some 0xFFE#32 := by decide
theorem test_bcc_T176_not_taken :
    look (fun t => t.pc)
      (go [0x6204#16] (at_ 0x0#32 0x0#32 0x0#32 0x0#32 0x2704#16 [])) =
    some 0x1002#32 := by decide
theorem test_bra_T180 :
    look (fun t => t.pc)
      (go [0x6000#16, 0x100#16] (at_ 0x0#32 0x0#32 0x0#32 0x0#32 0x2700#16 [])) =
    some 0x1102#32 := by decide
theorem test_bsr_T184 :
    look (fun t => (t.pc, t.longAt 0x7FFC#32, t.sp))
      (go [0x6100#16, 0xFE#16] (at_ 0x0#32 0x0#32 0x0#32 0x0#32 0x2700#16 [])) =
    some (0x1100#32, 0x1004#32, 0x7FFC#32) := by decide
theorem test_dbcc_T185 :
    look (fun t => (t.getD 0, t.pc))
      (go [0x51C8#16, 0xFFFC#16] (at_ 0x50001#32 0x0#32 0x0#32 0x0#32 0x2700#16 [])) =
    some (0x50000#32, 0xFFE#32) := by decide
theorem test_dbcc_T186 :
    look (fun t => (t.getD 0, t.pc))
      (go [0x51C8#16, 0xFFFC#16] (at_ 0x50000#32 0x0#32 0x0#32 0x0#32 0x2700#16 [])) =
    some (0x5FFFF#32, 0x1004#32) := by decide
theorem test_jmp_T192 :
    look (fun t => t.pc)
      (go [0x4EFA#16, 0x2#16] (at_ 0x0#32 0x0#32 0x0#32 0x0#32 0x2700#16 [])) =
    some 0x1004#32 := by decide
theorem test_jsr_T195 :
    look (fun t => (t.pc, t.sp, t.longAt 0x7FFC#32))
      (go [0x4E97#16] (at_ 0x0#32 0x0#32 0x0#32 0x0#32 0x2700#16 [])) =
    some (0x8000#32, 0x7FFC#32, 0x1002#32) := by decide
theorem test_rts :
    look (fun t => (t.pc, t.sp, t.sr))
      (go [0x4E75#16] (at_ 0x0#32 0x0#32 0x0#32 0x0#32 0x271F#16 [(0x8000#32, 0x1008#32)])) =
    some (0x1008#32, 0x8004#32, 0x271F#16) := by decide
theorem test_rtr :
    look (fun t => (t.pc, t.sp, t.sr))
      (go [0x4E77#16] (at_ 0x0#32 0x0#32 0x0#32 0x0#32 0x2700#16 [(0x8000#32, 0xFFFF0000#32), (0x8004#32, 0x10080000#32)])) =
    some (0x1008#32, 0x8006#32, 0x271F#16) := by decide
theorem test_nop_T198 :
    look (fun t => (t.pc, t.sr))
      (go [0x4E71#16] (at_ 0x0#32 0x0#32 0x0#32 0x0#32 0x271F#16 [])) =
    some (0x1002#32, 0x271F#16) := by decide
theorem test_scc_T201 :
    look (fun t => t.longAt 0x2000#32)
      (go [0x51D0#16] (at_ 0x0#32 0x0#32 0x2000#32 0x0#32 0x2700#16 [(0x2000#32, 0xAAAAAAAA#32)])) =
    some 0xAAAAAA#32 := by decide
theorem test_andiCcr_T211 :
    look (fun t => t.sr)
      (go [0x23C#16, 0xFF00#16] (at_ 0x0#32 0x0#32 0x0#32 0x0#32 0x271F#16 [])) =
    some 0x2700#16 := by decide
theorem test_oriCcr_T213 :
    look (fun t => t.sr)
      (go [0x3C#16, 0xFF#16] (at_ 0x0#32 0x0#32 0x0#32 0x0#32 0x2700#16 [])) =
    some 0x271F#16 := by decide
theorem test_eoriCcr_T214 :
    look (fun t => t.sr)
      (go [0xA3C#16, 0x1F#16] (at_ 0x0#32 0x0#32 0x0#32 0x0#32 0x2715#16 [])) =
    some 0x270A#16 := by decide
theorem test_moveToCcr_T215 :
    look (fun t => t.sr)
      (go [0x44C0#16] (at_ 0xFFFFFFF5#32 0x0#32 0x0#32 0x0#32 0x2700#16 [])) =
    some 0x2715#16 := by decide
theorem test_moveFromSr_T216 :
    look (fun t => t.getD 0)
      (go [0x40C0#16] (at_ 0xFFFFFFFF#32 0x0#32 0x0#32 0x0#32 0x2715#16 [])) =
    some 0xFFFF2715#32 := by decide
theorem test_andiSr_T218 :
    look (fun t => (t.sr, t.sp, t.ssp))
      (go [0x27C#16, 0xDFFF#16] (at_ 0x0#32 0x0#32 0x0#32 0x0#32 0x2704#16 [])) =
    some (0x704#16, 0x6000#32, 0x8000#32) := by decide
theorem test_oriSr_T219 :
    look (fun t => t.sr)
      (go [0x7C#16, 0x700#16] (at_ 0x0#32 0x0#32 0x0#32 0x0#32 0x2000#16 [])) =
    some 0x2700#16 := by decide
theorem test_oriSr_T225_user :
    look (fun t => (t.sr, t.sp, t.wordAt 0x7FFA#32, t.longAt 0x7FFC#32, t.pc, t.usp))
      (go [0x7C#16, 0x700#16] (at_ 0x0#32 0x0#32 0x0#32 0x0#32 0x0#16 [(0x20#32, 0x3000#32)])) =
    some (0x2000#16, 0x7FFA#32, 0x0#16, 0x1000#32, 0x3000#32, 0x6000#32) := by decide
theorem test_eoriSr_T220 :
    look (fun t => (t.sr, t.sp))
      (go [0xA7C#16, 0x2000#16] (at_ 0x0#32 0x0#32 0x0#32 0x0#32 0x2000#16 [])) =
    some (0x0#16, 0x6000#32) := by decide
theorem test_moveToSr_T221 :
    look (fun t => t.sr)
      (go [0x46FC#16, 0x7FFF#16] (at_ 0x0#32 0x0#32 0x0#32 0x0#32 0x2000#16 [])) =
    some 0x271F#16 := by decide
theorem test_moveUsp_T223 :
    look (fun t => (t.usp, t.sp))
      (go [0x4E60#16] (at_ 0x0#32 0x0#32 0x5000#32 0x0#32 0x2700#16 [])) =
    some (0x5000#32, 0x8000#32) := by decide
theorem test_moveUsp_T224 :
    look (fun t => t.getA 1)
      (go [0x4E69#16] (at_ 0x0#32 0x0#32 0x0#32 0x0#32 0x2700#16 [])) =
    some 0x6000#32 := by decide
theorem test_chk_T227 :
    look (fun t => (t.pc, t.ccr.x))
      (go [0x4181#16] (at_ 0x5#32 0xA#32 0x0#32 0x0#32 0x2710#16 [])) =
    some (0x1002#32, true) := by decide
theorem test_chk_T229 :
    look (fun t => (t.pc, t.ccr.n, t.sp))
      (go [0x4181#16] (at_ 0xFFFF#32 0xA#32 0x0#32 0x0#32 0x2000#16 [(0x18#32, 0x11223344#32)])) =
    some (0x11223344#32, true, 0x7FFA#32) := by decide
theorem test_trap_T232 :
    look (fun t => (t.sr, t.sp, t.wordAt 0x7FFA#32, t.longAt 0x7FFC#32, t.pc))
      (go [0x4E4F#16] (at_ 0x0#32 0x0#32 0x0#32 0x0#32 0x5#16 [(0xBC#32, 0x2000#32)])) =
    some (0x2005#16, 0x7FFA#32, 0x5#16, 0x1002#32, 0x2000#32) := by decide
theorem test_trapv_T231 :
    look (fun t => (t.wordAt 0x7FFA#32, t.longAt 0x7FFC#32, t.pc))
      (go [0x4E76#16] (at_ 0x0#32 0x0#32 0x0#32 0x0#32 0x2002#16 [(0x1C#32, 0x3000#32)])) =
    some (0x2002#16, 0x1002#32, 0x3000#32) := by decide
theorem test_trapv_T230 :
    look (fun t => (t.pc, t.sr))
      (go [0x4E76#16] (at_ 0x0#32 0x0#32 0x0#32 0x0#32 0x271D#16 [])) =
    some (0x1002#32, 0x271D#16) := by decide
theorem test_illegal_T234 :
    look (fun t => (t.longAt 0x7FFC#32, t.wordAt 0x7FFA#32, t.pc))
      (go [0x4AFC#16] (at_ 0x0#32 0x0#32 0x0#32 0x0#32 0x2000#16 [(0x10#32, 0x3000#32)])) =
    some (0x1000#32, 0x2000#16, 0x3000#32) := by decide
theorem test_rte :
    look (fun t => (t.sr, t.pc, t.ssp, t.sp))
      (go [0x4E73#16] (at_ 0x0#32 0x0#32 0x0#32 0x0#32 0x2000#16 [(0x8000#32, 0x50000#32), (0x8004#32, 0x10020000#32)])) =
    some (0x5#16, 0x1002#32, 0x8006#32, 0x6000#32) := by decide
theorem test_reset_T226_user :
    look (fun t => (t.pc, t.resetPulses, t.sr))
      (go [0x4E70#16] (at_ 0x0#32 0x0#32 0x0#32 0x0#32 0x0#16 [(0x20#32, 0x3000#32)])) =
    some (0x3000#32, 0, 0x2000#16) := by decide
theorem test_reset_super :
    look (fun t => (t.pc, t.resetPulses))
      (go [0x4E70#16] (at_ 0x0#32 0x0#32 0x0#32 0x0#32 0x2700#16 [])) =
    some (0x1002#32, 1) := by decide
theorem test_stop_T240 :
    look (fun t => (t.sr, t.pc, t.run))
      (go [0x4E72#16, 0x2000#16] (at_ 0x0#32 0x0#32 0x0#32 0x0#32 0x2700#16 [])) =
    some (0x2000#16, 0x1004#32, .stopped) := by decide
theorem test_tas_T237 :
    look (fun t => (t.byteAt 0x2000#32, t.sr))
      (go [0x4AD0#16] (at_ 0x0#32 0x0#32 0x2000#32 0x0#32 0x271B#16 [])) =
    some (0x80#8, 0x2714#16) := by decide
theorem test_line_a_T236 :
    look (fun t => (t.pc, t.longAt 0x7FFC#32))
      (go [0xA000#16] (at_ 0x0#32 0x0#32 0x0#32 0x0#32 0x2000#16 [(0x28#32, 0x3000#32)])) =
    some (0x3000#32, 0x1000#32) := by decide
theorem test_line_f_T236 :
    look (fun t => (t.pc, t.longAt 0x7FFC#32))
      (go [0xF000#16] (at_ 0x0#32 0x0#32 0x0#32 0x0#32 0x2000#16 [(0x2C#32, 0x3100#32)])) =
    some (0x3100#32, 0x1000#32) := by decide
theorem test_trace_after_nop :
    look (fun t => (t.pc, t.longAt 0x7FFC#32, t.wordAt 0x7FFA#32, t.sr))
      (go [0x4E71#16] (at_ 0x0#32 0x0#32 0x0#32 0x0#32 0xA700#16 [(0x24#32, 0x3000#32)])) =
    some (0x3000#32, 0x1002#32, 0xA700#16, 0x2700#16) := by decide

/-! ## States for the tests below -/

/-- Supervisor mode, nothing in memory. -/
def s0 : State := at_ 5#32 3#32 0x2000#32 0x3000#32 0x2700#16 []

/-- User mode. -/
def u0 : State := at_ 5#32 3#32 0x2000#32 0x3000#32 0x0000#16 []

/-- An index operand: the low word of D0. -/
def x0 : IndexSpec := ⟨false, 0, false, 0#2⟩

/-- The four spaces. -/
def spaces : List FuncCode := [.userData, .userProgram, .superData, .superProgram]

/-- A platform with nothing at addresses 0 to 15 and ROM at 16 to 31. -/
def holes : Config :=
  { Config.baseline with memMap := [⟨0, 16, spaces, true, true, .nothing⟩, ⟨16, 16, spaces, true, true, .rom⟩] }

/-- The baseline state on that platform. -/
def h0 : State := { s0 with cfg := holes }

/-- The state on an MC68020. -/
def m0 : State := { s0 with cfg := { Config.baseline with cpu := .mc68020 } }

/-- The state on a platform whose MOVEM reads the extra word. -/
def e0 : State := { s0 with cfg := { Config.baseline with movemExtraRead := true } }

/-- The state on a platform whose exceptions are terminal. -/
def f0 : State := { s0 with cfg := { Config.baseline with halt := .firstRaise } }

/-- The state on an MC68010. -/
def t0 : State := { s0 with cfg := { Config.baseline with cpu := .mc68010 } }

/-! ## The platform, the later members and the ends of a run -/

/-- At 32 to 47: user data may be read, supervisor data read and written, nothing else (20_memory.md R66, D8). -/
theorem test_memory_map_by_space_and_direction :
    let cfg : Config :=
      { Config.baseline with memMap := [⟨32, 16, [.userData], true, false, .ram⟩, ⟨32, 16, [.superData], true, true, .ram⟩] }
    (cfg.verdict 40 .userData false, cfg.verdict 40 .userData true, cfg.verdict 40 .superData true,
      cfg.verdict 40 .superProgram false, cfg.verdict 48 .userData true) =
    (.granted, .busError, .granted, .busError, .granted) := by decide
/-- Vector 1 from an interrupt is a supervisor program read, which this platform does not admit (60_exceptions.md R431): the
bus error is taken in its stead. -/
theorem test_vector_space :
    let s : State :=
      { at_ 0#32 0#32 0#32 0#32 0x2000#16 [(4#32, 0x11111111#32), (8#32, 0x22222222#32)] with
        cfg := { Config.baseline with memMap := [⟨4, 4, [.superData], true, true, .ram⟩] } }
    (look (fun t => (t.pc, t.ssp)) (takeException (.interrupt 4#3 1#8) s)) = some (0x22222222#32, 0x7FEC#32) := by decide
/-- An interrupt with M set: the frame goes to the interrupt stack, MSP is untouched (log 13). -/
theorem test_interrupt_clears_master :
    let s : State := { m0 with sys := 0x30#8, msp := 0x6000#32, mem := (m0.store .l 0x70#32 0x3000#32).mem }
    look (fun t => (t.sr, t.ssp, t.msp, t.pc, t.wordAt t.ssp)) (takeException (.interrupt 4#3 28#8) s) =
    some (0x2400#16, 0x7FF8#32, 0x6000#32, 0x3000#32, 0x3000#16) := by decide
/-- A long word stored at $FFFFFFFD on an MC68020 with nothing at 0: the three bytes below the failing one land (92_eei_decisions.md
D3). An aligned word of which only the second byte has memory lands not at all (D10). -/
theorem test_store_cut_short :
    let s : State := { h0 with cfg := { holes with cpu := .mc68020 } }
    let c : State := { s0 with cfg := { Config.baseline with memMap := [⟨0x2000, 1, spaces, true, true, .nothing⟩] } }
    let after (s : State) (sz : Size) (a x : Word) :=
      match (memWrite .superData sz a 0x11223344#32).run s with
      | .ok _ _ => none
      | .error _ t => some (t.longAt x)
    after s .l 0xFFFFFFFD#32 0xFFFFFFFD#32 = some 0x11223300#32 ∧ after c .w 0x2000#32 0x2000#32 = some 0#32 := by decide
/-- An access fault on an MC68010 whose stack is odd halts it, the stack pointer moved past the format word that could not be
stored (60_exceptions.md R440, R441, R447). -/
theorem test_double_fault_later :
    look (fun t => (t.run, t.ssp, t.pc))
      (takeAccessFault ⟨true, 0#32, false, .superData⟩ false 0x1000#32 { t0 with ssp := 0x8001#32 }) =
    some (.halted, 0x7FFF#32, 0x1000#32) := by decide
/-- A long word whose high word is a device's and whose low word has no memory: Bus Error, read and written (20_memory.md R66, R80);
and one across RAM, a device byte and nothing at an odd address: the RAM byte lands. -/
theorem test_bus_error_beside_device :
    let c : Config := { Config.baseline with
      cpu := .mc68020
      memMap := [⟨0x2000, 2, spaces, true, true, .device⟩, ⟨0x2002, 2, spaces, true, true, .nothing⟩] }
    let s : State := { s0 with cfg := c }
    let isBusError : EStateM.Result Stop State Word → Bool
      | .error (.access f) _ => f.bus
      | _ => false
    s.verdict .superData true .l 0x2000#32 = .busError ∧ isBusError ((memRead .superData .l 0x2000#32).run s) = true ∧
    (match (memWrite .superData .l 0x1FFF#32 0x11223344#32).run s with
      | .error (.access f) t => f.bus && t.longAt 0x1FFF#32 == 0x11000000#32
      | _ => false) = true ∧
    s.verdict .superData true .w 0x2000#32 = .device := by decide
/-- A store outside its own window is seen by every later fetch, whatever was stale before (20_memory.md R76). -/
theorem test_store_outside_window_is_seen :
    let s := s0.store .w 0x1004#32 0x1111#32
    (s.staleAt 0x1004#32, (State.store { s with pc := 0x1010#32 } .b 0x1005#32 0x22#32).staleAt 0x1004#32) =
    ([0#16], [0x0022#16]) := by decide
/-- A taken BRA.W out of the window, though to the next instruction's own address, ends the window; NOP does not
(70_reset_and_hazards.md R485). -/
theorem test_branch_to_next_leaves_window :
    let after (ws : List Word16) :=
      look (fun t => (t.pc, t.staleAt 0x1004#32))
        (step { State.placeWords { s0 with pc := 0x1006#32 } ws with stale := [⟨0x1004, 7#16, 0x1000#32⟩] })
    after [0x6000#16, 0x0002#16] = some (0x100A#32, []) ∧ after [0x4E71#16] = some (0x1008#32, [7#16]) := by decide
/-- On a member with an instruction cache any store may be missed by a fetch (R76). -/
theorem test_cached_store : (m0.store .w 0x5000#32 0x1111#32).staleAt 0x5000#32 = [0#16] := by decide
/-- The zero divide has moved `pc` on when an odd stack pointer halts the processor (42_integer_arithmetic.md R224). -/
theorem test_zero_divide_moves_pc :
    look (fun t => (t.pc, t.run)) (exec (.divu 0 (.imm 0#32)) { s0 with ssp := 0x8001#32 }) = some (0x1004#32, .halted) := by
  decide
/-- CHK.L D1,D0 on an MC68020; the pattern is illegal on the baseline (47_system_control.md R371). -/
theorem test_chk_long_decode :
    decode .mc68020 [0x4101#16] = .done (.chk 0 ⟨true, .dn 1⟩) [] ∧ encode (.chk 0 ⟨true, .dn 1⟩) = [0x4101#16] ∧
    decode .mc68000 [0x4101#16] = .reject .illegal := by decide
/-- $10000 is below the bound 5 as a word, above it as a long word. -/
theorem test_chk_long :
    look (fun t => (t.pc, t.ccr.n)) (exec (.chk 0 ⟨true, .dn 1⟩) ((m0.store .l 0x18#32 0x33333333#32).setD 0 0x10000#32)) =
    some (0x33333333#32, false) := by decide
/-- MOVEM.W (A0)+,D0 with a fault boundary behind its word: the extra read ends in a bus error, A0 is unchanged (U19). -/
theorem test_movem_extra_read :
    let s : State :=
      { at_ 0#32 0#32 0x2000#32 0#32 0x2700#16 [(8#32, 0x22222222#32)] with
        cfg := { Config.baseline with movemExtraRead := true, memMap := [⟨0x2002, 2, spaces, true, true, .nothing⟩] } }
    look (fun t => (t.pc, t.getA 0)) (exec (.movemToReg false 1#16 (.postInc 0)) s) = some (0x22222222#32, 0x2000#32) := by decide

/-! ## Witnesses: for each statement with hypotheses, a state and operands that meet them all, clause by clause -/

theorem wit_DecodeOfEncode :
    Instr.wf .mc68000 (.moveL (.postInc 7) (.preDec 7)) = true ∧
    Instr.wf .mc68020 (.lea 7 (.full 7 ⟨x0, true, false, .long 0#32, .post .null⟩)) = true := by decide
theorem wit_DecodedIsWellFormed : decode .mc68000 [0xD041#16] = .done (.add 0 .w .toReg (.dn 1)) [] := by decide
theorem wit_NegationFlags : (false = false) ∧ (subOf .b 0x80#32 0#32 false).v = true ∧ (subOf .b 0x7F#32 0#32 false).v = false := by
  decide
theorem wit_ShiftCarry : (1 ≤ 1 ∧ 1 ≤ 63) ∧ (1 ≤ 63 ∧ 63 ≤ 63) := by decide
theorem wit_ShiftResults : 0 ≤ 63 ∧ 63 ≤ 63 := by decide
theorem wit_DecimalArithmetic : bcdValid 0x00#8 = true ∧ bcdValid 0x99#8 = true := by decide
theorem wit_StoreThenRead :
    (s0.mem.wf = true ∧ 2 ≤ s0.cfg.addrBits) ∧
    (State.reset.mem.wf = true ∧ 2 ≤ { State.reset with cfg := { Config.baseline with addrBits := 2 } }.cfg.addrBits) := by
  decide
theorem wit_AccessChecks_odd : s0.cfg.cpu.is020 = false ∧ (1#32).getLsbD 0 = true ∧ (0xFFFFFFFF#32).getLsbD 0 = true := by
  decide
theorem wit_AccessChecks_bus_error :
    (h0.misaligned .l 14#32 = false ∧ h0.verdict .superData false .l 14#32 = .busError) ∧
    (h0.misaligned .l 14#32 = false ∧ h0.verdict .superData true .l 14#32 = .busError) := by decide
/-- An aligned word; and a long word from $FFFFFFFF on an MC68020, whose first byte the platform admits. -/
theorem wit_AccessChecks_cut_stores :
    (h0.misaligned .w 14#32 = false ∧ h0.verdict .superData true .w 14#32 = .busError ∧ (14#32).getLsbD 0 = false) ∧
    (let s : State := { h0 with cfg := { holes with cpu := .mc68020 } }
     s.misaligned .l 0xFFFFFFFF#32 = false ∧ s.verdict .superData true .l 0xFFFFFFFF#32 = .busError ∧
      (0xFFFFFFFF#32).getLsbD 0 = true ∧ s.mem.wf = true ∧ 2 ≤ s.cfg.addrBits) ∧
    (14#32 ∈ bytesFrom .l 14#32 ∧ h0.byteVerdict .superData false 14#32 = .busError ∧
      h0.byteVerdict .superData true 14#32 = .busError) := by decide
theorem wit_AccessChecks_completes :
    h0.accessible .superData false .l 16#32 = true ∧ h0.accessible .superData true .l 32#32 = true := by decide
/-- The words $A000, $F000 and $4AFB (no effective address), and $F000 on an MC68020. -/
theorem wit_FetchExceptions :
    ({ s0 with pc := 0x1001#32 } : State).pc.getLsbD 0 = true ∧
    (0xA000#16).extractLsb' 12 4 = 0xA#4 ∧ (0xF000#16).extractLsb' 12 4 = 0xF#4 ∧
    (let s := s0.placeWords [0xA000#16]
     s.fetchable s.pc 1 = true ∧ s.staleAt s.pc = [] ∧ decodeOp s.cfg.cpu (s.wordAt s.pc) = .reject .lineA ∧
      s.ended = false ∧ s.nextPins.reset = false ∧ s.nextPins.halt = false ∧ s.run = .running ∧ s.interrupted = false ∧
      EntryReady s .lineA) ∧
    (let s := s0.placeWords [0xF000#16]
     decodeOp s.cfg.cpu (s.wordAt s.pc) = .reject .lineF ∧ EntryReady s .lineF) ∧
    (let s := s0.placeWords [0x4AFB#16]
     decodeOp s.cfg.cpu (s.wordAt s.pc) = .reject .illegal ∧ EntryReady s .illegal) ∧
    (let s := m0.placeWords [0xF000#16]
     s.fetchable s.pc 1 = true ∧ decodeOp s.cfg.cpu (s.wordAt s.pc) = .reject .laterMember) :=
  ⟨rfl, rfl, rfl, ⟨rfl, rfl, rfl, rfl, rfl, rfl, rfl, rfl, nofun, nofun, rfl, rfl, rfl⟩, ⟨rfl, nofun, nofun, rfl, rfl, rfl⟩,
    ⟨rfl, nofun, nofun, rfl, rfl, rfl⟩, rfl, rfl⟩
theorem wit_IndexAndFullExtension :
    (⟨x0, false, false, .null, .none⟩ : FullExt).indirect = .none ∧
    (⟨x0, false, false, .null, .pre .null⟩ : FullExt).indirect = .pre .null ∧
    m0.accessible (m0.fc false) false .l (0x2000#32 + displValue .null + m0.indexValue x0) = true ∧
    (⟨x0, false, false, .null, .post .null⟩ : FullExt).indirect = .post .null ∧
    m0.accessible (m0.fc false) false .l (0x2000#32 + displValue .null) = true := by decide
theorem wit_MoveCompletes :
    Resolves s0 1 .w (.postInc 0) (.mem 0x2000#32 false) (s0.setA 0 0x2002#32) ∧
    Readable (s0.setA 0 0x2002#32) .w (.mem 0x2000#32 false) ∧
    Resolves (s0.setA 0 0x2002#32) 1 .w (.preDec 1) (.mem 0x2FFE#32 false) ((s0.setA 0 0x2002#32).setA 1 0x2FFE#32) ∧
    Writable ((s0.setA 0 0x2002#32).setA 1 0x2FFE#32) .w (.mem 0x2FFE#32 false) := ⟨rfl, rfl, rfl, rfl⟩
theorem wit_AddressRegisterWrites :
    (Resolves s0 1 .w (.dn 0) (.dreg 0) s0 ∧ Readable s0 .w (.dreg 0)) ∧ ControlResolves s0 1 (.ind 0) 0x2000#32 s0 :=
  ⟨⟨rfl, trivial⟩, rfl⟩
theorem wit_ControlAddress :
    (Ea.pcDisp 0#16).kind.isControl = true ∧ Resolves s0 1 .l (.pcDisp 0#16) (.mem 0x1002#32 true) s0 ∧
    s0.cfg.cpu.is020 = false ∧ (Ea.pcDisp 0#16).wf s0.cfg.cpu .l = true := ⟨rfl, rfl, rfl, rfl⟩
theorem wit_PushesAddress :
    s0.accessible (s0.fc false) true .l (s0.sp - 4#32) = true ∧ ControlResolves s0 1 (.ind 7) 0x8000#32 s0 := ⟨rfl, rfl⟩
theorem wit_LinkAndUnlink :
    s0.accessible (s0.fc false) true .l (s0.sp - 4#32) = true ∧ s0.accessible (s0.fc false) false .l (s0.getA 7) = true :=
  ⟨rfl, rfl⟩
theorem wit_MovemStores :
    (ControlResolves s0 2 (.ind 0) 0x2000#32 s0 ∧
      ∀ j < (maskBits 0xFFFF#16).length, s0.accessible (s0.fc false) true .l (0x2000#32 + BitVec.ofNat 32 (4 * j)) = true) ∧
    (∀ j < (maskBits 0xFFFF#16).length,
      s0.accessible (s0.fc false) true .w (s0.getA 7 - BitVec.ofNat 32 (2 * (j + 1))) = true) ∧
    (∀ j < (maskBits 0#16).length, s0.accessible (s0.fc false) true .w (s0.getA 7 - BitVec.ofNat 32 (2 * (j + 1))) = true) ∧
    s0.mem.wf = true ∧ 6 ≤ s0.cfg.addrBits := by
  refine ⟨⟨rfl, ?_⟩, ?_, ?_, rfl, ?_⟩ <;> decide
theorem wit_MovemLoads :
    ((Ea.pcDisp 0#16).kind ≠ .postInc ∧ ControlResolves s0 2 (.pcDisp 0#16) 0x1004#32 s0 ∧
      ∀ j < (maskBits 0xFFFF#16).length, s0.accessible (s0.fc true) false .l (0x1004#32 + BitVec.ofNat 32 (4 * j)) = true) ∧
    (∀ j < (maskBits 0xFFFF#16).length, s0.accessible (s0.fc false) false .w (s0.getA 7 + BitVec.ofNat 32 (2 * j)) = true) ∧
    (e0.cfg.movemReadsExtra = true ∧ e0.accessible (e0.fc false) false .w (e0.getA 7 + BitVec.ofNat 32 (2 * 16)) = true) := by
  refine ⟨⟨?_, rfl, ?_⟩, ?_, ?_⟩ <;> decide
theorem wit_MovepTransfers :
    (∀ j < 4, s0.accessible (s0.fc false) true .b (0x2001#32 + BitVec.ofNat 32 (2 * j)) = true) ∧
    (∀ j < 4, s0.accessible (s0.fc false) false .b (0x2001#32 + BitVec.ofNat 32 (2 * j)) = true) ∧
    s0.mem.wf = true ∧ 3 ≤ s0.cfg.addrBits := by decide
/-- Of RegisterDestination, Comparisons (one operand), Multiply, CcrWrites, SupervisorInstructions. -/
theorem wit_source_operand :
    Resolves s0 1 .w (.postInc 0) (.mem 0x2000#32 false) (s0.setA 0 0x2002#32) ∧
    Readable (s0.setA 0 0x2002#32) .w (.mem 0x2000#32 false) := ⟨rfl, rfl⟩
/-- Of OperandDestination, QuickArithmetic, UnaryReadModifyWrite, SetOperand, MemoryShifts. -/
theorem wit_modified_operand :
    (Resolves s0 1 .w (.preDec 0) (.mem 0x1FFE#32 false) (s0.setA 0 0x1FFE#32) ∧
      Readable (s0.setA 0 0x1FFE#32) .w (.mem 0x1FFE#32 false) ∧ Writable (s0.setA 0 0x1FFE#32) .w (.mem 0x1FFE#32 false)) ∧
    (Resolves s0 1 .b (.dn 7) (.dreg 7) s0 ∧ Readable s0 .b (.dreg 7) ∧ Writable s0 .b (.dreg 7)) :=
  ⟨⟨rfl, rfl, rfl⟩, rfl, trivial, trivial⟩
theorem wit_ImmediateDestination :
    Resolves s0 (1 + Size.immLength .l) .l (.disp 0 4#16) (.mem 0x2004#32 false) s0 ∧
    Readable s0 .l (.mem 0x2004#32 false) ∧ Writable s0 .l (.mem 0x2004#32 false) := ⟨rfl, rfl, rfl⟩
theorem wit_QuickArithmetic : Size.w ≠ .b ∧ Size.l ≠ .b := by decide
theorem wit_Comparisons_cmpm :
    Resolves s0 1 .b (.postInc 7) (.mem 0x8000#32 false) (s0.setA 7 0x8002#32) ∧
    Readable (s0.setA 7 0x8002#32) .b (.mem 0x8000#32 false) ∧
    Resolves (s0.setA 7 0x8002#32) 1 .b (.postInc 7) (.mem 0x8002#32 false) ((s0.setA 7 0x8002#32).setA 7 0x8004#32) ∧
    Readable ((s0.setA 7 0x8002#32).setA 7 0x8004#32) .b (.mem 0x8002#32 false) := ⟨rfl, rfl, rfl, rfl⟩
theorem wit_ExtendedArithmetic :
    PairResolves s0 .l true 0 (.mem 0x1FFC#32 false) (s0.setA 0 0x1FFC#32) ∧
    Readable (s0.setA 0 0x1FFC#32) .l (.mem 0x1FFC#32 false) ∧
    PairResolves (s0.setA 0 0x1FFC#32) .l true 0 (.mem 0x1FF8#32 false) ((s0.setA 0 0x1FFC#32).setA 0 0x1FF8#32) ∧
    Readable ((s0.setA 0 0x1FFC#32).setA 0 0x1FF8#32) .l (.mem 0x1FF8#32 false) ∧
    Writable ((s0.setA 0 0x1FFC#32).setA 0 0x1FF8#32) .l (.mem 0x1FF8#32 false) := ⟨rfl, rfl, rfl, rfl, rfl⟩
/-- Of SetOperand, for MOVE from SR on a later member in supervisor mode. -/
theorem wit_SetOperand :
    Resolves t0 1 .w (.ind 0) (.mem 0x2000#32 false) t0 ∧
    (t0.cfg.cpu.isBaseline = true → Readable t0 .w (.mem 0x2000#32 false)) ∧ Writable t0 .w (.mem 0x2000#32 false) ∧
    (t0.cfg.cpu.isBaseline = true ∨ t0.isSuper = true) := ⟨rfl, fun _ => rfl, rfl, .inr rfl⟩
/-- A quotient that just fits, one that just does not, and a divisor of zero; unsigned and signed. -/
theorem wit_Divide :
    (Resolves s0 1 .w (.imm 1#32) (.imm 1#32) s0 ∧ Readable s0 .w (.imm 1#32)) ∧
    ((0xFFFF#32).toNat / 1 ≤ 0xFFFF ∧ ¬ (0x10000#32).toNat / 1 ≤ 0xFFFF) ∧
    (Int.tdiv (0xFFFF8000#32).toInt 1 = -32768 ∧ Int.tdiv (0x7FFF#32).toInt 1 = 32767 ∧
      ¬ Int.tdiv (0x8000#32).toInt 1 ≤ 32767) ∧ (valueOf s0 .w (.imm 0#32)).extractLsb' 0 16 = 0#16 := by
  refine ⟨⟨rfl, trivial⟩, ?_, ?_, rfl⟩ <;> decide
theorem wit_RegisterShifts :
    (Instr.aslReg (.reg 0) .b 0, ShiftOp.asl) ∈
      [(Instr.asrReg (.reg 0) .b 0, ShiftOp.asr), (Instr.aslReg (.reg 0) .b 0, ShiftOp.asl),
        (Instr.lsrReg (.reg 0) .b 0, ShiftOp.lsr), (Instr.lslReg (.reg 0) .b 0, ShiftOp.lsl),
        (Instr.roxrReg (.reg 0) .b 0, ShiftOp.roxr), (Instr.roxlReg (.reg 0) .b 0, ShiftOp.roxl),
        (Instr.rorReg (.reg 0) .b 0, ShiftOp.ror), (Instr.rolReg (.reg 0) .b 0, ShiftOp.rol)] := by decide
theorem wit_BitOnByte :
    ((Ea.ind 0).kind ≠ .dn ∧ Resolves s0 2 .b (.ind 0) (.mem 0x2000#32 false) s0 ∧
      Readable s0 .b (.mem 0x2000#32 false) ∧ Writable s0 .b (.mem 0x2000#32 false)) ∧
    ((Ea.imm 1#32).kind ≠ .dn ∧ Resolves s0 1 .b (.imm 1#32) (.imm 1#32) s0 ∧ Readable s0 .b (.imm 1#32)) :=
  ⟨⟨nofun, rfl, rfl, rfl⟩, nofun, rfl, trivial⟩
/-- On valid digits: D0 and D1 hold 5 and 3; on invalid ones: 0xA is none. -/
theorem wit_DecimalInstructions :
    (PairResolves s0 .b false 1 (.dreg 1) s0 ∧ Readable s0 .b (.dreg 1) ∧ PairResolves s0 .b false 0 (.dreg 0) s0 ∧
      Readable s0 .b (.dreg 0) ∧ Writable s0 .b (.dreg 0)) ∧
    bcdValid ((valueOf s0 .b (.dreg 1)).extractLsb' 0 8) = true ∧ bcdValid ((valueOf s0 .b (.dreg 0)).extractLsb' 0 8) = true ∧
    bcdValid 0x0A#8 = false := ⟨⟨rfl, trivial, rfl, trivial, trivial⟩, rfl, rfl, rfl⟩
theorem wit_BranchesAndJumps : ControlResolves s0 1 (.pcDisp 2#16) 0x1004#32 s0 := rfl
theorem wit_Returns :
    s0.accessible (s0.fc false) false .l s0.sp = true ∧ s0.accessible (s0.fc false) false .w s0.sp = true ∧
    s0.accessible (s0.fc false) false .l (s0.sp + 2#32) = true := by decide
theorem wit_SupervisorInstructions :
    s0.isSuper = true ∧ s0.cfg.cpu.isBaseline = true ∧ t0.isSuper = true ∧ (0x2000#16).getLsbD 13 = true := by decide
theorem wit_PrivilegeViolation :
    (u0.isSuper = false ∧ privileged u0.cfg.cpu .rte = true) ∧
    (t0.isSuper = true ∧ t0.cfg.cpu.isBaseline = false ∧ (0xDFFF#16).getLsbD 13 = false) := by decide
/-- ORI to SR in user mode, its immediate word where the platform has nothing. -/
theorem wit_PrivilegeViolation_step :
    let s : State :=
      { u0.placeWords [0x007C#16] with
        cfg := { Config.baseline with memMap := [⟨0x1002, 2, spaces, true, true, .nothing⟩] } }
    s.isSuper = false ∧ Instr.wf s.cfg.cpu (.oriSr 0#16) = true ∧ privileged s.cfg.cpu (.oriSr 0#16) = true ∧
    s.fetchable s.pc 1 = true ∧ s.fetchable s.pc 2 = false ∧ s.staleAt s.pc = [] ∧
    (encode (.oriSr 0#16)).head? = some (s.wordAt s.pc) ∧
    s.ended = false ∧ s.nextPins.reset = false ∧ s.nextPins.halt = false ∧ s.run = .running ∧ s.interrupted = false ∧
    EntryReady s .privilege :=
  ⟨rfl, rfl, rfl, rfl, rfl, rfl, rfl, rfl, rfl, rfl, rfl, rfl, nofun, nofun, rfl, rfl, rfl⟩
/-- D0 is 5: equal to the bound, above it, and -1 with a bound of 0; in the long form a bound of -1. -/
theorem wit_CheckBounds :
    (Resolves s0 1 (Size.ofLong false) (.imm 5#32) (.imm 5#32) s0 ∧ Readable s0 (Size.ofLong false) (.imm 5#32)) ∧
    (0 ≤ ((s0.getD 0).extractLsb' 0 16).toInt ∧
      ((s0.getD 0).extractLsb' 0 16).toInt ≤ ((valueOf s0 .w (.imm 5#32)).extractLsb' 0 16).toInt) ∧
    ((valueOf s0 .w (.imm 4#32)).extractLsb' 0 16).toInt < ((s0.getD 0).extractLsb' 0 16).toInt ∧
    (((0xFFFF#32 : Word).extractLsb' 0 16).toInt < 0) ∧
    (Resolves m0 1 (Size.ofLong true) (.imm 0xFFFFFFFF#32) (.imm 0xFFFFFFFF#32) m0 ∧
      Readable m0 (Size.ofLong true) (.imm 0xFFFFFFFF#32) ∧
      (valueOf m0 .l (.imm 0xFFFFFFFF#32)).toInt < (m0.getD 0).toInt) := by
  refine ⟨⟨rfl, trivial⟩, ?_, ?_, ?_, rfl, trivial, ?_⟩ <;> decide
theorem wit_TrapInstructions :
    EntryReady u0 (.trap 15#4 u0.pc) ∧ EntryReady u0 .illegal ∧
    ((at_ 0#32 0#32 0#32 0#32 2#16 []).ccr.v = true ∧ EntryReady (at_ 0#32 0#32 0#32 0#32 2#16 []) (.trapV 0x1000#32)) ∧
    u0.ccr.v = false :=
  ⟨⟨nofun, nofun, rfl, rfl, rfl⟩, ⟨nofun, nofun, rfl, rfl, rfl⟩, ⟨rfl, nofun, nofun, rfl, rfl, rfl⟩, rfl⟩
/-- An interrupt on the MC68010, one with vector 1 and M set on the MC68020, and a platform with terminal exceptions. -/
theorem wit_ExceptionEntry :
    EntryReady t0 (.interrupt 7#3 24#8) ∧
    ({ m0 with sys := 0x37#8 }.onMaster = true ∧ EntryReady { m0 with sys := 0x37#8 } (.interrupt 7#3 1#8)) ∧
    f0.cfg.halt = .firstRaise :=
  ⟨⟨nofun, fun _ => rfl, rfl, rfl, rfl⟩, ⟨rfl, nofun, fun _ => rfl, rfl, rfl, rfl⟩, rfl⟩
theorem wit_AccessFaultFrame :
    s0.cfg.cpu.isBaseline = true ∧ Group0Ready s0 true ∧ Group0Ready s0 false ∧ f0.cfg.halt = .firstRaise :=
  ⟨rfl, ⟨nofun, rfl, rfl, rfl, rfl, rfl, rfl⟩, ⟨nofun, rfl, rfl, rfl, rfl, rfl, rfl⟩, rfl⟩
/-- The MC68010, whose stack and vector base are even. -/
theorem wit_AccessFaultFrame_later :
    let u := t0.entered (entrySys t0.sys)
    t0.cfg.cpu.formatWord = true ∧ t0.cfg.halt ≠ .firstRaise ∧ t0.cfg.memMap = [] ∧ u.misaligned .w u.sp = false ∧
      u.misaligned .l t0.vbr = false ∧ t0.mem.wf = true ∧ 3 ≤ t0.cfg.addrBits := by decide
/-- An odd stack on the MC68000 and on the MC68010; and, on an MC68010 with nothing at 0 to 15, the stack at 16, and the vectors. -/
theorem wit_DoubleFaultHalts :
    (let s : State := { s0 with ssp := 0x8001#32, run := .halted }
     s.cfg.cpu.is020 = false ∧ s.cfg.halt ≠ .firstRaise ∧ s.ssp.getLsbD 0 = true ∧ s.run = .halted ∧ s.inputs = [] ∧
      s.pins.reset = false ∧ s.ended = false) ∧
    (let s : State := { t0 with ssp := 0x8001#32 }
     s.cfg.cpu.is020 = false ∧ s.cfg.halt ≠ .firstRaise ∧ s.ssp.getLsbD 0 = true) ∧
    (let s : State := { t0 with ssp := 16#32, cfg := { holes with cpu := .mc68010 } }
     let u := s.entered (entrySys s.sys)
     s.cfg.halt ≠ .firstRaise ∧ s.cfg.cpu.formatWord = true ∧ u.verdict .superData true .w (u.sp - 2#32) = .busError ∧
      (∀ r ∈ s.cfg.memMap, r.kind ≠ .device) ∧ s.verdict .superData false .l (s.vectorBase + 8#32) = .busError) := by
  decide
/-- On the baseline, and with a format word of 0 on the MC68010. -/
theorem wit_RteCompletes :
    (s0.isSuper = true ∧ s0.accessible .superData false .w s0.sp = true ∧
      s0.accessible .superData false .l (s0.sp + 2#32) = true ∧ s0.cfg.cpu.formatWord = false) ∧
    (t0.isSuper = true ∧ t0.accessible .superData false .w t0.sp = true ∧
      t0.accessible .superData false .l (t0.sp + 2#32) = true ∧ t0.accessible .superData false .w (t0.sp + 6#32) = true ∧
      (t0.wordAt (t0.sp + 6#32)).extractLsb' 12 4 = 0#4) := by decide
/-- In user mode on the MC68000; in supervisor mode with a format word. -/
theorem wit_TrapThenReturn :
    (u0.Inv ∧ 3 ≤ u0.cfg.addrBits ∧ EntryReady u0 (.trap 0#4 u0.pc) ∧
      u0.accessible .superData false .w 0x7FFA#32 = true ∧ u0.accessible .superData false .l 0x7FFC#32 = true ∧
      u0.cfg.cpu.formatWord = false ∧ (u0.entered (entrySys u0.sys)).sp - BitVec.ofNat 32 (frameBytes u0) = 0x7FFA#32) ∧
    (t0.Inv ∧ 3 ≤ t0.cfg.addrBits ∧ EntryReady t0 (.trap 0#4 t0.pc) ∧
      t0.accessible .superData false .w 0x7FF8#32 = true ∧ t0.accessible .superData false .l 0x7FFA#32 = true ∧
      t0.accessible .superData false .w 0x7FFE#32 = true ∧
      (t0.entered (entrySys t0.sys)).sp - BitVec.ofNat 32 (frameBytes t0) = 0x7FF8#32) :=
  ⟨⟨⟨rfl, rfl⟩, by decide, ⟨nofun, nofun, rfl, rfl, rfl⟩, rfl, rfl, rfl, rfl⟩,
    ⟨⟨rfl, rfl⟩, by decide, ⟨nofun, fun _ => rfl, rfl, rfl, rfl⟩, rfl, rfl, rfl, rfl⟩⟩
/-- Both reads answer; nothing at 0; nothing at 4 only; and the reset input asserted, on a halted processor
too. -/
theorem wit_ResetSequence :
    (s0.accessible .superProgram false .l 0#32 = true ∧ s0.accessible .superProgram false .l 4#32 = true) ∧
    h0.verdict .superProgram false .l 0#32 = .busError ∧
    (let s : State := { s0 with cfg := { Config.baseline with memMap := [⟨4, 4, spaces, true, true, .nothing⟩] } }
     s.accessible .superProgram false .l 0#32 = true ∧ s.verdict .superProgram false .l 4#32 = .busError) ∧
    (let s : State := { s0 with inputs := [{ Pins.quiet with reset := true }] }
     s.ended = false ∧ s.nextPins.reset = true) ∧
    (let s : State := { s0 with run := .halted, inputs := [{ Pins.quiet with reset := true }] }
     s.ended = false ∧ s.nextPins.reset = true ∧ look (fun t => t.run) (step s) = some .running) := by decide
/-- A level above the mask while stopped; an edge to 7 under mask 7; and a level equal to the mask. -/
theorem wit_InterruptTaken :
    (let s : State := { at_ 0#32 0#32 0#32 0#32 0x2300#16 [] with run := .stopped, pins := ⟨false, false, 4#3, .auto⟩ }
     s.ended = false ∧ s.nextPins.reset = false ∧ s.nextPins.halt = false ∧ s.run ≠ .halted ∧ s.mask < s.nextPins.ipl) ∧
    EntryReady (at_ 0#32 0#32 0#32 0#32 0x2300#16 []) (.interrupt 4#3 28#8) ∧
    (let s : State := { s0 with inputs := [⟨false, false, 7#3, .auto⟩] }
     s.nextPins.ipl = 7#3 ∧ s.pins.ipl ≠ 7#3 ∧ ¬ s.mask < s.nextPins.ipl) ∧
    (let s : State := { at_ 0#32 0#32 0#32 0#32 0x2300#16 [] with run := .stopped, pins := ⟨false, false, 3#3, .auto⟩ }
     s.ended = false ∧ s.nextPins.reset = false ∧ s.nextPins.halt = false ∧ s.run = .stopped ∧
      ¬ (s.mask < s.nextPins.ipl ∨ (s.nextPins.ipl = 7#3 ∧ s.pins.ipl ≠ 7#3))) := by
  refine ⟨?_, ⟨nofun, nofun, rfl, rfl, rfl⟩, ?_, ?_⟩ <;> decide
theorem wit_TraceFollows :
    (({ s0 with tracing := .all } : State).tracing = .all ∧ EntryReady { s0 with tracing := .all } .trace) ∧
    s0.tracing = .off ∧ (at_ 0#32 0#32 0#32 0#32 0xA700#16 []).sys.getLsbD 7 = true ∧
    (s0.sys.getLsbD 7 = false ∧ s0.sys.getLsbD 6 = false) := ⟨⟨rfl, nofun, nofun, rfl, rfl, rfl⟩, rfl, rfl, rfl, rfl⟩
/-- NOP with T set, and with T and T0 clear. -/
theorem wit_TraceFollows_step :
    (let s := (at_ 5#32 3#32 0x2000#32 0x3000#32 0xA700#16 []).placeWords [0x4E71#16]
     let u : State := { s.sampled with tracing := .all, pc := 0x1002#32 }
     s.ended = false ∧ s.nextPins.reset = false ∧ s.nextPins.halt = false ∧ s.run = .running ∧ s.interrupted = false ∧
      (∀ j < 1, s.staleAt (s.pc + BitVec.ofNat 32 (2 * j)) = []) ∧ s.fetchable s.pc 1 = true ∧
      decode s.cfg.cpu (s.wordsAt s.pc 1) = .done .nop [] ∧ privileged s.cfg.cpu .nop = false ∧ s.sys.getLsbD 7 = true ∧
      exec .nop { s.sampled with tracing := .all } = .next u ∧ u.tracing = .all ∧ EntryReady u .trace) ∧
    (let s := s0.placeWords [0x4E71#16]
     let u : State := { s.sampled with tracing := .off, pc := 0x1002#32 }
     decode s.cfg.cpu (s.wordsAt s.pc 1) = .done .nop [] ∧ s.sys.getLsbD 7 = false ∧ s.sys.getLsbD 6 = false ∧
      exec .nop { s.sampled with tracing := .off } = .next u ∧ u.tracing = .off) :=
  ⟨⟨rfl, rfl, rfl, rfl, rfl, by decide, rfl, rfl, rfl, rfl, rfl, rfl, nofun, nofun, rfl, rfl, rfl⟩,
    rfl, rfl, rfl, rfl, rfl⟩
/-- ADD.W D1,D0 at pc, in supervisor mode; MOVE to SR, which asks for that mode; a sentinel at pc; `BRA *` at pc. -/
theorem wit_StepRunsDecoded :
    (let s := s0.placeWords [0xD041#16]
     s.ended = false ∧ s.nextPins.reset = false ∧ s.nextPins.halt = false ∧ s.run = .running ∧ s.interrupted = false ∧
      (∀ j < 1, s.staleAt (s.pc + BitVec.ofNat 32 (2 * j)) = []) ∧
      s.fetchable s.pc 1 = true ∧ decode s.cfg.cpu (s.wordsAt s.pc 1) = .done (.add 0 .w .toReg (.dn 1)) []) ∧
    (let s := s0.placeWords [0x46FC#16, 0x2000#16]
     decode s.cfg.cpu (s.wordsAt s.pc 2) = .done (.moveToSr (.imm 0x2000#32)) [] ∧
      privileged s.cfg.cpu (.moveToSr (.imm 0x2000#32)) = true ∧ s.isSuper = true) ∧
    (let s : State := { s0 with cfg := { Config.baseline with halt := .sentinel 0x1000#32 } }
     s.cfg.halt = .sentinel s.pc) ∧
    (let s := State.placeWords { s0 with cfg := { Config.baseline with halt := .selfBranch } } [0x60FE#16]
     s.cfg.halt = .selfBranch ∧ s.wordAt s.pc = 0x60FE#16) := by decide
theorem wit_StepKeepsInvariant :
    s0.Inv ∧ look (fun t => t.pc) (step (s0.placeWords [0x4E71#16])) = some 0x1002#32 ∧ (s0.placeWords [0x4E71#16]).Inv :=
  ⟨⟨rfl, rfl⟩, by decide, rfl, rfl⟩
/-- NOP in user mode stays there. -/
theorem wit_UserModeIsolation :
    (u0.placeWords [0x4E71#16]).isSuper = false ∧
    look (fun t => t.isSuper) (step (u0.placeWords [0x4E71#16])) = some false := by decide
/-- TRAP #0 in user mode leaves it. -/
theorem wit_SupervisorEntry :
    (u0.placeWords [0x4E40#16]).isSuper = false ∧
    look (fun t => t.isSuper) (step (u0.placeWords [0x4E40#16])) = some true := by decide

end Sys2Proof.Tests
end

section
/-! SUPPORT. Relations that every plain update keeps. `PlainRel R`: `R` relates a state to itself with a register, the flags, the
program counter, a stored operand, or one of the model's own records changed. Every action that instructions and exceptions are
made of then keeps `R` (`Keeps`, Laws/Invariant.lean), whatever `R` is. -/

namespace Sys2Proof.Machine

/-- `R` is kept by every update that needs no supervisor mode. The system byte, the inactive stack pointers, the vector base, the
reset pulses, the pins and the platform are not among what these updates change. -/
structure PlainRel (R : State → State → Prop) : Prop where
  refl : ∀ s, R s s
  trans : ∀ s t u, R s t → R t u → R s u
  dregs : ∀ s d, R s { s with d := d }
  aregs : ∀ s a, R s { s with a := a }
  setSp : ∀ s v, R s (s.setSp v)
  setCcr : ∀ s c, R s (s.setCcr c)
  pc : ∀ s v, R s { s with pc := v }
  store : ∀ s sz a v, R s (s.store sz a v)
  run : ∀ s m, R s { s with run := m }
  draws : ∀ s, R s { s with draws := s.draws + 1 }
  stale : ∀ s l, R s { s with stale := l }
  tracing : ∀ s m, R s { s with tracing := m }

/-- `R` is also kept by the updates of the privileged instructions: SR, USP and the reset line (47_system_control.md R377). -/
structure PrivilegedRel (R : State → State → Prop) : Prop extends PlainRel R where
  setSr : ∀ s w, R s (s.setSr w)
  usp : ∀ s v, R s { s with usp := v }
  pulse : ∀ s, R s { s with resetPulses := s.resetPulses + 1 }

section
variable {R : State → State → Prop} (hR : PlainRel R) {α β : Type}
include hR

/-! ## Sequences -/

theorem PlainRel.keeps_pure {a : α} : Keeps R (pure a : M α) := Machine.keeps_pure hR.refl a

theorem PlainRel.keeps_raise {e : Exc} : Keeps R (raise e : M α) := Machine.keeps_raise hR.refl e

theorem PlainRel.keeps_refuse {r : Refusal} : Keeps R (refuse r : M α) := Machine.keeps_refuse hR.refl r

theorem PlainRel.keeps_throw {e : Stop} : Keeps R (throw e : M α) := Machine.keeps_throw hR.refl e

theorem PlainRel.bind {x : M α} {f : α → M β} (hx : Keeps R x) (hf : ∀ a, Keeps R (f a)) : Keeps R (x >>= f) :=
  keeps_bind hR.trans hx hf

/-- Reading the state keeps `R` if what follows does, whatever was read. -/
theorem PlainRel.get_bind {f : State → M β} (hf : ∀ s, Keeps R (f s)) : Keeps R (get >>= f) :=
  hR.bind (keeps_get hR.refl) hf

theorem PlainRel.bind_pure {x : M α} {g : α → β} (hx : Keeps R x) : Keeps R (x >>= fun a => pure (g a)) :=
  hR.bind hx fun _ => hR.keeps_pure

/-- An action done on a condition, then the rest in either case. -/
theorem PlainRel.when_bind {c : Prop} [Decidable c] {x : M Unit} {f : Unit → M β} (hx : Keeps R x) (hf : Keeps R (f ())) :
    Keeps R (if c then x >>= f else f ()) :=
  keeps_ite (fun _ => hR.bind hx fun _ => hf) fun _ => hf

theorem PlainRel.keeps_when {c : Prop} [Decidable c] {x : M Unit} (hx : Keeps R x) : Keeps R (if c then x else pure ()) :=
  keeps_ite (fun _ => hx) fun _ => hR.keeps_pure

theorem PlainRel.keeps_advance {n : Nat} : Keeps R (advance n) := keeps_modify fun s => hR.pc s _

theorem PlainRel.keeps_jump {a : Word} : Keeps R (jump a) := keeps_modify fun s => hR.pc s _

/-- The usual end of an instruction without a transfer of control. -/
theorem PlainRel.bind_advance {x : M Unit} {n : Nat} (hx : Keeps R x) : Keeps R (x >>= fun _ => advance n) :=
  hR.bind hx fun _ => hR.keeps_advance

theorem PlainRel.keeps_putCcr {f : Ccr → Ccr} : Keeps R (putCcr f) := keeps_modify fun s => hR.setCcr s _

theorem PlainRel.keeps_requireSuper : Keeps R requireSuper := hR.get_bind fun _ => hR.keeps_when hR.keeps_raise

/-! ## Free values and registers -/

theorem PlainRel.keeps_draw : Keeps R draw := hR.draws

theorem PlainRel.keeps_drawBit : Keeps R drawBit := hR.bind_pure hR.keeps_draw

theorem PlainRel.keeps_drawByte : Keeps R drawByte := hR.bind_pure hR.keeps_draw

theorem PlainRel.keeps_drawWord : Keeps R drawWord := hR.bind_pure hR.keeps_draw

theorem PlainRel.keeps_drawNat : Keeps R drawNat := hR.bind_pure hR.keeps_draw

theorem PlainRel.setD (s : State) (n : RegNum) (v : Word) : R s (s.setD n v) := hR.dregs s _

theorem PlainRel.setA (s : State) (n : RegNum) (v : Word) : R s (s.setA n v) := by
  unfold State.setA
  split
  · exact hR.aregs s _
  · exact hR.setSp s v

theorem PlainRel.setX (s : State) (i : Nat) (v : Word) : R s (s.setX i v) := by
  unfold State.setX
  split
  · exact hR.setD s _ v
  · exact hR.setA s _ v

theorem PlainRel.keeps_setD {n : RegNum} {f : State → Word} :
    Keeps R (modify fun s => State.setD s n (f s) : M Unit) :=
  keeps_modify fun s => hR.setD s _ _

theorem PlainRel.keeps_setDPart {sz : Size} {n : RegNum} {v : Word} : Keeps R (modify fun s => s.setDPart sz n v : M Unit) :=
  keeps_modify fun s => hR.setD s _ _

theorem PlainRel.keeps_setA {n : RegNum} {f : State → Word} : Keeps R (modify fun s => State.setA s n (f s) : M Unit) :=
  keeps_modify fun s => hR.setA s _ _

theorem PlainRel.keeps_setSp {f : State → Word} : Keeps R (modify fun s => State.setSp s (f s) : M Unit) :=
  keeps_modify fun s => hR.setSp s _

/-! ## Memory and the stack -/

theorem PlainRel.keeps_memRead {fc : FuncCode} {sz : Size} {a : Word} : Keeps R (memRead fc sz a) :=
  Machine.keeps_memRead hR.refl fc sz a

theorem PlainRel.keeps_memWrite {fc : FuncCode} {sz : Size} {a v : Word} : Keeps R (memWrite fc sz a v) :=
  Machine.keeps_memWrite hR.refl hR.trans hR.draws hR.store fc sz a v

theorem PlainRel.keeps_push {sz : Size} {v : Word} : Keeps R (push sz v) :=
  Machine.keeps_push hR.refl hR.trans hR.draws hR.store hR.setSp sz v

theorem PlainRel.keeps_pull {sz : Size} : Keeps R (pull sz) := Machine.keeps_pull hR.refl hR.trans hR.setSp sz

theorem PlainRel.keeps_fetch16 {a : Word} : Keeps R (fetch16 a) := by
  refine hR.get_bind fun s => keeps_ite (fun _ => hR.keeps_throw) fun _ => ?_
  split
  · exact hR.keeps_throw
  · exact hR.keeps_refuse
  · split
    · exact hR.keeps_pure
    · exact hR.bind_pure hR.keeps_drawNat

/-! ## Operands -/

theorem PlainRel.keeps_fullAddress {p : Bool} {b : Word} {e : FullExt} : Keeps R (fullAddress p b e) := by
  refine hR.get_bind fun s => ?_
  dsimp only
  split
  · exact hR.keeps_pure
  · exact hR.bind_pure hR.keeps_memRead
  · exact hR.bind_pure hR.keeps_memRead

theorem PlainRel.keeps_resolve {ip : Word} {sz : Size} {ea : Ea} : Keeps R (resolve ip sz ea) := by
  cases ea with
  | dn | an | absShort | absLong | pcDisp | imm => exact hR.keeps_pure
  | ind | disp | index | pcIndex => exact hR.get_bind fun _ => hR.keeps_pure
  | postInc | preDec => exact hR.get_bind fun _ => hR.bind_pure hR.keeps_setA
  | full => exact hR.get_bind fun _ => hR.bind_pure hR.keeps_fullAddress
  | pcFull => exact hR.bind_pure hR.keeps_fullAddress

theorem PlainRel.keeps_resolveAt {k : Nat} {sz : Size} {ea : Ea} : Keeps R (resolveAt k sz ea) :=
  hR.get_bind fun _ => hR.keeps_resolve

theorem PlainRel.keeps_readLoc {sz : Size} {l : Loc} : Keeps R (readLoc sz l) := by
  cases l with
  | dreg => exact hR.get_bind fun _ => hR.keeps_pure
  | areg =>
    unfold readLoc
    exact hR.when_bind hR.keeps_raise (hR.get_bind fun _ => hR.keeps_pure)
  | mem => exact hR.get_bind fun _ => hR.keeps_memRead
  | imm => exact hR.keeps_pure

theorem PlainRel.keeps_writeLoc {sz : Size} {v : Word} {l : Loc} : Keeps R (writeLoc sz v l) := by
  cases l with
  | dreg => exact hR.keeps_setDPart
  | areg | imm => exact hR.keeps_raise
  | mem a program =>
    cases program with
    | false => exact hR.get_bind fun _ => hR.keeps_memWrite
    | true => exact hR.keeps_raise

theorem PlainRel.keeps_readBefore {sz : Size} {l : Loc} : Keeps R (readBefore sz l) :=
  hR.get_bind fun _ => hR.keeps_when (hR.bind_pure hR.keeps_readLoc)

theorem PlainRel.keeps_readEa {k : Nat} {sz : Size} {ea : Ea} : Keeps R (readEa k sz ea) :=
  hR.bind hR.keeps_resolveAt fun _ => hR.keeps_readLoc

theorem PlainRel.keeps_controlAddress {k : Nat} {ea : Ea} : Keeps R (controlAddress k ea) := by
  refine keeps_ite (fun _ => hR.bind hR.keeps_resolveAt fun l => ?_) fun _ => hR.keeps_raise
  cases l with
  | mem => exact hR.keeps_pure
  | dreg | areg | imm => exact hR.keeps_raise

theorem PlainRel.keeps_modifyEa {k : Nat} {sz : Size} {ea : Ea} {f : Word → Ccr → Word × Ccr} :
    Keeps R (modifyEa k sz ea f) :=
  hR.bind hR.keeps_resolveAt fun _ => hR.bind hR.keeps_readLoc fun _ => hR.get_bind fun _ =>
    hR.bind hR.keeps_writeLoc fun _ => hR.keeps_putCcr

theorem PlainRel.keeps_modifyReg {k : Nat} {sz : Size} {r : RegNum} {ea : Ea} {f : Word → Word → Ccr → Word × Ccr} :
    Keeps R (modifyReg k sz r ea f) :=
  hR.bind hR.keeps_readEa fun _ => hR.get_bind fun _ => hR.bind hR.keeps_setDPart fun _ => hR.keeps_putCcr

theorem PlainRel.keeps_dirOp {sz : Size} {r : RegNum} {dir : Dir} {ea : Ea} {f : Word → Word → Ccr → Word × Ccr} :
    Keeps R (dirOp sz r dir ea f) := by
  cases dir with
  | toReg => exact hR.keeps_modifyReg
  | toEa => exact hR.get_bind fun _ => hR.keeps_modifyEa

theorem PlainRel.keeps_pairLoc {sz : Size} {mem : Bool} {n : RegNum} : Keeps R (pairLoc sz mem n) :=
  keeps_ite (fun _ => hR.keeps_resolveAt) fun _ => hR.keeps_pure

/-! ## The common frames of the instructions -/

theorem PlainRel.keeps_compare {sz : Size} {s d : Word} : Keeps R (compare sz s d) := hR.keeps_putCcr

theorem PlainRel.keeps_quickOp {sz : Size} {ea : Ea} {g : Word → Word} {f : Word → Ccr → Word × Ccr} :
    Keeps R (quickOp sz ea g f) := by
  unfold quickOp
  split
  · exact hR.when_bind hR.keeps_raise hR.keeps_setA
  · exact hR.keeps_modifyEa

theorem PlainRel.keeps_extendOp {sz : Size} {x y : RegNum} {mem : Bool} {op : Word → Word → Bool → Arith} :
    Keeps R (extendOp sz x mem y op) :=
  hR.bind hR.keeps_pairLoc fun _ => hR.bind hR.keeps_readLoc fun _ => hR.bind hR.keeps_pairLoc fun _ =>
    hR.bind hR.keeps_readLoc fun _ => hR.get_bind fun _ => hR.bind hR.keeps_writeLoc fun _ => hR.keeps_putCcr

theorem PlainRel.keeps_multiply {r : RegNum} {ea : Ea} {f : Word → Word → Word} : Keeps R (multiply r ea f) :=
  hR.bind hR.keeps_readEa fun _ => hR.get_bind fun _ => hR.bind hR.keeps_setD fun _ => hR.keeps_putCcr

theorem PlainRel.keeps_divide {r : RegNum} {ea : Ea} {n : Nat} {op : Word → Word → Quotient} : Keeps R (divide r ea n op) := by
  refine hR.bind hR.keeps_readEa fun _ => hR.get_bind fun _ => keeps_ite (fun _ => ?byZero) fun _ =>
    keeps_ite (fun _ => ?overflow) fun _ => ?quotient
  case byZero =>
    exact hR.bind hR.keeps_drawBit fun _ => hR.bind hR.keeps_drawBit fun _ => hR.bind hR.keeps_drawBit fun _ =>
      hR.bind hR.keeps_putCcr fun _ => hR.get_bind fun _ => hR.bind hR.keeps_advance fun _ => hR.keeps_raise
  case overflow => exact hR.bind hR.keeps_drawBit fun _ => hR.bind hR.keeps_drawBit fun _ => hR.keeps_putCcr
  case quotient => exact hR.bind hR.keeps_setD fun _ => hR.keeps_putCcr

theorem PlainRel.keeps_bitOp {op : BitOp} {k n : Nat} {ea : Ea} : Keeps R (bitOp op k n ea) :=
  hR.bind hR.keeps_resolveAt fun _ => hR.bind hR.keeps_readLoc fun _ =>
    hR.when_bind hR.keeps_writeLoc hR.keeps_putCcr

theorem PlainRel.keeps_decimal {valid : Bool} {r : Decimal} {old : Ccr} : Keeps R (decimal valid r old) :=
  hR.bind hR.keeps_drawBit fun _ => hR.bind hR.keeps_drawBit fun _ => keeps_ite (fun _ => hR.keeps_pure) fun _ =>
    hR.bind hR.keeps_drawByte fun _ => hR.bind hR.keeps_drawBit fun _ => hR.bind hR.keeps_drawBit fun _ =>
      hR.bind_pure hR.keeps_drawBit

theorem PlainRel.keeps_decimalOp {rx ry : RegNum} {mem : Bool} {op : Byte → Byte → Bool → Decimal} :
    Keeps R (decimalOp rx mem ry op) :=
  hR.bind hR.keeps_pairLoc fun _ => hR.bind hR.keeps_readLoc fun _ => hR.bind hR.keeps_pairLoc fun _ =>
    hR.bind hR.keeps_readLoc fun _ => hR.get_bind fun _ => hR.bind hR.keeps_decimal fun _ =>
      hR.bind hR.keeps_writeLoc fun _ => hR.keeps_putCcr

theorem PlainRel.keeps_ccrImm {f : Bool → Bool → Bool} {v : Byte} : Keeps R (ccrImm f v) := hR.keeps_putCcr

theorem PlainRel.keeps_moveBody {sz : Size} {src dst : Ea} : Keeps R (moveBody sz src dst) :=
  hR.bind hR.keeps_readEa fun _ => hR.bind hR.keeps_resolveAt fun _ => hR.bind hR.keeps_writeLoc fun _ => hR.keeps_putCcr

theorem PlainRel.keeps_shiftReg {op : ShiftOp} {cnt : ShiftCount} {sz : Size} {r : RegNum} :
    Keeps R (shiftReg op cnt sz r) :=
  hR.get_bind fun _ => hR.bind hR.keeps_setDPart fun _ => hR.keeps_putCcr

theorem PlainRel.keeps_movemUp {sz : Size} {l : List Nat} : ∀ {a : Word}, Keeps R (movemUp sz a l) := by
  induction l with
  | nil => exact hR.keeps_pure
  | cons i rest ih => exact hR.get_bind fun _ => hR.bind hR.keeps_memWrite fun _ => ih

theorem PlainRel.keeps_movemDown {sz : Size} {n : RegNum} {l : List Nat} : ∀ {a : Word}, Keeps R (movemDown sz n a l) := by
  induction l with
  | nil => exact hR.keeps_pure
  | cons i rest ih => exact hR.get_bind fun _ => hR.bind hR.keeps_memWrite fun _ => ih

theorem PlainRel.keeps_movemLoad {p : Bool} {sz : Size} {skip : Option Nat} {l : List Nat} :
    ∀ {a : Word}, Keeps R (movemLoad p sz skip a l) := by
  induction l with
  | nil => exact hR.keeps_pure
  | cons i rest ih =>
    exact hR.get_bind fun _ => hR.bind hR.keeps_memRead fun _ => hR.when_bind (keeps_modify fun s => hR.setX s _ _) ih

theorem PlainRel.keeps_movemExtra {p : Bool} {a : Word} : Keeps R (movemExtra p a) :=
  hR.get_bind fun _ => hR.keeps_when (hR.bind_pure hR.keeps_memRead)

theorem PlainRel.keeps_movepStore {l : List Byte} : ∀ {a : Word}, Keeps R (movepStore a l) := by
  induction l with
  | nil => exact hR.keeps_pure
  | cons b rest ih => exact hR.get_bind fun _ => hR.bind hR.keeps_memWrite fun _ => ih

theorem PlainRel.keeps_movepLoad {r : RegNum} {k : Nat} : ∀ {a : Word}, Keeps R (movepLoad r a k) := by
  induction k with
  | zero => exact hR.keeps_pure
  | succ k ih => exact hR.get_bind fun _ => hR.bind hR.keeps_memRead fun _ => hR.bind hR.keeps_setD fun _ => ih

/-! ## Fetching an instruction -/

theorem PlainRel.keeps_rejected {op : Word16} {r : Reject} : Keeps R (rejected op r : M α) := by
  cases r with
  | illegal | lineA | lineF => exact hR.keeps_raise
  | reservedExt | laterMember => exact hR.keeps_refuse

theorem PlainRel.keeps_fetchRest {op : Word16} {d : Dec Instr} : ∀ {ip : Word}, Keeps R (fetchRest op ip d) := by
  induction d with
  | done i => exact hR.keeps_pure
  | need k ih => exact hR.bind hR.keeps_fetch16 fun w => ih w
  | privileged d ih => exact hR.bind hR.keeps_requireSuper fun _ => ih
  | reject r => exact hR.keeps_rejected

theorem PlainRel.keeps_fetchInstr : Keeps R fetchInstr :=
  hR.get_bind fun _ => hR.bind hR.keeps_fetch16 fun _ => hR.keeps_fetchRest

/-! ## Exception processing after its first step -/

theorem PlainRel.keeps_pushFrame {vec : BitVec 8} {ret : Word} {old : Word16} : Keeps R (pushFrame vec ret old) :=
  hR.get_bind fun _ => hR.when_bind hR.keeps_push (hR.bind hR.keeps_push fun _ => hR.keeps_push)

theorem PlainRel.keeps_pushAccessFrame {f : AccessFault} {b : Bool} {op : Word} {old : Word16} :
    Keeps R (pushAccessFrame f b op old) :=
  hR.bind hR.keeps_drawNat fun _ => hR.bind hR.keeps_push fun _ => hR.bind hR.keeps_push fun _ =>
    hR.bind hR.keeps_drawWord fun _ => hR.bind hR.keeps_push fun _ => hR.bind hR.keeps_push fun _ =>
      hR.bind hR.keeps_drawWord fun _ => hR.keeps_push

theorem PlainRel.keeps_pushLongFrame {vec : BitVec 8} : Keeps R (pushLongFrame vec) :=
  Machine.keeps_pushLongFrame hR.refl hR.trans hR.draws hR.store hR.setSp vec

theorem PlainRel.settle (s : State) : R s (settle s) := hR.stale s _

theorem PlainRel.keeps_loadVector {vec : BitVec 8} : Keeps R (loadVector vec) :=
  hR.get_bind fun _ => hR.bind hR.keeps_memRead fun target => keeps_modify fun s =>
    hR.trans _ { s with pc := target } _ (hR.pc s target)
      (hR.trans _ { s with pc := target, run := .running } _ (hR.run _ _) (hR.settle _))

/-- Once the mode has changed, the exceptions outside group 0 make plain updates only (60_exceptions.md R440). -/
theorem PlainRel.enter {e : Exc} (s : State) : R (s.entered (e.newSys s.sys)) (stateAfter ((enter e).run s)) := by
  have hframe : Keeps R (pushFrame e.vector (e.stackedPc s) s.sr >>= fun _ => loadVector e.vector) :=
    hR.bind hR.keeps_pushFrame fun _ => hR.keeps_loadVector
  unfold Machine.enter
  simp only [run_bind_ok (EStateM.run_get s), run_bind_ok (EStateM.run_set _ s)]
  exact hframe (s.entered (e.newSys s.sys))

/-- Once the mode has changed, a bus or address error makes plain updates only (R440, R443). -/
theorem PlainRel.enterGroup0 {f : AccessFault} {b : Bool} {op : Word} (s : State) :
    R (s.entered (entrySys s.sys)) (stateAfter ((enterGroup0 f b op).run s)) := by
  have hlong : Keeps R (pushLongFrame f.vector >>= fun _ => loadVector f.vector) :=
    hR.bind hR.keeps_pushLongFrame fun _ => hR.keeps_loadVector
  have hshort : Keeps R (pushAccessFrame f b op s.sr >>= fun _ => loadVector f.vector) :=
    hR.bind hR.keeps_pushAccessFrame fun _ => hR.keeps_loadVector
  unfold Machine.enterGroup0
  simp only [run_bind_ok (EStateM.run_get s), run_bind_ok (EStateM.run_set _ s), run_ite]
  split
  · exact hlong (s.entered (entrySys s.sys))
  · exact hshort (s.entered (entrySys s.sys))

end
end Sys2Proof.Machine
end

section
/-! SUPPORT. What every instruction does to the state, said once: an unprivileged one makes plain updates only, a privileged one
asks for supervisor mode first (47_system_control.md R377). -/

namespace Sys2Proof.Machine

/-- The meaning `f` is that of an action that keeps `R`, completed or stopped. -/
def RunsBy (R : State → State → Prop) (f : State → Host.Outcome State Fault Refusal) : Prop :=
  ∃ body : M Unit, f = runInstr body ∧ Keeps R body

theorem Keeps.runsBy {R : State → State → Prop} {body : M Unit} (h : Keeps R body) : RunsBy R (runInstr body) :=
  ⟨body, rfl, h⟩

section
variable {R : State → State → Prop} (hR : PlainRel R)
include hR

theorem PlainRel.runsBy_execMovep (r : RegNum) (toMem long : Bool) (n : RegNum) (d : Word16) :
    RunsBy R (execMovep r toMem long n d) := by
  refine Keeps.runsBy (hR.get_bind fun s => keeps_ite (fun _ => ?_) fun _ => ?_)
  · exact hR.bind_advance hR.keeps_movepStore
  · exact hR.bind_advance hR.keeps_movepLoad

theorem PlainRel.runsBy_execMovemToMem (long : Bool) (mask : Word16) (ea : Ea) : RunsBy R (execMovemToMem long mask ea) := by
  refine Keeps.runsBy ?_
  cases ea with
  | preDec n =>
    exact hR.get_bind fun _ => hR.bind hR.keeps_movemDown fun _ => hR.bind_advance hR.keeps_setA
  | _ => exact hR.bind hR.keeps_controlAddress fun _ => hR.bind_advance hR.keeps_movemUp

theorem PlainRel.runsBy_execMovemToReg (long : Bool) (mask : Word16) (ea : Ea) : RunsBy R (execMovemToReg long mask ea) := by
  refine Keeps.runsBy ?_
  cases ea with
  | postInc n =>
    exact hR.get_bind fun _ => hR.bind hR.keeps_movemLoad fun _ => hR.bind hR.keeps_movemExtra fun _ =>
      hR.bind_advance hR.keeps_setA
  | _ =>
    exact hR.bind hR.keeps_controlAddress fun _ => hR.bind hR.keeps_movemLoad fun _ => hR.bind_advance hR.keeps_movemExtra

theorem PlainRel.runsBy_execChk (r : RegNum) (b : ChkBound) : RunsBy R (execChk r b) :=
  Keeps.runsBy <| hR.bind hR.keeps_readEa fun _ => hR.get_bind fun _ => hR.bind hR.keeps_advance fun _ =>
    hR.bind hR.keeps_drawBit fun _ => hR.bind hR.keeps_drawBit fun _ => hR.bind hR.keeps_drawBit fun _ =>
      hR.bind hR.keeps_drawBit fun _ => hR.bind hR.keeps_putCcr fun _ => hR.keeps_when hR.keeps_raise

theorem PlainRel.runsBy_execDbcc (c : Cond) (r : RegNum) (d : Word16) : RunsBy R (execDbcc c r d) := by
  refine Keeps.runsBy (hR.get_bind fun s => keeps_ite (fun _ => hR.keeps_advance) fun _ => ?_)
  exact hR.bind hR.keeps_setDPart fun _ => keeps_ite (fun _ => hR.keeps_advance) fun _ => hR.keeps_jump

theorem PlainRel.runsBy_execLink (r : RegNum) (d : Word16) : RunsBy R (execLink r d) :=
  Keeps.runsBy <| hR.bind hR.keeps_setSp fun _ => hR.get_bind fun _ => hR.bind hR.keeps_memWrite fun _ =>
    hR.bind hR.keeps_setA fun _ => hR.bind_advance hR.keeps_setSp

theorem PlainRel.runsBy_execUnlk (r : RegNum) : RunsBy R (execUnlk r) :=
  Keeps.runsBy <| hR.bind hR.keeps_setSp fun _ => hR.get_bind fun _ => hR.bind hR.keeps_memRead fun _ =>
    hR.bind hR.keeps_setA fun _ => hR.bind_advance hR.keeps_setSp

/-- MOVE from SR only reads SR; from the MC68010 on it asks for supervisor mode (R368). -/
theorem PlainRel.runsBy_execMoveFromSr (ea : Ea) : RunsBy R (execMoveFromSr ea) :=
  Keeps.runsBy <| hR.get_bind fun _ => hR.when_bind hR.keeps_requireSuper <| hR.bind hR.keeps_resolveAt fun _ =>
    hR.bind hR.keeps_readBefore fun _ => hR.get_bind fun _ => hR.bind_advance hR.keeps_writeLoc

theorem PlainRel.runsBy_execNbcd (ea : Ea) : RunsBy R (execNbcd ea) :=
  Keeps.runsBy <| hR.bind hR.keeps_resolveAt fun _ => hR.bind hR.keeps_readLoc fun _ => hR.get_bind fun _ =>
    hR.bind hR.keeps_decimal fun _ => hR.bind hR.keeps_writeLoc fun _ => hR.bind_advance hR.keeps_putCcr

theorem PlainRel.runsBy_execMoveq (r : RegNum) (v : Byte) : RunsBy R (execMoveq r v) :=
  Keeps.runsBy <| hR.bind hR.keeps_setD fun _ => hR.bind_advance hR.keeps_putCcr

theorem PlainRel.runsBy_execExtW (r : RegNum) : RunsBy R (execExtW r) :=
  Keeps.runsBy <| hR.get_bind fun _ => hR.bind hR.keeps_setDPart fun _ => hR.bind_advance hR.keeps_putCcr

theorem PlainRel.runsBy_execExtL (r : RegNum) : RunsBy R (execExtL r) :=
  Keeps.runsBy <| hR.get_bind fun _ => hR.bind hR.keeps_setD fun _ => hR.bind_advance hR.keeps_putCcr

theorem PlainRel.runsBy_execSwap (r : RegNum) : RunsBy R (execSwap r) :=
  Keeps.runsBy <| hR.get_bind fun _ => hR.bind hR.keeps_setD fun _ => hR.bind_advance hR.keeps_putCcr

/-- An instruction that needs no supervisor mode makes plain updates only. -/
theorem PlainRel.runsBy_exec {i : Instr} (hi : privileged .mc68000 i = false) : RunsBy R (exec i) := by
  cases i with
  | oriSr | andiSr | eoriSr | moveToSr | moveUsp | rte | reset | stop => cases hi
  | movep => exact hR.runsBy_execMovep ..
  | movemToMem => exact hR.runsBy_execMovemToMem ..
  | movemToReg => exact hR.runsBy_execMovemToReg ..
  | chk => exact hR.runsBy_execChk ..
  | dbcc => exact hR.runsBy_execDbcc ..
  | link => exact hR.runsBy_execLink ..
  | unlk => exact hR.runsBy_execUnlk ..
  | moveFromSr => exact hR.runsBy_execMoveFromSr ..
  | nbcd => exact hR.runsBy_execNbcd ..
  | oriCcr | andiCcr | eoriCcr => exact Keeps.runsBy (hR.bind_advance hR.keeps_ccrImm)
  | moveToCcr => exact Keeps.runsBy (hR.bind hR.keeps_readEa fun _ => hR.bind_advance hR.keeps_putCcr)
  | btstDyn | bchgDyn | bclrDyn | bsetDyn => exact Keeps.runsBy (hR.get_bind fun _ => hR.bind_advance hR.keeps_bitOp)
  | btstImm | bchgImm | bclrImm | bsetImm => exact Keeps.runsBy (hR.bind_advance hR.keeps_bitOp)
  | ori | andi | subi | addi | eori | negx | neg | not => exact Keeps.runsBy (hR.bind_advance hR.keeps_modifyEa)
  | asrMem | aslMem | lsrMem | lslMem | roxrMem | roxlMem | rorMem | rolMem =>
    exact Keeps.runsBy (hR.bind_advance hR.keeps_modifyEa)
  | asrReg | aslReg | lsrReg | lslReg | roxrReg | roxlReg | rorReg | rolReg =>
    exact Keeps.runsBy (hR.bind_advance hR.keeps_shiftReg)
  | add | sub | and | or | eor => exact Keeps.runsBy (hR.bind_advance hR.keeps_dirOp)
  | addq | subq => exact Keeps.runsBy (hR.bind_advance hR.keeps_quickOp)
  | addx | subx => exact Keeps.runsBy (hR.bind_advance hR.keeps_extendOp)
  | abcd | sbcd => exact Keeps.runsBy (hR.bind_advance hR.keeps_decimalOp)
  | mulu | muls => exact Keeps.runsBy (hR.bind_advance hR.keeps_multiply)
  | divu | divs => exact Keeps.runsBy (hR.bind_advance hR.keeps_divide)
  | moveB | moveW | moveL => exact Keeps.runsBy (hR.bind_advance hR.keeps_moveBody)
  | moveaW | moveaL | adda | suba => exact Keeps.runsBy (hR.bind hR.keeps_readEa fun _ => hR.bind_advance hR.keeps_setA)
  | cmp | cmpa =>
    exact Keeps.runsBy (hR.bind hR.keeps_readEa fun _ => hR.get_bind fun _ => hR.bind_advance hR.keeps_compare)
  | cmpi => exact Keeps.runsBy (hR.bind hR.keeps_readEa fun _ => hR.bind_advance hR.keeps_compare)
  | cmpm =>
    exact Keeps.runsBy (hR.bind hR.keeps_readEa fun _ => hR.bind hR.keeps_readEa fun _ => hR.bind_advance hR.keeps_compare)
  | tst => exact Keeps.runsBy (hR.bind hR.keeps_readEa fun _ => hR.bind_advance hR.keeps_putCcr)
  | clr =>
    exact Keeps.runsBy (hR.bind hR.keeps_resolveAt fun _ => hR.bind hR.keeps_readBefore fun _ =>
      hR.bind hR.keeps_writeLoc fun _ => hR.bind_advance hR.keeps_putCcr)
  | scc =>
    exact Keeps.runsBy (hR.bind hR.keeps_resolveAt fun _ => hR.bind hR.keeps_readBefore fun _ =>
      hR.get_bind fun _ => hR.bind_advance hR.keeps_writeLoc)
  | tas =>
    exact Keeps.runsBy (hR.bind hR.keeps_resolveAt fun _ => hR.bind hR.keeps_readLoc fun _ =>
      hR.bind hR.keeps_putCcr fun _ => hR.bind_advance hR.keeps_writeLoc)
  | extW => exact hR.runsBy_execExtW ..
  | extL => exact hR.runsBy_execExtL ..
  | swap => exact hR.runsBy_execSwap ..
  | moveq => exact hR.runsBy_execMoveq ..
  | exgDD => exact Keeps.runsBy (hR.bind_advance (keeps_modify fun s => hR.trans _ _ _ (hR.setD s _ _) (hR.setD _ _ _)))
  | exgAA => exact Keeps.runsBy (hR.bind_advance (keeps_modify fun s => hR.trans _ _ _ (hR.setA s _ _) (hR.setA _ _ _)))
  | exgDA => exact Keeps.runsBy (hR.bind_advance (keeps_modify fun s => hR.trans _ _ _ (hR.setD s _ _) (hR.setA _ _ _)))
  | lea => exact Keeps.runsBy (hR.bind hR.keeps_controlAddress fun _ => hR.bind_advance hR.keeps_setA)
  | pea => exact Keeps.runsBy (hR.bind hR.keeps_controlAddress fun _ => hR.bind_advance hR.keeps_push)
  | jmp => exact Keeps.runsBy (hR.bind hR.keeps_controlAddress fun _ => hR.keeps_jump)
  | jsr =>
    exact Keeps.runsBy (hR.bind hR.keeps_controlAddress fun _ => hR.get_bind fun _ =>
      hR.bind hR.keeps_push fun _ => hR.keeps_jump)
  | bra => exact Keeps.runsBy (hR.get_bind fun _ => hR.keeps_jump)
  | bsr => exact Keeps.runsBy (hR.get_bind fun _ => hR.bind hR.keeps_push fun _ => hR.keeps_jump)
  | bcc => exact Keeps.runsBy (hR.get_bind fun _ => keeps_ite (fun _ => hR.keeps_jump) fun _ => hR.keeps_advance)
  | rts => exact Keeps.runsBy (hR.bind hR.keeps_pull fun _ => hR.keeps_jump)
  | rtr =>
    exact Keeps.runsBy (hR.bind hR.keeps_pull fun _ => hR.bind hR.keeps_pull fun _ =>
      hR.bind hR.keeps_putCcr fun _ => hR.keeps_jump)
  | nop => exact Keeps.runsBy hR.keeps_advance
  | illegal => exact Keeps.runsBy hR.keeps_raise
  | trap => exact Keeps.runsBy (hR.get_bind fun _ => hR.bind hR.keeps_advance fun _ => hR.keeps_raise)
  | trapv =>
    exact Keeps.runsBy (hR.get_bind fun _ => hR.bind hR.keeps_advance fun _ => hR.keeps_when hR.keeps_raise)

end

/-! ## The privileged instructions -/

/-- An action that reads and changes nothing is followed by the rest in the same state. -/
theorem stateAfter_bind_of_unchanged {R : State → State → Prop} {α β : Type} {x : M α} {f : α → M β} {s : State}
    (hx : Keeps Eq x) (hr : R s s) (hf : ∀ a, R s (stateAfter ((f a).run s))) : R s (stateAfter ((x >>= f).run s)) := by
  have h := hx s
  rw [EStateM.run_bind]
  cases hs : x.run s with
  | ok a t => rw [hs] at h; cases h; exact hf a
  | error e t => rw [hs] at h; cases h; exact hr

theorem frameSize_unchanged (cpu : Cpu) (f : Word) : Keeps Eq (frameSize cpu f) := by
  unfold frameSize
  split
  case h_2 | h_8 => split <;> exact fun _ => rfl
  all_goals exact fun _ => rfl

section
variable {R : State → State → Prop} (hR : PrivilegedRel R)
include hR

theorem PrivilegedRel.keeps_setSr {f : State → Word16} : Keeps R (modify fun s => State.setSr s (f s) : M Unit) :=
  keeps_modify fun s => hR.setSr s _

/-- RTE reads its frame, then sets the stack pointer, SR and `pc` (R375). -/
theorem PrivilegedRel.keeps_returnFromException : Keeps R returnFromException := by
  refine keeps_get_bind fun s => ?_
  have hread {fc : FuncCode} {sz : Size} {a : Word} : Keeps Eq (memRead fc sz a) := keeps_memRead (fun _ => rfl) fc sz a
  have hset (v : Word) (w : Word16) (t : Word) : R s { (s.setSp v).setSr w with pc := t } :=
    hR.trans _ _ _ (hR.setSp s v) (hR.trans _ _ _ (hR.setSr _ w) (hR.pc _ t))
  refine stateAfter_bind_of_unchanged hread (hR.refl s) fun w => stateAfter_bind_of_unchanged hread (hR.refl s) fun t => ?_
  dsimp only
  split
  · exact stateAfter_bind_of_unchanged hread (hR.refl s) fun f =>
      stateAfter_bind_of_unchanged (frameSize_unchanged _ f) (hR.refl s) fun _ => hset ..
  · exact hset ..

end

/-- A privileged instruction asks for supervisor mode, and then makes plain updates or those of `PrivilegedRel`. -/
theorem exec_privileged {i : Instr} (hi : privileged .mc68000 i = true) :
    ∃ body : M Unit, exec i = runInstr (requireSuper >>= fun _ => body) ∧ ∀ R, PrivilegedRel R → Keeps R body := by
  cases i with
  | oriSr | andiSr | eoriSr =>
    exact ⟨_, rfl, fun _ hR => hR.bind_advance hR.keeps_setSr⟩
  | moveToSr =>
    exact ⟨_, rfl, fun _ hR => hR.bind hR.keeps_readEa fun _ => hR.bind_advance hR.keeps_setSr⟩
  | moveUsp toAn r =>
    refine ⟨_, rfl, fun R hR => hR.bind_advance (keeps_modify fun s => ?_)⟩
    split
    · exact hR.setA s _ _
    · exact hR.usp s _
  | rte => exact ⟨_, rfl, fun _ hR => hR.keeps_returnFromException⟩
  | reset => exact ⟨_, rfl, fun _ hR => hR.bind_advance (keeps_modify hR.pulse)⟩
  | stop v =>
    exact ⟨_, rfl, fun _ hR => hR.get_bind fun _ => hR.when_bind hR.keeps_raise <|
      hR.bind_advance (keeps_modify fun s => hR.trans _ _ _ (hR.setSr s v) (hR.run _ _))⟩
  | _ => cases hi

end Sys2Proof.Machine
end

section
/-! SUPPORT. What a step can do, said once: every step is a reset, an idle boundary, a halt, an exception, or an instruction with
the end of an instruction after it. -/

namespace Sys2Proof.Machine

/-! ## Exceptions -/

/-- An exception taken in `s` leaves `t`. -/
inductive TakesException (s t : State) : Prop where
  | exc (e : Exc) (h : takeException e s = .next t)
  | access (f : AccessFault) (inException : Bool) (op : Word) (h : takeAccessFault f inException op s = .next t)

/-- A bus or address error leaves the state its processing reached, completed or stopped; a stop halts the processor. -/
theorem takeAccessFault_next {f : AccessFault} {b : Bool} {op : Word} {s t : State} (h : takeAccessFault f b op s = .next t) :
    ∃ m, t = { stateAfter ((enterGroup0 f b op).run { s with tracing := .off }) with run := m } := by
  unfold takeAccessFault at h
  split at h
  · cases h
  · split at h
    case h_1 hr => cases h; exact ⟨t.run, by rw [hr]; rfl⟩
    case h_2 => cases h
    case h_3 u _ hr => cases h; exact ⟨.halted, by rw [hr]; rfl⟩

/-- An exception outside group 0 leaves the state its processing reached, or that of a bus or address error within it. -/
theorem takeException_next {e : Exc} {s t : State} (h : takeException e s = .next t) :
    ∃ m, (∃ r, t = { stateAfter ((enter e).run { s with tracing := m }) with run := r }) ∨
      ∃ f b op, takeAccessFault f b op (stateAfter ((enter e).run { s with tracing := m })) = .next t := by
  unfold takeException at h
  split at h
  · cases h
  · refine ⟨if e.endsTrace then .off else s.tracing, ?_⟩
    split at h
    case h_1 hr => cases h; exact .inl ⟨t.run, by rw [hr]; rfl⟩
    case h_2 => cases h
    case h_3 f u hr => exact .inr ⟨f, _, _, by rw [hr]; exact h⟩
    case h_4 u hr => cases h; exact .inl ⟨.halted, by rw [hr]; rfl⟩

/-- An action that ends an instruction leaves its state, or that of the exception it raised there. -/
theorem finish_next {r : EStateM.Result Stop State Unit} {t : State} (h : finish r = .next t) :
    t = stateAfter r ∨ TakesException (stateAfter r) t := by
  unfold finish at h
  split at h
  case h_1 => cases h; exact .inl rfl
  case h_2 => cases h
  case h_3 => exact .inr (.exc _ h)
  case h_4 => exact .inr (.access _ _ _ h)

/-- An instruction whose action keeps `R` leaves a state that `R` relates to the one before, or that of an exception from
there. -/
theorem RunsBy.next {R : State → State → Prop} {f : State → Host.Outcome State Fault Refusal} (hf : RunsBy R f) {s t : State}
    (h : f s = .next t) : ∃ u, R s u ∧ (t = u ∨ TakesException u t) := by
  obtain ⟨body, rfl, hb⟩ := hf
  exact ⟨_, hb s, finish_next h⟩

/-! ## One instruction -/

/-- The end of an instruction changes the model's records only, then takes a trace exception or none. -/
theorem endInstr_next {changed : Bool} {s t : State} (h : endInstr changed s = .next t) :
    ∃ l, t = { s with tracing := .off, stale := l } ∨ TakesException { s with tracing := .off, stale := l } t := by
  have hs : ∃ l, (if changed then settle { s with tracing := .off } else { s with tracing := .off }) =
      { s with tracing := .off, stale := l } := by
    cases changed
    · exact ⟨s.stale, rfl⟩
    · exact ⟨_, rfl⟩
  obtain ⟨l, hl⟩ := hs
  refine ⟨l, ?_⟩
  simp only [endInstr, hl] at h
  split at h
  · exact .inr (.exc _ h)
  · cases h; exact .inl rfl

/-- One instruction: its fetch keeps `R` and so does what it does, then the end of the instruction. -/
theorem runOne_next {R : State → State → Prop} (hR : PlainRel R) (hx : ∀ i, RunsBy R (exec i)) {s t : State}
    (h : runOne s = .next t) : ∃ u v c, R s u ∧ (v = u ∨ TakesException u v) ∧ endInstr c v = .next t := by
  have hf : R s (stateAfter (fetchInstr.run { s with tracing := s.traceMode })) :=
    hR.trans _ _ _ (hR.tracing s _) (hR.keeps_fetchInstr _)
  unfold runOne at h
  split at h
  case h_1 i w hr =>
    rw [hr] at hf
    cases he : exec i w with
    | next v =>
      rw [he] at h
      obtain ⟨u, hu, hv⟩ := (hx i).next he
      exact ⟨u, v, _, hR.trans _ _ _ hf hu, hv, h⟩
    | fault => rw [he] at h; cases h
    | refused => rw [he] at h; cases h
  case h_2 e w hr =>
    rw [hr] at hf
    cases he : finish (.error e w) with
    | next v => rw [he] at h; exact ⟨w, v, _, hf, finish_next he, h⟩
    | fault => rw [he] at h; cases h
    | refused => rw [he] at h; cases h

/-! ## Reset and the boundary between instructions -/

/-- After its first update, the reset sequence loads SSP and `pc` (70_reset_and_hazards.md R480). -/
theorem PlainRel.resetSequence {R : State → State → Prop} (hR : PlainRel R) (hssp : ∀ s v, R s { s with ssp := v }) (s : State) :
    R { s with sys := 0x27#8, vbr := 0#32, tracing := .off } (stateAfter (resetSequence.run s)) := by
  have hload : Keeps R (memRead .superProgram .l 0#32 >>= fun sp => modify (fun s => { s with ssp := sp }) >>= fun _ =>
      memRead .superProgram .l 4#32 >>= fun pc => modify fun s => { s with pc := pc, run := .running }) :=
    hR.bind hR.keeps_memRead fun _ => hR.bind (keeps_modify fun s => hssp s _) fun _ => hR.bind hR.keeps_memRead fun pc =>
      keeps_modify fun s => hR.trans _ { s with pc := pc } _ (hR.pc s pc) (hR.run _ _)
  exact hload { s with sys := 0x27#8, vbr := 0#32, tracing := .off }

/-- A reset leaves the state its sequence reached, completed or stopped. -/
theorem settled_takeReset_next {s t : State} (h : settled (takeReset s) = .next t) :
    ∃ m l, t = { stateAfter (resetSequence.run s) with run := m, stale := l } := by
  unfold takeReset at h
  split at h
  case h_1 u hr => cases h; exact ⟨u.run, _, by rw [hr]; rfl⟩
  case h_2 => cases h
  case h_3 u _ hr => cases h; exact ⟨.halted, _, by rw [hr]; rfl⟩

theorem idle_next {s t : State} {f : Fault} (h : idle s f = .next t) : t = s.sampled := by
  unfold idle at h
  split at h
  · cases h
  · cases h; rfl

/-- What a step can do, with the pins sampled (R483). -/
theorem step_cases {s t : State} (h : step s = .next t) :
    (∃ m l, t = { stateAfter (resetSequence.run s.sampled) with run := m, stale := l }) ∨
    (∃ m, t = { s.sampled with run := m }) ∨ TakesException s.sampled t ∨ runOne s.sampled = .next t := by
  unfold step cycle at h
  dsimp only at h
  split at h
  · cases h
  split at h
  · exact .inl (settled_takeReset_next h)
  split at h
  · exact .inr (.inl ⟨s.run, idle_next h⟩)
  split at h
  · cases h; exact .inr (.inl ⟨_, rfl⟩)
  split at h
  · exact .inr (.inr (.inl (.exc _ h)))
  split at h
  · exact .inr (.inl ⟨s.run, idle_next h⟩)
  · exact .inr (.inr (.inr h))

end Sys2Proof.Machine
end

section
/-! SUPPORT. The invariant (10_state.md R42) as a relation that every update keeps, and what exceptions do to it. -/

namespace Sys2Proof.Machine

/-! ## The unimplemented bits of SR -/

/-- The implemented bits of the system byte (10_state.md R38). -/
def sysMask (cpu : Cpu) : Byte := cpu.srMask.extractLsb' 8 8

theorem srMask_eq (cpu : Cpu) : cpu.srMask = (sysMask cpu ++ 0x1F#8 : BitVec 16) := by cases cpu <;> rfl

/-- The low byte of SR never shows an unimplemented bit (R29). -/
theorem Ccr.toByte_masked (c : Ccr) : c.toByte &&& 0x1F#8 = c.toByte := by
  obtain ⟨x, n, z, v, c⟩ := c
  revert x n z v c
  decide

/-- The invariant speaks of memory and of the system byte only: the flags cannot break it. -/
theorem State.inv_iff (s : State) : s.Inv ↔ s.mem.wf = true ∧ s.sys &&& sysMask s.cfg.cpu = s.sys := by
  have happ : s.sr &&& s.cfg.cpu.srMask = (s.sys &&& sysMask s.cfg.cpu) ++ s.ccr.toByte := by
    rw [State.sr, srMask_eq, BitVec.and_append, Ccr.toByte_masked]
  rw [State.Inv, happ, State.sr, BitVec.append_left_inj]

/-- The invariant depends on memory, the system byte and the member. -/
theorem State.Inv.congr {s t : State} (h : s.Inv) (hc : t.cfg = s.cfg) (hs : t.sys = s.sys) (hm : t.mem = s.mem) : t.Inv := by
  rw [State.inv_iff] at h ⊢
  rwa [hc, hs, hm]

/-- A new system byte keeps the invariant if it has no unimplemented bit. -/
theorem State.Inv.withSys {s t : State} (h : s.Inv) (hc : t.cfg = s.cfg) (hm : t.mem = s.mem)
    (hs : t.sys &&& sysMask s.cfg.cpu = t.sys) : t.Inv := by
  rw [State.inv_iff] at h ⊢
  rw [hc, hm]
  exact ⟨h.1, hs⟩

theorem masked_and {b m : Byte} (k : Byte) (h : b &&& m = b) : (b &&& k) &&& m = b &&& k := by
  rw [BitVec.and_assoc, BitVec.and_comm k m, ← BitVec.and_assoc, h]

theorem masked_or {b c m : Byte} (hb : b &&& m = b) (hc : c &&& m = c) : (b ||| c) &&& m = b ||| c := by
  rw [BitVec.and_or_distrib_right, hb, hc]

theorem entrySys_masked {cpu : Cpu} {b : Byte} (h : b &&& sysMask cpu = b) : entrySys b &&& sysMask cpu = entrySys b :=
  masked_or (masked_and _ h) (by cases cpu <;> rfl)

theorem withMask_masked {cpu : Cpu} {b : Byte} (level : BitVec 3) (h : b &&& sysMask cpu = b) :
    withMask b level &&& sysMask cpu = withMask b level := by
  refine masked_or (masked_and _ h) ?_
  cases cpu <;> revert level <;> decide

theorem newSys_masked {cpu : Cpu} {b : Byte} (e : Exc) (h : b &&& sysMask cpu = b) :
    e.newSys b &&& sysMask cpu = e.newSys b := by
  cases e with
  | interrupt level vec => exact withMask_masked level (masked_and _ (entrySys_masked h))
  | _ => exact entrySys_masked h

/-- Reset sets S and the interrupt mask (70_reset_and_hazards.md R480): bits that every member has. -/
theorem resetSys_masked (cpu : Cpu) : 0x27#8 &&& sysMask cpu = 0x27#8 := by cases cpu <;> decide

theorem State.setSr_masked (s : State) (w : Word16) : (s.setSr w).sys &&& sysMask s.cfg.cpu = (s.setSr w).sys := by
  simp only [State.setSr, sysMask, BitVec.extractLsb'_and, BitVec.and_assoc, BitVec.and_self]

/-! ## The invariant as a relation -/

/-- The invariant passes from the one state to the other. -/
def InvKept (s t : State) : Prop := s.Inv → t.Inv

theorem privilegedRel_invKept : PrivilegedRel InvKept where
  refl _ h := h
  trans _ _ _ hst htu h := htu (hst h)
  dregs _ _ h := h
  aregs _ _ h := h
  setSp _ _ h := h.congr (State.setSp_cfg ..) (State.setSp_sys ..) (State.setSp_mem ..)
  setCcr _ _ h := h.congr rfl rfl rfl
  pc _ _ h := h
  store s sz a v h := by
    rw [State.inv_iff] at h ⊢
    rw [State.store_sys, State.store_cfg]
    exact ⟨State.wf_store s sz a v h.1, h.2⟩
  run _ _ h := h
  draws _ h := h
  stale _ _ h := h
  tracing _ _ h := h
  setSr s w h := h.withSys rfl rfl (s.setSr_masked w)
  usp _ _ h := h
  pulse _ h := h

theorem plainRel_invKept : PlainRel InvKept := privilegedRel_invKept.toPlainRel

/-- Every instruction's meaning keeps the invariant. -/
theorem runsBy_invKept (i : Instr) : RunsBy InvKept (exec i) := by
  cases hi : privileged .mc68000 i with
  | false => exact plainRel_invKept.runsBy_exec hi
  | true =>
    obtain ⟨body, hx, hb⟩ := exec_privileged hi
    rw [hx]
    exact (plainRel_invKept.bind plainRel_invKept.keeps_requireSuper fun _ => hb _ privilegedRel_invKept).runsBy

/-! ## Exceptions and reset -/

theorem State.Inv.entrySys {s : State} (h : s.Inv) : (s.entered (entrySys s.sys)).Inv :=
  h.withSys rfl rfl (entrySys_masked ((State.inv_iff s).1 h).2)

theorem State.Inv.newSys {s : State} (h : s.Inv) (e : Exc) : (s.entered (e.newSys s.sys)).Inv :=
  h.withSys rfl rfl (newSys_masked e ((State.inv_iff s).1 h).2)

theorem takeAccessFault_inv {f : AccessFault} {b : Bool} {op : Word} {s t : State} (hs : s.Inv)
    (h : takeAccessFault f b op s = .next t) : t.Inv := by
  obtain ⟨m, rfl⟩ := takeAccessFault_next h
  exact plainRel_invKept.enterGroup0 { s with tracing := .off } (State.Inv.entrySys (s := { s with tracing := .off }) hs)

theorem TakesException.inv {s t : State} (h : TakesException s t) (hs : s.Inv) : t.Inv := by
  cases h with
  | access f b op h => exact takeAccessFault_inv hs h
  | exc e h =>
    obtain ⟨m, hm⟩ := takeException_next h
    have he : (stateAfter ((enter e).run { s with tracing := m })).Inv :=
      plainRel_invKept.enter { s with tracing := m } (State.Inv.newSys (s := { s with tracing := m }) hs e)
    obtain ⟨r, rfl⟩ | ⟨f, b, op, hf⟩ := hm
    · exact he
    · exact takeAccessFault_inv he hf

theorem resetSequence_inv {s : State} (hs : s.Inv) : (stateAfter (resetSequence.run s)).Inv :=
  plainRel_invKept.resetSequence (fun _ _ h => h) s (hs.withSys rfl rfl (resetSys_masked _))

theorem runOne_inv {s t : State} (hs : s.Inv) (h : runOne s = .next t) : t.Inv := by
  obtain ⟨u, v, c, hu, hv, he⟩ := runOne_next plainRel_invKept runsBy_invKept h
  have hvi : v.Inv := by
    obtain rfl | hx := hv
    · exact hu hs
    · exact hx.inv (hu hs)
  obtain ⟨l, rfl | hx⟩ := endInstr_next he
  · exact hvi
  · exact hx.inv hvi

end Sys2Proof.Machine
end

section
/-! SUPPORT. User mode: what an action in user mode leaves alone, and that every exception ends it (60_exceptions.md R448). -/

namespace Sys2Proof.Machine

/-- What belongs to supervisor mode, and the platform: SSP, MSP, the system byte, the vector base, the reset line, `cfg`. -/
def State.supervisorPart (s : State) : Word × Word × Byte × Word × Nat × Config :=
  (s.ssp, s.msp, s.sys, s.vbr, s.resetPulses, s.cfg)

theorem State.isSuper_of_supervisorPart {s t : State} (h : t.supervisorPart = s.supervisorPart) : t.isSuper = s.isSuper :=
  State.isSuper_congr (congrArg (·.2.2.1) h)

/-- From user mode, nothing of supervisor mode changes. -/
def UserIsolated (s t : State) : Prop := s.isSuper = false → t.supervisorPart = s.supervisorPart

/-- In user mode the active stack pointer is USP (10_state.md R24). -/
theorem State.setSp_user {s : State} (h : s.isSuper = false) (v : Word) : s.setSp v = { s with usp := v } := by
  simp [State.setSp, h]

theorem plainRel_userIsolated : PlainRel UserIsolated where
  refl _ _ := rfl
  trans _ _ _ hst htu h := (htu ((State.isSuper_of_supervisorPart (hst h)).trans h)).trans (hst h)
  dregs _ _ _ := rfl
  aregs _ _ _ := rfl
  setSp s v h := by rw [State.setSp_user h]; rfl
  setCcr _ _ _ := rfl
  pc _ _ _ := rfl
  store s sz a v _ := by simp [State.supervisorPart]
  run _ _ _ := rfl
  draws _ _ := rfl
  stale _ _ _ := rfl
  tracing _ _ _ := rfl

/-- A privileged instruction stops in user mode before it does anything. -/
theorem keeps_userIsolated_requireSuper (body : M Unit) : Keeps UserIsolated (requireSuper >>= fun _ => body) := by
  intro s hs
  rw [run_bind_error (requireSuper_user hs)]
  rfl

/-- In user mode no instruction touches what belongs to supervisor mode. -/
theorem runsBy_userIsolated (i : Instr) : RunsBy UserIsolated (exec i) := by
  cases hi : privileged .mc68000 i with
  | false => exact plainRel_userIsolated.runsBy_exec hi
  | true =>
    obtain ⟨body, hx, _⟩ := exec_privileged hi
    rw [hx]
    exact (keeps_userIsolated_requireSuper body).runsBy

/-- The system byte is the same in both states. -/
def SameSys (s t : State) : Prop := t.sys = s.sys

theorem plainRel_sameSys : PlainRel SameSys where
  refl _ := rfl
  trans _ _ _ hst htu := htu.trans hst
  dregs _ _ := rfl
  aregs _ _ := rfl
  setSp _ _ := State.setSp_sys ..
  setCcr _ _ := rfl
  pc _ _ := rfl
  store _ _ _ _ := State.store_sys ..
  run _ _ := rfl
  draws _ := rfl
  stale _ _ := rfl
  tracing _ _ := rfl

theorem takeAccessFault_super {f : AccessFault} {b : Bool} {op : Word} {s t : State} (h : takeAccessFault f b op s = .next t) :
    t.isSuper = true := by
  obtain ⟨m, rfl⟩ := takeAccessFault_next h
  exact (State.isSuper_congr (plainRel_sameSys.enterGroup0 { s with tracing := .off })).trans (entrySys_super s.sys)

/-- Every exception leaves the processor in supervisor mode (60_exceptions.md R448). -/
theorem TakesException.super {s t : State} (h : TakesException s t) : t.isSuper = true := by
  cases h with
  | access f b op h => exact takeAccessFault_super h
  | exc e h =>
    obtain ⟨m, ⟨r, rfl⟩ | ⟨f, b, op, hf⟩⟩ := takeException_next h
    · exact (State.isSuper_congr (plainRel_sameSys.enter { s with tracing := m })).trans (newSys_super e s.sys)
    · exact takeAccessFault_super hf

/-- Reset leaves the processor in supervisor mode. -/
theorem resetSequence_super (s : State) : (stateAfter (resetSequence.run s)).isSuper = true := by
  have hsys : (stateAfter (resetSequence.run s)).sys = 0x27#8 := plainRel_sameSys.resetSequence (fun _ _ => rfl) s
  rw [State.isSuper, hsys]
  rfl

theorem runOne_userIsolated {s t : State} (hs : s.isSuper = false) (h : runOne s = .next t) (ht : t.isSuper = false) :
    t.supervisorPart = s.supervisorPart := by
  obtain ⟨u, v, c, hu, hv, he⟩ := runOne_next plainRel_userIsolated runsBy_userIsolated h
  obtain ⟨l, rfl | hx⟩ := endInstr_next he
  · obtain rfl | hx := hv
    · exact hu hs
    · cases hx.super.symm.trans ht
  · cases hx.super.symm.trans ht

end Sys2Proof.Machine
end

section
/-! PROOFS. The statements of 10_state.md. -/

namespace Sys2Proof.Machine

/-- Settles O58, over the cases of a step. -/
theorem stepKeepsInvariant : Obligations.StepKeepsInvariant := by
  intro s t hs h
  have hp : s.sampled.Inv := hs
  obtain ⟨m, l, rfl⟩ | ⟨m, rfl⟩ | hx | hx := step_cases h
  · exact resetSequence_inv hp
  · exact hp
  · exact hx.inv hp
  · exact runOne_inv hp hx

/-- Settles O59: an exception or a reset would have left user mode. -/
theorem userModeIsolation : Obligations.UserModeIsolation := by
  intro s t hs h ht
  have hsame : t.supervisorPart = s.supervisorPart := by
    obtain ⟨m, l, rfl⟩ | ⟨m, rfl⟩ | hx | hx := step_cases h
    · cases (resetSequence_super s.sampled).symm.trans ht
    · rfl
    · cases hx.super.symm.trans ht
    · exact runOne_userIsolated (s := s.sampled) hs hx ht
  simpa only [State.supervisorPart, Prod.mk.injEq] using hsame

/-- Settles O4: the encodings by evaluation, each condition by its formula. -/
theorem conditionTable : Obligations.ConditionTable :=
  ⟨by decide, fun _ => ⟨rfl, rfl, rfl, rfl, rfl, rfl, rfl, rfl, rfl, rfl, rfl, rfl, rfl, rfl, rfl, rfl⟩⟩

/-- Settles O57: at reset no byte of memory is listed, and SR is $2700. -/
theorem resetInvariant : Obligations.ResetInvariant := (State.inv_iff _).2 ⟨rfl, resetSys_masked _⟩

end Sys2Proof.Machine
end

section
/-! SUPPORT. Values in memory: what an address holds after a store, and how far a change of memory reaches. -/

namespace Sys2Proof.Machine

/-- The low bits of a zero-extended value are the value. -/
theorem extractLsb'_setWidth {m n : Nat} (h : n ≤ m) (b : BitVec n) : (b.setWidth m).extractLsb' 0 n = b := by
  rw [BitVec.extractLsb'_setWidth_of_le (by omega), BitVec.extractLsb'_eq_self]

/-! ## A value at an address -/

/-- The `sz` value `v` stands at `a`, high-order byte first (20_memory.md R61). -/
def State.HoldsAt (s : State) (sz : Size) (a v : Word) : Prop :=
  ∀ j < sz.bytes, s.byteAt (a + BitVec.ofNat 32 j) = byteOfValue sz v j

theorem State.holdsAt_store (s : State) (sz : Size) (a v : Word) (hw : s.mem.wf = true) (hb : 2 ≤ s.cfg.addrBits) :
    (s.store sz a v).HoldsAt sz a v :=
  fun _ hj => State.byteAt_store_inside sz a v hw hb hj

/-- The byte at the operand's own address is its most significant one. -/
theorem State.HoldsAt.byteAt {s : State} {sz : Size} {a v : Word} (h : s.HoldsAt sz a v) :
    s.byteAt a = v.extractLsb' (8 * (sz.bytes - 1)) 8 := by
  simpa [byteOfValue] using h 0 (by cases sz <;> decide)

theorem State.HoldsAt.wordAt {s : State} {a v : Word} (h : s.HoldsAt .w a v) : s.wordAt a = v.extractLsb' 0 16 := by
  have h0 : s.byteAt a = v.extractLsb' 8 8 := h.byteAt
  have h1 : s.byteAt (a + 1#32) = v.extractLsb' 0 8 := h 1 (by decide)
  rw [State.wordAt, h0, h1, BitVec.extractLsb'_append_extractLsb'_eq_extractLsb' (by rfl)]

theorem State.HoldsAt.highWord {s : State} {a v : Word} (h : s.HoldsAt .l a v) : s.wordAt a = v.extractLsb' 16 16 := by
  have h0 : s.byteAt a = v.extractLsb' 24 8 := h.byteAt
  have h1 : s.byteAt (a + 1#32) = v.extractLsb' 16 8 := h 1 (by decide)
  rw [State.wordAt, h0, h1, BitVec.extractLsb'_append_extractLsb'_eq_extractLsb' (by rfl)]

theorem State.HoldsAt.lowWord {s : State} {a v : Word} (h : s.HoldsAt .l a v) :
    s.wordAt (a + 2#32) = v.extractLsb' 0 16 := by
  have h2 : s.byteAt (a + 2#32) = v.extractLsb' 8 8 := h 2 (by decide)
  have h3 : s.byteAt (a + 2#32 + 1#32) = v.extractLsb' 0 8 := by
    rw [BitVec.add_assoc]; exact h 3 (by decide)
  rw [State.wordAt, h2, h3, BitVec.extractLsb'_append_extractLsb'_eq_extractLsb' (by rfl)]

theorem State.HoldsAt.longAt {s : State} {a v : Word} (h : s.HoldsAt .l a v) : s.longAt a = v := by
  rw [State.longAt, h.highWord, h.lowWord, BitVec.extractLsb'_append_extractLsb'_eq_extractLsb' (by rfl),
    BitVec.extractLsb'_eq_self]

/-- What stands at an address reads back, zero-extended. -/
theorem State.HoldsAt.valueAt {s : State} {sz : Size} {a v : Word} (h : s.HoldsAt sz a v) : s.valueAt sz a = sz.low v := by
  cases sz with
  | b => exact congrArg (BitVec.setWidth 32) h.byteAt
  | w => exact congrArg (BitVec.setWidth 32) h.wordAt
  | l => exact h.longAt

/-! ## Bytes kept -/

theorem bytesKept_refl (s : State) (a : Word) (n : Nat) : BytesKept s s a n := fun _ _ => rfl

theorem bytesKept_mono {s t : State} {a : Word} {m n : Nat} (h : BytesKept s t a m) (hmn : m ≤ n) : BytesKept s t a n :=
  fun x hx => h x fun j hj => hx j (Nat.lt_of_lt_of_le hj hmn)

/-- Two changes one after the other, the second just below the first, reach what lies in either. -/
theorem bytesKept_append {s t u : State} {a : Word} {k n : Nat} (hc : t.cfg = s.cfg)
    (h₁ : BytesKept s t (a + BitVec.ofNat 32 k) n) (h₂ : BytesKept t u a k) : BytesKept s u a (k + n) := by
  intro x hx
  have hlow : ∀ j < k, t.phys x ≠ t.phys (a + BitVec.ofNat 32 j) := fun j hj => by
    simpa only [State.phys_congr hc] using hx j (by omega)
  have hhigh : ∀ j < n, s.phys x ≠ s.phys (a + BitVec.ofNat 32 k + BitVec.ofNat 32 j) := fun j hj => by
    rw [BitVec.add_assoc, ← BitVec.ofNat_add]; exact hx (k + j) (by omega)
  exact (h₂ x hlow).trans (h₁ x hhigh)

theorem State.bytesKept_store (s : State) (sz : Size) (a v : Word) : BytesKept s (s.store sz a v) a sz.bytes :=
  State.byteAt_store_outside s sz a v

theorem State.byteAt_storeByte_ne (s : State) {a x : Word} (v : Word) (h : s.phys x ≠ s.phys a) :
    (s.store .b a v).byteAt x = s.byteAt x :=
  s.bytesKept_store .b a v x fun j hj => by
    obtain rfl : j = 0 := Nat.lt_one_iff.1 hj
    simpa using h

/-- Offsets that differ below `2 ^ k` reach distinct bytes if there are `k` address bits. -/
theorem State.phys_offset_ne (s : State) (a : Word) {k i j : Nat} (hb : k ≤ s.cfg.addrBits) (hk : k ≤ 32) (hi : i < 2 ^ k)
    (hj : j < 2 ^ k) (hne : i ≠ j) : s.phys (a + BitVec.ofNat 32 i) ≠ s.phys (a + BitVec.ofNat 32 j) := by
  intro he
  have hspace : 2 ^ k ∣ s.space := Nat.pow_dvd_pow 2 (by omega)
  have hword : 2 ^ k ∣ 2 ^ 32 := Nat.pow_dvd_pow 2 hk
  have hmod : ∀ n, s.phys (a + BitVec.ofNat 32 n) % 2 ^ k = (a.toNat + n) % 2 ^ k := fun n => by
    rw [State.phys, Nat.mod_mod_of_dvd _ hspace, BitVec.toNat_add, BitVec.toNat_ofNat, Nat.add_mod_mod,
      Nat.mod_mod_of_dvd _ hword]
  have hij : (a.toNat + i) % 2 ^ k = (a.toNat + j) % 2 ^ k := by rw [← hmod, ← hmod, he]
  exact hne (Nat.ModEq.eq_of_lt_of_lt (Nat.ModEq.add_left_cancel' a.toNat hij) hi hj)

/-- A value outside the bytes that change still stands there. -/
theorem State.HoldsAt.kept {s t : State} {sz : Size} {a b v : Word} {n : Nat} (h : s.HoldsAt sz a v)
    (hk : BytesKept s t b n)
    (hd : ∀ i < sz.bytes, ∀ j < n, s.phys (a + BitVec.ofNat 32 i) ≠ s.phys (b + BitVec.ofNat 32 j)) :
    t.HoldsAt sz a v :=
  fun i hi => (hk _ (hd i hi)).trans (h i hi)

end Sys2Proof.Machine
end

section
/-! SUPPORT. What the platform answers, and what a store that a bus error cuts short leaves (20_memory.md R66, R69, R70). -/

namespace Sys2Proof.Machine

/-! ## Verdicts -/

theorem mem_bytesFrom {sz : Size} {a x : Word} : x ∈ bytesFrom sz a ↔ ∃ j < sz.bytes, a + BitVec.ofNat 32 j = x := by
  simp [bytesFrom_eq]

/-- One byte that the platform answers with a bus error ends the whole access so, and nothing else does
(R66, R80). -/
theorem State.verdict_eq_busError_iff {s : State} {fc : FuncCode} {w : Bool} {sz : Size} {a : Word} :
    s.verdict fc w sz a = .busError ↔ ∃ x ∈ bytesFrom sz a, s.byteVerdict fc w x = .busError := by
  unfold State.verdict
  dsimp only
  rw [← List.mem_map, ← List.contains_iff_mem]
  split
  · exact iff_of_true rfl ‹_›
  · split <;> exact iff_of_false nofun ‹_›

theorem State.verdict_byte (s : State) (fc : FuncCode) (w : Bool) (a : Word) :
    s.verdict fc w .b a = s.byteVerdict fc w a := by
  unfold State.verdict bytesFrom
  cases h : s.byteVerdict fc w a <;> simp [h]

/-- An access ends in a bus error exactly if it does so at the byte of some offset. -/
theorem State.verdict_eq_busError_iff_offset {s : State} {fc : FuncCode} {w : Bool} {sz : Size} {a : Word} :
    s.verdict fc w sz a = .busError ↔ ∃ j < sz.bytes, s.byteVerdict fc w (a + BitVec.ofNat 32 j) = .busError := by
  simp [State.verdict_eq_busError_iff, mem_bytesFrom]

/-- The bytes of a long word are those of its two words. -/
theorem State.verdict_long_eq_busError_iff {s : State} {fc : FuncCode} {w : Bool} {a : Word} :
    s.verdict fc w .l a = .busError ↔ s.verdict fc w .w a = .busError ∨ s.verdict fc w .w (a + 2#32) = .busError := by
  have h3 : a + 2#32 + 1#32 = a + 3#32 := BitVec.add_assoc ..
  simp [State.verdict_eq_busError_iff, bytesFrom, h3, or_assoc]

/-! ## One transfer -/

/-- The state after a transfer that no bus error ends: memory takes what does not go to a device. -/
def State.landed (s : State) (fc : FuncCode) (sz : Size) (a v : Word) : State :=
  if s.verdict fc true sz a = .granted then s.store sz a v else s.storeBeside fc sz a v

theorem storeUntil_cons (fc : FuncCode) (sz : Size) (a v : Word) (rest : List (Size × Word × Word)) (s : State) :
    storeUntil fc ((sz, a, v) :: rest) s =
      if s.verdict fc true sz a = .busError then s else storeUntil fc rest (s.landed fc sz a v) := by
  rw [storeUntil, State.landed]
  cases s.verdict fc true sz a <;> rfl

theorem State.storeBeside_cfg (s : State) (fc : FuncCode) (sz : Size) (a v : Word) : (s.storeBeside fc sz a v).cfg = s.cfg :=
  keeps_storeBeside (R := fun s t => t.cfg = s.cfg) (fun _ => rfl) (fun _ _ _ h₁ h₂ => h₂.trans h₁) State.store_cfg
    fc sz a v s

theorem State.landed_cfg (s : State) (fc : FuncCode) (sz : Size) (a v : Word) : (s.landed fc sz a v).cfg = s.cfg := by
  unfold State.landed
  split
  · exact s.store_cfg sz a v
  · exact s.storeBeside_cfg fc sz a v

theorem State.byteVerdict_congr {s t : State} (hc : t.cfg = s.cfg) (fc : FuncCode) (w : Bool) (x : Word) :
    t.byteVerdict fc w x = s.byteVerdict fc w x := by
  rw [State.byteVerdict, State.byteVerdict, hc, State.phys_congr hc]

/-- A transfer of one byte stores it, or leaves memory as it is. -/
theorem State.landed_byte (s : State) (fc : FuncCode) (a v : Word) :
    s.landed fc .b a v = if s.byteVerdict fc true a = .granted then s.store .b a v else s := by
  unfold State.landed
  rw [State.verdict_byte]
  split
  · rfl
  · simp [State.storeBeside, bytesFrom, bytesOf, *]

theorem State.byteAt_landedByte_ne (s : State) (fc : FuncCode) {a x : Word} (v : Word) (h : s.phys x ≠ s.phys a) :
    (s.landed fc .b a v).byteAt x = s.byteAt x := by
  rw [State.landed_byte]
  split
  · exact s.byteAt_storeByte_ne v h
  · rfl

/-- Beside a device, memory takes bytes of the operand only. -/
theorem State.bytesKept_storeBeside (s : State) (fc : FuncCode) (sz : Size) (a v : Word) :
    BytesKept s (s.storeBeside fc sz a v) a sz.bytes := by
  intro x hx
  have hout : ∀ p ∈ (bytesFrom sz a).zip (bytesOf sz v), s.phys x ≠ s.phys p.1 := fun p hp => by
    obtain ⟨j, hj, he⟩ := mem_bytesFrom.1 (List.of_mem_zip hp).1
    exact he ▸ hx j hj
  clear hx
  unfold State.storeBeside
  generalize (bytesFrom sz a).zip (bytesOf sz v) = l at hout
  induction l generalizing s with
  | nil => rfl
  | cons p rest ih =>
    obtain ⟨hp, hrest⟩ := List.forall_mem_cons.1 hout
    rw [List.foldl_cons]
    split
    · exact (ih (s.store .b p.1 _) hrest).trans (s.byteAt_storeByte_ne _ hp)
    · exact ih s hrest

theorem State.bytesKept_landed (s : State) (fc : FuncCode) (sz : Size) (a v : Word) :
    BytesKept s (s.landed fc sz a v) a sz.bytes := by
  unfold State.landed
  split
  · exact s.bytesKept_store sz a v
  · exact s.bytesKept_storeBeside fc sz a v

end Sys2Proof.Machine
end

section
/-! SUPPORT. The stores that a bus error cuts short, by the alignment of the operand (20_memory.md R64, R69, R70). -/

namespace Sys2Proof.Machine

/-! ## An aligned operand -/

/-- The word transfer at `a` is the one that has landed. -/
def WordLanded (s t : State) (fc : FuncCode) (a v : Word) : Prop :=
  s.verdict fc true .w a ≠ .busError ∧ BytesKept s t a 2 ∧
    (s.verdict fc true .w a = .granted → t.mem = (s.store .w a v).mem)

theorem State.wordLanded_landed {s : State} {fc : FuncCode} {a : Word} (v : Word) (h : s.verdict fc true .w a ≠ .busError) :
    WordLanded s (s.landed fc .w a v) fc a v :=
  ⟨h, s.bytesKept_landed fc .w a v, fun hg => by rw [State.landed, if_pos hg]⟩

/-- Of two word transfers that do not both complete, at most the first has landed. -/
theorem storeUntil_words {s : State} {fc : FuncCode} {a b : Word} (v u : Word)
    (h : s.verdict fc true .w a = .busError ∨ s.verdict fc true .w b = .busError) :
    storeUntil fc [(.w, a, v), (.w, b, u)] s = s ∨ WordLanded s (storeUntil fc [(.w, a, v), (.w, b, u)] s) fc a v := by
  by_cases ha : s.verdict fc true .w a = .busError
  · exact .inl (by rw [storeUntil_cons, if_pos ha])
  · have hb := h.resolve_left ha
    have hend : storeUntil fc [(.w, a, v), (.w, b, u)] s = s.landed fc .w a v := by
      rw [storeUntil_cons, if_neg ha, storeUntil_cons, State.verdict_congr (s.landed_cfg fc .w a v), if_pos hb]
    rw [hend]
    exact .inr (s.wordLanded_landed v ha)

/-- At most one half of an aligned long word that a bus error cuts short has landed (R70). -/
theorem storeUntil_alignedLong {s : State} {fc : FuncCode} {a : Word} (lowFirst : Bool) (v : Word) (ha : a.getLsbD 0 = false)
    (hv : s.verdict fc true .l a = .busError) :
    let t := storeUntil fc (storeTransfers lowFirst .l a v) s
    t = s ∨ WordLanded s t fc a (v >>> 16) ∨ WordLanded s t fc (a + 2#32) v := by
  have hwords := State.verdict_long_eq_busError_iff.1 hv
  have hlow := storeUntil_words v (v >>> 16) hwords.symm
  have hhigh := storeUntil_words (v >>> 16) v hwords
  simp only [storeTransfers, ha, Bool.false_eq_true, if_false]
  cases lowFirst
  · exact hhigh.imp_right .inl
  · exact hlow.imp_right .inr

/-- A half of a long word lies within it. -/
theorem WordLanded.bytesKept_long {s t : State} {fc : FuncCode} {a v u : Word}
    (h : WordLanded s t fc a v ∨ WordLanded s t fc (a + 2#32) u) : BytesKept s t a 4 := by
  obtain ⟨_, hkept, _⟩ | ⟨_, hkept, _⟩ := h
  · exact bytesKept_mono hkept (by decide)
  · intro x hx
    refine hkept x fun j hj => ?_
    rw [BitVec.add_assoc, ← BitVec.ofNat_add]
    exact hx (2 + j) (by omega)

/-- An aligned byte or word is one transfer: nothing of it has landed (R69). -/
theorem storeUntil_single {s : State} {fc : FuncCode} {sz : Size} {a : Word} (v : Word) (ha : a.getLsbD 0 = false)
    (hsz : sz ≠ .l) (hv : s.verdict fc true sz a = .busError) : storeUntil fc (storeTransfers false sz a v) s = s := by
  have hone : storeTransfers false sz a v = [(sz, a, v)] := by
    cases sz with
    | b | w => simp only [storeTransfers, ha, Bool.false_eq_true, if_false]
    | l => exact absurd rfl hsz
  rw [hone, storeUntil_cons, if_pos hv]

/-! ## An operand at an odd address -/

/-- The transfer of byte `j` of an operand. -/
def byteTransfer (sz : Size) (a v : Word) (j : Nat) : Size × Word × Word :=
  (.b, a + BitVec.ofNat 32 j, (byteOfValue sz v j).setWidth 32)

/-- At an odd address the transfers are the bytes, at rising addresses (R64). -/
theorem storeTransfers_odd {sz : Size} {a : Word} (lowFirst : Bool) (v : Word) (ha : a.getLsbD 0 = true) :
    storeTransfers lowFirst sz a v = (List.range' 0 sz.bytes).map (byteTransfer sz a v) := by
  unfold storeTransfers
  rw [if_pos ha]
  cases sz <;> simp [bytesFrom, bytesOf, byteTransfer, byteOfValue, Size.bytes, List.range']

/-- The state after the transfers of the first `n` bytes of an operand. -/
def State.bytesLanded (s : State) (fc : FuncCode) (sz : Size) (a v : Word) : Nat → State
  | 0 => s
  | n + 1 => (s.bytesLanded fc sz a v n).landed fc .b (a + BitVec.ofNat 32 n) ((byteOfValue sz v n).setWidth 32)

section
variable (s : State) (fc : FuncCode) (sz : Size) (a v : Word)

theorem State.bytesLanded_cfg (n : Nat) : (s.bytesLanded fc sz a v n).cfg = s.cfg := by
  induction n with
  | zero => rfl
  | succ n ih => exact (State.landed_cfg ..).trans ih

theorem State.wf_bytesLanded (hw : s.mem.wf = true) (n : Nat) : (s.bytesLanded fc sz a v n).mem.wf = true := by
  induction n with
  | zero => exact hw
  | succ n ih =>
    rw [State.bytesLanded, State.landed_byte]
    split
    · exact State.wf_store _ _ _ _ ih
    · exact ih

/-- The byte transfers up to the first that fails. -/
theorem storeUntil_bytes {n : Nat} (hn : s.byteVerdict fc true (a + BitVec.ofNat 32 n) = .busError) (m k : Nat) (hk : k ≤ n)
    (hm : n < k + m) (hbefore : ∀ j, k ≤ j → j < n → s.byteVerdict fc true (a + BitVec.ofNat 32 j) ≠ .busError) :
    storeUntil fc ((List.range' k m).map (byteTransfer sz a v)) (s.bytesLanded fc sz a v k) = s.bytesLanded fc sz a v n := by
  induction m generalizing k with
  | zero => omega
  | succ m ih =>
    rw [List.range'_succ, List.map_cons, byteTransfer, storeUntil_cons, State.verdict_byte,
      State.byteVerdict_congr (s.bytesLanded_cfg fc sz a v k)]
    obtain rfl | hlt := Nat.eq_or_lt_of_le hk
    · rw [if_pos hn]
    · rw [if_neg (hbefore k le_rfl hlt)]
      exact ih (k + 1) hlt (by omega) fun j hj => hbefore j (by omega)

/-- Byte transfers change the bytes transferred only. -/
theorem State.bytesKept_bytesLanded (n : Nat) : BytesKept s (s.bytesLanded fc sz a v n) a n := by
  induction n with
  | zero => exact bytesKept_refl s a 0
  | succ n ih =>
    intro x hx
    have hne := hx n (Nat.lt_succ_self n)
    simp only [← State.phys_congr (s.bytesLanded_cfg fc sz a v n)] at hne
    exact (State.byteAt_landedByte_ne _ fc _ hne).trans (ih x fun j hj => hx j (by omega))

/-- Of the bytes transferred, those that do not go to a device are in memory. -/
theorem State.byteAt_bytesLanded (hw : s.mem.wf = true) (hb : 2 ≤ s.cfg.addrBits) {n : Nat} (hn : n ≤ 4)
    {j : Nat} (hj : j < n) :
    (s.bytesLanded fc sz a v n).byteAt (a + BitVec.ofNat 32 j) =
      if s.byteVerdict fc true (a + BitVec.ofNat 32 j) = .granted then byteOfValue sz v j
      else s.byteAt (a + BitVec.ofNat 32 j) := by
  induction n with
  | zero => omega
  | succ n ih =>
    have hcfg := s.bytesLanded_cfg fc sz a v n
    obtain rfl | hlt := Nat.eq_or_lt_of_le (Nat.le_of_lt_succ hj)
    · rw [State.bytesLanded, State.landed_byte, State.byteVerdict_congr hcfg]
      split
      · have hheld := State.holdsAt_store (s.bytesLanded fc sz a v j) .b (a + BitVec.ofNat 32 j)
          ((byteOfValue sz v j).setWidth 32) (s.wf_bytesLanded fc sz a v hw j) (hcfg ▸ hb)
        rw [hheld.byteAt]
        exact extractLsb'_setWidth (by decide) _
      · exact s.bytesKept_bytesLanded fc sz a v j _ fun i hi => s.phys_add_ne hb a (by omega) (by omega) (by omega)
    · have hne := s.phys_add_ne hb a (i := j) (j := n) (by omega) (by omega) (by omega)
      simp only [← State.phys_congr hcfg] at hne
      exact (State.byteAt_landedByte_ne _ fc _ hne).trans (ih (by omega) hlt)

end

/-- A store at an odd address that a bus error cuts short: the bytes below the first that fails have landed (R64). -/
theorem storeUntil_odd {s : State} {fc : FuncCode} {sz : Size} {a : Word} (v : Word) (ha : a.getLsbD 0 = true)
    (hv : s.verdict fc true sz a = .busError) :
    ∃ n < sz.bytes, (∀ j < n, s.byteVerdict fc true (a + BitVec.ofNat 32 j) ≠ .busError) ∧
      s.byteVerdict fc true (a + BitVec.ofNat 32 n) = .busError ∧
      storeUntil fc (storeTransfers false sz a v) s = s.bytesLanded fc sz a v n := by
  have hex := State.verdict_eq_busError_iff_offset.1 hv
  obtain ⟨hlt, hbad⟩ := Nat.find_spec hex
  have hbefore : ∀ j < Nat.find hex, s.byteVerdict fc true (a + BitVec.ofNat 32 j) ≠ .busError := fun j hj hbus =>
    Nat.find_min hex hj ⟨hj.trans hlt, hbus⟩
  refine ⟨Nat.find hex, hlt, hbefore, hbad, ?_⟩
  rw [storeTransfers_odd false v ha]
  exact storeUntil_bytes s fc sz a v hbad sz.bytes 0 (Nat.zero_le _) (by omega) fun j _ => hbefore j

end Sys2Proof.Machine
end

section
/-! SUPPORT. The errors of an access, from its address and the platform's answer (20_memory.md R64, R66). -/

namespace Sys2Proof.Machine

theorem State.misaligned_of_odd {s : State} {sz : Size} {a : Word} (hc : s.cfg.cpu.is020 = false) (hsz : sz ≠ .b)
    (ho : a.getLsbD 0 = true) : s.misaligned sz a = true := by
  have hb : (sz != .b) = true := bne_iff_ne.2 hsz
  rw [State.misaligned, Cpu.alignFault, hc, hb, ho]
  rfl

theorem memRead_bus_error {s : State} {fc : FuncCode} {sz : Size} {a : Word} (hm : s.misaligned sz a = false)
    (hv : s.verdict fc false sz a = .busError) :
    (memRead fc sz a).run s = .error (.access ⟨true, a, false, fc⟩) s := by
  simp [memRead, hm, hv]

/-- The write of an aligned long word that a bus error ends, with its half in either order. -/
theorem memWrite_alignedLong_bus_error {s : State} {fc : FuncCode} {a : Word} (v : Word) (ha : a.getLsbD 0 = false)
    (hm : s.misaligned .l a = false) (hv : s.verdict fc true .l a = .busError) :
    ∃ t, (memWrite fc .l a v).run s = .error (.access ⟨true, a, true, fc⟩) t ∧ BytesKept s t a 4 ∧
      (t.mem = s.mem ∨ WordLanded s t fc a (v >>> 16) ∨ WordLanded s t fc (a + 2#32) v) := by
  refine ⟨_, (memWrite_bus_error hm hv).trans (if_pos ⟨rfl, ha⟩), ?_⟩
  obtain hnone | hhalf :=
    storeUntil_alignedLong (s := { s with draws := s.draws + 1 }) (Config.freeBit s.draws) v ha hv
  · rw [hnone]
    exact ⟨bytesKept_refl s a 4, .inl rfl⟩
  · exact ⟨WordLanded.bytesKept_long (s := s) hhalf, .inr hhalf⟩

end Sys2Proof.Machine
end

section
/-! SUPPORT. The frame of an exception outside group 0: what pushes leave on the stack, and what exception processing leaves
(60_exceptions.md R440 to R442). -/

namespace Sys2Proof.Machine

/-! ## Pushes -/

/-- In supervisor mode a push leaves USP alone. -/
theorem State.pushed_usp {s : State} (h : s.isSuper = true) (sz : Size) (v : Word) : (s.pushed sz v).usp = s.usp := by
  rw [State.pushed, State.store_usp, State.setSp, h]
  cases s.onMaster <;> rfl

/-- In supervisor mode a push leaves the supervisor stack pointer that M does not select alone. -/
theorem State.pushed_otherSp {s : State} (h : s.isSuper = true) (sz : Size) (v : Word) :
    if s.onMaster then (s.pushed sz v).ssp = s.ssp else (s.pushed sz v).msp = s.msp := by
  rw [State.pushed, State.store_ssp, State.store_msp, State.setSp, h]
  cases s.onMaster <;> rfl

theorem State.wf_pushed {s : State} (sz : Size) (v : Word) (h : s.mem.wf = true) : (s.pushed sz v).mem.wf = true :=
  State.wf_store _ _ _ _ (by rw [State.setSp_mem]; exact h)

/-- A push leaves its value at the stack pointer. -/
theorem State.holdsAt_pushed {s : State} (sz : Size) (v : Word) (hw : s.mem.wf = true) (hb : 2 ≤ s.cfg.addrBits) :
    (s.pushed sz v).HoldsAt sz (s.pushed sz v).sp v := by
  rw [State.pushed_sp]
  exact State.holdsAt_store _ sz _ v (by rw [State.setSp_mem]; exact hw) (by rw [State.setSp_cfg]; exact hb)

/-- A push changes the bytes from the new stack pointer on. -/
theorem State.bytesKept_pushed (s : State) (sz : Size) (v : Word) :
    BytesKept s (s.pushed sz v) (s.pushed sz v).sp sz.bytes := by
  intro x hx
  rw [State.pushed_sp] at hx
  have hphys : ∀ y, (s.setSp (s.sp - BitVec.ofNat 32 sz.bytes)).phys y = s.phys y := State.phys_congr (State.setSp_cfg ..)
  refine (State.bytesKept_store _ sz _ v x fun j hj => by rw [hphys, hphys]; exact hx j hj).trans ?_
  rw [State.byteAt, State.byteAt, hphys, State.setSp_mem]

/-- The stack pointer before a push lies as many bytes above the one after it as were pushed. -/
theorem State.pushed_sp_add (s : State) (sz : Size) (v : Word) (n : Nat) :
    (s.pushed sz v).sp + BitVec.ofNat 32 (sz.bytes + n) = s.sp + BitVec.ofNat 32 n := by
  rw [State.pushed_sp, BitVec.ofNat_add, ← BitVec.add_assoc, BitVec.sub_add_cancel]

/-- What stands on the stack, `n` bytes above the stack pointer, stands there after a push, if the address lines tell the bytes
apart. -/
theorem State.HoldsAt.pushed {s : State} {sz' : Size} {w : Word} {n k : Nat} (h : s.HoldsAt sz' (s.sp + BitVec.ofNat 32 n) w)
    (sz : Size) (v : Word) (hb : k ≤ s.cfg.addrBits) (hk : k ≤ 32) (hn : sz.bytes + n + sz'.bytes ≤ 2 ^ k) :
    (s.pushed sz v).HoldsAt sz' ((s.pushed sz v).sp + BitVec.ofNat 32 (sz.bytes + n)) w := by
  rw [← s.pushed_sp_add sz v n] at h
  refine h.kept (s.bytesKept_pushed sz v) fun i hi j hj => ?_
  rw [BitVec.add_assoc, ← BitVec.ofNat_add]
  exact s.phys_offset_ne _ hb hk (by omega) (by omega) (by omega)

/-- Pushes one after another change the bytes from the last stack pointer on. -/
theorem bytesKept_push {s t : State} {n : Nat} (hc : t.cfg = s.cfg) (h : BytesKept s t t.sp n) (sz : Size) (v : Word) :
    BytesKept s (t.pushed sz v) (t.pushed sz v).sp (sz.bytes + n) := by
  refine bytesKept_append hc ?_ (t.bytesKept_pushed sz v)
  have hsp : (t.pushed sz v).sp + BitVec.ofNat 32 sz.bytes = t.sp := by rw [State.pushed_sp, BitVec.sub_add_cancel]
  rwa [hsp]

/-- What a push in supervisor mode leaves alone: all but the active stack pointer, memory and the record of the prefetch
window. -/
structure PushedOnly (s t : State) : Prop where
  cfg : t.cfg = s.cfg
  d : t.d = s.d
  a : t.a = s.a
  usp : t.usp = s.usp
  otherSp : if s.onMaster then t.ssp = s.ssp else t.msp = s.msp
  sys : t.sys = s.sys
  ccr : t.ccr = s.ccr
  vbr : t.vbr = s.vbr
  pins : t.pins = s.pins
  inputs : t.inputs = s.inputs
  resetPulses : t.resetPulses = s.resetPulses
  tracing : t.tracing = s.tracing
  draws : t.draws = s.draws

theorem PushedOnly.refl (s : State) : PushedOnly s s where
  cfg := rfl
  d := rfl
  a := rfl
  usp := rfl
  otherSp := by split <;> rfl
  sys := rfl
  ccr := rfl
  vbr := rfl
  pins := rfl
  inputs := rfl
  resetPulses := rfl
  tracing := rfl
  draws := rfl

theorem PushedOnly.isSuper {s t : State} (h : PushedOnly s t) : t.isSuper = s.isSuper := State.isSuper_congr h.sys

theorem PushedOnly.push {s t : State} (h : PushedOnly s t) (hs : s.isSuper = true) (sz : Size) (v : Word) :
    PushedOnly s (t.pushed sz v) where
  cfg := (t.pushed_cfg sz v).trans h.cfg
  d := (t.pushed_d sz v).trans h.d
  a := (t.pushed_a sz v).trans h.a
  usp := (State.pushed_usp (h.isSuper.trans hs) sz v).trans h.usp
  otherSp := by
    have hold := h.otherSp
    have hnew := State.pushed_otherSp (h.isSuper.trans hs) sz v
    rw [State.onMaster_congr h.sys h.cfg] at hnew
    split
    · rw [if_pos ‹_›] at hold hnew; exact hnew.trans hold
    · rw [if_neg ‹_›] at hold hnew; exact hnew.trans hold
  sys := (t.pushed_sys sz v).trans h.sys
  ccr := (t.pushed_ccr sz v).trans h.ccr
  vbr := (t.pushed_vbr sz v).trans h.vbr
  pins := (t.pushed_pins sz v).trans h.pins
  inputs := (t.pushed_inputs sz v).trans h.inputs
  resetPulses := (t.pushed_resetPulses sz v).trans h.resetPulses
  tracing := (t.pushed_tracing sz v).trans h.tracing
  draws := (t.pushed_draws sz v).trans h.draws

/-! ## The short frame -/

/-- The state with the format word pushed, on the members that have one (R441). -/
def State.formatted (s : State) (vec : BitVec 8) : State :=
  if s.cfg.cpu.formatWord then s.pushed .w (vec.setWidth 32 <<< 2) else s

theorem State.framed_eq (s : State) (vec : BitVec 8) (ret : Word) (old : Word16) :
    s.framed vec ret old = ((s.formatted vec).pushed .l ret).pushed .w (old.setWidth 32) := rfl

section
variable (s : State) (vec : BitVec 8) (ret : Word) (old : Word16)

theorem State.formatted_cfg : (s.formatted vec).cfg = s.cfg := by
  unfold State.formatted
  split <;> simp

theorem State.wf_formatted (h : s.mem.wf = true) : (s.formatted vec).mem.wf = true := by
  unfold State.formatted
  split
  · exact State.wf_pushed _ _ h
  · exact h

theorem State.pushedOnly_framed (h : s.isSuper = true) : PushedOnly s (s.framed vec ret old) := by
  have hformat : PushedOnly s (s.formatted vec) := by
    unfold State.formatted
    split
    · exact (PushedOnly.refl s).push h _ _
    · exact PushedOnly.refl s
  exact (hformat.push h _ _).push h _ _

theorem State.framed_sp : (s.framed vec ret old).sp = s.sp - BitVec.ofNat 32 (frameBytes s) := by
  rw [State.framed_eq, State.pushed_sp, State.pushed_sp, State.formatted, frameBytes]
  split
  · rw [State.pushed_sp]; simp only [Size.bytes]; bv_omega
  · simp only [Size.bytes]; bv_omega

/-- The frame changes its own bytes only. -/
theorem State.bytesKept_framed : BytesKept s (s.framed vec ret old) (s.framed vec ret old).sp (frameBytes s) := by
  have hformat : BytesKept s (s.formatted vec) (s.formatted vec).sp (frameBytes s - 6) := by
    unfold State.formatted frameBytes
    split
    · exact s.bytesKept_pushed .w _
    · exact bytesKept_refl s _ _
  have hlong := bytesKept_push (s.formatted_cfg vec) hformat .l ret
  have hall := bytesKept_push ((State.pushed_cfg ..).trans (s.formatted_cfg vec)) hlong .w (old.setWidth 32)
  exact bytesKept_mono hall (by unfold frameBytes; split <;> decide)

section
variable (hw : s.mem.wf = true) (hb : 3 ≤ s.cfg.addrBits)
include hw hb

/-- At the bottom of the frame stands the old SR. -/
theorem State.framed_holdsSr : (s.framed vec ret old).HoldsAt .w (s.framed vec ret old).sp (old.setWidth 32) := by
  refine State.holdsAt_pushed (s := (s.formatted vec).pushed .l ret) .w _ (State.wf_pushed _ _ (s.wf_formatted vec hw)) ?_
  rw [State.pushed_cfg, s.formatted_cfg vec]
  omega

/-- Above the old SR stands the PC. -/
theorem State.framed_holdsPc : (s.framed vec ret old).HoldsAt .l ((s.framed vec ret old).sp + 2#32) ret := by
  have hcfg := s.formatted_cfg vec
  have hpc := State.holdsAt_pushed .l ret (s.wf_formatted vec hw) (by rw [hcfg]; omega)
  rw [← BitVec.add_zero ((s.formatted vec).pushed .l ret).sp] at hpc
  exact State.HoldsAt.pushed (n := 0) (k := 3) hpc .w _ (by rwa [State.pushed_cfg, hcfg]) (by decide) (by decide)

/-- Above the PC stands the format word, where the member has one (R441). -/
theorem State.framed_holdsFormat (hf : s.cfg.cpu.formatWord = true) :
    (s.framed vec ret old).HoldsAt .w ((s.framed vec ret old).sp + 6#32) (vec.setWidth 32 <<< 2) := by
  have hcfg := s.formatted_cfg vec
  have hword : (s.formatted vec).HoldsAt .w ((s.formatted vec).sp + BitVec.ofNat 32 0) (vec.setWidth 32 <<< 2) := by
    rw [State.formatted, if_pos hf, BitVec.add_zero]
    exact State.holdsAt_pushed .w _ hw (by omega)
  have hlong := hword.pushed (k := 3) .l ret (by rwa [hcfg]) (by decide) (by decide)
  exact hlong.pushed (k := 3) .w _ (by rwa [State.pushed_cfg, hcfg]) (by decide) (by decide)

end
end

/-- `t` is `s` with the short frame on its stack: old SR, PC, and the format word where the member has one (R440, R441). -/
structure ShortFrame (s : State) (vec : BitVec 8) (ret : Word) (old : Word16) (t : State) : Prop where
  pushedOnly : PushedOnly s t
  sp : t.sp = s.sp - BitVec.ofNat 32 (frameBytes s)
  bytes : BytesKept s t t.sp (frameBytes s)
  holdsSr : s.mem.wf = true → 3 ≤ s.cfg.addrBits → t.HoldsAt .w t.sp (old.setWidth 32)
  holdsPc : s.mem.wf = true → 3 ≤ s.cfg.addrBits → t.HoldsAt .l (t.sp + 2#32) ret
  holdsFormat : s.mem.wf = true → 3 ≤ s.cfg.addrBits → s.cfg.cpu.formatWord = true →
    t.HoldsAt .w (t.sp + 6#32) (vec.setWidth 32 <<< 2)

theorem State.shortFrame_framed {s : State} (h : s.isSuper = true) (vec : BitVec 8) (ret : Word) (old : Word16) :
    ShortFrame s vec ret old (s.framed vec ret old) where
  pushedOnly := s.pushedOnly_framed vec ret old h
  sp := s.framed_sp vec ret old
  bytes := s.bytesKept_framed vec ret old
  holdsSr := s.framed_holdsSr vec ret old
  holdsPc := s.framed_holdsPc vec ret old
  holdsFormat := s.framed_holdsFormat vec ret old

/-! ## Exception processing outside group 0 -/

/-- The format word as the member has it and as it is pushed (R441). -/
theorem extractLsb'_formatWord (vec : BitVec 8) : (vec.setWidth 32 <<< 2).extractLsb' 0 16 = vec.setWidth 16 <<< 2 := by
  apply BitVec.eq_of_toNat_eq
  simp [Nat.shiftLeft_eq]

theorem State.vectored_pc (s : State) (vec : BitVec 8) :
    (s.vectored vec).pc = (s.vectored vec).longAt (s.vectorBase + (vec.setWidth 32 <<< 2)) := rfl

/-- In the new mode, with the trace condition `m`, the frame and then the vector give what exception processing leaves (R440). -/
theorem ShortFrame.entered {s f : State} {e : Exc} {m : TraceMode} (hm : m = if e.endsTrace then .off else s.tracing)
    (h : ShortFrame (State.entered { s with tracing := m } (e.newSys s.sys)) e.vector (e.stackedPc s) s.sr f) :
    Entered s e (f.vectored e.vector) where
  sys := h.pushedOnly.sys
  ccr := h.pushedOnly.ccr
  run := rfl
  pc := by
    have hbase : f.vectorBase = s.vectorBase := by
      rw [State.vectorBase, h.pushedOnly.cfg, h.pushedOnly.vbr]; rfl
    rw [State.vectored_pc, hbase]
  sp := h.sp
  usp := h.pushedOnly.usp
  otherSp := h.pushedOnly.otherSp
  d := h.pushedOnly.d
  a := h.pushedOnly.a
  vbr := h.pushedOnly.vbr
  cfg := h.pushedOnly.cfg
  pins := h.pushedOnly.pins
  inputs := h.pushedOnly.inputs
  resetPulses := h.pushedOnly.resetPulses
  draws := h.pushedOnly.draws
  tracing := h.pushedOnly.tracing.trans hm
  frameSr := fun hw hb => (h.holdsSr hw hb).wordAt.trans (extractLsb'_setWidth (by decide) s.sr)
  framePc := fun hw hb => (h.holdsPc hw hb).longAt
  frameFormat := fun hw hb hf => (h.holdsFormat hw hb hf).wordAt.trans (extractLsb'_formatWord e.vector)
  bytes := h.bytes

/-- What exception processing leaves when nothing fails (R440). -/
theorem State.entered_afterEntry (s : State) (e : Exc) :
    Entered s e (({ s with tracing := if e.endsTrace then .off else s.tracing } : State).afterEntry e) :=
  ShortFrame.entered rfl <| State.shortFrame_framed
    (s := State.entered { s with tracing := if e.endsTrace then .off else s.tracing } (e.newSys s.sys)) (newSys_super e s.sys)
    e.vector (e.stackedPc s) s.sr

/-- An exception outside group 0 whose frame can be pushed and whose vector can be read is taken (R440). -/
theorem takeException_entered {s : State} {e : Exc} (h : EntryReady s e) : ∃ t, takeException e s = .next t ∧ Entered s e t :=
  ⟨_, takeException_ok h, s.entered_afterEntry e⟩

end Sys2Proof.Machine
end

section
/-! SUPPORT. A fetch that ends in an exception: an odd `pc`, and an operation word that decodes to no instruction
(20_memory.md R67, 30_encoding.md R118, 70_reset_and_hazards.md R483). -/

namespace Sys2Proof.Machine

/-- The word at `a` can be fetched: its address is even and the platform admits the program reference (20_memory.md R67). -/
theorem State.fetchable_one {s : State} {a : Word} (h : s.fetchable a 1 = true) :
    a.getLsbD 0 = false ∧ s.verdict (s.fc true) false .w a = .granted := by
  simpa [State.fetchable] using h

theorem fetchInstr_odd {s : State} (h : s.pc.getLsbD 0 = true) :
    fetchInstr.run s = .error (.access ⟨false, s.pc, false, s.fc true⟩) s :=
  (run_bind_ok (EStateM.run_get s)).trans (run_bind_error (fetch16_odd h))

/-- A rejected operation word ends the fetch: no extension word is asked for. -/
theorem fetchInstr_rejected {s : State} {r : Reject} (hf : s.fetchable s.pc 1 = true) (hs : s.staleAt s.pc = [])
    (hr : decodeOp s.cfg.cpu (s.wordAt s.pc) = .reject r) : fetchInstr.run s = (rejected (s.wordAt s.pc) r).run s := by
  obtain ⟨heven, hgranted⟩ := State.fetchable_one hf
  have hrest : fetchInstr.run s = (fetchRest (s.wordAt s.pc) (s.pc + 2#32) (decodeOp s.cfg.cpu (s.wordAt s.pc))).run s :=
    (run_bind_ok (EStateM.run_get s)).trans (run_bind_ok (fetch16_ok heven hgranted hs))
  rw [hrest, hr]
  rfl

/-- An instruction whose fetch stops ends as the stop says, with no instruction run. -/
theorem runOne_of_fetch_error {s t : State} {e : Stop} (h : fetchInstr.run { s with tracing := s.traceMode } = .error e t) :
    runOne s = afterRaise (finish (.error e t)) := by
  rw [runOne, h]

theorem decodeOp_lineA {cpu : Cpu} {op : Word16} (h : op.extractLsb' 12 4 = 0xA#4) : decodeOp cpu op = .reject .lineA := by
  rw [decodeOp, show opLine op = 0xA#4 from h]
  rfl

theorem decodeOp_lineF {cpu : Cpu} {op : Word16} (h : op.extractLsb' 12 4 = 0xF#4) :
    decodeOp cpu op = .reject (if cpu.hasFullExt then .laterMember else .lineF) := by
  rw [decodeOp, show opLine op = 0xF#4 from h]
  rfl

/-- A running processor at a boundary with no reset, halt or interrupt runs an instruction (R483). -/
theorem step_eq_runOne {s : State} (he : s.ended = false) (hr : s.nextPins.reset = false) (hh : s.nextPins.halt = false)
    (hrun : s.run = .running) (hi : s.interrupted = false) : step s = runOne s.sampled := by
  simp [step, cycle, he, hr, hh, hrun, hi]

/-- What a word that is no instruction leaves, with the exception's frame pushed and its vector read. -/
theorem afterRaise_takeException {s : State} {e : Exc} (he : e.endsTrace = true) (h : EntryReady s e) :
    ∃ t, Entered s e t ∧ afterRaise (takeException e s) = .next (settle t) := by
  obtain ⟨t, ht, hentered⟩ := takeException_entered h
  have hoff : t.tracing = .off := hentered.tracing.trans (if_pos he)
  refine ⟨t, hentered, ?_⟩
  have hsame : ({ t with tracing := .off } : State) = t := by rw [← hoff]
  rw [ht, afterRaise, endInstr_off true hoff, if_pos rfl, hsame]

/-- A word that decodes to no instruction raises one of three exceptions, none of which a trace follows
(60_exceptions.md R435, R444). -/
theorem rejected_raises {r : Reject} {e : Exc}
    (h : (r, e) ∈ [(Reject.illegal, Exc.illegal), (.lineA, .lineA), (.lineF, .lineF)]) (op : Word16) :
    (rejected op r : M Instr) = raise e ∧ e.endsTrace = true ∧ ∀ s, e.stackedPc s = s.pc := by
  simp only [List.mem_cons, Prod.mk.injEq, List.not_mem_nil, or_false] at h
  obtain ⟨rfl, rfl⟩ | ⟨rfl, rfl⟩ | ⟨rfl, rfl⟩ := h <;> exact ⟨rfl, rfl, fun _ => rfl⟩

/-- One instruction where the operation word is none: the exception is taken, and nothing else is done (R118). -/
theorem runOne_rejected {s : State} {r : Reject} {e : Exc} (hf : s.fetchable s.pc 1 = true) (hs : s.staleAt s.pc = [])
    (hr : decodeOp s.cfg.cpu (s.wordAt s.pc) = .reject r) (hraise : (rejected (s.wordAt s.pc) r : M Instr) = raise e) :
    runOne s = afterRaise (takeException e { s with tracing := s.traceMode }) := by
  have hfetch : fetchInstr.run { s with tracing := s.traceMode } = (rejected (s.wordAt s.pc) r).run _ :=
    fetchInstr_rejected (s := { s with tracing := s.traceMode }) hf hs hr
  rw [hraise, raise_run] at hfetch
  exact runOne_of_fetch_error hfetch

end Sys2Proof.Machine
end

section
/-! PROOFS. The statements of 20_memory.md. -/

namespace Sys2Proof.Machine

/-- Settles O12: the stored value stands at its address, and every reading of it follows. -/
theorem storeThenRead : Obligations.StoreThenRead := by
  intro s sz a v hw hb
  have hv : (s.store sz a v).HoldsAt sz a v := s.holdsAt_store sz a v hw hb
  have hl : (s.store .l a v).HoldsAt .l a v := s.holdsAt_store .l a v hw hb
  exact ⟨hv, hv.valueAt, hl.byteAt, hl.lowWord, s.bytesKept_store sz a v, s.wf_store sz a v hw⟩

/-- Settles O13: the write that a bus error ends by the operand's alignment and size, the rest by the order of the checks. -/
theorem accessChecks : Obligations.AccessChecks := by
  intro s fc sz a v
  refine ⟨fun hc hsz ho => ?odd, memRead_bus_error, fun hm hv => ?cut, State.verdict_eq_busError_iff.2,
    State.verdict_eq_busError_iff.2, memRead_ok, memWrite_ok⟩
  case odd =>
    have hm := State.misaligned_of_odd hc hsz ho
    exact ⟨memRead_misaligned hm, memWrite_misaligned hm⟩
  case cut =>
    cases ha : a.getLsbD 0 with
    | true =>
      obtain ⟨n, hn, hbefore, hbad, hend⟩ := storeUntil_odd v ha hv
      have hrun := (memWrite_bus_error (v := v) hm hv).trans (if_neg fun h => Bool.noConfusion (ha.symm.trans h.2))
      have hkept := s.bytesKept_bytesLanded fc sz a v n
      rw [hend] at hrun
      have hn4 : n ≤ 4 := by cases sz <;> simp only [Size.bytes] at hn <;> omega
      exact ⟨_, hrun, bytesKept_mono hkept hn.le, nofun, nofun, fun _ => ⟨n, hn, hbefore, hbad,
        fun hw hb j hj => s.byteAt_bytesLanded fc sz a v hw hb hn4 hj, hkept⟩⟩
    | false =>
      by_cases hl : sz = .l
      · subst hl
        obtain ⟨t, hrun, hkept, hhalf⟩ := memWrite_alignedLong_bus_error v ha hm hv
        exact ⟨t, hrun, hkept, fun _ h => absurd rfl h, fun _ _ => hhalf, nofun⟩
      · have hrun := (memWrite_bus_error (v := v) hm hv).trans (if_neg fun h => hl h.1)
        rw [storeUntil_single v ha hl hv] at hrun
        exact ⟨s, hrun, bytesKept_refl s a _, fun _ _ => rfl, fun _ h => absurd h hl, nofun⟩

/-- Settles O14: each fetch that ends in an exception, then the frame that exception processing leaves. -/
theorem fetchExceptions : Obligations.FetchExceptions := by
  refine ⟨fun s ho => ⟨fetchInstr_odd ho, ?odd⟩, fun cpu op => ⟨decodeOp_lineA, decodeOp_lineF⟩, fun s hf hs =>
    ⟨fun r e hre hr => ?noInstruction, fun hr => ?laterMember⟩⟩
  case odd => exact runOne_of_fetch_error (fetchInstr_odd (s := { s with tracing := s.traceMode }) ho)
  case laterMember =>
    rw [runOne_of_fetch_error (fetchInstr_rejected (s := { s with tracing := s.traceMode }) hf hs hr)]
    rfl
  case noInstruction =>
    obtain ⟨hraise, hnotrace, hpc⟩ := rejected_raises hre (s.wordAt s.pc)
    refine ⟨runOne_rejected hf hs hr hraise, fun hend hreset hhalt hrun hint hready => ?_⟩
    have hone := runOne_rejected (s := s.sampled) hf hs hr hraise
    obtain ⟨t, ht, hnext⟩ :=
      afterRaise_takeException (s := { s.sampled with tracing := s.sampled.traceMode }) hnotrace hready
    have hstep : step s = .next (settle t) := (step_eq_runOne hend hreset hhalt hrun hint).trans (hone.trans hnext)
    have hsuper : t.isSuper = true := by
      rw [State.isSuper, ht.sys]
      exact newSys_super e _
    exact ⟨settle t, hstep, hsuper, ht.usp, ht.d, ht.a, ht.ccr, ht.tracing.trans (if_pos hnotrace), ht.pc,
      fun hw hb => ⟨(ht.framePc hw hb).trans (hpc _), ht.frameSr hw hb⟩⟩

end Sys2Proof.Machine
end

section
/-! SUPPORT. The fields of a word put together from fields (30_encoding.md R93 to R100, 40_addressing_modes.md R149, R150). -/

namespace Sys2Proof

/-! ## The operation word -/

section
variable (line : BitVec 4) (x p m r : BitVec 3)

@[simp] theorem opLine_mkOp : opLine (mkOp line x p m r) = line := by
  grind [opLine, mkOp]

@[simp] theorem opX_mkOp : opX (mkOp line x p m r) = x := by
  grind [opX, mkOp]

@[simp] theorem opP_mkOp : opP (mkOp line x p m r) = p := by
  grind [opP, mkOp]

@[simp] theorem opM_mkOp : opM (mkOp line x p m r) = m := by
  grind [opM, mkOp]

@[simp] theorem opR_mkOp : opR (mkOp line x p m r) = r := by
  grind [opR, mkOp]

theorem decodeOp_mkOp (cpu : Cpu) : decodeOp cpu (mkOp line x p m r) = decodeFields cpu line x p m r := by
  rw [decodeOp, opLine_mkOp, opX_mkOp, opP_mkOp, opM_mkOp, opR_mkOp]

end

/-- The condition field stands in bits 11–8 (R100). -/
theorem opCond_fields (w : Word16) : opCond (opX w) (opP w) = condOf (w.extractLsb' 8 4) := by
  refine congrArg condOf ?_
  grind [opX, opP]

/-- The byte field of MOVEQ and the branches is the low-order byte of the word (R98). -/
theorem opLow8_fields (w : Word16) : opLow8 (opP w) (opM w) (opR w) = w.extractLsb' 0 8 := by
  grind [opLow8, low2, opP, opM, opR]

@[simp] theorem condOf_condBits (c : Cond) : condOf (condBits c) = c := by cases c <;> rfl

@[simp] theorem regOf_regBits (n : RegNum) : regOf (regBits n) = n := rfl

@[simp] theorem top1_pBits (t : Bool) (b : BitVec 2) : top1 (pBits t b) = t := by
  cases t <;> grind [top1, pBits]

@[simp] theorem low2_pBits (t : Bool) (b : BitVec 2) : low2 (pBits t b) = b := BitVec.extractLsb'_append_eq_right

@[simp] theorem sizeOf_sizeBits (sz : Size) : sizeOf (sizeBits sz) = some sz := by cases sz <;> rfl

theorem low2_dirBits (dir : Dir) (sz : Size) : low2 (dirBits dir sz) = sizeBits sz := low2_pBits _ _

@[simp] theorem dirOf_dirBits (dir : Dir) (sz : Size) : dirOf (dirBits dir sz) = dir := by
  cases dir <;> simp [dirOf, dirBits]

@[simp] theorem countOf_fields (cnt : ShiftCount) (type : BitVec 2) :
    countOf (countBits cnt) (pBits (countIsReg cnt) type) = cnt := by
  cases cnt <;> simp [countOf, countBits, countIsReg]

/-! ## Immediate data and extension words -/

@[simp] theorem lowByte_byteWord (v : Byte) : lowByte (byteWord v) = v := BitVec.extractLsb'_append_eq_right

theorem joinWords_splitLong (v : Word) : joinWords (v.extractLsb' 16 16) (v.extractLsb' 0 16) = v :=
  (BitVec.extractLsb'_append_extractLsb'_eq_extractLsb' rfl).trans BitVec.extractLsb'_eq_self

section
variable (x : IndexSpec)

theorem indexBits_isAddr : (indexBits x).getLsbD 6 = x.isAddr := by
  simp only [indexBits, BitVec.getLsbD_append]
  simp

theorem indexBits_reg : (indexBits x).extractLsb' 3 3 = regBits x.reg := by grind [indexBits]

theorem indexBits_long : (indexBits x).getLsbD 2 = x.long := by
  simp only [indexBits, BitVec.getLsbD_append]
  simp

theorem indexBits_scale : (indexBits x).extractLsb' 0 2 = x.scale := BitVec.extractLsb'_append_eq_right

end

/-- The index fields are bits 15–9 of the extension word (R149). -/
theorem indexOf_of_bits {cpu : Cpu} {x : IndexSpec} {w : Word16} (hw : w.extractLsb' 9 7 = indexBits x)
    (hx : x.wf cpu = true) : indexOf cpu w = x := by
  have haddr : w.getLsbD 15 = (w.extractLsb' 9 7).getLsbD 6 := by simp
  have hlong : w.getLsbD 11 = (w.extractLsb' 9 7).getLsbD 2 := by simp
  have hreg : w.extractLsb' 12 3 = (w.extractLsb' 9 7).extractLsb' 3 3 := by grind
  have hscale : w.extractLsb' 9 2 = (w.extractLsb' 9 7).extractLsb' 0 2 := by grind
  have hmember : (if cpu.hasFullExt then x.scale else 0#2) = x.scale := by
    by_cases hf : cpu.hasFullExt = true
    · rw [if_pos hf]
    · have hzero : x.scale = 0#2 := by simpa [IndexSpec.wf, hf] using hx
      rw [hzero, ite_self]
  rw [indexOf, haddr, hlong, hreg, hscale, hw, indexBits_isAddr, indexBits_reg, indexBits_long, indexBits_scale, hmember,
    regOf_regBits]

theorem indexOf_briefWord {cpu : Cpu} {x : IndexSpec} (d : Byte) (hx : x.wf cpu = true) :
    indexOf cpu (briefWord x d) = x :=
  indexOf_of_bits (by grind [briefWord]) hx

@[simp] theorem lowByte_briefWord (x : IndexSpec) (d : Byte) : lowByte (briefWord x d) = d :=
  BitVec.extractLsb'_append_eq_right

/-- Bit 8 tells a brief extension word from a full one (R149, R150). -/
theorem briefWord_bit8 (x : IndexSpec) (d : Byte) : (briefWord x d).getLsbD 8 = false := by
  grind [briefWord]

/-- The full extension word itself, without its displacements (R150). -/
def fullWord (e : FullExt) : Word16 :=
  indexBits e.index ++ 1#1 ++ BitVec.ofBool e.baseSuppress ++ BitVec.ofBool e.indexSuppress ++ displBits e.bd ++ 0#1 ++
    indirectBits e.indirect

theorem fullWords_eq (e : FullExt) : fullWords e = fullWord e :: (displWords e.bd ++ indirectWords e.indirect) := rfl

theorem indexOf_fullWord {cpu : Cpu} {e : FullExt} (hx : e.index.wf cpu = true) :
    indexOf cpu (fullWord e) = e.index :=
  indexOf_of_bits (by grind [fullWord]) hx

section
variable (e : FullExt)

theorem fullWord_bit8 : (fullWord e).getLsbD 8 = true := by
  simp only [fullWord, BitVec.getLsbD_append]
  simp

theorem fullWord_baseSuppress : (fullWord e).getLsbD 7 = e.baseSuppress := by
  simp only [fullWord, BitVec.getLsbD_append]
  simp

theorem fullWord_indexSuppress : (fullWord e).getLsbD 6 = e.indexSuppress := by
  simp only [fullWord, BitVec.getLsbD_append]
  simp

theorem fullWord_displBits : (fullWord e).extractLsb' 4 2 = displBits e.bd := by
  grind [fullWord]

theorem fullWord_indirectBits : (fullWord e).extractLsb' 0 3 = indirectBits e.indirect :=
  BitVec.extractLsb'_append_eq_right

end

end Sys2Proof
end

section
/-! SUPPORT. A decoder run on the words of what it decodes: immediate data, effective addresses, branch displacements, and the
shapes of instruction the lines of R105 are made of (30_encoding.md R92, R97, R99; 40_addressing_modes.md R149 to R156). -/

namespace Sys2Proof

section
variable {α : Type} {cpu : Cpu} {sz : Size} {rest : List Word16}

/-! ## Running a decoder -/

@[simp] theorem Dec.run_done (a : α) (ws : List Word16) : (Dec.done a).run ws = .done a ws := rfl

@[simp] theorem Dec.run_need (k : Word16 → Dec α) (w : Word16) (ws : List Word16) :
    (Dec.need k).run (w :: ws) = (k w).run ws := rfl

/-- Privilege is no matter of decoding: the mark changes no answer (47_system_control.md R377). -/
@[simp] theorem Dec.run_markPrivileged (d : Dec Instr) (ws : List Word16) : d.markPrivileged.run ws = d.run ws := by
  cases d <;> rfl

theorem Dec.run_andThen {β : Type} {d : Dec α} {f : α → Dec β} {ws rest : List Word16} {a : α}
    (h : d.run ws = .done a rest) : (d.andThen f).run ws = (f a).run rest := by
  induction d generalizing ws with
  | done b =>
    obtain ⟨rfl, rfl⟩ := (DecodeResult.done.injEq ..).mp h
    rfl
  | need k ih =>
    cases ws with
    | nil => exact nomatch h
    | cons w ws => exact ih w h
  | privileged d ih => exact ih h
  | reject r => exact nomatch h

/-! ## Immediate data and displacements -/

theorem immFits_iff {v : Word} : immFits sz v = true ↔ v.toNat < 2 ^ sz.bits := decide_eq_true_iff

/-- Immediate data that fits its size is read back from its words (R97). -/
theorem immOf_run {v : Word} (hv : immFits sz v = true) (k : Word → Dec α) :
    (immOf sz k).run (immWords sz v ++ rest) = (k v).run rest := by
  have hfit : v.toNat < 2 ^ sz.bits := immFits_iff.mp hv
  cases sz with
  | b =>
    have hbyte : (v.setWidth 8).setWidth 32 = v := by
      apply BitVec.eq_of_toNat_eq
      simp only [Size.bits] at hfit
      simp only [BitVec.toNat_setWidth]
      omega
    simp [immOf, immWords, hbyte]
  | w =>
    have hword : (v.extractLsb' 0 16).setWidth 32 = v := by
      apply BitVec.eq_of_toNat_eq
      simp only [Size.bits] at hfit
      simp only [BitVec.toNat_setWidth, BitVec.extractLsb'_toNat, Nat.shiftRight_zero]
      omega
    simp only [immOf, immWords, List.cons_append, List.nil_append, Dec.run_need, hword]
  | l => simp only [immOf, immWords, splitLong, List.cons_append, List.nil_append, Dec.run_need, joinWords_splitLong]

theorem displOf_run (bd : Displ) (k : Displ → Dec Ea) :
    (displOf (displBits bd) k).run (displWords bd ++ rest) = (k bd).run rest := by
  cases bd with
  | null => rfl
  | word d => rfl
  | long d => exact congrArg (fun v => (k (.long v)).run rest) (joinWords_splitLong d)

/-- The I/IS field and the outer displacement give the indirect action back, where the member has it (R151, R153). -/
theorem indirectOf_run {e : FullExt} (he : e.wf cpu = true) (k : Indirect → Dec Ea) :
    (indirectOf cpu e.indexSuppress (indirectBits e.indirect) k).run (indirectWords e.indirect ++ rest) =
      (k e.indirect).run rest := by
  obtain ⟨ix, bs, is, bd, ind⟩ := e
  cases ind with
  | none => rfl
  | pre od =>
    have hm : cpu.hasMemIndirect = true := he
    have hsel : indirectOf cpu is (indirectBits (.pre od)) k = displOf (displBits od) fun od => k (.pre od) := by
      cases od <;> simp [indirectOf, indirectBits, displBits, top1, low2, hm]
    rw [hsel]
    exact displOf_run od _
  | post od =>
    obtain ⟨hm, his⟩ : cpu.hasMemIndirect = true ∧ is = false := by simpa [FullExt.wf] using he
    have hsel : indirectOf cpu is (indirectBits (.post od)) k = displOf (displBits od) fun od => k (.post od) := by
      cases od <;> simp [indirectOf, indirectBits, displBits, top1, low2, hm, his]
    rw [hsel]
    exact displOf_run od _

theorem Cpu.hasFullExt_of_memIndirect (h : cpu.hasMemIndirect = true) : cpu.hasFullExt = true :=
  Bool.or_eq_true_iff.mpr (.inl h)

theorem FullExt.hasFullExt_of_wf {e : FullExt} (he : e.wf cpu = true) : cpu.hasFullExt = true := by
  obtain ⟨ix, bs, is, bd, ind⟩ := e
  cases ind with
  | none => exact he
  | pre od => exact Cpu.hasFullExt_of_memIndirect he
  | post od => exact Cpu.hasFullExt_of_memIndirect (Bool.and_eq_true _ _ ▸ he).1

/-- A full extension word and its displacements give the operand back (R150). -/
theorem fullOf_run {e : FullExt} (he : e.wf cpu = true) (k : FullExt → Ea) :
    (fullOf cpu (fullWord e) k).run (displWords e.bd ++ indirectWords e.indirect ++ rest) = .done (k e) rest := by
  have hx : e.index.wf cpu = true := by rw [IndexSpec.wf, FullExt.hasFullExt_of_wf he, Bool.true_or]
  simp only [fullOf, fullWord_displBits, fullWord_indirectBits, fullWord_baseSuppress, fullWord_indexSuppress,
    indexOf_fullWord hx, List.append_assoc]
  rw [displOf_run, indirectOf_run he]
  rfl

/-! ## Effective addresses -/

/-- An operand with an index: a brief extension word, or where the member has it and bit 8 says so a full one (R149, R150). -/
def indexedOf (cpu : Cpu) (brief : IndexSpec → Byte → Ea) (full : FullExt → Ea) : Dec Ea :=
  .need fun w => if w.getLsbD 8 && cpu.hasFullExt then fullOf cpu w full else .done (brief (indexOf cpu w) (lowByte w))

theorem eaOf_index (r : BitVec 3) : eaOf cpu .index r sz = indexedOf cpu (.index (regOf r)) (.full (regOf r)) := rfl

theorem eaOf_pcIndex (r : BitVec 3) : eaOf cpu .pcIndex r sz = indexedOf cpu .pcIndex .pcFull := rfl

theorem indexedOf_run_brief {x : IndexSpec} (d : Byte) (hx : x.wf cpu = true) (brief : IndexSpec → Byte → Ea)
    (full : FullExt → Ea) : (indexedOf cpu brief full).run (briefWord x d :: rest) = .done (brief x d) rest := by
  rw [indexedOf, Dec.run_need, briefWord_bit8, indexOf_briefWord d hx, lowByte_briefWord]
  rfl

theorem indexedOf_run_full {e : FullExt} (he : e.wf cpu = true) (brief : IndexSpec → Byte → Ea) (full : FullExt → Ea) :
    (indexedOf cpu brief full).run (fullWords e ++ rest) = .done (full e) rest := by
  rw [fullWords_eq, List.cons_append, indexedOf, Dec.run_need, fullWord_bit8, FullExt.hasFullExt_of_wf he]
  exact fullOf_run he full

@[simp] theorem eaKind_fields (ea : Ea) : eaKind (eaMode ea) (eaReg ea) = some ea.kind := by cases ea <;> rfl

/-- An operand is read back from its fields and its extension words (R155, R156). -/
theorem eaOf_run {ea : Ea} (h : ea.wf cpu sz = true) :
    (eaOf cpu ea.kind (eaReg ea) sz).run (eaWords sz ea ++ rest) = .done ea rest := by
  cases ea with
  | dn | an | ind | postInc | preDec | disp | absShort | pcDisp => rfl
  | index n x d => exact indexedOf_run_brief d h _ _
  | pcIndex x d => exact indexedOf_run_brief d h _ _
  | full n e => exact indexedOf_run_full h (fun x d => .index n x d) (fun e => .full n e)
  | pcFull e => exact indexedOf_run_full h (fun x d => .pcIndex x d) (fun e => .pcFull e)
  | absLong a => exact congrArg (DecodeResult.done · rest) (congrArg Ea.absLong (joinWords_splitLong a))
  | imm v => exact immOf_run h fun v => .done (Ea.imm v)

theorem Ea.ok_iff {legal : EaKind → Bool} {ea : Ea} :
    ea.ok cpu sz legal = true ↔ legal ea.kind = true ∧ ea.wf cpu sz = true := by simp [Ea.ok]

/-! ## The shapes of R105's lines -/

section
variable {ea : Ea} {legal : EaKind → Bool}

theorem withEa_run (h : ea.ok cpu sz legal = true) (k : Ea → Dec Instr) :
    (withEa cpu (eaMode ea) (eaReg ea) sz legal k).run (eaWords sz ea ++ rest) = (k ea).run rest := by
  obtain ⟨hlegal, hwf⟩ := Ea.ok_iff.mp h
  simp only [withEa, eaKind_fields, hlegal, if_true]
  exact Dec.run_andThen (eaOf_run hwf)

theorem eaOnly_run (h : ea.ok cpu sz legal = true) (k : Ea → Instr) :
    (eaOnly cpu (eaMode ea) (eaReg ea) sz legal k).run (eaWords sz ea ++ rest) = .done (k ea) rest :=
  withEa_run h _

theorem immEa_run {v : Word} (hv : immFits sz v = true) (h : ea.ok cpu sz legal = true) (k : Word → Ea → Instr) :
    (immEa cpu (eaMode ea) (eaReg ea) sz legal k).run (immWords sz v ++ eaWords sz ea ++ rest) =
      .done (k v ea) rest := by
  obtain ⟨hlegal, hwf⟩ := Ea.ok_iff.mp h
  simp only [immEa, eaKind_fields, hlegal, if_true, List.append_assoc, immOf_run hv]
  exact Dec.run_andThen (eaOf_run hwf)

theorem wordEa_run {w : Word16} (h : ea.ok cpu sz legal = true) (k : Word16 → Ea → Instr) :
    (wordEa cpu (eaMode ea) (eaReg ea) sz legal k).run (w :: (eaWords sz ea ++ rest)) = .done (k w ea) rest := by
  obtain ⟨hlegal, hwf⟩ := Ea.ok_iff.mp h
  simp only [wordEa, eaKind_fields, hlegal, if_true, Dec.run_need]
  exact Dec.run_andThen (eaOf_run hwf)

/-- MOVE: the words of the source, then those of the destination (R92). -/
theorem decodeMove_run {src dst : Ea} (hs : src.ok cpu sz (EaKind.anySource sz) = true)
    (hd : dst.ok cpu sz EaKind.dataAlterable = true) (k : Ea → Ea → Instr) :
    (decodeMove cpu sz (eaReg dst) (eaMode dst) (eaMode src) (eaReg src) k).run
      (eaWords sz src ++ eaWords sz dst ++ rest) = .done (k src dst) rest := by
  obtain ⟨hlegal, hwf⟩ := Ea.ok_iff.mp hd
  simp only [decodeMove, eaKind_fields, hlegal, if_true, List.append_assoc, withEa_run hs]
  exact Dec.run_andThen (eaOf_run hwf)

end

theorem branchOf_run {d : BranchDisp} (h : d.wf cpu = true) (k : BranchDisp → Instr) :
    (branchOf cpu (branchField d) k).run (branchWords d ++ rest) = .done (k d) rest := by
  cases d with
  | short d =>
    obtain ⟨hzero, hones⟩ : d ≠ 0#8 ∧ (d ≠ 0xFF#8 ∨ cpu.hasBccLong = false) := by simpa [BranchDisp.wf] using h
    have hlong : (d == 0xFF#8 && cpu.hasBccLong) = false := by
      rw [Bool.and_eq_false_iff, beq_eq_false_iff_ne]
      exact hones
    simp [branchOf, branchField, branchWords, hzero, hlong]
  | word d => rfl
  | long d =>
    have hlong : cpu.hasBccLong = true := h
    simp [branchOf, branchField, branchWords, splitLong, hlong, joinWords_splitLong]

end

end Sys2Proof
end

section
/-! SUPPORT. The lines of R105 on the words an instruction is encoded into (30_encoding.md R104, R105). -/

namespace Sys2Proof

/-! ## What the fields of an operand tell -/

section
variable (ea : Ea)

theorem eaMode_eq_dn : (eaMode ea == 0#3) = (ea.kind == .dn) := by cases ea <;> rfl

theorem eaMode_eq_an : (eaMode ea == 1#3) = (ea.kind == .an) := by cases ea <;> rfl

theorem fields_eq_imm : (eaMode ea == 7#3 && eaReg ea == 4#3) = (ea.kind == .imm) := by cases ea <;> rfl

theorem fields_eq_not_alterable :
    (eaMode ea == 7#3 && (eaReg ea == 2#3 || eaReg ea == 3#3 || eaReg ea == 4#3)) = !ea.kind.isAlterable := by
  cases ea <;> rfl

end

section
variable {cpu : Cpu} {sz : Size} {ea : Ea}

theorem mode_ne_an_of_data (h : ea.ok cpu sz EaKind.isData = true) : ¬(eaMode ea == 1#3) = true := by
  rw [eaMode_eq_an]
  revert h
  cases ea <;> simp [Ea.ok, Ea.kind, EaKind.isData]

theorem data_of_dataAlterable (h : ea.ok cpu sz EaKind.dataAlterable = true) : ea.ok cpu sz EaKind.isData = true := by
  obtain ⟨hlegal, hwf⟩ := Ea.ok_iff.mp h
  exact Ea.ok_iff.mpr ⟨(Bool.and_eq_true_iff.mp hlegal).1, hwf⟩

theorem mode_ne_an (h : ea.ok cpu sz EaKind.dataAlterable = true) : ¬(eaMode ea == 1#3) = true :=
  mode_ne_an_of_data (data_of_dataAlterable h)

theorem fields_alterable (h : ea.ok cpu sz EaKind.dataAlterable = true) :
    ¬(eaMode ea == 7#3 && (eaReg ea == 2#3 || eaReg ea == 3#3 || eaReg ea == 4#3)) = true := by
  have halter : ea.kind.isAlterable = true := (Bool.and_eq_true_iff.mp (Ea.ok_iff.mp h).1).2
  rw [fields_eq_not_alterable, halter]
  exact nofun

theorem fields_ne_imm (h : ea.ok cpu sz EaKind.dataAlterable = true) :
    ¬(eaMode ea == 7#3 && eaReg ea == 4#3) = true := by
  rw [fields_eq_imm]
  revert h
  cases ea <;> simp [Ea.ok, Ea.kind, EaKind.dataAlterable, EaKind.isAlterable]

theorem fields_ne_imm_of_cmpi (h : ea.ok cpu sz (EaKind.cmpiOperand cpu) = true) :
    ¬(eaMode ea == 7#3 && eaReg ea == 4#3) = true := by
  rw [fields_eq_imm]
  revert h
  cases ea <;> simp [Ea.ok, Ea.kind, EaKind.cmpiOperand]

theorem mode_ne_reg_of_control (h : ea.ok cpu sz EaKind.isControl = true) :
    (eaMode ea == 0#3) = false ∧ (eaMode ea == 1#3) = false := by
  rw [eaMode_eq_dn, eaMode_eq_an]
  revert h
  cases ea <;> simp [Ea.ok, Ea.kind, EaKind.isControl]

theorem mode_ne_dn_of_movemDest (h : ea.ok cpu sz EaKind.movemDest = true) : ¬(eaMode ea == 0#3) = true := by
  rw [eaMode_eq_dn]
  revert h
  cases ea <;> simp [Ea.ok, Ea.kind, EaKind.movemDest, EaKind.isControl]

theorem mode_ne_reg_of_memAlterable (h : ea.kind.memAlterable = true) :
    (eaMode ea == 0#3) = false ∧ (eaMode ea == 1#3) = false := by
  rw [eaMode_eq_dn, eaMode_eq_an]
  revert h
  cases ea <;> simp [Ea.kind, EaKind.memAlterable, EaKind.isMemory]

/-- An operation on an operand in memory is none of the register forms of its line (R96). -/
theorem not_regForm {dir : Dir} (h : dir = .toEa → ea.kind.memAlterable = true) :
    ¬(top1 (dirBits dir sz) && (eaMode ea == 0#3 || eaMode ea == 1#3)) = true := by
  rw [dirBits, top1_pBits]
  cases dir with
  | toReg => exact nofun
  | toEa =>
    obtain ⟨hdn, han⟩ := mode_ne_reg_of_memAlterable (h rfl)
    rw [hdn, han]
    exact nofun

theorem memAlterable_of_addOperand {dir : Dir} (h : ea.ok cpu sz (EaKind.addOperand sz dir) = true)
    (hdir : dir = .toEa) : ea.kind.memAlterable = true := by
  subst hdir
  exact (Ea.ok_iff.mp h).1

theorem memAlterable_of_andOperand {dir : Dir} (h : ea.ok cpu sz (EaKind.andOperand dir) = true)
    (hdir : dir = .toEa) : ea.kind.memAlterable = true := by
  subst hdir
  exact (Ea.ok_iff.mp h).1

end

/-! ## From the operation word to its line -/

section
variable {cpu : Cpu} {sz : Size} {ea : Ea} {legal : EaKind → Bool} {line : BitVec 4} {x p m r : BitVec 3}
  {ws rest : List Word16}

theorem decode_mkOp : decode cpu (mkOp line x p m r :: ws) = (decodeFields cpu line x p m r).run ws := by
  rw [decode, Dec.run_need, decodeOp_mkOp]

/-- An instruction that is its operation word and one operand. -/
theorem decode_eaOnly {k : Ea → Instr} (h : ea.ok cpu sz legal = true)
    (hd : decodeFields cpu line x p (eaMode ea) (eaReg ea) = eaOnly cpu (eaMode ea) (eaReg ea) sz legal k) :
    decode cpu (opEa line x p ea :: eaWords sz ea ++ rest) = .done (k ea) rest := by
  rw [List.cons_append, opEa, decode_mkOp, hd, eaOnly_run h]

/-- An operation word, immediate data and an operand. -/
theorem decode_immEa {k : Word → Ea → Instr} {v : Word} (h : (immFits sz v && ea.ok cpu sz legal) = true)
    (hd : ea.ok cpu sz legal = true →
      decodeFields cpu line x p (eaMode ea) (eaReg ea) = immEa cpu (eaMode ea) (eaReg ea) sz legal k) :
    decode cpu (opEa line x p ea :: (immWords sz v ++ eaWords sz ea) ++ rest) = .done (k v ea) rest := by
  obtain ⟨hv, hok⟩ := Bool.and_eq_true_iff.mp h
  rw [List.cons_append, opEa, decode_mkOp, hd hok, immEa_run hv hok]

/-- An operation word, one word of its own and an operand. -/
theorem decode_wordEa {k : Word16 → Ea → Instr} {w : Word16} (h : ea.ok cpu sz legal = true)
    (hd : decodeFields cpu line x p (eaMode ea) (eaReg ea) = wordEa cpu (eaMode ea) (eaReg ea) sz legal k) :
    decode cpu (opEa line x p ea :: w :: eaWords sz ea ++ rest) = .done (k w ea) rest := by
  rw [List.cons_append, opEa, decode_mkOp, hd, List.cons_append, wordEa_run h]

/-- A static bit number stands in the low-order byte of its word (R97). -/
theorem decode_bitImm {k : Byte → Ea → Instr} {b : Byte} (h : ea.ok cpu sz legal = true)
    (hd : decodeFields cpu line x p (eaMode ea) (eaReg ea) =
      wordEa cpu (eaMode ea) (eaReg ea) sz legal fun w => k (lowByte w)) :
    decode cpu (opEa line x p ea :: byteWord b :: eaWords sz ea ++ rest) = .done (k b ea) rest := by
  rw [decode_wordEa h hd, lowByte_byteWord]

theorem decode_move {src dst : Ea} {k : Ea → Ea → Instr}
    (h : (src.ok cpu sz (EaKind.anySource sz) && dst.ok cpu sz EaKind.dataAlterable) = true)
    (hd : dst.ok cpu sz EaKind.dataAlterable = true →
      decodeFields cpu line (eaReg dst) (eaMode dst) (eaMode src) (eaReg src) =
        decodeMove cpu sz (eaReg dst) (eaMode dst) (eaMode src) (eaReg src) k) :
    decode cpu (opEa line (eaReg dst) (eaMode dst) src :: (eaWords sz src ++ eaWords sz dst) ++ rest) =
      .done (k src dst) rest := by
  obtain ⟨hs, hdst⟩ := Bool.and_eq_true_iff.mp h
  rw [List.cons_append, opEa, decode_mkOp, hd hdst, decodeMove_run hs hdst]

end

/-! ## Single lines -/

section
variable {cpu : Cpu} {sz : Size} {ea : Ea} {rest : List Word16}

theorem decode_moveFromSr (h : ea.ok cpu .w EaKind.dataAlterable = true) :
    decode cpu (opEa 4#4 0#3 3#3 ea :: eaWords .w ea ++ rest) = .done (.moveFromSr ea) rest := by
  have hrun (d : Dec Instr) : (if cpu.moveFromSrPrivileged then d.markPrivileged else d).run (eaWords .w ea ++ rest) =
      d.run (eaWords .w ea ++ rest) := by
    split
    · exact Dec.run_markPrivileged d _
    · rfl
  rw [List.cons_append, opEa, decode_mkOp]
  exact (hrun _).trans (eaOnly_run h _)

theorem decode_moveToSr (h : ea.ok cpu .w EaKind.isData = true) :
    decode cpu (opEa 4#4 3#3 3#3 ea :: eaWords .w ea ++ rest) = .done (.moveToSr ea) rest := by
  rw [List.cons_append, opEa, decode_mkOp]
  exact (Dec.run_markPrivileged _ _).trans (eaOnly_run h _)

theorem decode_chk {r : RegNum} {b : ChkBound} (h : ((!b.long || cpu.hasFullExt) && b.ea.ok cpu b.size EaKind.isData) = true) :
    decode cpu (opEa 4#4 (regBits r) (if b.long then 4#3 else 6#3) b.ea :: eaWords b.size b.ea ++ rest) =
      .done (.chk r b) rest := by
  obtain ⟨hmember, hok⟩ := Bool.and_eq_true_iff.mp h
  obtain ⟨long, ea⟩ := b
  cases long with
  | false => exact decode_eaOnly (sz := .w) (k := fun ea => .chk r ⟨false, ea⟩) hok rfl
  | true => exact decode_eaOnly (sz := .l) (k := fun ea => .chk r ⟨true, ea⟩) hok (if_pos hmember)

/-- TRAP's vector is bits 3–0, of which bit 3 stands in the mode field. -/
theorem decode_trap (v : BitVec 4) : decode cpu ((0x4E4#12 ++ v : BitVec 16) :: rest) = .done (.trap v) rest := by
  have hop : (0x4E4#12 ++ v : BitVec 16) = mkOp 4#4 7#3 1#3 (0#2 ++ v.extractLsb' 3 1 : BitVec 3) (v.extractLsb' 0 3) := by
    grind [mkOp]
  have hv : ((0#2 ++ v.extractLsb' 3 1 : BitVec 3).extractLsb' 0 1 ++ v.extractLsb' 0 3 : BitVec 4) = v := by grind
  have hmisc : decodeMisc cpu (0#2 ++ v.extractLsb' 3 1 : BitVec 3) (v.extractLsb' 0 3) = .done (.trap v) := by
    refine Eq.trans ?_ (congrArg (fun v => Dec.done (Instr.trap v)) hv)
    obtain hb | hb := BitVec.eq_zero_or_eq_one (v.extractLsb' 3 1) <;> rw [hb] <;> rfl
  rw [hop, decode_mkOp]
  exact congrArg (Dec.run · rest) hmisc

/-- The upper three bits of a condition: bits 11–9 of DBcc and Scc (R100). -/
def condX (c : Cond) : BitVec 3 := (condBits c).extractLsb' 1 3

/-- Bits 8–6 of DBcc and Scc: the last bit of the condition, and `11` in the place of a size. -/
def condP (c : Cond) : BitVec 3 := (condBits c).extractLsb' 0 1 ++ 3#2

theorem condOp_eq_mkOp (c : Cond) (m r : BitVec 3) :
    (5#4 ++ condBits c ++ 3#2 ++ m ++ r : BitVec 16) = mkOp 5#4 (condX c) (condP c) m r := by
  cases c <;> rfl

theorem opCond_condX (c : Cond) : opCond (condX c) (condP c) = c := by cases c <;> rfl

theorem sizeOf_condP (c : Cond) : sizeOf (low2 (condP c)) = none := by cases c <;> rfl

theorem decode_dbcc (c : Cond) (r : RegNum) (d : Word16) :
    decode cpu ((5#4 ++ condBits c ++ 3#2 ++ 1#3 ++ regBits r : BitVec 16) :: d :: rest) = .done (.dbcc c r d) rest := by
  have hline : decodeLine5 cpu (condX c) (condP c) 1#3 (regBits r) = .need fun d => .done (.dbcc c r d) := by
    rw [decodeLine5, sizeOf_condP, opCond_condX]
    rfl
  rw [condOp_eq_mkOp, decode_mkOp]
  exact congrArg (Dec.run · (d :: rest)) hline

theorem decode_scc (c : Cond) (h : ea.ok cpu .b EaKind.dataAlterable = true) :
    decode cpu ((5#4 ++ condBits c ++ 3#2 ++ eaMode ea ++ eaReg ea : BitVec 16) :: eaWords .b ea ++ rest) =
      .done (.scc c ea) rest := by
  have hline : decodeLine5 cpu (condX c) (condP c) (eaMode ea) (eaReg ea) =
      eaOnly cpu (eaMode ea) (eaReg ea) .b EaKind.dataAlterable (.scc c) := by
    rw [decodeLine5, sizeOf_condP, opCond_condX]
    exact (if_neg (mode_ne_an h)).trans (if_neg (fields_alterable h))
  rw [condOp_eq_mkOp]
  exact decode_eaOnly h hline

/-- The branch a condition selects (R99). -/
def branchInstr (c : Cond) (d : BranchDisp) : Instr :=
  match c with
  | .t => .bra d
  | .f => .bsr d
  | c => .bcc c d

theorem branchInstr_eq_bcc {c : Cond} {d : BranchDisp} (hc : (c != .t && c != .f) = true) : branchInstr c d = .bcc c d := by
  cases c with
  | t | f => exact nomatch hc
  | _ => rfl

theorem decode_branch (c : Cond) {d : BranchDisp} (h : d.wf cpu = true) :
    decode cpu (branchOp c d :: branchWords d ++ rest) = .done (branchInstr c d) rest := by
  have hline : opLine (branchOp c d) = 6#4 := by grind [opLine, branchOp]
  have hcond : (branchOp c d).extractLsb' 8 4 = condBits c := by grind [branchOp]
  have hfield : (branchOp c d).extractLsb' 0 8 = branchField d := BitVec.extractLsb'_append_eq_right
  have hop : decodeOp cpu (branchOp c d) = branchOf cpu (branchField d) (branchInstr c) := by
    rw [decodeOp, hline]
    change decodeLine6 _ _ _ _ _ = _
    rw [decodeLine6, opLow8_fields, opCond_fields, hfield, hcond, condOf_condBits]
    rfl
  rw [decode, List.cons_append, Dec.run_need, hop, branchOf_run h]

/-- The operation word of MOVEQ. -/
def moveqOp (r : RegNum) (v : Byte) : Word16 := 7#4 ++ regBits r ++ 0#1 ++ v

theorem decode_moveq (r : RegNum) (v : Byte) : decode cpu (moveqOp r v :: rest) = .done (.moveq r v) rest := by
  have hline : opLine (moveqOp r v) = 7#4 := by grind [opLine, moveqOp]
  have hreg : opX (moveqOp r v) = regBits r := by grind [opX, moveqOp]
  have hbit8 : top1 (opP (moveqOp r v)) = false := by
    simp only [top1, opP, moveqOp, BitVec.getLsbD_extractLsb', BitVec.getLsbD_append]
    simp
  have hlow : (moveqOp r v).extractLsb' 0 8 = v := BitVec.extractLsb'_append_eq_right
  have hop : decodeOp cpu (moveqOp r v) = .done (.moveq r v) := by
    rw [decodeOp, hline]
    change decodeLine7 _ _ _ _ = _
    rw [decodeLine7, hbit8, opLow8_fields, hlow, hreg]
    rfl
  rw [decode, Dec.run_need, hop, Dec.run_done]

end

section
variable {cpu : Cpu} {rest : List Word16}

/-- The register shift a type and a direction select (44_shift_rotate.md R280). -/
def shiftInstr (left : Bool) (type : BitVec 2) : ShiftCount → Size → RegNum → Instr :=
  match type.toNat, left with
  | 0, false => .asrReg
  | 0, true => .aslReg
  | 1, false => .lsrReg
  | 1, true => .lslReg
  | 2, false => .roxrReg
  | 2, true => .roxlReg
  | _, false => .rorReg
  | _, true => .rolReg

theorem decode_shift (left : Bool) (type : BitVec 2) (cnt : ShiftCount) (sz : Size) (r : RegNum) :
    decode cpu (shiftOp left type cnt sz r :: rest) = .done (shiftInstr left type cnt sz r) rest := by
  have hline : decodeLineE cpu (countBits cnt) (pBits left (sizeBits sz)) (pBits (countIsReg cnt) type) (regBits r) =
      .done (shiftInstr left type cnt sz r) := by
    simp only [decodeLineE, low2_pBits, top1_pBits, sizeOf_sizeBits, countOf_fields, regOf_regBits, shiftInstr]
    generalize type.toNat = n
    match n, left with
    | 0, false | 0, true | 1, false | 1, true | 2, false | 2, true | _ + 3, false | _ + 3, true => rfl
  rw [shiftOp, decode_mkOp]
  exact congrArg (Dec.run · rest) hline

end

/-! ## Operations with a direction -/

section
variable {cpu : Cpu} {r : RegNum} {sz : Size} {dir : Dir} {ea : Ea}

theorem decodeLine8_or (h : ea.ok cpu sz (EaKind.andOperand dir) = true) :
    decodeLine8 cpu (regBits r) (dirBits dir sz) (eaMode ea) (eaReg ea) =
      eaOnly cpu (eaMode ea) (eaReg ea) sz (EaKind.andOperand dir) (.or r sz dir) := by
  rw [decodeLine8, low2_dirBits, sizeOf_sizeBits]
  simp only [not_regForm (memAlterable_of_andOperand h), dirOf_dirBits, regOf_regBits]
  rfl

theorem decodeLine9_sub (h : ea.ok cpu sz (EaKind.addOperand sz dir) = true) :
    decodeLine9 cpu (regBits r) (dirBits dir sz) (eaMode ea) (eaReg ea) =
      eaOnly cpu (eaMode ea) (eaReg ea) sz (EaKind.addOperand sz dir) (.sub r sz dir) := by
  rw [decodeLine9, low2_dirBits, sizeOf_sizeBits]
  simp only [not_regForm (memAlterable_of_addOperand h), dirOf_dirBits, regOf_regBits]
  rfl

theorem decodeLineD_add (h : ea.ok cpu sz (EaKind.addOperand sz dir) = true) :
    decodeLineD cpu (regBits r) (dirBits dir sz) (eaMode ea) (eaReg ea) =
      eaOnly cpu (eaMode ea) (eaReg ea) sz (EaKind.addOperand sz dir) (.add r sz dir) := by
  rw [decodeLineD, low2_dirBits, sizeOf_sizeBits]
  simp only [not_regForm (memAlterable_of_addOperand h), dirOf_dirBits, regOf_regBits]
  rfl

theorem decodeLineC_and (h : ea.ok cpu sz (EaKind.andOperand dir) = true) :
    decodeLineC cpu (regBits r) (dirBits dir sz) (eaMode ea) (eaReg ea) =
      eaOnly cpu (eaMode ea) (eaReg ea) sz (EaKind.andOperand dir) (.and r sz dir) := by
  cases dir with
  | toReg => cases sz <;> rfl
  | toEa =>
    obtain ⟨hdn, han⟩ := mode_ne_reg_of_memAlterable (memAlterable_of_andOperand h rfl)
    rw [decodeLineC, low2_dirBits, sizeOf_sizeBits, hdn, han]
    simp only [Bool.or_self, Bool.and_false, Bool.false_eq_true, if_false, dirOf_dirBits, regOf_regBits]

end

/-! ## Every instruction -/

/-- The decoder reads an instruction back from its words, whatever follows them. -/
theorem decode_encode {cpu : Cpu} {i : Instr} (h : i.wf cpu = true) (rest : List Word16) :
    decode cpu (encode i ++ rest) = .done i rest := by
  cases i with
  | oriCcr v | andiCcr v | eoriCcr v => exact congrArg (DecodeResult.done · rest) (congrArg _ (lowByte_byteWord v))
  | oriSr | andiSr | eoriSr | illegal | reset | nop | rte | rts | trapv | rtr | stop => rfl
  | movep dr toMem long ar d => exact decode_mkOp.trans (by cases toMem <;> cases long <;> rfl)
  | btstDyn n ea => exact decode_eaOnly h (if_neg (mode_ne_an_of_data h))
  | bchgDyn n ea | bclrDyn n ea | bsetDyn n ea => exact decode_eaOnly h (if_neg (mode_ne_an h))
  | btstImm b ea | bchgImm b ea | bclrImm b ea | bsetImm b ea => exact decode_bitImm h rfl
  | ori sz v ea | andi sz v ea | subi sz v ea | addi sz v ea | eori sz v ea =>
    exact decode_immEa h fun hok => by cases sz <;> exact if_neg (fields_ne_imm hok)
  | cmpi sz v ea => exact decode_immEa h fun hok => by cases sz <;> exact if_neg (fields_ne_imm_of_cmpi hok)
  | moveaL src r => exact decode_eaOnly (k := fun src => .moveaL src r) h rfl
  | moveaW src r => exact decode_eaOnly (k := fun src => .moveaW src r) h rfl
  | moveB src dst => exact decode_move h fun _ => rfl
  | moveL src dst | moveW src dst => exact decode_move h fun hdst => if_neg (mode_ne_an hdst)
  | trap v => exact decode_trap v
  | link | unlk => exact decode_mkOp
  | moveUsp toAn r => cases toAn <;> exact decode_mkOp
  | swap | extW | extL => exact decode_mkOp
  | jsr ea | jmp ea | moveToCcr ea | divu _ ea | divs _ ea | mulu _ ea | muls _ ea => exact decode_eaOnly h rfl
  | moveFromSr ea => exact decode_moveFromSr h
  | moveToSr ea => exact decode_moveToSr h
  | nbcd ea => exact decode_eaOnly h (if_neg (mode_ne_an h))
  | pea ea =>
    obtain ⟨hdn, han⟩ := mode_ne_reg_of_control h
    exact decode_eaOnly h ((if_neg (Bool.eq_false_iff.mp hdn)).trans (if_neg (Bool.eq_false_iff.mp han)))
  | tas ea => exact decode_eaOnly h (if_neg (fields_ne_imm h))
  | movemToMem long mask ea => exact decode_wordEa h (by cases long <;> exact if_neg (mode_ne_dn_of_movemDest h))
  | movemToReg long mask ea => exact decode_wordEa h (by cases long <;> rfl)
  | negx sz ea | clr sz ea | neg sz ea | not sz ea | tst sz ea | addq _ sz ea | subq _ sz ea | cmp _ sz ea =>
    exact decode_eaOnly h (by cases sz <;> rfl)
  | chk r b => exact decode_chk h
  | lea r ea =>
    obtain ⟨hdn, -⟩ := mode_ne_reg_of_control h
    exact decode_eaOnly h (if_neg (by simp [hdn]))
  | dbcc c r d => exact decode_dbcc c r d
  | scc c ea => exact decode_scc c h
  | bra d => exact decode_branch .t h
  | bsr d => exact decode_branch .f h
  | bcc c d =>
    obtain ⟨hc, hd⟩ := Bool.and_eq_true_iff.mp h
    exact (decode_branch c hd).trans (congrArg (DecodeResult.done · rest) (branchInstr_eq_bcc hc))
  | moveq r v => exact decode_moveq r v
  | sbcd rx mem ry | abcd rx mem ry => cases mem <;> exact decode_mkOp
  | subx rx sz mem ry | addx rx sz mem ry => cases mem <;> cases sz <;> exact decode_mkOp
  | cmpm ax sz ay => cases sz <;> exact decode_mkOp
  | exgDD | exgAA | exgDA => exact decode_mkOp
  | suba r long ea | cmpa r long ea | adda r long ea => exact decode_eaOnly h (by cases long <;> rfl)
  | eor r sz ea => exact decode_eaOnly h (by cases sz <;> exact if_neg (mode_ne_an h))
  | or r sz dir ea => exact decode_eaOnly h (decodeLine8_or h)
  | and r sz dir ea => exact decode_eaOnly h (decodeLineC_and h)
  | sub r sz dir ea => exact decode_eaOnly h (decodeLine9_sub h)
  | add r sz dir ea => exact decode_eaOnly h (decodeLineD_add h)
  | asrMem ea | aslMem ea | lsrMem ea | lslMem ea | roxrMem ea | roxlMem ea | rorMem ea | rolMem ea =>
    exact decode_eaOnly h rfl
  | asrReg cnt sz r => exact decode_shift false 0#2 cnt sz r
  | aslReg cnt sz r => exact decode_shift true 0#2 cnt sz r
  | lsrReg cnt sz r => exact decode_shift false 1#2 cnt sz r
  | lslReg cnt sz r => exact decode_shift true 1#2 cnt sz r
  | roxrReg cnt sz r => exact decode_shift false 2#2 cnt sz r
  | roxlReg cnt sz r => exact decode_shift true 2#2 cnt sz r
  | rorReg cnt sz r => exact decode_shift false 3#2 cnt sz r
  | rolReg cnt sz r => exact decode_shift true 3#2 cnt sz r

end Sys2Proof
end

section
/-! SUPPORT. What a decoder can answer, and after how many words (30_encoding.md R91, R118; 40_addressing_modes.md R155): the
predicate `Dec.Answers`, and what it gives for operands, for the shapes of instruction, and for each line of R105. -/

namespace Sys2Proof

section
variable {α β : Type} {cpu : Cpu} {sz : Size} {n : Nat}

/-- Every answer of `d`, run when `n` words have been read, meets `P` at the number of words read by then. -/
def Dec.Answers (P : α → Nat → Prop) : Nat → Dec α → Prop
  | n, .done a => P a n
  | n, .need k => ∀ w, (k w).Answers P (n + 1)
  | n, .privileged d => d.Answers P n
  | _, .reject _ => True

theorem Dec.Answers.run {P : α → Nat → Prop} {d : Dec α} {ws rest : List Word16} {a : α} (h : d.Answers P n)
    (hrun : d.run ws = .done a rest) : ∃ m, ws.length = m + rest.length ∧ P a (n + m) := by
  induction d generalizing n ws with
  | done b =>
    obtain ⟨rfl, rfl⟩ := (DecodeResult.done.injEq ..).mp hrun
    exact ⟨0, (Nat.zero_add _).symm, h⟩
  | need k ih =>
    cases ws with
    | nil => exact nomatch hrun
    | cons w ws =>
      obtain ⟨m, hlen, hP⟩ := ih w (h w) hrun
      refine ⟨m + 1, ?_, ?_⟩
      · rw [List.length_cons, hlen]
        omega
      · rwa [show n + (m + 1) = n + 1 + m by omega]
  | privileged d ih => exact ih h hrun
  | reject r => exact nomatch hrun

theorem Dec.Answers.andThen {P : α → Nat → Prop} {Q : β → Nat → Prop} {d : Dec α} {f : α → Dec β} (h : d.Answers P n)
    (hf : ∀ a m, P a m → (f a).Answers Q m) : (d.andThen f).Answers Q n := by
  induction d generalizing n with
  | done a => exact hf a n h
  | need k ih => exact fun w => ih w (h w)
  | privileged d ih => exact ih h
  | reject r => trivial

theorem Dec.Answers.markPrivileged {P : Instr → Nat → Prop} {d : Dec Instr} (h : d.Answers P n) :
    d.markPrivileged.Answers P n := by
  cases d <;> exact h

/-! ## Operands -/

/-- Immediate data fits its size and takes the words of its size (R97). -/
theorem immOf_answers {P : α → Nat → Prop} {k : Word → Dec α}
    (hk : ∀ v, immFits sz v = true → (k v).Answers P (n + sz.immLength)) : (immOf sz k).Answers P n := by
  cases sz with
  | b => exact fun w => hk _ (immFits_iff.mpr (by simp only [BitVec.toNat_setWidth, Size.bits]; omega))
  | w => exact fun w => hk _ (immFits_iff.mpr (by simp only [BitVec.toNat_setWidth, Size.bits]; omega))
  | l => exact fun hi lo => hk _ (immFits_iff.mpr (joinWords hi lo).isLt)

theorem displOf_answers {P : Ea → Nat → Prop} {sel : BitVec 2} {k : Displ → Dec Ea}
    (hk : ∀ bd, (k bd).Answers P (n + bd.length)) : (displOf sel k).Answers P n := by
  unfold displOf
  split
  · exact hk .null
  · exact fun w => hk (.word w)
  · exact fun hi lo => hk (.long (joinWords hi lo))
  · trivial

/-- Table 2-2: an indirect action that is accepted exists on the member (R151, R153). -/
theorem indirectOf_answers {P : Ea → Nat → Prop} {is : Bool} {iis : BitVec 3} {k : Indirect → Dec Ea}
    (hfull : cpu.hasFullExt = true)
    (hk : ∀ ind, (∀ ix bs bd, (FullExt.mk ix bs is bd ind).wf cpu = true) → (k ind).Answers P (n + ind.length)) :
    (indirectOf cpu is iis k).Answers P n := by
  unfold indirectOf
  split_ifs with hnone hmem hpre his
  · exact hk .none fun _ _ _ => hfull
  · trivial
  · exact displOf_answers fun od => hk (.pre od) fun _ _ _ => by simpa [FullExt.wf] using hmem
  · trivial
  · exact displOf_answers fun od => hk (.post od) fun _ _ _ => by simpa [FullExt.wf, his] using hmem

/-- `ea` is a well-formed operand of kind `k`, and its extension words end at word `m` when they begin at word `n`. -/
def OperandAt (cpu : Cpu) (sz : Size) (k : EaKind) (n : Nat) (ea : Ea) (m : Nat) : Prop :=
  ea.kind = k ∧ ea.wf cpu sz = true ∧ m = n + ea.length sz

theorem indexOf_wf (w : Word16) : (indexOf cpu w).wf cpu = true := by
  cases h : cpu.hasFullExt <;> simp [IndexSpec.wf, indexOf, h]

theorem indexedOf_answers {P : Ea → Nat → Prop} {brief : IndexSpec → Byte → Ea} {full : FullExt → Ea}
    (hbrief : ∀ x d, x.wf cpu = true → P (brief x d) (n + 1))
    (hfull : ∀ e : FullExt, e.wf cpu = true → P (full e) (n + 1 + e.bd.length + e.indirect.length)) :
    (indexedOf cpu brief full).Answers P n := by
  intro w
  dsimp only
  split
  next h =>
    exact displOf_answers fun bd => indirectOf_answers (Bool.and_eq_true_iff.mp h).2 fun _ hwf => hfull _ (hwf _ _ bd)
  next => exact hbrief _ _ (indexOf_wf w)

/-- An accepted operand is well formed and takes its own extension words (R155). -/
theorem eaOf_answers (k : EaKind) (r : BitVec 3) : (eaOf cpu k r sz).Answers (OperandAt cpu sz k n) n := by
  cases k with
  | dn | an | ind | postInc | preDec => exact ⟨rfl, rfl, rfl⟩
  | disp | absShort | pcDisp => exact fun _ => ⟨rfl, rfl, rfl⟩
  | absLong => exact fun _ _ => ⟨rfl, rfl, rfl⟩
  | index =>
    rw [eaOf_index]
    exact indexedOf_answers (fun _ _ hx => ⟨rfl, hx, rfl⟩) fun _ he => ⟨rfl, he, by simp only [Ea.length]; omega⟩
  | pcIndex =>
    rw [eaOf_pcIndex]
    exact indexedOf_answers (fun _ _ hx => ⟨rfl, hx, rfl⟩) fun _ he => ⟨rfl, he, by simp only [Ea.length]; omega⟩
  | imm => exact immOf_answers (k := fun v => .done (Ea.imm v)) fun _ hv => ⟨rfl, hv, rfl⟩

end

/-! ## The shapes of R105's lines -/

/-- After `n` words the answer is `i`: the member has it, and these are all its words (R91, R118). -/
def IsOwn (cpu : Cpu) (i : Instr) (n : Nat) : Prop := i.wf cpu = true ∧ n = i.words

section
variable {cpu : Cpu} {sz : Size} {n : Nat} {m r : BitVec 3} {legal : EaKind → Bool}

theorem eaOf_ok_answers {P : Instr → Nat → Prop} {kd : EaKind} {k : Ea → Dec Instr} (hlegal : legal kd = true)
    (hk : ∀ ea, ea.ok cpu sz legal = true → (k ea).Answers P (n + ea.length sz)) :
    ((eaOf cpu kd r sz).andThen k).Answers P n :=
  (eaOf_answers kd r).andThen fun ea _ ⟨hkind, hwf, hm⟩ => hm ▸ hk ea (Ea.ok_iff.mpr ⟨hkind ▸ hlegal, hwf⟩)

theorem withEa_answers {P : Instr → Nat → Prop} {k : Ea → Dec Instr}
    (hk : ∀ ea, ea.ok cpu sz legal = true → (k ea).Answers P (n + ea.length sz)) :
    (withEa cpu m r sz legal k).Answers P n := by
  unfold withEa
  split
  · trivial
  · split_ifs with hlegal
    · exact eaOf_ok_answers hlegal hk
    · trivial

theorem eaOnly_answers {k : Ea → Instr}
    (hk : ∀ ea, ea.ok cpu sz legal = true → IsOwn cpu (k ea) (1 + ea.length sz)) :
    (eaOnly cpu m r sz legal k).Answers (IsOwn cpu) 1 :=
  withEa_answers hk

theorem immEa_answers {k : Word → Ea → Instr}
    (hk : ∀ v ea, (immFits sz v && ea.ok cpu sz legal) = true →
      IsOwn cpu (k v ea) (1 + sz.immLength + ea.length sz)) :
    (immEa cpu m r sz legal k).Answers (IsOwn cpu) 1 := by
  unfold immEa
  split
  · trivial
  · split_ifs with hlegal
    · exact immOf_answers fun v hv => eaOf_ok_answers hlegal fun ea hok => hk v ea (Bool.and_eq_true_iff.mpr ⟨hv, hok⟩)
    · trivial

theorem wordEa_answers {k : Word16 → Ea → Instr}
    (hk : ∀ w ea, ea.ok cpu sz legal = true → IsOwn cpu (k w ea) (2 + ea.length sz)) :
    (wordEa cpu m r sz legal k).Answers (IsOwn cpu) 1 := by
  unfold wordEa
  split
  · trivial
  · split_ifs with hlegal
    · exact fun w => eaOf_ok_answers hlegal (hk w)
    · trivial

theorem decodeMove_answers {x p : BitVec 3} {k : Ea → Ea → Instr}
    (hk : ∀ src dst, (src.ok cpu sz (EaKind.anySource sz) && dst.ok cpu sz EaKind.dataAlterable) = true →
      IsOwn cpu (k src dst) (1 + src.length sz + dst.length sz)) :
    (decodeMove cpu sz x p m r k).Answers (IsOwn cpu) 1 := by
  unfold decodeMove
  split
  · trivial
  · split_ifs with hlegal
    · exact withEa_answers fun src hs => eaOf_ok_answers hlegal fun dst hd => hk src dst (Bool.and_eq_true_iff.mpr ⟨hs, hd⟩)
    · trivial

theorem branchOf_answers {b : Byte} {k : BranchDisp → Instr}
    (hk : ∀ d : BranchDisp, d.wf cpu = true → IsOwn cpu (k d) (1 + d.length)) :
    (branchOf cpu b k).Answers (IsOwn cpu) 1 := by
  unfold branchOf
  split_ifs with hzero hones
  · exact fun w => hk (.word w) rfl
  · exact fun hi lo => hk (.long (joinWords hi lo)) (Bool.and_eq_true_iff.mp hones).2
  · have hwf : (BranchDisp.short b).wf cpu = true := by
      simp only [BranchDisp.wf, bne, hzero, ← Bool.not_and, hones]
      rfl
    exact hk (.short b) hwf

end

/-! ## The lines of R105 -/

section
variable (cpu : Cpu) (x p m r : BitVec 3)

theorem decodeLine0_answers : (decodeLine0 cpu x p m r).Answers (IsOwn cpu) 1 := by
  unfold decodeLine0
  split
  · split
    · exact fun _ => ⟨rfl, rfl⟩
    · split <;> exact eaOnly_answers fun _ h => ⟨h, rfl⟩
  · split
    · split <;> exact wordEa_answers fun _ _ h => ⟨h, rfl⟩
    · split
      · trivial
      · split
        · trivial
        · split
          · split
            case h_7 => trivial
            all_goals exact fun _ => ⟨rfl, rfl⟩
          · split <;> exact immEa_answers fun _ _ h => ⟨h, rfl⟩

theorem decodeLine1_answers : (decodeLine1 cpu x p m r).Answers (IsOwn cpu) 1 :=
  decodeMove_answers fun _ _ h => ⟨h, rfl⟩

theorem decodeLine2_answers : (decodeLine2 cpu x p m r).Answers (IsOwn cpu) 1 := by
  unfold decodeLine2
  split
  · exact eaOnly_answers fun _ h => ⟨h, rfl⟩
  · exact decodeMove_answers fun _ _ h => ⟨h, rfl⟩

theorem decodeLine3_answers : (decodeLine3 cpu x p m r).Answers (IsOwn cpu) 1 := by
  unfold decodeLine3
  split
  · exact eaOnly_answers fun _ h => ⟨h, rfl⟩
  · exact decodeMove_answers fun _ _ h => ⟨h, rfl⟩

theorem decodeMisc_answers : (decodeMisc cpu m r).Answers (IsOwn cpu) 1 := by
  unfold decodeMisc
  split
  case h_3 => exact fun _ => ⟨rfl, rfl⟩
  case h_7 =>
    split
    case h_3 => exact fun _ => ⟨rfl, rfl⟩
    case h_5 => trivial
    all_goals exact ⟨rfl, rfl⟩
  case h_8 => split <;> trivial
  all_goals exact ⟨rfl, rfl⟩

theorem decodeLine4_answers : (decodeLine4 cpu x p m r).Answers (IsOwn cpu) 1 := by
  unfold decodeLine4
  split
  · split
    · trivial
    · exact eaOnly_answers fun _ h => ⟨h, rfl⟩
  · exact eaOnly_answers fun _ h => ⟨h, rfl⟩
  · trivial
  · split
    next hfull => exact eaOnly_answers fun _ h => ⟨Bool.and_eq_true_iff.mpr ⟨hfull, h⟩, rfl⟩
    next => trivial
  · split
    · split
      · exact eaOnly_answers fun _ h => ⟨h, rfl⟩
      · have hsr : (eaOnly cpu m r .w EaKind.dataAlterable .moveFromSr).Answers (IsOwn cpu) 1 :=
          eaOnly_answers fun _ h => ⟨h, rfl⟩
        dsimp only
        split
        · exact hsr.markPrivileged
        · exact hsr
    · split
      · exact eaOnly_answers fun _ h => ⟨h, rfl⟩
      · trivial
    · split <;> exact eaOnly_answers fun _ h => ⟨h, rfl⟩
    · split
      · exact eaOnly_answers fun _ h => ⟨h, rfl⟩
      · exact (eaOnly_answers fun _ h => ⟨h, rfl⟩ : (eaOnly cpu m r .w EaKind.isData .moveToSr).Answers _ 1).markPrivileged
    · split
      · split
        · trivial
        · exact eaOnly_answers fun _ h => ⟨h, rfl⟩
      · split
        · exact ⟨rfl, rfl⟩
        · split
          · trivial
          · exact eaOnly_answers fun _ h => ⟨h, rfl⟩
      · split
        · exact ⟨rfl, rfl⟩
        · exact wordEa_answers fun _ _ h => ⟨h, rfl⟩
      · split
        · exact ⟨rfl, rfl⟩
        · exact wordEa_answers fun _ _ h => ⟨h, rfl⟩
    · split
      · exact eaOnly_answers fun _ h => ⟨h, rfl⟩
      · split
        · exact ⟨rfl, rfl⟩
        · exact eaOnly_answers fun _ h => ⟨h, rfl⟩
    · split
      · exact wordEa_answers fun _ _ h => ⟨h, rfl⟩
      · exact wordEa_answers fun _ _ h => ⟨h, rfl⟩
      · trivial
    · split
      · exact decodeMisc_answers cpu m r
      · exact eaOnly_answers fun _ h => ⟨h, rfl⟩
      · exact eaOnly_answers fun _ h => ⟨h, rfl⟩
      · trivial

theorem decodeLine5_answers : (decodeLine5 cpu x p m r).Answers (IsOwn cpu) 1 := by
  unfold decodeLine5
  split
  · split
    · exact fun _ => ⟨rfl, rfl⟩
    · split
      · trivial
      · exact eaOnly_answers fun _ h => ⟨h, rfl⟩
  · split <;> exact eaOnly_answers fun _ h => ⟨h, rfl⟩

theorem decodeLine6_answers : (decodeLine6 cpu x p m r).Answers (IsOwn cpu) 1 := by
  refine branchOf_answers fun d hd => ?_
  cases opCond x p <;> exact ⟨hd, rfl⟩

theorem decodeLine7_answers : (decodeLine7 x p m r).Answers (IsOwn cpu) 1 := by
  unfold decodeLine7
  split
  · trivial
  · exact ⟨rfl, rfl⟩

theorem decodeLine8_answers : (decodeLine8 cpu x p m r).Answers (IsOwn cpu) 1 := by
  unfold decodeLine8
  split
  · split <;> exact eaOnly_answers fun _ h => ⟨h, rfl⟩
  · split
    · split
      · exact ⟨rfl, rfl⟩
      · trivial
    · exact eaOnly_answers fun _ h => ⟨h, rfl⟩

theorem decodeLine9_answers : (decodeLine9 cpu x p m r).Answers (IsOwn cpu) 1 := by
  unfold decodeLine9
  split
  · exact eaOnly_answers fun _ h => ⟨h, rfl⟩
  · split
    · exact ⟨rfl, rfl⟩
    · exact eaOnly_answers fun _ h => ⟨h, rfl⟩

theorem decodeLineB_answers : (decodeLineB cpu x p m r).Answers (IsOwn cpu) 1 := by
  unfold decodeLineB
  split
  · exact eaOnly_answers fun _ h => ⟨h, rfl⟩
  · split
    · exact eaOnly_answers fun _ h => ⟨h, rfl⟩
    · split
      · exact ⟨rfl, rfl⟩
      · exact eaOnly_answers fun _ h => ⟨h, rfl⟩

theorem decodeLineC_answers : (decodeLineC cpu x p m r).Answers (IsOwn cpu) 1 := by
  unfold decodeLineC
  split
  · split <;> exact eaOnly_answers fun _ h => ⟨h, rfl⟩
  · split_ifs
    case neg => exact eaOnly_answers fun _ h => ⟨h, rfl⟩
    all_goals exact ⟨rfl, rfl⟩

theorem decodeLineD_answers : (decodeLineD cpu x p m r).Answers (IsOwn cpu) 1 := by
  unfold decodeLineD
  split
  · exact eaOnly_answers fun _ h => ⟨h, rfl⟩
  · split
    · exact ⟨rfl, rfl⟩
    · exact eaOnly_answers fun _ h => ⟨h, rfl⟩

theorem decodeLineE_answers : (decodeLineE cpu x p m r).Answers (IsOwn cpu) 1 := by
  unfold decodeLineE
  split
  · split
    case h_9 => trivial
    all_goals exact eaOnly_answers fun _ h => ⟨h, rfl⟩
  · split <;> exact ⟨rfl, rfl⟩

end

/-- Whatever follows the operation word, an answer is a well-formed instruction after exactly its own words. -/
theorem decodeOp_answers (cpu : Cpu) (w : Word16) : (decodeOp cpu w).Answers (IsOwn cpu) 1 := by
  unfold decodeOp decodeFields
  split
  · exact decodeLine0_answers ..
  · exact decodeLine1_answers ..
  · exact decodeLine2_answers ..
  · exact decodeLine3_answers ..
  · exact decodeLine4_answers ..
  · exact decodeLine5_answers ..
  · exact decodeLine6_answers ..
  · exact decodeLine7_answers ..
  · exact decodeLine8_answers ..
  · exact decodeLine9_answers ..
  · trivial
  · exact decodeLineB_answers ..
  · exact decodeLineC_answers ..
  · exact decodeLineD_answers ..
  · exact decodeLineE_answers ..
  · trivial

end Sys2Proof
end

section
/-! PROOFS. The statements of 30_encoding.md. -/

namespace Sys2Proof

/-- Settles O1: each of the eight words is decoded by computation. -/
theorem decodeSpecWords : Obligations.DecodeSpecWords := by
  unfold Obligations.DecodeSpecWords
  decide

/-- Settles O2, constructor by constructor: the words lead to the instruction's line, which reads its operands back. -/
theorem decodeOfEncode : Obligations.DecodeOfEncode := fun _ _ rest h => decode_encode h rest

/-- Settles O3: every answer of the decoder, line by line, counts the words read by then. -/
theorem decodedIsWellFormed : Obligations.DecodedIsWellFormed := by
  intro cpu ws rest i h
  have hanswers : (Dec.need (decodeOp cpu)).Answers (IsOwn cpu) 0 := decodeOp_answers cpu
  obtain ⟨m, hlen, hwf, hwords⟩ := hanswers.run h
  exact ⟨hwf, by omega⟩

end Sys2Proof
end

section
/-! SUPPORT. What an operand resolves to, said once for each addressing mode (40_addressing_modes.md R131 to R148), and the address
of a full extension word (R150 to R153). -/

namespace Sys2Proof.Machine

/-! ## The modes without a full extension word -/

theorem incOf_eq (n : RegNum) (sz : Size) :
    incOf n sz = if n = 7 ∧ sz = .b then 2#32 else BitVec.ofNat 32 sz.bytes := by
  simp [incOf]

section
variable (s : State) (k : Nat) (sz : Size) (n : RegNum) (x : IndexSpec)

theorem resolves_dn : Resolves s k sz (.dn n) (.dreg n) s := rfl
theorem resolves_an : Resolves s k sz (.an n) (.areg n) s := rfl
theorem resolves_ind : Resolves s k sz (.ind n) (.mem (s.getA n) false) s := rfl
theorem resolves_postInc : Resolves s k sz (.postInc n) (.mem (s.getA n) false) (s.setA n (s.getA n + incOf n sz)) := rfl
theorem resolves_preDec :
    Resolves s k sz (.preDec n) (.mem (s.getA n - incOf n sz) false) (s.setA n (s.getA n - incOf n sz)) := rfl
theorem resolves_disp (d : Word16) : Resolves s k sz (.disp n d) (.mem (s.getA n + d.signExtend 32) false) s := rfl
theorem resolves_index (d : Byte) :
    Resolves s k sz (.index n x d) (.mem (s.getA n + d.signExtend 32 + s.indexValue x) false) s := rfl
theorem resolves_absShort (a : Word16) : Resolves s k sz (.absShort a) (.mem (a.signExtend 32) false) s := rfl
theorem resolves_absLong (a : Word) : Resolves s k sz (.absLong a) (.mem a false) s := rfl
theorem resolves_pcDisp (d : Word16) : Resolves s k sz (.pcDisp d) (.mem (s.ipAt k + d.signExtend 32) true) s := rfl
theorem resolves_pcIndex (d : Byte) :
    Resolves s k sz (.pcIndex x d) (.mem (s.ipAt k + d.signExtend 32 + s.indexValue x) true) s := rfl
theorem resolves_imm (v : Word) : Resolves s k sz (.imm v) (.imm v) s := rfl

end

/-- An operand resolves in one way only. -/
theorem resolves_state_unique {s t u : State} {k : Nat} {sz : Size} {ea : Ea} {l m : Loc} (h : Resolves s k sz ea l t)
    (h' : Resolves s k sz ea m u) : t = u := by
  have hrun : EStateM.Result.ok l t = .ok m u := h.symm.trans h'
  injection hrun

/-! ## The index operand -/

/-- D/A and REGISTER together are the number of a general register (R149, R152). -/
theorem State.getX_indexRegister (s : State) (x : IndexSpec) :
    s.getX ((if x.isAddr then 8 else 0) + x.reg.val) = if x.isAddr then s.getA x.reg else s.getD x.reg := by
  cases hx : x.isAddr <;> simp [State.getX]

/-- Scaling shifts by the SCALE field: the product with a power of two (R152). -/
theorem shiftLeft_eq_ofNat_mul (v : Word) (k : Nat) : v <<< k = BitVec.ofNat 32 (v.toNat * 2 ^ k) := by
  apply BitVec.eq_of_toNat_eq
  rw [BitVec.toNat_shiftLeft, BitVec.toNat_ofNat, Nat.shiftLeft_eq]

theorem State.indexValue_eq (s : State) (x : IndexSpec) :
    s.indexValue x = BitVec.ofNat 32
      ((if x.long then s.getX ((if x.isAddr then 8 else 0) + x.reg.val)
        else ((s.getX ((if x.isAddr then 8 else 0) + x.reg.val)).extractLsb' 0 16).signExtend 32).toNat *
          (if s.cfg.cpu.hasFullExt then 2 ^ x.scale.toNat else 1)) := by
  rw [State.getX_indexRegister]
  unfold State.indexValue
  cases s.cfg.cpu.hasFullExt with
  | true => exact shiftLeft_eq_ofNat_mul _ _
  | false => simp [Size.sext]

/-! ## Full extension words -/

section
variable {s : State} {program : Bool} {b : Word} {e : FullExt} {od : Displ}

theorem fullAddress_direct (hi : e.indirect = .none) :
    (fullAddress program b e).run s = .ok (FullExt.base e b + displValue e.bd + s.fullIndex e) s := by
  simp [fullAddress, hi]

theorem fullAddress_preindexed (hi : e.indirect = .pre od)
    (hr : s.accessible (s.fc program) false .l (FullExt.base e b + displValue e.bd + s.fullIndex e) = true) :
    (fullAddress program b e).run s =
      .ok (s.longAt (FullExt.base e b + displValue e.bd + s.fullIndex e) + displValue od) s := by
  simp [fullAddress, hi, memRead_ok hr, State.valueAt]

theorem fullAddress_postindexed (hi : e.indirect = .post od)
    (hr : s.accessible (s.fc program) false .l (FullExt.base e b + displValue e.bd) = true) :
    (fullAddress program b e).run s =
      .ok (s.longAt (FullExt.base e b + displValue e.bd) + s.fullIndex e + displValue od) s := by
  simp [fullAddress, hi, memRead_ok hr, State.valueAt]

end

section
variable {s t : State} {k : Nat} {sz : Size} {n : RegNum} {e : FullExt} {l : Loc}

/-- A full extension word over An designates its address, as a data reference. -/
theorem resolves_full_iff : Resolves s k sz (.full n e) l t ↔
    ∃ a, (fullAddress false (s.getA n) e).run s = .ok a t ∧ l = .mem a false := by
  have hrun : (resolveAt k sz (.full n e)).run s =
      ((fullAddress false (s.getA n) e) >>= fun a => pure (Loc.mem a false)).run s := rfl
  rw [Resolves, hrun, EStateM.run_bind]
  cases (fullAddress false (s.getA n) e).run s <;> simp [and_comm, eq_comm]

/-- A full extension word over PC designates its address, as a program reference (R158). -/
theorem resolves_pcFull_iff : Resolves s k sz (.pcFull e) l t ↔
    ∃ a, (fullAddress true (s.ipAt k) e).run s = .ok a t ∧ l = .mem a true := by
  have hrun : (resolveAt k sz (.pcFull e)).run s =
      ((fullAddress true (s.ipAt k) e) >>= fun a => pure (Loc.mem a true)).run s := rfl
  rw [Resolves, hrun, EStateM.run_bind]
  cases (fullAddress true (s.ipAt k) e).run s <;> simp [and_comm, eq_comm]

/-- Both full extension modes at once: the base is An, or the address of the first extension word. -/
theorem resolves_fullExtension {a : Word} (program : Bool)
    (h : (fullAddress program (if program then s.ipAt k else s.getA n) e).run s = .ok a s) :
    Resolves s k sz (if program then .pcFull e else .full n e) (.mem a program) s := by
  cases program with
  | true => exact resolves_pcFull_iff.2 ⟨a, h, rfl⟩
  | false => exact resolves_full_iff.2 ⟨a, h, rfl⟩

end

/-! ## Control operands -/

/-- Postincrement and predecrement, the modes that change a register, are no control modes (R157). -/
theorem resolves_control_state {s t : State} {k : Nat} {sz : Size} {ea : Ea} {l : Loc} (hk : ea.kind.isControl = true)
    (h : Resolves s k sz ea l t) : t = s := by
  cases ea with
  | ind n => exact resolves_state_unique h (resolves_ind s k sz n)
  | disp n d => exact resolves_state_unique h (resolves_disp s k sz n d)
  | index n x d => exact resolves_state_unique h (resolves_index s k sz n x d)
  | absShort a => exact resolves_state_unique h (resolves_absShort s k sz a)
  | absLong a => exact resolves_state_unique h (resolves_absLong s k sz a)
  | pcDisp d => exact resolves_state_unique h (resolves_pcDisp s k sz d)
  | pcIndex x d => exact resolves_state_unique h (resolves_pcIndex s k sz x d)
  | full n e =>
    obtain ⟨a, ha, -⟩ := resolves_full_iff.1 h
    exact fullAddress_eq_ok ha
  | pcFull e =>
    obtain ⟨a, ha, -⟩ := resolves_pcFull_iff.1 h
    exact fullAddress_eq_ok ha
  | dn _ | an _ | postInc _ | preDec _ | imm _ => cases hk

/-- The address of a control operand is where it resolves to. -/
theorem controlResolves_of_resolves {s t : State} {k : Nat} {ea : Ea} {a : Word} {program : Bool}
    (hk : ea.kind.isControl = true) (h : Resolves s k .l ea (.mem a program) t) : ControlResolves s k ea a t := by
  unfold ControlResolves controlAddress
  rw [if_pos hk, run_bind_ok h]
  rfl

/-- A member without memory indirect modes has the full extension word without indirection only (R153). -/
theorem indirect_none_of_wf {cpu : Cpu} {e : FullExt} (hc : cpu.is020 = false) (hw : e.wf cpu = true) :
    e.indirect = .none := by
  unfold FullExt.wf at hw
  cases hi : e.indirect with
  | none => rfl
  | pre od => simp [hi, Cpu.hasMemIndirect, hc] at hw
  | post od => simp [hi, Cpu.hasMemIndirect, hc] at hw

/-- Without memory indirection no pointer is read: every control operand the member has resolves to memory. -/
theorem resolves_control_of_wf {s : State} {ea : Ea} (k : Nat) {sz : Size} (hk : ea.kind.isControl = true)
    (hc : s.cfg.cpu.is020 = false) (hw : ea.wf s.cfg.cpu sz = true) : ∃ a program, Resolves s k sz ea (.mem a program) s := by
  cases ea with
  | ind n => exact ⟨_, _, resolves_ind s k sz n⟩
  | disp n d => exact ⟨_, _, resolves_disp s k sz n d⟩
  | index n x d => exact ⟨_, _, resolves_index s k sz n x d⟩
  | absShort a => exact ⟨_, _, resolves_absShort s k sz a⟩
  | absLong a => exact ⟨_, _, resolves_absLong s k sz a⟩
  | pcDisp d => exact ⟨_, _, resolves_pcDisp s k sz d⟩
  | pcIndex x d => exact ⟨_, _, resolves_pcIndex s k sz x d⟩
  | full n e =>
    exact ⟨_, _, resolves_full_iff.2 ⟨_, fullAddress_direct (indirect_none_of_wf hc hw), rfl⟩⟩
  | pcFull e =>
    exact ⟨_, _, resolves_pcFull_iff.2 ⟨_, fullAddress_direct (indirect_none_of_wf hc hw), rfl⟩⟩
  | dn _ | an _ | postInc _ | preDec _ | imm _ => cases hk

end Sys2Proof.Machine
end

section
/-! PROOFS. The statements of 40_addressing_modes.md. -/

namespace Sys2Proof

open Machine

/-- Settles O15, mode by mode. -/
theorem addressingModes : Obligations.AddressingModes := by
  intro s k sz n x d8 d16 v inc ip
  have hinc : incOf n sz = inc := incOf_eq n sz
  have hpost := resolves_postInc s k sz n
  have hpre := resolves_preDec s k sz n
  rw [hinc] at hpost hpre
  exact ⟨resolves_dn s k sz n, resolves_an s k sz n, resolves_ind s k sz n, hpost, hpre, resolves_disp s k sz n d16,
    resolves_index s k sz n x d8, resolves_absShort s k sz d16, resolves_absLong s k sz v, resolves_pcDisp s k sz d16,
    resolves_pcIndex s k sz x d8, resolves_imm s k sz v⟩

/-- Settles O16: the index operand as a product, and the address by the kind of indirection. -/
theorem indexAndFullExtension : Obligations.IndexAndFullExtension := by
  intro s k sz n x e od program r v sc ip b idx ea p1 p2
  exact ⟨s.indexValue_eq x, rfl, rfl, fun _ => rfl, fun _ => rfl,
    fun hi => resolves_fullExtension program (fullAddress_direct hi),
    fun hi hr => resolves_fullExtension program (fullAddress_preindexed hi hr),
    fun hi hr => resolves_fullExtension program (fullAddress_postindexed hi hr)⟩

/-- Settles O19: no control mode changes a register, and without memory indirection none reads a pointer. -/
theorem controlAddress : Obligations.ControlAddress := by
  intro s k ea hk
  refine ⟨fun a p t h => ?_, fun hc hw => ?_⟩
  · obtain rfl := resolves_control_state hk h
    exact ⟨controlResolves_of_resolves hk h, rfl⟩
  · obtain ⟨a, p, h⟩ := resolves_control_of_wf k hk hc hw
    exact ⟨a, controlResolves_of_resolves hk h⟩

end Sys2Proof
end

section
/-! SUPPORT. How an instruction of one or two actions ends, and MOVE's action (41_data_movement.md R171). -/

namespace Sys2Proof.Machine

theorem State.ipAt_congr {s t : State} (h : t.pc = s.pc) (n : Nat) : t.ipAt n = s.ipAt n := by
  rw [State.ipAt, State.ipAt, h]

/-- The advance past an instruction whose actions have left `pc` alone. -/
theorem advance_ok {s t : State} (h : t.pc = s.pc) (n : Nat) : (advance n).run t = .ok () { t with pc := s.ipAt n } := by
  rw [advance_run, State.ipAt_congr h]

/-- One action that leaves `pc` alone, and the advance. -/
theorem runInstr_advance {x : M Unit} {s t : State} (hx : x.run s = .ok () t) (h : t.pc = s.pc) (n : Nat) :
    runInstr (x >>= fun _ => advance n) s = .next { t with pc := s.ipAt n } :=
  runInstr_ok ((run_bind_ok hx).trans (advance_ok h n))

/-- A source operand is read and an address register written. -/
theorem runInstr_readEa_setA {s t : State} {sz : Size} {ea : Ea} {l : Loc} (hs : Resolves s 1 sz ea l t)
    (hr : Readable t sz l) (r : RegNum) (f : State → Word → Word) (n : Nat) :
    runInstr (readEa 1 sz ea >>= fun v => modify (fun u => u.setA r (f u v)) >>= fun _ => advance n) s =
      .next { t.setA r (f t (valueOf t sz l)) with pc := s.ipAt n } :=
  runInstr_ok <| (run_bind_ok (readEa_ok hs hr)).trans <| (run_bind_ok (EStateM.run_modify _ t)).trans <|
    advance_ok ((t.setA_pc r _).trans (resolves_effect hs).pc) n

/-- MOVE's action, where both operands can be reached: the value at the destination, and the flags. -/
theorem moveBody_ok {s t u : State} {sz : Size} {src dst : Ea} {l m : Loc} (hs : Resolves s 1 sz src l t)
    (hr : Readable t sz l) (hd : Resolves t (1 + src.length sz) sz dst m u) (hw : Writable u sz m) :
    (moveBody sz src dst).run s =
      .ok () ((u.putAt sz (valueOf t sz l) m).setCcr ((u.putAt sz (valueOf t sz l) m).ccr.logic sz (valueOf t sz l))) := by
  unfold moveBody
  rw [run_bind_ok (readEa_ok hs hr), run_bind_ok hd, run_bind_ok (writeLoc_ok hw), putCcr_run]

end Sys2Proof.Machine
end

section
/-! SUPPORT. The stack pointer as A7, and what a push leaves (10_state.md R24; 40_addressing_modes.md R161). -/

namespace Sys2Proof.Machine

theorem State.sp_setA_seven (s : State) (v : Word) : (s.setA 7 v).sp = v := s.sp_setSp v

theorem State.sp_setA_ne (s : State) {n : RegNum} (v : Word) (h : n ≠ 7) : (s.setA n v).sp = s.sp :=
  s.getA_setA_ne v h.symm

/-- Whichever register is written with the stack pointer's own value, the stack pointer keeps it. -/
theorem State.sp_setA_sp (s : State) (n : RegNum) : (s.setA n s.sp).sp = s.sp := by
  by_cases h : n = 7
  · subst h
    exact s.sp_setA_seven _
  · exact s.sp_setA_ne _ h

@[simp] theorem State.sp_store (s : State) (sz : Size) (a v : Word) : (s.store sz a v).sp = s.sp :=
  State.sp_congr (s.store_sys ..) (s.store_cfg ..) (s.store_usp ..) (s.store_ssp ..) (s.store_msp ..)

/-- Whether an access by the current mode completes does not depend on the stack pointer. -/
theorem State.accessible_setSp (s : State) (v : Word) (w : Bool) (sz : Size) (a : Word) :
    (s.setSp v).accessible ((s.setSp v).fc false) w sz a = s.accessible (s.fc false) w sz a := by
  rw [State.accessible_congr (s.setSp_cfg v), State.fc_congr (s.setSp_sys v)]

/-- After the stack pointer has moved, a push stores its value there and changes nothing else. -/
theorem storesOnly_pushed {s : State} {sz : Size}
    (h : s.accessible (s.fc false) true sz (s.sp - BitVec.ofNat 32 sz.bytes) = true) (v : Word) :
    StoresOnly sz (.mem (s.sp - BitVec.ofNat 32 sz.bytes) false) v (s.setSp (s.sp - BitVec.ofNat 32 sz.bytes))
      (s.pushed sz v) :=
  storesOnly_putAt (l := .mem _ false) ((s.accessible_setSp _ _ _ _).trans h)

/-! ## LINK and UNLK -/

/-- LINK's operation line, its three steps one after another (R177). -/
theorem exec_link {s : State} {r : RegNum} {d : Word16}
    (h : s.accessible (s.fc false) true .l (s.sp - 4#32) = true) :
    let top := s.sp - 4#32
    exec (.link r d) s =
      .next { (((s.setSp top).store .l top ((s.setSp top).getA r)).setA r top).setSp (top + d.signExtend 32) with
        pc := s.pc + 4#32 } := by
  intro top
  have hwrite := memWrite_ok (v := (s.setSp top).getA r) ((s.accessible_setSp top true .l top).trans h)
  have hsp : ((s.setSp top).store .l top ((s.setSp top).getA r)).sp = top := by simp
  have hlink := State.sp_setA_sp ((s.setSp top).store .l top ((s.setSp top).getA r)) r
  rw [hsp] at hlink
  refine runInstr_ok ?_
  simp only [EStateM.run_bind, EStateM.run_modify, EStateM.run_get, State.sp_setSp, top, hwrite, hsp, hlink]
  exact advance_ok (by simp) 2

/-- UNLK's operation line, its three steps one after another (R178). -/
theorem exec_unlk {s : State} {r : RegNum} (h : s.accessible (s.fc false) false .l (s.getA r) = true) :
    let t := (s.setSp (s.getA r)).setA r (s.longAt (s.getA r))
    exec (.unlk r) s = .next { t.setSp (t.sp + 4#32) with pc := s.pc + 2#32 } := by
  intro t
  have hread := memRead_ok ((s.accessible_setSp (s.getA r) false .l (s.getA r)).trans h)
  have hvalue : (s.setSp (s.getA r)).valueAt .l (s.getA r) = s.longAt (s.getA r) :=
    State.valueAt_congr (s.setSp_cfg _) (s.setSp_mem _) .l _
  rw [hvalue] at hread
  refine runInstr_ok ?_
  simp only [EStateM.run_bind, EStateM.run_modify, EStateM.run_get, State.sp_setSp, hread]
  exact advance_ok (by simp) 1

end Sys2Proof.Machine
end

section
/-! SUPPORT. Operands stored one after another in the slots of a block of memory: what MOVEM and MOVEP leave in memory
(41_data_movement.md R183, R185). -/

namespace Sys2Proof.Machine

/-! ## What stores leave alone -/

theorem sameControl_refl (s : State) : SameControl s s :=
  ⟨rfl, rfl, rfl, rfl, rfl, rfl, rfl, rfl, rfl, rfl, rfl, rfl, rfl, rfl, rfl⟩

theorem sameControl_trans {s t u : State} (h₁ : SameControl s t) (h₂ : SameControl t u) : SameControl s u :=
  ⟨h₂.cfg.trans h₁.cfg, h₂.a.trans h₁.a, h₂.usp.trans h₁.usp, h₂.ssp.trans h₁.ssp, h₂.msp.trans h₁.msp, h₂.pc.trans h₁.pc,
    h₂.sys.trans h₁.sys, h₂.ccr.trans h₁.ccr, h₂.vbr.trans h₁.vbr, h₂.run.trans h₁.run, h₂.pins.trans h₁.pins,
    h₂.inputs.trans h₁.inputs, h₂.resetPulses.trans h₁.resetPulses, h₂.tracing.trans h₁.tracing, h₂.draws.trans h₁.draws⟩

theorem sameControl_store (s : State) (sz : Size) (a v : Word) : SameControl s (s.store sz a v) := by
  constructor <;> simp

/-- A store changes no register. -/
theorem State.getX_store (s : State) (sz : Size) (a v : Word) : (s.store sz a v).getX = s.getX := by
  funext i
  simp [State.getX, State.getD, State.getA]

theorem State.accessible_store (s : State) (sz : Size) (a v : Word) (w : Bool) (sz' : Size) (x : Word) :
    (s.store sz a v).accessible ((s.store sz a v).fc false) w sz' x = s.accessible (s.fc false) w sz' x := by
  rw [State.accessible_congr (s.store_cfg ..), State.fc_congr (s.store_sys ..)]

/-! ## Slots -/

/-- The address of slot `k` of a block of `sz` operands from `base`. -/
def slotAt (sz : Size) (base : Word) (k : Nat) : Word := base + BitVec.ofNat 32 (sz.bytes * k)

theorem slotAt_zero (sz : Size) (base : Word) : slotAt sz base 0 = base := by simp [slotAt]

/-- Byte `i` of slot `k`, counted from the start of the block. -/
theorem slotAt_add (sz : Size) (base : Word) (k i : Nat) :
    slotAt sz base k + BitVec.ofNat 32 i = base + BitVec.ofNat 32 (sz.bytes * k + i) := by
  rw [slotAt, BitVec.add_assoc, ← BitVec.ofNat_add]

theorem slotAt_succ (sz : Size) (base : Word) (k : Nat) :
    slotAt sz base (k + 1) = slotAt sz base k + BitVec.ofNat 32 sz.bytes := by
  rw [slotAt_add, slotAt, Nat.mul_succ]

/-- A block that ends at `x`: its slots counted from the end. -/
theorem slotAt_sub (sz : Size) (x : Word) {n k : Nat} (hk : k ≤ n) :
    slotAt sz (x - BitVec.ofNat 32 (sz.bytes * n)) k = x - BitVec.ofNat 32 (sz.bytes * (n - k)) := by
  have hsplit : sz.bytes * n = sz.bytes * (n - k) + sz.bytes * k := by rw [← Nat.mul_add, Nat.sub_add_cancel hk]
  rw [slotAt, hsplit, BitVec.ofNat_add, sub_add_eq_sub_sub, BitVec.sub_add_cancel]

/-- The same, with the slots numbered from the last one. -/
theorem slotAt_sub_last (sz : Size) (x : Word) {n j : Nat} (hj : j < n) :
    slotAt sz (x - BitVec.ofNat 32 (sz.bytes * n)) (n - 1 - j) = x - BitVec.ofNat 32 (sz.bytes * (j + 1)) := by
  rw [slotAt_sub sz x (by omega), show n - (n - 1 - j) = j + 1 by omega]

/-- Bytes of different slots lie apart, if the address lines tell the bytes of the block apart. -/
theorem State.phys_slotAt_ne (s : State) (sz : Size) (base : Word) {b n j k i i' : Nat} (hb : b ≤ s.cfg.addrBits)
    (h32 : b ≤ 32) (hn : sz.bytes * n ≤ 2 ^ b) (hj : j < n) (hk : k < n) (hne : j ≠ k) (hi : i < sz.bytes)
    (hi' : i' < sz.bytes) :
    s.phys (slotAt sz base j + BitVec.ofNat 32 i) ≠ s.phys (slotAt sz base k + BitVec.ofNat 32 i') := by
  have hlt : ∀ {m o : Nat}, m < n → o < sz.bytes → sz.bytes * m + o < sz.bytes * n := fun {m o} hm ho =>
    calc sz.bytes * m + o < sz.bytes * (m + 1) := by rw [Nat.mul_succ]; omega
      _ ≤ sz.bytes * n := Nat.mul_le_mul_left _ hm
  have hdiv : ∀ {m o : Nat}, o < sz.bytes → (sz.bytes * m + o) / sz.bytes = m := fun {m o} ho => by
    rw [Nat.mul_add_div (by omega), Nat.div_eq_of_lt ho, Nat.add_zero]
  rw [slotAt_add, slotAt_add]
  refine s.phys_offset_ne base hb h32 ((hlt hj hi).trans_le hn) ((hlt hk hi').trans_le hn) fun he => hne ?_
  rw [← hdiv (m := j) hi, he, hdiv hi']

/-- Values stored each in its slot, in the order of the list. -/
def State.storeSlots (s : State) (sz : Size) (base : Word) (l : List (Word × Nat)) : State :=
  l.foldl (fun t p => t.store sz (slotAt sz base p.2) p.1) s

section
variable (s : State) (sz : Size) (base : Word) (l : List (Word × Nat))

theorem State.storeSlots_cons (p : Word × Nat) :
    s.storeSlots sz base (p :: l) = (s.store sz (slotAt sz base p.2) p.1).storeSlots sz base l := rfl

theorem sameControl_storeSlots : SameControl s (s.storeSlots sz base l) := by
  induction l generalizing s with
  | nil => exact sameControl_refl s
  | cons p l ih => exact sameControl_trans (sameControl_store s sz _ p.1) (ih _)

theorem State.storeSlots_d : (s.storeSlots sz base l).d = s.d := by
  induction l generalizing s with
  | nil => rfl
  | cons p l ih => exact (ih _).trans (s.store_d sz _ p.1)

variable {l}

/-- Only bytes of the slots change. -/
theorem State.byteAt_storeSlots_outside {x : Word}
    (h : ∀ p ∈ l, ∀ i < sz.bytes, s.phys x ≠ s.phys (slotAt sz base p.2 + BitVec.ofNat 32 i)) :
    (s.storeSlots sz base l).byteAt x = s.byteAt x := by
  induction l generalizing s with
  | nil => rfl
  | cons p l ih =>
    obtain ⟨hp, hl⟩ := List.forall_mem_cons.1 h
    refine (ih (s.store sz _ p.1) fun q hq i hi => ?_).trans (s.byteAt_store_outside sz _ p.1 x hp)
    rw [State.phys_congr (s.store_cfg ..), State.phys_congr (s.store_cfg ..)]
    exact hl q hq i hi

theorem State.bytesKept_storeSlots {n : Nat} (h : ∀ k ∈ l.map Prod.snd, k < n) :
    BytesKept s (s.storeSlots sz base l) base (sz.bytes * n) := by
  intro x hx
  refine s.byteAt_storeSlots_outside sz base fun p hp i hi => ?_
  have hslot : sz.bytes * (p.2 + 1) ≤ sz.bytes * n := Nat.mul_le_mul_left _ (h p.2 (List.mem_map_of_mem hp))
  rw [slotAt_add]
  exact hx _ (by rw [Nat.mul_succ] at hslot; omega)

/-- Values stored in different slots of a block stand there at the end. -/
theorem State.holdsAt_storeSlots {n b : Nat} (hw : s.mem.wf = true) (h2 : 2 ≤ b) (hb : b ≤ s.cfg.addrBits) (h32 : b ≤ 32)
    (hn : sz.bytes * n ≤ 2 ^ b) (hslots : ∀ k ∈ l.map Prod.snd, k < n) (hnodup : (l.map Prod.snd).Nodup) :
    ∀ p ∈ l, (s.storeSlots sz base l).HoldsAt sz (slotAt sz base p.2) p.1 := by
  induction l generalizing s with
  | nil => nofun
  | cons p l ih =>
    rw [List.map_cons, List.forall_mem_cons] at hslots
    rw [List.map_cons, List.nodup_cons] at hnodup
    obtain ⟨hp, hl⟩ := hslots
    obtain ⟨hnew, hnodup⟩ := hnodup
    have hcfg := s.store_cfg sz (slotAt sz base p.2) p.1
    refine List.forall_mem_cons.2 ⟨fun i hi => ?first, ih (s.store sz _ p.1) (s.wf_store _ _ _ hw) (hcfg ▸ hb) hl hnodup⟩
    case first =>
      refine ((s.store sz _ p.1).byteAt_storeSlots_outside sz base (l := l) fun q hq i' hi' => ?_).trans
        (s.holdsAt_store sz _ p.1 hw (h2.trans hb) i hi)
      have hne : p.2 ≠ q.2 := fun he => hnew (he ▸ List.mem_map_of_mem hq)
      exact State.phys_slotAt_ne _ sz base (hcfg ▸ hb) h32 hn hp (hl _ (List.mem_map_of_mem hq)) hne hi hi'

end

/-! ## Registers to memory -/

/-- MOVEM's stores at rising addresses from slot `m` on, each of which completes: register after register. -/
theorem movemUp_from {s : State} {sz : Size} {base : Word} {regs : List Nat} {m : Nat}
    (h : ∀ k, m ≤ k → k < m + regs.length → s.accessible (s.fc false) true sz (slotAt sz base k) = true) :
    (movemUp sz (slotAt sz base m) regs).run s =
      .ok () (s.storeSlots sz base ((regs.map fun i => sz.low (s.getX i)).zipIdx m)) := by
  induction regs generalizing s m with
  | nil => rfl
  | cons i regs ih =>
    rw [List.length_cons] at h
    have hwrite := memWrite_ok (v := sz.low (s.getX i)) (h m (by omega) (by omega))
    have hrest := ih (s := s.store sz (slotAt sz base m) (sz.low (s.getX i))) (m := m + 1) fun k hk hlt => by
      rw [State.accessible_store]
      exact h k (by omega) (by omega)
    rw [slotAt_succ, State.getX_store] at hrest
    exact (run_bind_ok (EStateM.run_get s)).trans ((run_bind_ok hwrite).trans hrest)

/-- The registers stored by MOVEM at rising addresses, each in the next slot. -/
theorem movemUp_ok {s : State} {sz : Size} {a : Word} {regs : List Nat}
    (h : ∀ j < regs.length, s.accessible (s.fc false) true sz (slotAt sz a j) = true) :
    (movemUp sz a regs).run s = .ok () (s.storeSlots sz a (regs.map fun i => sz.low (s.getX i)).zipIdx) := by
  have hrun := movemUp_from (regs := regs) (m := 0) fun k _ hk => h k (by omega)
  rwa [slotAt_zero] at hrun

theorem zipIdx_slots {α : Type} (vs : List α) : vs.zipIdx.map Prod.snd = List.range vs.length := by
  rw [List.zipIdx_map_snd, List.range_eq_range']

/-- The values of a list with their places. -/
theorem mem_zipIdx_map {α β : Type} (f : α → β) {l : List α} {j : Nat} (hj : j < l.length) :
    (f l[j], j) ∈ (l.map f).zipIdx := by
  simp [List.mk_mem_zipIdx_iff_getElem?, hj]

/-- Values with the slots of a block, the last slot first. -/
def descending : List Word → List (Word × Nat)
  | [] => []
  | v :: vs => (v, vs.length) :: descending vs

theorem descending_slots (vs : List Word) : (descending vs).map Prod.snd = (List.range vs.length).reverse := by
  induction vs with
  | nil => rfl
  | cons v vs ih => rw [descending, List.map_cons, ih, List.length_cons, List.range_succ, List.reverse_append]; rfl

theorem mem_descending_map (f : Nat → Word) {l : List Nat} {j : Nat} (hj : j < l.length) :
    (f l[j], l.length - 1 - j) ∈ descending (l.map f) := by
  induction l generalizing j with
  | nil => cases hj
  | cons i l ih =>
    rw [List.map_cons, descending, List.length_map]
    cases j with
    | zero => exact List.mem_cons_self
    | succ j =>
      have hslot : (i :: l).length - 1 - (j + 1) = l.length - 1 - j := by rw [List.length_cons]; omega
      rw [hslot]
      exact List.mem_cons_of_mem _ (ih (Nat.lt_of_succ_lt_succ hj))

theorem State.movemValue_store (s : State) (sz : Size) (a v : Word) : (s.store sz a v).movemValue = s.movemValue := by
  funext sz' n j
  simp [State.movemValue, State.getX_store]

/-- MOVEM's stores at falling addresses, each of which completes: they end at the start of the block. -/
theorem movemDown_to {s : State} {sz : Size} {base : Word} {n : RegNum} {regs : List Nat}
    (h : ∀ k < regs.length, s.accessible (s.fc false) true sz (slotAt sz base k) = true) :
    (movemDown sz n (slotAt sz base regs.length) regs).run s =
      .ok base (s.storeSlots sz base (descending (regs.map fun i => sz.low (s.movemValue sz n (15 - i))))) := by
  induction regs generalizing s with
  | nil => rw [List.length_nil, slotAt_zero]; rfl
  | cons i regs ih =>
    rw [List.length_cons] at h
    have hbelow : slotAt sz base (i :: regs).length - BitVec.ofNat 32 sz.bytes = slotAt sz base regs.length := by
      rw [List.length_cons, slotAt_succ, BitVec.add_sub_cancel]
    have hwrite := memWrite_ok (v := sz.low (s.movemValue sz n (15 - i))) (h regs.length (by omega))
    have hrest := ih (s := s.store sz (slotAt sz base regs.length) (sz.low (s.movemValue sz n (15 - i)))) fun k hk => by
      rw [State.accessible_store]
      exact h k (by omega)
    rw [State.movemValue_store] at hrest
    rw [movemDown, run_bind_ok (EStateM.run_get s), hbelow, run_bind_ok hwrite, hrest, List.map_cons, descending,
      List.length_map, State.storeSlots_cons]

/-- The registers stored by MOVEM below `x`, each in the slot before. -/
theorem movemDown_ok {s : State} {sz : Size} {n : RegNum} {x : Word} {regs : List Nat}
    (h : ∀ j < regs.length, s.accessible (s.fc false) true sz (x - BitVec.ofNat 32 (sz.bytes * (j + 1))) = true) :
    (movemDown sz n x regs).run s =
      .ok (x - BitVec.ofNat 32 (sz.bytes * regs.length))
        (s.storeSlots sz (x - BitVec.ofNat 32 (sz.bytes * regs.length))
          (descending (regs.map fun i => sz.low (s.movemValue sz n (15 - i))))) := by
  have hrun := movemDown_to (n := n) (base := x - BitVec.ofNat 32 (sz.bytes * regs.length)) fun k hk => by
    rw [slotAt_sub sz x hk.le, show regs.length - k = regs.length - 1 - k + 1 by omega]
    exact h _ (by omega)
  rwa [slotAt, BitVec.sub_add_cancel] at hrun

end Sys2Proof.Machine
end

section
/-! SUPPORT. MOVEM and MOVEP to memory as instructions (41_data_movement.md R183, R185). -/

namespace Sys2Proof.Machine

/-! ## MOVEM -/

theorem isControl_of_controlResolves {s t : State} {k : Nat} {ea : Ea} {a : Word} (h : ControlResolves s k ea a t) :
    ea.kind.isControl = true := by
  by_contra hk
  rw [ControlResolves, controlAddress, if_neg hk] at h
  cases h

theorem exec_movemToMem_control {s : State} {long : Bool} {mask : Word16} {ea : Ea} (hk : ea.kind.isControl = true) :
    exec (.movemToMem long mask ea) s =
      runInstr (controlAddress 2 ea >>= fun a => movemUp (Size.ofLong long) a (maskBits mask) >>= fun _ =>
        advance (Instr.movemToMem long mask ea).words) s := by
  cases ea with
  | preDec n => cases hk
  | _ => rfl

theorem State.getX_addr (s : State) (n : RegNum) : s.getX (8 + n.val) = s.getA n := by simp [State.getX]

/-- The members that store a listed base register less the size (R183). -/
theorem movemStoresInitial_eq_false_iff {cpu : Cpu} : cpu.movemStoresInitial = false ↔ cpu.is020 = true ∨ cpu = .cpu32 := by
  cases cpu <;> decide

/-- What MOVEM with predecrement stores for a register (R183). -/
theorem State.movemValue_eq (s : State) (sz : Size) (n : RegNum) (j : Nat) :
    s.movemValue sz n j =
      if j = 8 + n.val ∧ (s.cfg.cpu.is020 = true ∨ s.cfg.cpu = .cpu32) then s.getA n - BitVec.ofNat 32 sz.bytes
      else s.getX j := by
  simp only [← movemStoresInitial_eq_false_iff, State.movemValue]
  by_cases hj : j = 8 + n.val
  · subst hj
    simp [State.getX_addr]
  · simp [hj]

theorem maskBits_length_le (mask : Word16) : (maskBits mask).length ≤ 16 := List.length_filter_le _ _

theorem Size.low_low (sz : Size) (v : Word) : sz.low (sz.low v) = sz.low v := by
  cases sz with
  | b => exact congrArg (BitVec.setWidth 32) (extractLsb'_setWidth (by decide) _)
  | w => exact congrArg (BitVec.setWidth 32) (extractLsb'_setWidth (by decide) _)
  | l => rfl

/-- What the stores of one MOVEM leave: 16 long words are 64 bytes, which six address lines tell apart. -/
theorem State.valueAt_storeSlots (s : State) (sz : Size) (base : Word) {l : List (Word × Nat)} {n : Nat}
    (hw : s.mem.wf = true) (hb : 6 ≤ s.cfg.addrBits) (hn : n ≤ 16) (hslots : ∀ k ∈ l.map Prod.snd, k < n)
    (hnodup : (l.map Prod.snd).Nodup) {v : Word} {k : Nat} (hp : (sz.low v, k) ∈ l) :
    (s.storeSlots sz base l).valueAt sz (slotAt sz base k) = sz.low v := by
  have hsize : sz.bytes ≤ 4 := by cases sz <;> decide
  have hblock : sz.bytes * n ≤ 4 * 16 := Nat.mul_le_mul hsize hn
  have hholds := s.holdsAt_storeSlots sz base hw (by decide) hb (by decide) hblock hslots hnodup _ hp
  rw [hholds.valueAt, Size.low_low]

/-! ## MOVEP -/

theorem slotAt_byte (base : Word) (k : Nat) : slotAt .b base k = base + BitVec.ofNat 32 k := by
  rw [slotAt, Size.bytes, Nat.one_mul]

/-- The bytes of a MOVEP with their places: every second one, from the `m`-th on. -/
def movepSlots (m : Nat) (bs : List Byte) : List (Word × Nat) := (bs.zipIdx m).map fun p => (p.1.setWidth 32, 2 * p.2)

theorem movepSlots_slots (bs : List Byte) : (movepSlots 0 bs).map Prod.snd = (List.range bs.length).map (2 * ·) := by
  rw [← zipIdx_slots, movepSlots, List.map_map, List.map_map]
  rfl

theorem mem_movepSlots {bs : List Byte} {j : Nat} (hj : j < bs.length) : (bs[j].setWidth 32, 2 * j) ∈ movepSlots 0 bs :=
  List.mem_map.2 ⟨(bs[j], j), by simpa using mem_zipIdx_map id hj, rfl⟩

theorem mem_movepSlots_slot {bs : List Byte} {p : Word × Nat} (hp : p ∈ movepSlots 0 bs) :
    ∃ j < bs.length, p.2 = 2 * j := by
  have hslot := List.mem_map_of_mem (f := Prod.snd) hp
  rw [movepSlots_slots] at hslot
  obtain ⟨j, hj, he⟩ := List.mem_map.1 hslot
  exact ⟨j, List.mem_range.1 hj, he.symm⟩

/-- What MOVEP leaves at its addresses: four bytes, every second one, lie in eight, which three address lines tell apart. -/
theorem State.byteAt_storeSlots_movep (s : State) (base : Word) {bs : List Byte} (hw : s.mem.wf = true)
    (hb : 3 ≤ s.cfg.addrBits) (hlen : bs.length ≤ 4) {j : Nat} (hj : j < bs.length) :
    (s.storeSlots .b base (movepSlots 0 bs)).byteAt (slotAt .b base (2 * j)) = bs[j] := by
  have hlt : ∀ k ∈ (movepSlots 0 bs).map Prod.snd, k < 8 := fun k hk => by
    obtain ⟨p, hp, rfl⟩ := List.mem_map.1 hk
    obtain ⟨i, hi, he⟩ := mem_movepSlots_slot hp
    omega
  have hnodup : ((movepSlots 0 bs).map Prod.snd).Nodup := by
    rw [movepSlots_slots]
    exact List.Nodup.map (fun i i' (he : 2 * i = 2 * i') => by omega) List.nodup_range
  have hholds := s.holdsAt_storeSlots .b base hw (by decide) hb (by decide) (by decide) hlt hnodup _ (mem_movepSlots hj)
  exact hholds.byteAt.trans (extractLsb'_setWidth (by decide) _)

theorem bytesOf_length (sz : Size) (v : Word) : (bytesOf sz v).length = sz.bytes := by cases sz <;> rfl

theorem getElem_bytesOf (sz : Size) (v : Word) {j : Nat} (hj : j < (bytesOf sz v).length) :
    (bytesOf sz v)[j] = byteOfValue sz v j := by
  rw [bytesOf_length] at hj
  cases sz <;> simp only [Size.bytes] at hj <;> interval_cases j <;> rfl

/-- MOVEP's stores from the `m`-th byte on, each of which completes: byte after byte, each in the next slot but one. -/
theorem movepStore_from {s : State} {base : Word} {bs : List Byte} {m : Nat}
    (h : ∀ k, m ≤ k → k < m + bs.length → s.accessible (s.fc false) true .b (slotAt .b base (2 * k)) = true) :
    (movepStore (slotAt .b base (2 * m)) bs).run s = .ok () (s.storeSlots .b base (movepSlots m bs)) := by
  induction bs generalizing s m with
  | nil => rfl
  | cons b bs ih =>
    rw [List.length_cons] at h
    have hwrite := memWrite_ok (v := b.setWidth 32) (h m (by omega) (by omega))
    have hrest := ih (s := s.store .b (slotAt .b base (2 * m)) (b.setWidth 32)) (m := m + 1) fun k hk hlt => by
      rw [State.accessible_store]
      exact h k (by omega) (by omega)
    have hnext : slotAt .b base (2 * (m + 1)) = slotAt .b base (2 * m) + 2#32 := by
      rw [Nat.mul_succ, slotAt_succ, slotAt_succ, BitVec.add_assoc]
      rfl
    rw [hnext] at hrest
    exact (run_bind_ok (EStateM.run_get s)).trans ((run_bind_ok hwrite).trans hrest)

/-- The bytes stored by MOVEP. -/
theorem movepStore_ok {s : State} {a : Word} {bs : List Byte}
    (h : ∀ j < bs.length, s.accessible (s.fc false) true .b (slotAt .b a (2 * j)) = true) :
    (movepStore a bs).run s = .ok () (s.storeSlots .b a (movepSlots 0 bs)) := by
  have hrun := movepStore_from (bs := bs) (m := 0) fun k _ hk => h k (by omega)
  rwa [Nat.mul_zero, slotAt_zero] at hrun

/-- The byte `b` in bits `8 k + 7` to `8 k` of a word. -/
def putByte (d : Word) (k : Nat) (b : Byte) : Word := (d &&& ~~~(0xFF#32 <<< (8 * k))) ||| (b.setWidth 32 <<< (8 * k))

theorem extractLsb'_putByte (d : Word) (b : Byte) {k j : Nat} (hk : k < 4) (hj : j < 4) :
    (putByte d k b).extractLsb' (8 * j) 8 = if j = k then b else d.extractLsb' (8 * j) 8 := by
  have hmask : ∀ n, (0xFF#32).getLsbD n = decide (n < 8) := fun n => by
    rw [show 0xFF#32 = (BitVec.allOnes 8).setWidth 32 from rfl, BitVec.getLsbD_setWidth, BitVec.getLsbD_allOnes,
      ← Bool.decide_and]
    exact decide_eq_decide.2 (by omega)
  apply BitVec.eq_of_getLsbD_eq
  intro i hi
  have hbit : 8 * j + i < 32 := by omega
  simp only [putByte, BitVec.getLsbD_extractLsb', BitVec.getLsbD_or, BitVec.getLsbD_and, BitVec.getLsbD_not,
    BitVec.getLsbD_shiftLeft, BitVec.getLsbD_setWidth, hmask, hbit]
  rcases Nat.lt_trichotomy j k with hlt | rfl | hgt
  · have hbelow : 8 * j + i < 8 * k := by omega
    simp [hi, hbelow, hlt.ne]
  · simp [hi, show i < 32 by omega]
  · have habove : 8 ≤ 8 * j + i - 8 * k := by omega
    simp [hi, BitVec.getLsbD_of_ge b _ habove, hgt.ne', Nat.not_lt.2 habove]

theorem byteOfValue_putByte (d : Word) (b : Byte) {k j : Nat} (hk : k < 4) (hj : j < 4) :
    byteOfValue .l (putByte d k b) j = if j + k = 3 then b else byteOfValue .l d j := by
  have hiff : 3 - j = k ↔ j + k = 3 := by omega
  have h := extractLsb'_putByte d b (j := 3 - j) hk (by omega)
  rwa [if_congr hiff rfl rfl] at h

theorem append_highBytes (v : Word) : v.extractLsb' 16 16 = (byteOfValue .l v 0 ++ byteOfValue .l v 1 : BitVec 16) :=
  (BitVec.extractLsb'_append_extractLsb'_eq_extractLsb' (start₁ := 16) (len₁ := 8) (len₂ := 8) (x := v) rfl).symm

/-- A word is its four bytes. -/
theorem append_bytes (v : Word) :
    v = (byteOfValue .l v 0 ++ byteOfValue .l v 1 ++ byteOfValue .l v 2 ++ byteOfValue .l v 3 : BitVec 32) := by
  rw [← append_highBytes, byteOfValue, byteOfValue, BitVec.extractLsb'_append_extractLsb'_eq_extractLsb' (by rfl),
    BitVec.extractLsb'_append_extractLsb'_eq_extractLsb' (by rfl)]
  exact BitVec.extractLsb'_eq_self.symm

/-- The word that MOVEP makes of `d` by loading `k` bytes, from every second address from `a` (R185). -/
def State.movepLoaded (s : State) (a : Word) : Nat → Word → Word
  | 0, d => d
  | k + 1, d => s.movepLoaded (a + 2#32) k (putByte d k (s.byteAt a))

/-- The long form loads every byte of the register. -/
theorem State.movepLoaded_four (s : State) (a d : Word) :
    s.movepLoaded a 4 d = s.byteAt a ++ s.byteAt (a + 2#32) ++ s.byteAt (a + 4#32) ++ s.byteAt (a + 6#32) := by
  rw [append_bytes (s.movepLoaded a 4 d)]
  simp [State.movepLoaded, byteOfValue_putByte, BitVec.add_assoc]

/-- The word form keeps the register's upper half. -/
theorem State.movepLoaded_two (s : State) (a d : Word) :
    s.movepLoaded a 2 d = d.extractLsb' 16 16 ++ s.byteAt a ++ s.byteAt (a + 2#32) := by
  rw [append_bytes (s.movepLoaded a 2 d), append_highBytes]
  simp [State.movepLoaded, byteOfValue_putByte]

theorem State.movepLoaded_setD (s : State) (n : RegNum) (v a d : Word) (k : Nat) :
    (s.setD n v).movepLoaded a k d = s.movepLoaded a k d := by
  induction k generalizing a d with
  | zero => rfl
  | succ k ih => exact ih _ _

theorem State.setD_setD (s : State) (n : RegNum) (v w : Word) : (s.setD n v).setD n w = s.setD n w := by
  simp [State.setD]

theorem State.setD_getD (s : State) (n : RegNum) : s.setD n (s.getD n) = s := by
  simp [State.setD, State.getD]

theorem State.accessible_setD (s : State) (n : RegNum) (v : Word) (w : Bool) (sz : Size) (x : Word) :
    (s.setD n v).accessible ((s.setD n v).fc false) w sz x = s.accessible (s.fc false) w sz x := by
  rw [State.accessible_congr (s.setD_cfg ..), State.fc_congr (s.setD_sys ..)]

/-- MOVEP's loads, each of which completes, change the one data register only. -/
theorem movepLoad_ok {s : State} {r : RegNum} {a : Word} {k : Nat}
    (h : ∀ j < k, s.accessible (s.fc false) false .b (a + BitVec.ofNat 32 (2 * j)) = true) :
    (movepLoad r a k).run s = .ok () (s.setD r (s.movepLoaded a k (s.getD r))) := by
  induction k generalizing s a with
  | zero => rw [State.movepLoaded, State.setD_getD]; rfl
  | succ k ih =>
    have hread := memRead_ok (by simpa using h 0 (Nat.succ_pos k))
    have hrest := ih (s := s.setD r (putByte (s.getD r) k (s.byteAt a))) (a := a + 2#32) fun j hj => by
      have hnext : a + 2#32 + BitVec.ofNat 32 (2 * j) = a + BitVec.ofNat 32 (2 * (j + 1)) := by
        rw [BitVec.add_assoc, Nat.mul_succ, Nat.add_comm (2 * j), BitVec.ofNat_add]
      rw [State.accessible_setD, hnext]
      exact h (j + 1) (by omega)
    rw [State.setD_setD, State.getD_setD_same, State.movepLoaded_setD] at hrest
    exact (run_bind_ok (EStateM.run_get s)).trans ((run_bind_ok hread).trans
      ((run_bind_ok (EStateM.run_modify _ s)).trans hrest))

end Sys2Proof.Machine
end

section
/-! SUPPORT. MOVEM to registers: registers loaded one after another from the slots of a block of memory
(41_data_movement.md R183). -/

namespace Sys2Proof.Machine

/-! ## Writes to registers, one after another -/

theorem State.setSp_setSp (s : State) (v w : Word) : (s.setSp v).setSp w = s.setSp w := by
  have hsuper := State.isSuper_congr (s.setSp_sys v)
  have hmaster := State.onMaster_congr (s.setSp_sys v) (s.setSp_cfg v)
  rw [State.setSp, hsuper, hmaster]
  unfold State.setSp
  cases s.isSuper <;> cases s.onMaster <;> rfl

/-- The stack pointer and the other address registers are different fields. -/
theorem State.setSp_setRegs (s : State) (v : Word) (d : Vector Word 8) (a : Vector Word 7) :
    ({ s with d := d, a := a } : State).setSp v = { s.setSp v with d := d, a := a } := by
  have hsuper : ({ s with d := d, a := a } : State).isSuper = s.isSuper := rfl
  have hmaster : ({ s with d := d, a := a } : State).onMaster = s.onMaster := rfl
  rw [State.setSp, hsuper, hmaster]
  unfold State.setSp
  cases s.isSuper <;> cases s.onMaster <;> rfl

theorem State.setA_of_lt (s : State) {n : RegNum} (v : Word) (h : n.val < 7) :
    s.setA n v = { s with a := s.a.set n.val v } := dif_pos h

theorem State.setA_of_not_lt (s : State) {n : RegNum} (v : Word) (h : ¬n.val < 7) : s.setA n v = s.setSp v := dif_neg h

/-- A write to A0 to A6 and one to the stack pointer commute. -/
theorem State.setA_setSp_comm (s : State) {n : RegNum} (v w : Word) (h : n.val < 7) :
    (s.setA n v).setSp w = (s.setSp w).setA n v := by
  rw [State.setA_of_lt s v h, State.setA_of_lt _ v h, State.setSp_a, s.setSp_setRegs w s.d, State.setSp_d]

theorem State.setA_setA_same (s : State) (n : RegNum) (v w : Word) : (s.setA n v).setA n w = s.setA n w := by
  by_cases hn : n.val < 7
  · rw [State.setA_of_lt s v hn, State.setA_of_lt _ w hn, State.setA_of_lt s w hn, Vector.set_set]
  · rw [State.setA_of_not_lt s v hn, State.setA_of_not_lt _ w hn, State.setA_of_not_lt s w hn, State.setSp_setSp]

/-- Writes to two different address registers commute. -/
theorem State.setA_setA_comm (s : State) {n m : RegNum} (v w : Word) (h : n ≠ m) :
    (s.setA n v).setA m w = (s.setA m w).setA n v := by
  have hv : n.val ≠ m.val := fun he => h (Fin.ext he)
  by_cases hn : n.val < 7
  · by_cases hm : m.val < 7
    · rw [State.setA_of_lt s v hn, State.setA_of_lt _ w hm, State.setA_of_lt s w hm, State.setA_of_lt _ v hn,
        Vector.set_comm _ _ hv]
    · rw [State.setA_of_not_lt _ w hm, State.setA_of_not_lt s w hm, State.setA_setSp_comm s v w hn]
  · have hm : m.val < 7 := by omega
    rw [State.setA_of_not_lt s v hn, State.setA_of_not_lt _ v hn, State.setA_setSp_comm s w v hm]

theorem State.setD_setA_comm (s : State) (n m : RegNum) (v w : Word) : (s.setD n v).setA m w = (s.setA m w).setD n v := by
  rw [State.setD, State.setD, State.setA_d]
  by_cases hm : m.val < 7
  · rw [State.setA_of_lt _ w hm, State.setA_of_lt s w hm]
  · rw [State.setA_of_not_lt _ w hm, State.setA_of_not_lt s w hm, s.setSp_setRegs w _ s.a, State.setSp_a]

theorem State.setX_addr (s : State) (n : RegNum) (v : Word) : s.setX (8 + n.val) v = s.setA n v := by simp [State.setX]

/-- Writes to a general register and to a different address register commute. -/
theorem State.setX_setA_comm (s : State) {i : Nat} {n : RegNum} (v w : Word) (hi : i < 16) (h : i ≠ 8 + n.val) :
    (s.setX i v).setA n w = (s.setA n w).setX i v := by
  unfold State.setX
  by_cases hd : i < 8
  · simp only [hd, if_true, State.setD_setA_comm]
  · have hne : Fin.ofNat 8 (i - 8) ≠ n := fun he => h (by
      have := congrArg Fin.val he
      simp only [Fin.ofNat] at this
      omega)
    simp only [hd, if_false, State.setA_setA_comm s v w hne]

/-! ## The registers that MOVEM loads -/

/-- The registers of a list, each with the number of its slot, loaded in order with what `s` holds there. -/
def State.loadRegs (s : State) (sz : Size) (base : Word) (l : List (Nat × Nat)) (u : State) : State :=
  l.foldl (fun u p => u.setX p.1 (sz.sext (s.valueAt sz (slotAt sz base p.2)))) u

/-- All that a read of memory depends on, and `pc`. -/
structure SameReads (s t : State) : Prop where
  cfg : t.cfg = s.cfg
  sys : t.sys = s.sys
  mem : t.mem = s.mem
  pc : t.pc = s.pc

theorem SameReads.refl (s : State) : SameReads s s := ⟨rfl, rfl, rfl, rfl⟩

theorem SameReads.trans {s t u : State} (h₁ : SameReads s t) (h₂ : SameReads t u) : SameReads s u :=
  ⟨h₂.cfg.trans h₁.cfg, h₂.sys.trans h₁.sys, h₂.mem.trans h₁.mem, h₂.pc.trans h₁.pc⟩

theorem SameReads.accessible {s t : State} (h : SameReads s t) (p w : Bool) (sz : Size) (a : Word) :
    t.accessible (t.fc p) w sz a = s.accessible (s.fc p) w sz a := by
  rw [State.accessible_congr h.cfg, State.fc_congr h.sys]

theorem sameReads_setX (s : State) (i : Nat) (v : Word) : SameReads s (s.setX i v) := by
  unfold State.setX
  split
  · exact ⟨rfl, rfl, rfl, rfl⟩
  · exact ⟨s.setA_cfg .., s.setA_sys .., s.setA_mem .., s.setA_pc ..⟩

section
variable (s : State) (sz : Size) (base : Word)

theorem sameReads_loadRegs (l : List (Nat × Nat)) (u : State) : SameReads u (s.loadRegs sz base l u) := by
  induction l generalizing u with
  | nil => exact SameReads.refl u
  | cons p l ih => exact (sameReads_setX u p.1 _).trans (ih _)

theorem State.loadRegs_append (l : List (Nat × Nat)) (p : Nat × Nat) (u : State) :
    s.loadRegs sz base (l ++ [p]) u = (s.loadRegs sz base l u).setX p.1 (sz.sext (s.valueAt sz (slotAt sz base p.2))) :=
  List.foldl_concat ..

/-- A base register that is overwritten in the end may be loaded meanwhile or not. -/
theorem State.loadRegs_filter_setA {l : List (Nat × Nat)} (n : RegNum) (v : Word) (u : State) (hl : ∀ p ∈ l, p.1 < 16) :
    (s.loadRegs sz base (l.filter fun p => some (8 + n.val) != some p.1) u).setA n v = (s.loadRegs sz base l u).setA n v := by
  induction l using List.reverseRecOn with
  | nil => rfl
  | append_singleton l p ih =>
    have hrest := ih fun q hq => hl q (List.mem_append_left _ hq)
    rw [List.filter_append, State.loadRegs_append]
    by_cases hbase : p.1 = 8 + n.val
    · rw [List.filter_cons_of_neg (by simp [hbase]), List.filter_nil, List.append_nil, hrest, hbase, State.setX_addr,
        State.setA_setA_same]
    · have hp : p.1 < 16 := hl p (by simp)
      rw [List.filter_cons_of_pos (by simpa using Ne.symm hbase), List.filter_nil, State.loadRegs_append,
        State.setX_setA_comm _ _ _ hp hbase, hrest, State.setX_setA_comm _ _ _ hp hbase]

end

/-- MOVEM's loads, each of which can be read: register after register, but for the one skipped. -/
theorem movemLoad_ok {s u : State} {p : Bool} {sz : Size} {skip : Option Nat} {base : Word} {regs : List Nat} {m : Nat}
    (hu : SameReads s u)
    (h : ∀ k, m ≤ k → k < m + regs.length → s.accessible (s.fc p) false sz (slotAt sz base k) = true) :
    (movemLoad p sz skip (slotAt sz base m) regs).run u =
      .ok (slotAt sz base (m + regs.length))
        (s.loadRegs sz base ((regs.zipIdx m).filter fun p => skip != some p.1) u) := by
  induction regs generalizing u m with
  | nil => rfl
  | cons i regs ih =>
    rw [List.length_cons] at h
    have hread := memRead_ok ((hu.accessible p false sz _).trans (h m (by omega) (by omega)))
    rw [State.valueAt_congr hu.cfg hu.mem] at hread
    have hrest := fun {t : State} (ht : SameReads s t) => ih (m := m + 1) ht fun k hk hlt => h k (by omega) (by omega)
    rw [slotAt_succ, show m + 1 + regs.length = m + (i :: regs).length by rw [List.length_cons]; omega] at hrest
    rw [movemLoad, run_bind_ok (EStateM.run_get u), run_bind_ok hread, List.zipIdx_cons]
    by_cases hi : skip = some i
    · rw [List.filter_cons_of_neg (by simp [hi]), if_neg (by simp [hi])]
      exact hrest hu
    · rw [List.filter_cons_of_pos (by simpa using hi), if_pos (by simpa using hi)]
      exact (run_bind_ok (EStateM.run_modify _ u)).trans (hrest (hu.trans (sameReads_setX u i _)))

/-! ## The instruction -/

theorem exec_movemToReg_control {s : State} {long : Bool} {mask : Word16} {ea : Ea} (hk : ea.kind.isControl = true) :
    exec (.movemToReg long mask ea) s =
      runInstr (controlAddress 2 ea >>= fun a =>
        movemLoad (ea.kind == .pcDisp || ea.kind == .pcIndex) (Size.ofLong long) none a (maskBits mask) >>= fun b =>
        movemExtra (ea.kind == .pcDisp || ea.kind == .pcIndex) b >>= fun _ =>
        advance (Instr.movemToReg long mask ea).words) s := by
  cases ea with
  | postInc n => cases hk
  | _ => rfl

theorem exec_movemToReg_postInc (s : State) (long : Bool) (mask : Word16) (n : RegNum) :
    exec (.movemToReg long mask (.postInc n)) s =
      runInstr (movemLoad false (Size.ofLong long) (some (8 + n.val)) (s.getA n) (maskBits mask) >>= fun a =>
        movemExtra false a >>= fun _ => modify (fun u => u.setA n a) >>= fun _ => advance 2) s := rfl

/-- MOVEM's loads and the read beyond them, where the platform has it (R183; 93_implementation_defined.md U19). -/
theorem movemLoad_extra_ok {s : State} {p : Bool} {sz : Size} {a : Word} {regs : List Nat} (skip : Option Nat)
    (h : ∀ j < regs.length, s.accessible (s.fc p) false sz (slotAt sz a j) = true)
    (hx : s.cfg.movemReadsExtra = true → s.accessible (s.fc p) false .w (slotAt sz a regs.length) = true) :
    let t := s.loadRegs sz a (regs.zipIdx.filter fun p => skip != some p.1) s
    (movemLoad p sz skip a regs).run s = .ok (slotAt sz a regs.length) t ∧
      (movemExtra p (slotAt sz a regs.length)).run t = .ok () t := by
  intro t
  have ht : SameReads s t := sameReads_loadRegs s sz a _ s
  have hload := movemLoad_ok (skip := skip) (regs := regs) (m := 0) (SameReads.refl s) fun k _ hk => h k (by omega)
  rw [slotAt_zero, Nat.zero_add] at hload
  exact ⟨hload, movemExtra_ok fun hc => (ht.accessible p false .w _).trans (hx (ht.cfg ▸ hc))⟩

theorem mem_maskBits_lt {mask : Word16} {i : Nat} (h : i ∈ maskBits mask) : i < 16 :=
  List.mem_range.1 (List.mem_filter.1 h).1

end Sys2Proof.Machine
end

section
/-! PROOFS. The statements of 41_data_movement.md. -/

namespace Sys2Proof.Machine

/-- Settles O17: neither the operands' resolution nor the store changes `pc` or the flags. -/
theorem moveCompletes : Obligations.MoveCompletes := by
  intro s t u sz src dst l m hs hr hd hw v i
  have hstores : StoresOnly sz m v u (u.putAt sz v m) := storesOnly_putAt hw
  have hsource := resolves_effect hs
  have hdest := resolves_effect hd
  have hpc : (u.putAt sz v m).pc = s.pc := hstores.same.pc.trans (hdest.pc.trans hsource.pc)
  have hccr : (u.putAt sz v m).ccr = s.ccr := hstores.same.ccr.trans (hdest.ccr.trans hsource.ccr)
  have hbody := moveBody_ok hs hr hd hw
  rw [hccr] at hbody
  have hexec : exec i s = runInstr (moveBody sz src dst >>= fun _ => advance i.words) s := by cases sz <;> rfl
  exact ⟨u.putAt sz v m, hexec.trans (runInstr_advance hbody hpc _), hstores⟩

/-- Settles O18: the three that read an operand differ in the value they write only. -/
theorem addressRegisterWrites : Obligations.AddressRegisterWrites := by
  refine ⟨?operand, fun s t r ea a h => ?lea⟩
  case operand =>
    intro s t r ea long l hs hr v next
    refine ⟨?movea, runInstr_readEa_setA hs hr r (fun u w => u.getA r + (Size.ofLong long).sext w) _,
      runInstr_readEa_setA hs hr r (fun u w => u.getA r - (Size.ofLong long).sext w) _⟩
    cases long with
    | true => exact runInstr_readEa_setA hs hr r (fun _ w => Size.sext .l w) _
    | false => exact runInstr_readEa_setA hs hr r (fun _ w => Size.sext .w w) _
  case lea =>
    have hpc : (t.setA r a).pc = s.pc := (t.setA_pc r a).trans (controlResolves_state h).pc
    exact runInstr_ok ((run_bind_ok h).trans ((run_bind_ok (EStateM.run_modify _ t)).trans (advance_ok hpc _)))

/-- Settles O20: a control operand is resolved without a change of state, so the push starts from `s`. -/
theorem pushesAddress : Obligations.PushesAddress := by
  intro s top hacc
  have hpush : ∀ v, (push .l v).run s = .ok () (s.pushed .l v) := fun v => push_ok hacc
  refine ⟨fun ea a hea => ⟨⟨s.pushed .l a, ?pea, storesOnly_pushed hacc a⟩,
    ⟨s.pushed .l _, ?jsr, storesOnly_pushed hacc _⟩⟩, fun d => ⟨s.pushed .l _, ?bsr, storesOnly_pushed hacc _⟩⟩
  case pea =>
    exact runInstr_ok ((run_bind_ok hea).trans ((run_bind_ok (hpush a)).trans (advance_ok (s.pushed_pc .l a) _)))
  case jsr =>
    exact runInstr_ok ((run_bind_ok hea).trans ((run_bind_ok (EStateM.run_get s)).trans
      ((run_bind_ok (hpush _)).trans (jump_run a _))))
  case bsr =>
    exact runInstr_ok ((run_bind_ok (EStateM.run_get s)).trans ((run_bind_ok (hpush _)).trans (jump_run _ _)))

/-- Settles O21: each is a straight line of register and flag writes; of these only a write to an address register, which
may be a stack pointer, needs the lemma that it leaves `pc` alone. -/
theorem registerOnly : Obligations.RegisterOnly := by
  intro s x y v q b w h pc
  have haa : ((s.setA x (s.getA y)).setA y (s.getA x)).pc = s.pc := by simp
  have hda : ((s.setD x (s.getA y)).setA y (s.getD x)).pc = s.pc := by simp
  exact ⟨rfl, rfl, rfl, rfl, rfl, runInstr_ok ((run_bind_ok rfl).trans (advance_ok haa 1)),
    runInstr_ok ((run_bind_ok rfl).trans (advance_ok hda 1)), rfl⟩

/-- Settles O22: A7 is the stack pointer itself, so UNLK A7 increments the value it has just loaded. -/
theorem linkAndUnlink : Obligations.LinkAndUnlink := by
  refine fun s r d => ⟨fun h => ⟨_, exec_link h, ?stored⟩, fun h => ?unlk⟩
  case stored => exact storesOnly_pushed (sz := .l) h _
  case unlk =>
    rw [exec_unlk h]
    by_cases hr : r = 7
    · subst hr
      rw [State.sp_setA_seven, if_pos rfl]
    · rw [State.sp_setA_ne _ _ hr, State.sp_setSp, if_neg hr]

/-- Settles O23: the values go to the slots of one block, from its start upwards or from its end downwards. -/
theorem movemStores : Obligations.MovemStores := by
  intro s long mask ea n a sz regs up down
  have hlen : regs.length ≤ 16 := maskBits_length_le mask
  refine ⟨fun hea hacc => ?rising, fun hacc => ?falling⟩
  case rising =>
    have hrun := movemUp_ok hacc
    generalize hl : (regs.map fun i => sz.low (s.getX i)).zipIdx = l at hrun
    have hslots : l.map Prod.snd = List.range regs.length := by rw [← hl, zipIdx_slots, List.length_map]
    have hlt : ∀ k ∈ l.map Prod.snd, k < regs.length := fun k hk => List.mem_range.1 (hslots ▸ hk)
    have hsame := sameControl_storeSlots s sz a l
    refine ⟨s.storeSlots sz a l, ?_, hsame, s.storeSlots_d sz a l, s.bytesKept_storeSlots sz a hlt, fun hw hb j hj => ?_⟩
    · rw [exec_movemToMem_control (isControl_of_controlResolves hea)]
      exact runInstr_ok ((run_bind_ok hea).trans ((run_bind_ok hrun).trans (advance_ok hsame.pc _)))
    · have hmem := mem_zipIdx_map (fun i => sz.low (s.getX i)) hj
      exact s.valueAt_storeSlots sz a hw hb hlen hlt (hslots ▸ List.nodup_range) (hl ▸ hmem)
  case falling =>
    have hrun := movemDown_ok (n := n) hacc
    generalize hl : descending (regs.map fun i => sz.low (s.movemValue sz n (15 - i))) = l at hrun
    have hslots : l.map Prod.snd = (List.range regs.length).reverse := by rw [← hl, descending_slots, List.length_map]
    have hlt : ∀ k ∈ l.map Prod.snd, k < regs.length := fun k hk =>
      List.mem_range.1 (List.mem_reverse.1 (hslots ▸ hk))
    have hnodup : (l.map Prod.snd).Nodup := hslots ▸ List.nodup_reverse.2 List.nodup_range
    have hsame := sameControl_storeSlots s sz (s.getA n - BitVec.ofNat 32 (sz.bytes * regs.length)) l
    refine ⟨_, ?_, hsame, s.storeSlots_d sz _ l, s.bytesKept_storeSlots sz _ hlt, fun hw hb j hj => ?_⟩
    · exact runInstr_ok ((run_bind_ok (EStateM.run_get s)).trans ((run_bind_ok hrun).trans
        ((run_bind_ok (EStateM.run_modify _ _)).trans (advance_ok ((State.setA_pc ..).trans hsame.pc) 2))))
    · have hmem := mem_descending_map (fun i => sz.low (s.movemValue sz n (15 - i))) hj
      have hvalue := s.valueAt_storeSlots sz (s.getA n - BitVec.ofNat 32 (sz.bytes * regs.length)) hw hb hlen hlt hnodup
        (hl ▸ hmem)
      rwa [slotAt_sub_last sz _ hj, State.movemValue_eq] at hvalue

/-- Settles O24: no load changes what a later one reads, and a load of the base register is overwritten in the end. -/
theorem movemLoads : Obligations.MovemLoads := by
  intro s long mask ea n a sz regs program addr loaded
  have hloaded : ∀ b, loaded b regs = s.loadRegs sz b regs.zipIdx s := fun b => by
    rw [List.zipIdx_eq_zip_range', ← List.range_eq_range']
    rfl
  refine ⟨fun _ hea hacc hx => ?control, fun hacc hx => ?postInc⟩
  case control =>
    obtain ⟨hload, hextra⟩ := movemLoad_extra_ok none hacc hx
    have hall : (regs.zipIdx.filter fun p => (none : Option Nat) != some p.1) = regs.zipIdx :=
      List.filter_eq_self.2 fun _ _ => rfl
    rw [hall] at hload hextra
    rw [exec_movemToReg_control (isControl_of_controlResolves hea), hloaded]
    exact runInstr_ok ((run_bind_ok hea).trans ((run_bind_ok hload).trans ((run_bind_ok hextra).trans
      (advance_ok (sameReads_loadRegs s sz a _ s).pc _))))
  case postInc =>
    obtain ⟨hload, hextra⟩ := movemLoad_extra_ok (some (8 + n.val)) hacc hx
    have hregs : ∀ p ∈ regs.zipIdx, p.1 < 16 := fun p hp => mem_maskBits_lt (List.fst_mem_of_mem_zipIdx hp)
    have hbase := s.loadRegs_filter_setA sz (s.getA n) n (addr (s.getA n) regs.length) s hregs
    rw [exec_movemToReg_postInc, hloaded, ← hbase]
    exact runInstr_ok ((run_bind_ok hload).trans ((run_bind_ok hextra).trans ((run_bind_ok (EStateM.run_modify _ _)).trans
      (advance_ok ((State.setA_pc ..).trans (sameReads_loadRegs s sz _ _ s).pc) 2))))

/-- Settles O25: the bytes go to every second slot of a block of bytes, or come from there. -/
theorem movepTransfers : Obligations.MovepTransfers := by
  intro s dr ar long d k a
  have hk : (Size.ofLong long).bytes = k := by cases long <;> rfl
  let base := s.getA ar + d.signExtend 32
  refine ⟨fun hacc => ?store, fun hacc => ?load⟩
  case store =>
    let bs := bytesOf (Size.ofLong long) (s.getD dr)
    have hlen : bs.length = k := (bytesOf_length ..).trans hk
    have haddr : ∀ j, slotAt .b base (2 * j) = a j := fun j => slotAt_byte base (2 * j)
    have hrun := movepStore_ok (s := s) (a := base) (bs := bs) fun j hj => by
      rw [haddr]
      exact hacc j (hlen ▸ hj)
    have hsame := sameControl_storeSlots s .b base (movepSlots 0 bs)
    refine ⟨s.storeSlots .b base (movepSlots 0 bs), ?exec, hsame, s.storeSlots_d .b base _, fun x hx => ?outside,
      fun hw hb j hj => ?inside⟩
    case exec =>
      exact runInstr_ok ((run_bind_ok (EStateM.run_get s)).trans ((run_bind_ok hrun).trans (advance_ok hsame.pc 2)))
    case outside =>
      refine s.byteAt_storeSlots_outside .b base fun p hp i hi => ?_
      obtain ⟨j, hj, hslot⟩ := mem_movepSlots_slot hp
      obtain rfl : i = 0 := Nat.lt_one_iff.1 hi
      rw [BitVec.add_zero, hslot, haddr]
      exact hx j (hlen ▸ hj)
    case inside =>
      have hj' : j < bs.length := hlen.symm ▸ hj
      have hle : bs.length ≤ 4 := by rw [hlen]; cases long <;> decide
      rw [← haddr, s.byteAt_storeSlots_movep base hw hb hle hj', getElem_bytesOf, byteOfValue, hk]
  case load =>
    have hrun : (movepLoad dr base k).run s = .ok () (s.setD dr (s.movepLoaded base k (s.getD dr))) := movepLoad_ok hacc
    have hexec : exec (.movep dr false long ar d) s =
        .next { s.setD dr (s.movepLoaded base k (s.getD dr)) with pc := s.pc + 4#32 } := by
      rw [← hk] at hrun ⊢
      exact runInstr_ok ((run_bind_ok (EStateM.run_get s)).trans ((run_bind_ok hrun).trans (advance_ok rfl 2)))
    have ha0 : a 0 = base := BitVec.add_zero base
    rw [hexec, ha0]
    cases long with
    | true => rw [show k = 4 from rfl, State.movepLoaded_four]; rfl
    | false => rw [show k = 2 from rfl, State.movepLoaded_two]; rfl

end Sys2Proof.Machine
end

section
/-! SUPPORT. Operands of a size as numbers, and what addition and subtraction depend on (42_integer_arithmetic.md R200 to
R203). -/

namespace Sys2Proof.Machine

/-! ## The low part, the most significant bit, zero -/

theorem Size.toNat_low (sz : Size) (v : Word) : (sz.low v).toNat = v.toNat % 2 ^ sz.bits := by
  have hlt := v.isLt
  cases sz <;> simp only [Size.low, Size.bits, BitVec.toNat_setWidth, BitVec.extractLsb'_toNat, Nat.shiftRight_zero] <;> omega

theorem Size.toNat_low_lt (sz : Size) (v : Word) : (sz.low v).toNat < 2 ^ sz.bits :=
  Size.toNat_low sz v ▸ Nat.mod_lt _ (Nat.two_pow_pos _)

/-- The most significant bit tells the upper half of the numbers of a size (00_scope.md R9). -/
theorem Size.top_eq_decide (sz : Size) (v : Word) : Size.top sz v = decide (2 ^ (sz.bits - 1) ≤ (sz.low v).toNat) := by
  have hlt := v.isLt
  rw [Size.toNat_low, Size.top, BitVec.getLsbD, Nat.testBit_eq_decide_div_mod_eq]
  refine decide_eq_decide.2 ?_
  cases sz <;> simp only [Size.bits] <;> omega

theorem Size.zero_eq_decide (sz : Size) (v : Word) : Size.zero sz v = decide (v.toNat % 2 ^ sz.bits = 0) := by
  rw [Size.zero, ← Size.toNat_low, Bool.beq_eq_decide_eq]
  exact decide_eq_decide.2 BitVec.toNat_eq

@[simp] theorem Size.top_low (sz : Size) (v : Word) : Size.top sz (sz.low v) = Size.top sz v := by
  rw [Size.top_eq_decide, Size.low_low, Size.top_eq_decide]

/-- The two halves of the numbers of a size. -/
theorem Size.two_pow_bits (sz : Size) : 2 ^ sz.bits = 2 * 2 ^ (sz.bits - 1) := by cases sz <;> rfl

/-! ## Addition and subtraction -/

theorem addOf_res_toNat (sz : Size) (s d : Word) (x : Bool) :
    (addOf sz s d x).res.toNat = ((sz.low s).toNat + (sz.low d).toNat + x.toNat) % 2 ^ sz.bits := by
  have hdvd : 2 ^ sz.bits ∣ 2 ^ 32 := Nat.pow_dvd_pow 2 (by cases sz <;> decide)
  rw [addOf, Size.toNat_low, BitVec.toNat_ofNat, Nat.mod_mod_of_dvd _ hdvd]

theorem subOf_res_toNat (sz : Size) (s d : Word) (x : Bool) :
    ((subOf sz s d x).res.toNat : Int) = ((sz.low d).toNat - (sz.low s).toNat - x.toNat : Int) % (2 ^ sz.bits : Nat) := by
  have hdvd : ((2 ^ sz.bits : Nat) : Int) ∣ ((2 ^ 32 : Nat) : Int) :=
    Int.natCast_dvd_natCast.2 (Nat.pow_dvd_pow 2 (by cases sz <;> decide))
  rw [subOf, Size.toNat_low, Int.natCast_emod, BitVec.toNat_ofInt, Int.toNat_of_nonneg (Int.emod_nonneg _ (by decide)),
    Int.emod_emod_of_dvd _ hdvd]

/-- A sum that is carried out of has lost `2 ^ sz.bits`. -/
theorem addOf_res_eq_ite (sz : Size) (s d : Word) (x : Bool) :
    let t := (sz.low s).toNat + (sz.low d).toNat + x.toNat
    (addOf sz s d x).res.toNat = if 2 ^ sz.bits ≤ t then t - 2 ^ sz.bits else t := by
  intro t
  have hs := Size.toNat_low_lt sz s
  have hd := Size.toNat_low_lt sz d
  have hx := x.toNat_le
  rw [addOf_res_toNat]
  split
  · rw [Nat.mod_eq_sub_mod ‹_›, Nat.mod_eq_of_lt (by omega)]
  · exact Nat.mod_eq_of_lt (by omega)

/-- A difference that borrows has gained `2 ^ sz.bits`. -/
theorem subOf_res_eq_ite (sz : Size) (s d : Word) (x : Bool) :
    let u := (sz.low s).toNat + x.toNat
    (subOf sz s d x).res.toNat = if (sz.low d).toNat < u then (sz.low d).toNat + 2 ^ sz.bits - u else (sz.low d).toNat - u := by
  intro u
  have hs := Size.toNat_low_lt sz s
  have hd := Size.toNat_low_lt sz d
  have hx := x.toNat_le
  have hres := subOf_res_toNat sz s d x
  generalize 2 ^ sz.bits = m at *
  split
  · rw [← Int.add_emod_right, Int.emod_eq_of_lt] at hres <;> omega
  · rw [Int.emod_eq_of_lt] at hres <;> omega

/-- C of an addition, from the most significant bits of the operands and the result (R201). -/
theorem carry_formula {h u v x : Nat} (hu : u < 2 * h) (hv : v < 2 * h) (hx : x ≤ 1) :
    let r := if 2 * h ≤ u + v + x then u + v + x - 2 * h else u + v + x
    decide (2 * h ≤ u + v + x) =
      ((decide (h ≤ u) && decide (h ≤ v)) || (!decide (h ≤ r) && decide (h ≤ v)) || (decide (h ≤ u) && !decide (h ≤ r))) := by
  intro r
  rw [Bool.eq_iff_iff]
  simp only [Bool.or_eq_true, Bool.and_eq_true, Bool.not_eq_true', decide_eq_true_eq, decide_eq_false_iff_not, r]
  split <;> omega

/-- C of a subtraction of `u` from `v`, from the most significant bits of the operands and the result (R202). -/
theorem borrow_formula {h u v x : Nat} (hu : u < 2 * h) (hv : v < 2 * h) (hx : x ≤ 1) :
    let r := if v < u + x then v + 2 * h - (u + x) else v - (u + x)
    decide (v < u + x) =
      ((decide (h ≤ u) && !decide (h ≤ v)) || (decide (h ≤ r) && !decide (h ≤ v)) || (decide (h ≤ u) && decide (h ≤ r))) := by
  intro r
  rw [Bool.eq_iff_iff]
  simp only [Bool.or_eq_true, Bool.and_eq_true, Bool.not_eq_true', decide_eq_true_eq, decide_eq_false_iff_not, r]
  split <;> omega

/-- A result of an addition or subtraction has no bits above its size. -/
theorem low_addOf_res (sz : Size) (s d : Word) (x : Bool) : sz.low (addOf sz s d x).res = (addOf sz s d x).res :=
  Size.low_low sz _

theorem low_subOf_res (sz : Size) (s d : Word) (x : Bool) : sz.low (subOf sz s d x).res = (subOf sz s d x).res :=
  Size.low_low sz _

theorem addOf_c (sz : Size) (s d : Word) (x : Bool) :
    (addOf sz s d x).c = ((Size.top sz s && Size.top sz d) || (!Size.top sz (addOf sz s d x).res && Size.top sz d) ||
      (Size.top sz s && !Size.top sz (addOf sz s d x).res)) := by
  have hs := Size.toNat_low_lt sz s
  have hd := Size.toNat_low_lt sz d
  have hres := addOf_res_eq_ite sz s d x
  rw [Size.two_pow_bits] at hs hd hres
  have hc : (addOf sz s d x).c = decide (2 * 2 ^ (sz.bits - 1) ≤ (sz.low s).toNat + (sz.low d).toNat + x.toNat) := by
    rw [← Size.two_pow_bits]; rfl
  rw [hc, Size.top_eq_decide, Size.top_eq_decide, Size.top_eq_decide sz (addOf sz s d x).res, low_addOf_res, hres]
  exact carry_formula hs hd x.toNat_le

theorem subOf_c_eq_decide (sz : Size) (s d : Word) (x : Bool) :
    (subOf sz s d x).c = decide ((sz.low d).toNat < (sz.low s).toNat + x.toNat) :=
  decide_eq_decide.2 (by omega)

theorem subOf_c (sz : Size) (s d : Word) (x : Bool) :
    (subOf sz s d x).c = ((Size.top sz s && !Size.top sz d) || (Size.top sz (subOf sz s d x).res && !Size.top sz d) ||
      (Size.top sz s && Size.top sz (subOf sz s d x).res)) := by
  have hs := Size.toNat_low_lt sz s
  have hd := Size.toNat_low_lt sz d
  have hres := subOf_res_eq_ite sz s d x
  rw [Size.two_pow_bits] at hs hd hres
  rw [subOf_c_eq_decide, Size.top_eq_decide, Size.top_eq_decide, Size.top_eq_decide sz (subOf sz s d x).res, low_subOf_res,
    hres]
  exact borrow_formula hs hd x.toNat_le

/-- V as R201 says it and as its formula has it. -/
theorem addOverflow_formula (s d r : Bool) : (s == d && r != s) = ((s && d && !r) || (!s && !d && r)) := by
  revert s d r; decide

/-- V as R202 says it and as its formula has it. -/
theorem subOverflow_formula (s d r : Bool) : (s != d && r != d) = ((!s && d && !r) || (s && !d && r)) := by
  revert s d r; decide

theorem addOf_z (sz : Size) (s d : Word) (x : Bool) : (addOf sz s d x).z = ((addOf sz s d x).res == 0#32) :=
  congrArg (· == 0#32) (low_addOf_res sz s d x)

theorem subOf_z (sz : Size) (s d : Word) (x : Bool) : (subOf sz s d x).z = ((subOf sz s d x).res == 0#32) :=
  congrArg (· == 0#32) (low_subOf_res sz s d x)

/-! ## Subtraction from zero -/

theorem Size.low_zero (sz : Size) : sz.low 0#32 = 0#32 := by cases sz <;> rfl

theorem subOf_zero_v (sz : Size) (d : Word) (x : Bool) :
    (subOf sz d 0#32 x).v = (Size.top sz d && Size.top sz (subOf sz d 0#32 x).res) := by
  have htop : Size.top sz 0#32 = false := BitVec.getLsbD_zero
  have hv : (subOf sz d 0#32 x).v =
      (Size.top sz d != Size.top sz 0#32 && Size.top sz (subOf sz d 0#32 x).res != Size.top sz 0#32) := rfl
  rw [hv, htop, Bool.bne_false, Bool.bne_false]

theorem subOf_zero_c (sz : Size) (d : Word) (x : Bool) :
    (subOf sz d 0#32 x).c = (Size.top sz d || Size.top sz (subOf sz d 0#32 x).res) := by
  have htop : Size.top sz 0#32 = false := BitVec.getLsbD_zero
  rw [subOf_c, htop]
  cases Size.top sz d <;> simp

/-- Without borrow, V is set only for the operand 100…0, which is its own negation. -/
theorem subOf_zero_v_iff (sz : Size) (d : Word) :
    (subOf sz d 0#32 false).v = true ↔ (sz.low d).toNat = 2 ^ (sz.bits - 1) := by
  have hd := Size.toNat_low_lt sz d
  have hres := subOf_res_eq_ite sz d 0#32 false
  rw [Size.two_pow_bits] at hd hres
  rw [subOf_zero_v, Bool.and_eq_true, Size.top_eq_decide, Size.top_eq_decide, low_subOf_res, decide_eq_true_iff,
    decide_eq_true_iff, hres, Size.low_zero]
  simp only [BitVec.toNat_ofNat, Nat.zero_mod, Bool.toNat_false, Nat.add_zero, Nat.zero_add]
  split <;> omega

/-- Without borrow, C is set for every nonzero operand. -/
theorem subOf_zero_c_iff (sz : Size) (d : Word) : (subOf sz d 0#32 false).c = true ↔ (sz.low d).toNat ≠ 0 := by
  rw [subOf_c_eq_decide, Size.low_zero, decide_eq_true_iff]
  exact Nat.pos_iff_ne_zero

/-! ## Only the low parts of the operands count -/

theorem Size.top_congr {sz : Size} {v w : Word} (h : sz.low v = sz.low w) : Size.top sz v = Size.top sz w := by
  rw [← Size.top_low, h, Size.top_low]

theorem addOf_congr {sz : Size} {s s' d d' : Word} (hs : sz.low s' = sz.low s) (hd : sz.low d' = sz.low d) (x : Bool) :
    addOf sz s' d' x = addOf sz s d x := by
  simp only [addOf, hs, hd, Size.top_congr hs, Size.top_congr hd]

theorem subOf_congr {sz : Size} {s s' d d' : Word} (hs : sz.low s' = sz.low s) (hd : sz.low d' = sz.low d) (x : Bool) :
    subOf sz s' d' x = subOf sz s d x := by
  simp only [subOf, hs, hd, Size.top_congr hs, Size.top_congr hd]

theorem Ccr.logic_congr (old : Ccr) {sz : Size} {v w : Word} (h : sz.low v = sz.low w) : old.logic sz v = old.logic sz w := by
  simp only [Ccr.logic, Size.zero, Size.top_congr h, h]

theorem Size.low_and (sz : Size) (v w : Word) : sz.low (v &&& w) = sz.low v &&& sz.low w := by
  cases sz <;> simp [Size.low, BitVec.extractLsb'_and, BitVec.setWidth_and]

theorem Size.low_or (sz : Size) (v w : Word) : sz.low (v ||| w) = sz.low v ||| sz.low w := by
  cases sz <;> simp [Size.low, BitVec.extractLsb'_or, BitVec.setWidth_or]

theorem Size.low_xor (sz : Size) (v w : Word) : sz.low (v ^^^ w) = sz.low v ^^^ sz.low w := by
  cases sz <;> simp [Size.low, BitVec.extractLsb'_xor, BitVec.setWidth_xor]

end Sys2Proof.Machine
end

section
/-! SUPPORT. The low part as all that a write leaves, and operations on operands as instructions: how the common actions of
42_integer_arithmetic.md and 43_logical.md end where their operands can be reached. -/

namespace Sys2Proof.Machine

/-! ## A write of a size takes the low part of its value -/

theorem Size.merge_low (sz : Size) (old v : Word) : sz.merge old (sz.low v) = sz.merge old v := by
  cases sz with
  | b => exact congrArg (old.extractLsb' 8 24 ++ ·) (extractLsb'_setWidth (by decide) _)
  | w => exact congrArg (old.extractLsb' 16 16 ++ ·) (extractLsb'_setWidth (by decide) _)
  | l => rfl

theorem bytesOf_low (sz : Size) (v : Word) : bytesOf sz (sz.low v) = bytesOf sz v := by
  cases sz with
  | b => exact congrArg (fun b : Byte => [b]) (extractLsb'_setWidth (by decide) _)
  | w =>
    have hhigh : (Size.low .w v).extractLsb' 8 8 = v.extractLsb' 8 8 := by
      rw [Size.low, BitVec.extractLsb'_setWidth_of_le (by decide), BitVec.extractLsb'_extractLsb'_of_le (by decide)]
    have hlow : (Size.low .w v).extractLsb' 0 8 = v.extractLsb' 0 8 := by
      rw [Size.low, BitVec.extractLsb'_setWidth_of_le (by decide), BitVec.extractLsb'_extractLsb'_of_le (by decide)]
    rw [bytesOf, hhigh, hlow, bytesOf]
  | l => rfl

theorem State.setDPart_congr (s : State) {sz : Size} (n : RegNum) {v w : Word} (h : sz.low v = sz.low w) :
    s.setDPart sz n v = s.setDPart sz n w := by
  rw [State.setDPart, ← Size.merge_low, h, Size.merge_low, State.setDPart]

theorem State.putAt_congr (s : State) {sz : Size} {v w : Word} (l : Loc) (h : sz.low v = sz.low w) :
    s.putAt sz v l = s.putAt sz w l := by
  have hbytes : bytesOf sz v = bytesOf sz w := by rw [← bytesOf_low, h, bytesOf_low]
  cases l with
  | dreg n => exact s.setDPart_congr n h
  | mem a p => simp only [State.putAt, State.store, hbytes]
  | areg n => rfl
  | imm x => rfl

/-! ## What an operation computes -/

/-- On operands whose low parts are those of `s` and `d`, the operation `f` gives the low part of `x` and the flags `c`. -/
def Computes (sz : Size) (f : Word → Word → Ccr → Word × Ccr) (s d : Word) (old : Ccr) (x : Word) (c : Ccr) : Prop :=
  ∀ s' d', sz.low s' = sz.low s → sz.low d' = sz.low d → sz.low (f s' d' old).1 = sz.low x ∧ (f s' d' old).2 = c

section
variable (sz : Size) (s d : Word) (old : Ccr)

theorem computes_addOp :
    Computes sz (addOp sz) s d old (addOf sz s d false).res (Ccr.arith (addOf sz s d false)) := by
  intro s' d' hs hd
  rw [addOp, addOf_congr hs hd]
  exact ⟨rfl, rfl⟩

theorem computes_subOp :
    Computes sz (subOp sz) s d old (subOf sz s d false).res (Ccr.arith (subOf sz s d false)) := by
  intro s' d' hs hd
  rw [subOp, subOf_congr hs hd]
  exact ⟨rfl, rfl⟩

/-- A logical operation that works bit by bit (43_logical.md R251 to R256). -/
theorem computes_logicOp {f : Word → Word → Word} (hf : ∀ v w, sz.low (f v w) = f (sz.low v) (sz.low w)) :
    Computes sz (logicOp sz f) s d old (f s d) (old.logic sz (f s d)) := by
  intro s' d' hs hd
  have hlow : sz.low (f s' d') = sz.low (f s d) := by rw [hf, hs, hd, ← hf]
  exact ⟨(Size.low_low sz _).trans hlow, old.logic_congr hlow⟩

end

/-! ## Instructions that write a register or an operand -/

/-- An instruction whose first action completes goes on from there. -/
theorem runInstr_bind_ok {α : Type} {x : M α} {f : α → M Unit} {s t : State} {a : α} (h : x.run s = .ok a t) :
    runInstr (x >>= f) s = runInstr (f a) t := by
  rw [runInstr, run_bind_ok h, runInstr]

/-- The advance after the flags are written. -/
theorem advance_setCcr_ok {s t : State} (h : t.pc = s.pc) (c : Ccr) (n : Nat) :
    (advance n).run (t.setCcr c) = .ok () { t with ccr := c, pc := s.ipAt n } :=
  advance_ok (t := t.setCcr c) h n

/-- An instruction that is privileged on some members, where it may run. -/
theorem runInstr_requireSuper_of {s : State} {p : Cpu → Bool} (h : p s.cfg.cpu = false ∨ s.isSuper = true) (rest : M Unit) :
    runInstr (get >>= fun u => if p u.cfg.cpu = true then requireSuper >>= fun _ => rest else rest) s = runInstr rest s := by
  rw [runInstr_bind_ok (EStateM.run_get s)]
  cases hp : p s.cfg.cpu with
  | false => rfl
  | true => exact runInstr_bind_ok (requireSuper_ok (h.resolve_left (by simp [hp])))

section
variable {s t : State} {k : Nat} {sz : Size} {ea : Ea} {l : Loc} {x : Word} {c : Ccr}

theorem putAt_pc (hs : Resolves s k sz ea l t) (hw : Writable t sz l) (v : Word) : (t.putAt sz v l).pc = s.pc :=
  (storesOnly_putAt hw).same.pc.trans (resolves_effect hs).pc

theorem putAt_ccr (hs : Resolves s k sz ea l t) (hw : Writable t sz l) (v : Word) : (t.putAt sz v l).ccr = s.ccr :=
  (storesOnly_putAt hw).same.ccr.trans (resolves_effect hs).ccr

/-- An instruction that reads an operand and writes it at the same place. -/
theorem runInstr_modifyEa {g : Word → Ccr → Word × Ccr} (hs : Resolves s k sz ea l t) (hr : Readable t sz l)
    (hw : Writable t sz l) (hx : sz.low (g (valueOf t sz l) s.ccr).1 = sz.low x) (hc : (g (valueOf t sz l) s.ccr).2 = c)
    (n : Nat) :
    ∃ w, runInstr (modifyEa k sz ea g >>= fun _ => advance n) s = .next { w with ccr := c, pc := s.ipAt n } ∧
      StoresOnly sz l x t w := by
  have hbody := modifyEa_ok g hs hr hw
  rw [(resolves_effect hs).ccr, t.putAt_congr l hx, hc] at hbody
  exact ⟨t.putAt sz x l, runInstr_advance hbody (putAt_pc hs hw x) n, storesOnly_putAt hw⟩

/-- An immediate operation on an operand. -/
theorem runInstr_immediate {f : Word → Word → Ccr → Word × Ccr} {v : Word} (hs : Resolves s k sz ea l t)
    (hr : Readable t sz l) (hw : Writable t sz l) (hf : Computes sz f v (valueOf t sz l) s.ccr x c) (n : Nat) :
    ∃ w, runInstr (modifyEa k sz ea (f v) >>= fun _ => advance n) s = .next { w with ccr := c, pc := s.ipAt n } ∧
      StoresOnly sz l x t w := by
  obtain ⟨hx, hc⟩ := hf v (valueOf t sz l) rfl rfl
  exact runInstr_modifyEa hs hr hw hx hc n

/-- An operation from a data register to an operand: the register is read before the operand is resolved. -/
theorem runInstr_toEa {f : Word → Word → Ccr → Word × Ccr} {r : RegNum} (hs : Resolves s 1 sz ea l t)
    (hr : Readable t sz l) (hw : Writable t sz l) (hf : Computes sz f (s.getD r) (valueOf t sz l) s.ccr x c) (n : Nat) :
    ∃ w, runInstr (dirOp sz r .toEa ea f >>= fun _ => advance n) s = .next { w with ccr := c, pc := s.ipAt n } ∧
      StoresOnly sz l x t w := by
  obtain ⟨hx, hc⟩ := hf (sz.low (s.getD r)) (valueOf t sz l) (Size.low_low sz _) rfl
  exact runInstr_modifyEa hs hr hw hx hc n

/-- An operation from an operand to a data register. -/
theorem runInstr_toReg {f : Word → Word → Ccr → Word × Ccr} {r : RegNum} (hs : Resolves s 1 sz ea l t)
    (hr : Readable t sz l) (hf : Computes sz f (valueOf t sz l) (s.getD r) s.ccr x c) (n : Nat) :
    runInstr (dirOp sz r .toReg ea f >>= fun _ => advance n) s =
      .next { t.setDPart sz r x with ccr := c, pc := s.ipAt n } := by
  have hsame := resolves_effect hs
  obtain ⟨hx, hc⟩ := hf (valueOf t sz l) (sz.low (s.getD r)) rfl (Size.low_low sz _)
  have hbody := modifyReg_ok (r := r) f hs hr
  rw [hsame.ccr, hsame.getD, t.setDPart_congr r hx, hc] at hbody
  exact runInstr_advance hbody hsame.pc n

/-- An instruction that writes nothing but the flags, from a source operand and the state after reading it. -/
theorem runInstr_readEa_putCcr (hs : Resolves s k sz ea l t) (hr : Readable t sz l) (f : State → Word → Ccr → Ccr) (n : Nat) :
    runInstr (readEa k sz ea >>= fun v => get >>= fun u => putCcr (f u v) >>= fun _ => advance n) s =
      .next { t with ccr := f t (valueOf t sz l) s.ccr, pc := s.ipAt n } := by
  have hsame := resolves_effect hs
  rw [← hsame.ccr]
  exact runInstr_ok <| (run_bind_ok (readEa_ok hs hr)).trans <| (run_bind_ok (EStateM.run_get t)).trans <|
    (run_bind_ok (putCcr_run _ t)).trans <| advance_setCcr_ok hsame.pc _ n

/-- ADDQ and SUBQ on an operand that can be written, which an address register is not (R208). -/
theorem quickOp_of_writable (hs : Resolves s 1 sz ea l t) (hw : Writable t sz l) (onAddr : Word → Word)
    (g : Word → Ccr → Word × Ccr) : quickOp sz ea onAddr g = modifyEa 1 sz ea g := by
  cases ea with
  | an n =>
    have hl : EStateM.Result.ok (Loc.areg n) s = .ok l t := hs
    cases hl
    exact hw.elim
  | _ => rfl

/-- ADDQ and SUBQ on an address register (R208). -/
theorem runInstr_quickOp_an (hsz : sz ≠ .b) (r : RegNum) (onAddr : Word → Word) (g : Word → Ccr → Word × Ccr) (n : Nat) :
    runInstr (quickOp sz (.an r) onAddr g >>= fun _ => advance n) s =
      .next { s.setA r (onAddr (s.getA r)) with pc := s.ipAt n } := by
  have hrun : (quickOp sz (.an r) onAddr g).run s = .ok () (s.setA r (onAddr (s.getA r))) := by
    cases sz with
    | b => exact absurd rfl hsz
    | w => rfl
    | l => rfl
  exact runInstr_advance hrun (s.setA_pc r _) n

/-- The read of a memory destination that MC68000 and MC68008 make before they write it (20_memory.md R71). -/
theorem readBefore_ok (hs : Resolves s k sz ea l t) (hr : s.cfg.cpu.isBaseline = true → Readable t sz l) :
    (readBefore sz l).run t = .ok () t := by
  rw [← (resolves_effect hs).cfg] at hr
  simp only [readBefore, EStateM.run_bind, EStateM.run_get, run_ite]
  split
  · rename_i hb
    rw [readLoc_ok (hr (Bool.and_eq_true_iff.1 hb).1)]
    rfl
  · rfl

/-- Resolving a destination and reading it where the member does. -/
theorem resolve_readBefore_ok {β : Type} (hs : Resolves s k sz ea l t)
    (hr : s.cfg.cpu.isBaseline = true → Readable t sz l) (f : Loc → Unit → M β) :
    (resolveAt k sz ea >>= fun loc => readBefore sz loc >>= f loc).run s = (f l ()).run t :=
  (run_bind_ok hs).trans (run_bind_ok (readBefore_ok hs hr))

end

/-! ## ADDX and SUBX -/

/-- The source is resolved and read before the destination is resolved (R209, R214). -/
theorem runInstr_extendOp {s t u : State} {x y : RegNum} {sz : Size} {mem : Bool} {l m : Loc}
    (hs : PairResolves s sz mem y l t) (hr : Readable t sz l) (hd : PairResolves t sz mem x m u) (hr' : Readable u sz m)
    (hw : Writable u sz m) (op : Word → Word → Bool → Arith) :
    let a := op (valueOf t sz l) (valueOf u sz m) s.ccr.x
    ∃ w, runInstr (extendOp sz x mem y op >>= fun _ => advance 1) s =
        .next { w with ccr := s.ccr.arithX a, pc := s.pc + 2#32 } ∧ StoresOnly sz m a.res u w := by
  intro a
  have hsource := pairResolves_effect hs
  have hdest := pairResolves_effect hd
  have hccr : u.ccr = s.ccr := hdest.ccr.trans hsource.ccr
  have hstores : StoresOnly sz m a.res u (u.putAt sz a.res m) := storesOnly_putAt hw
  have hbody : (extendOp sz x mem y op).run s = .ok () ((u.putAt sz a.res m).setCcr (s.ccr.arithX a)) := by
    unfold extendOp
    rw [run_bind_ok hs, run_bind_ok (readLoc_ok hr), run_bind_ok hd, run_bind_ok (readLoc_ok hr'),
      run_bind_ok (EStateM.run_get u), hccr]
    exact (run_bind_ok (writeLoc_ok hw)).trans (putCcr_run _ _)
  exact ⟨u.putAt sz a.res m,
    runInstr_advance hbody (hstores.same.pc.trans (hdest.pc.trans hsource.pc)) 1, hstores⟩

/-! ## TAS -/

/-- Whether the flags are written before or after the operand makes no difference. -/
theorem State.putAt_setCcr (s : State) (c : Ccr) (sz : Size) (v : Word) (l : Loc) :
    (s.setCcr c).putAt sz v l = (s.putAt sz v l).setCcr c := by
  cases l with
  | mem a p => cases sz <;> rfl
  | dreg n => rfl
  | areg n => rfl
  | imm x => rfl

theorem writable_setCcr {s : State} {sz : Size} {l : Loc} (h : Writable s sz l) (c : Ccr) : Writable (s.setCcr c) sz l := by
  cases l with
  | mem a p => cases p <;> exact h
  | dreg n => exact h
  | areg n => exact h
  | imm x => exact h

theorem exec_tas {s t : State} {ea : Ea} {l : Loc} (hs : Resolves s 1 .b ea l t) (hr : Readable t .b l)
    (hw : Writable t .b l) :
    exec (.tas ea) s =
      .next { t.putAt .b (valueOf t .b l ||| 0x80#32) l with
        ccr := s.ccr.logic .b (valueOf t .b l), pc := s.ipAt (Instr.tas ea).words } := by
  rw [← (resolves_effect hs).ccr]
  refine runInstr_ok <| (run_bind_ok hs).trans <| (run_bind_ok (readLoc_ok hr)).trans <| (run_bind_ok (putCcr_run _ t)).trans <|
    (run_bind_ok (writeLoc_ok (writable_setCcr hw _))).trans ?_
  rw [State.putAt_setCcr]
  exact advance_setCcr_ok (putAt_pc hs hw _) _ _

end Sys2Proof.Machine
end

section
/-! SUPPORT. MULU, MULS, DIVU and DIVS: products and quotients as words, and how a division ends (42_integer_arithmetic.md
R223, R224). -/

namespace Sys2Proof.Machine

/-! ## Products -/

theorem ofNat_unsignedLow_mul (v w : Word) :
    BitVec.ofNat 32 (unsignedLow v * unsignedLow w) =
      (v.extractLsb' 0 16).setWidth 32 * (w.extractLsb' 0 16).setWidth 32 := by
  rw [BitVec.ofNat_mul, unsignedLow, unsignedLow, BitVec.ofNat_toNat, BitVec.ofNat_toNat]

theorem ofInt_signedLow_mul (v w : Word) :
    BitVec.ofInt 32 (signedLow v * signedLow w) =
      (v.extractLsb' 0 16).signExtend 32 * (w.extractLsb' 0 16).signExtend 32 :=
  BitVec.ofInt_mul _ _

/-- A multiplication whose source can be read. -/
theorem runInstr_multiply {s t : State} {r : RegNum} {ea : Ea} {l : Loc} {product : Word → Word → Word} {p : Word}
    (hs : Resolves s 1 .w ea l t) (hr : Readable t .w l) (hp : product (valueOf t .w l) (s.getD r) = p) (n : Nat) :
    runInstr (multiply r ea product >>= fun _ => advance n) s =
      .next { t.setD r p with ccr := s.ccr.logic .l p, pc := s.ipAt n } := by
  have hsame := resolves_effect hs
  have hbody : (multiply r ea product).run s = .ok () ((t.setD r p).setCcr (s.ccr.logic .l p)) := by
    unfold multiply
    rw [run_bind_ok (readEa_ok hs hr), run_bind_ok (EStateM.run_get t), hsame.getD, hp, ← hsame.ccr]
    exact (run_bind_ok (EStateM.run_modify _ t)).trans (putCcr_run _ _)
  exact runInstr_advance hbody hsame.pc n

/-! ## Quotients -/

/-- The division of DIVS or DIVU. -/
def divOp (signed : Bool) : Word → Word → Quotient := if signed then divSigned else divUnsigned

section
variable (signed : Bool) (v d : Word)

theorem divOp_q :
    (divOp signed v d).q =
      if signed then Int.tdiv d.toInt (v.extractLsb' 0 16).toInt else (d.toNat : Int) / ((v.extractLsb' 0 16).toNat : Int) := by
  cases signed <;> rfl

theorem divOp_rem :
    (divOp signed v d).rem =
      if signed then Int.tmod d.toInt (v.extractLsb' 0 16).toInt else (d.toNat : Int) % ((v.extractLsb' 0 16).toNat : Int) := by
  cases signed with
  | false => rfl
  | true =>
    rw [if_pos rfl, Int.tmod_def, Int.mul_comm]
    rfl

/-- A quotient overflows if it does not fit in a word, signed or unsigned. -/
theorem divOp_overflow_iff {q : Int} (hq : (divOp signed v d).q = q) :
    (divOp signed v d).overflow = true ↔ ¬ if signed then -32768 ≤ q ∧ q ≤ 32767 else q ≤ 0xFFFF := by
  subst hq
  cases signed with
  | false =>
    simp only [divOp, divUnsigned, Bool.false_eq_true, if_false, decide_eq_true_eq]
    omega
  | true =>
    simp only [divOp, divSigned, if_true, Bool.or_eq_true, decide_eq_true_eq]
    omega

theorem unsignedLow_eq_zero_iff : unsignedLow v = 0 ↔ v.extractLsb' 0 16 = 0#16 :=
  BitVec.toNat_eq (y := 0#16).symm

end

/-- The flags of a quotient that fits. -/
theorem Ccr.logic_word (old : Ccr) (q : Word16) :
    old.logic .w (q.setWidth 32) = { old with n := q.getLsbD 15, z := q == 0#16, v := false, c := false } := by
  have hlow : (q.setWidth 32).extractLsb' 0 16 = q := extractLsb'_setWidth (by decide) q
  have hn : Size.top .w (q.setWidth 32) = q.getLsbD 15 := by simp [Size.top, Size.bits]
  have hz : Size.zero .w (q.setWidth 32) = (q == 0#16) := by
    rw [Size.zero, Size.low, hlow, Bool.beq_eq_decide_eq, Bool.beq_eq_decide_eq, decide_eq_decide]
    exact ⟨fun h => by rw [← hlow, h]; rfl, fun h => by rw [h]; rfl⟩
  rw [Ccr.logic, hn, hz]

/-! ## A division -/

section
variable {s t : State} {r : RegNum} {ea : Ea} {l : Loc} {op : Word → Word → Quotient}

/-- A quotient that fits: the register holds remainder and quotient. -/
theorem runInstr_divide_fits (hs : Resolves s 1 .w ea l t) (hr : Readable t .w l) (hv : unsignedLow (valueOf t .w l) ≠ 0)
    (ho : (op (valueOf t .w l) (s.getD r)).overflow = false) (n : Nat) :
    let o := op (valueOf t .w l) (s.getD r)
    runInstr (divide r ea n op >>= fun _ => advance n) s =
      .next { t.setD r (BitVec.ofInt 16 o.rem ++ BitVec.ofInt 16 o.q : BitVec 32) with
        ccr := s.ccr.logic .w ((BitVec.ofInt 16 o.q).setWidth 32), pc := s.ipAt n } := by
  intro o
  have hsame := resolves_effect hs
  have hbody : (divide r ea n op).run s = .ok () ((t.setD r (BitVec.ofInt 16 o.rem ++ BitVec.ofInt 16 o.q : BitVec 32)).setCcr
      (s.ccr.logic .w ((BitVec.ofInt 16 o.q).setWidth 32))) := by
    unfold divide
    rw [run_bind_ok (readEa_ok hs hr), run_bind_ok (EStateM.run_get t), hsame.getD, if_neg hv, if_neg (by simp [ho]),
      ← hsame.ccr]
    exact (run_bind_ok (EStateM.run_modify _ t)).trans (putCcr_run _ _)
  exact runInstr_advance hbody hsame.pc n

/-- An overflow: two free flags are drawn, the register keeps its value. -/
theorem runInstr_divide_overflow (hs : Resolves s 1 .w ea l t) (hr : Readable t .w l)
    (hv : unsignedLow (valueOf t .w l) ≠ 0) (ho : (op (valueOf t .w l) (s.getD r)).overflow = true) (n : Nat) :
    runInstr (divide r ea n op >>= fun _ => advance n) s =
      .next { t with
        ccr := { s.ccr with n := Config.freeBit s.draws, z := Config.freeBit (s.draws + 1), v := true, c := false },
        pc := s.ipAt n, draws := s.draws + 2 } := by
  have hsame := resolves_effect hs
  have hbody : (divide r ea n op).run s = .ok () { t with
      ccr := { s.ccr with n := Config.freeBit s.draws, z := Config.freeBit (s.draws + 1), v := true, c := false },
      draws := s.draws + 2 } := by
    unfold divide
    rw [run_bind_ok (readEa_ok hs hr), run_bind_ok (EStateM.run_get t), hsame.getD, if_neg hv, if_pos ho, ← hsame.ccr,
      ← hsame.draws]
    rfl
  exact runInstr_advance hbody hsame.pc n

/-- A divisor of zero: three free flags are drawn, `pc` moves on, and the exception is taken. -/
theorem runInstr_divide_zero (hs : Resolves s 1 .w ea l t) (hr : Readable t .w l) (hv : unsignedLow (valueOf t .w l) = 0)
    (n : Nat) :
    runInstr (divide r ea n op >>= fun _ => advance n) s = takeException (.zeroDivide s.pc) { t with
      ccr := { s.ccr with
        n := Config.freeBit s.draws, z := Config.freeBit (s.draws + 1), v := Config.freeBit (s.draws + 2), c := false },
      pc := s.ipAt n, draws := s.draws + 3 } := by
  have hsame := resolves_effect hs
  have hbody : (divide r ea n op).run s = .error (.exc (.zeroDivide s.pc)) { t with
      ccr := { s.ccr with
        n := Config.freeBit s.draws, z := Config.freeBit (s.draws + 1), v := Config.freeBit (s.draws + 2), c := false },
      pc := s.ipAt n, draws := s.draws + 3 } := by
    unfold divide
    rw [run_bind_ok (readEa_ok hs hr), run_bind_ok (EStateM.run_get t), if_pos hv, ← hsame.ccr, ← hsame.draws, ← hsame.pc,
      ← hsame.ipAt]
    rfl
  exact runInstr_raise (run_bind_error hbody)

end

end Sys2Proof.Machine
end

section
/-! PROOFS. The statements of 42_integer_arithmetic.md. -/

namespace Sys2Proof

open Machine

/-- Settles O8: zero in the low bits, as a number. -/
theorem logicFlags : Obligations.LogicFlags := by
  intro old sz r
  rw [← Size.zero_eq_decide]
  rfl

/-- Settles O5: the carry's formula is arithmetic on numbers below `2 ^ sz.bits`, the overflow's on three bits. -/
theorem additionFlags : Obligations.AdditionFlags := by
  intro sz s d x a us ud sm dm rm
  have hus : (sz.low s).toNat = us := Size.toNat_low sz s
  have hud : (sz.low d).toNat = ud := Size.toNat_low sz d
  refine ⟨?sum, ?carry, rfl, rfl, addOf_z sz s d x, addOverflow_formula sm dm rm, addOf_c sz s d x⟩
  case sum => rw [← hus, ← hud]; exact addOf_res_toNat sz s d x
  case carry => rw [← hus, ← hud]; rfl

/-- Settles O6: the borrow's formula is arithmetic on numbers below `2 ^ sz.bits`, the overflow's on three bits. -/
theorem subtractionFlags : Obligations.SubtractionFlags := by
  intro sz s d x a us ud sm dm rm
  have hus : (sz.low s).toNat = us := Size.toNat_low sz s
  have hud : (sz.low d).toNat = ud := Size.toNat_low sz d
  refine ⟨?difference, ?borrow, rfl, rfl, subOf_z sz s d x, subOverflow_formula sm dm rm, subOf_c sz s d x⟩
  case difference => rw [← hus, ← hud]; exact_mod_cast subOf_res_toNat sz s d x
  case borrow => rw [← hus, ← hud]; exact subOf_c_eq_decide sz s d x

/-- Settles O7: the destination is zero, so its most significant bit drops out of the formulas of `sub`. -/
theorem negationFlags : Obligations.NegationFlags := by
  intro sz d x a dm rm
  have hlow : (sz.low d).toNat = d.toNat % 2 ^ sz.bits := Size.toNat_low sz d
  refine ⟨subOf_zero_v sz d x, subOf_zero_c sz d x, fun hx => ?_⟩
  subst hx
  rw [← hlow]
  exact ⟨subOf_zero_v_iff sz d, subOf_zero_c_iff sz d⟩

/-- Settles O26: the operations read and write the low part of the register only, so its upper bits do not count. -/
theorem registerDestination : Obligations.RegisterDestination := by
  intro s t r sz ea l hs hr v d i x c hi
  simp only [List.mem_cons, List.not_mem_nil, or_false, Prod.mk.injEq] at hi
  obtain ⟨rfl, rfl, rfl⟩ | ⟨rfl, rfl, rfl⟩ | ⟨rfl, rfl, rfl⟩ | ⟨rfl, rfl, rfl⟩ := hi
  · exact runInstr_toReg hs hr (computes_addOp sz v d s.ccr) _
  · exact runInstr_toReg hs hr (computes_subOp sz v d s.ccr) _
  · exact runInstr_toReg hs hr (computes_logicOp sz v d s.ccr (Size.low_and sz)) _
  · exact runInstr_toReg hs hr (computes_logicOp sz v d s.ccr (Size.low_or sz)) _

/-- Settles O27: resolving the operand leaves the data register and the flags alone. -/
theorem operandDestination : Obligations.OperandDestination := by
  intro s t r sz ea l hs hr hw v d i x c hi
  simp only [List.mem_cons, List.not_mem_nil, or_false, Prod.mk.injEq] at hi
  obtain ⟨rfl, rfl, rfl⟩ | ⟨rfl, rfl, rfl⟩ | ⟨rfl, rfl, rfl⟩ | ⟨rfl, rfl, rfl⟩ | ⟨rfl, rfl, rfl⟩ := hi
  · exact runInstr_toEa hs hr hw (computes_addOp sz v d s.ccr) _
  · exact runInstr_toEa hs hr hw (computes_subOp sz v d s.ccr) _
  · exact runInstr_toEa hs hr hw (computes_logicOp sz v d s.ccr (Size.low_and sz)) _
  · exact runInstr_toEa hs hr hw (computes_logicOp sz v d s.ccr (Size.low_or sz)) _
  · exact runInstr_toEa hs hr hw (computes_logicOp sz v d s.ccr (Size.low_xor sz)) _

/-- Settles O28: the operand's extension words begin behind the immediate's. -/
theorem immediateDestination : Obligations.ImmediateDestination := by
  intro s t sz v ea l hs hr hw d i x c hi
  simp only [List.mem_cons, List.not_mem_nil, or_false, Prod.mk.injEq] at hi
  obtain ⟨rfl, rfl, rfl⟩ | ⟨rfl, rfl, rfl⟩ | ⟨rfl, rfl, rfl⟩ | ⟨rfl, rfl, rfl⟩ | ⟨rfl, rfl, rfl⟩ := hi
  · exact runInstr_immediate hs hr hw (computes_addOp sz v d s.ccr) _
  · exact runInstr_immediate hs hr hw (computes_subOp sz v d s.ccr) _
  · exact runInstr_immediate hs hr hw (computes_logicOp sz v d s.ccr (Size.low_and sz)) _
  · exact runInstr_immediate hs hr hw (computes_logicOp sz v d s.ccr (Size.low_or sz)) _
  · exact runInstr_immediate hs hr hw (computes_logicOp sz v d s.ccr (Size.low_xor sz)) _

/-- Settles O29: on an operand, the quick forms are immediate operations. -/
theorem quickArithmetic : Obligations.QuickArithmetic := by
  intro s q sz v
  have hq : quick q = v := by simp [quick, v]
  refine ⟨fun n hsz => ⟨?addAddr, ?subAddr⟩, ?operand⟩
  case addAddr => rw [← hq]; exact runInstr_quickOp_an hsz n _ _ 1
  case subAddr => rw [← hq]; exact runInstr_quickOp_an hsz n _ _ 1
  case operand =>
    intro t ea l hs hr hw d
    have hadd := quickOp_of_writable hs hw (fun a => a + quick q) (addOp sz (quick q))
    have hsub := quickOp_of_writable hs hw (fun a => a - quick q) (subOp sz (quick q))
    rw [exec, exec, execAddq, execSubq, hadd, hsub, hq]
    exact ⟨runInstr_immediate hs hr hw (computes_addOp sz v d s.ccr) _,
      runInstr_immediate hs hr hw (computes_subOp sz v d s.ccr) _⟩

/-- Settles O30: each reads its operands and then writes flags. -/
theorem comparisons : Obligations.Comparisons := by
  refine ⟨fun s t r sz ea l hs hr => ⟨?cmp, ?tst⟩, fun s t r long ea l hs hr => ?cmpa, fun s t sz v ea l hs hr => ?cmpi,
    fun s t u x y sz l m hs hr hd hr' => ?cmpm⟩
  case cmp =>
    rw [← (resolves_effect hs).getD]
    exact runInstr_readEa_putCcr hs hr (fun u v old => old.compare (subOf sz v (u.getD r) false)) _
  case tst => exact runInstr_readEa_putCcr hs hr (fun _ v old => old.logic sz v) _
  case cmpa =>
    exact runInstr_readEa_putCcr hs hr
      (fun u v old => old.compare (subOf .l (Size.sext (Size.ofLong long) v) (u.getA r) false)) _
  case cmpi => exact runInstr_readEa_putCcr hs hr (fun _ d old => old.compare (subOf sz v d false)) _
  case cmpm =>
    have hsource := resolves_effect hs
    have hdest := runInstr_readEa_putCcr hd hr' (fun _ d old => old.compare (subOf sz (valueOf t sz l) d false)) 1
    rw [hsource.ccr, hsource.ipAt] at hdest
    exact (runInstr_bind_ok (readEa_ok hs hr)).trans hdest

/-- Settles O31: both take the carry or borrow in from X, as it was before the instruction. -/
theorem extendedArithmetic : Obligations.ExtendedArithmetic := by
  intro s t u x y sz mem l m hs hr hd hr' hw v d flags
  exact ⟨runInstr_extendOp hs hr hd hr' hw (addOf sz), runInstr_extendOp hs hr hd hr' hw (subOf sz)⟩

/-- Settles O32: three are of the common form; TAS writes its flags before the operand, which makes no difference. -/
theorem unaryReadModifyWrite : Obligations.UnaryReadModifyWrite := by
  intro s t sz ea l hs hr hw d a b
  refine ⟨fun i x c hi => ?modify, fun hsz => ?tas⟩
  case modify =>
    simp only [List.mem_cons, List.not_mem_nil, or_false, Prod.mk.injEq] at hi
    obtain ⟨rfl, rfl, rfl⟩ | ⟨rfl, rfl, rfl⟩ | ⟨rfl, rfl, rfl⟩ := hi
    case inl => exact runInstr_modifyEa hs hr hw rfl rfl _
    case inr.inl => exact runInstr_modifyEa hs hr hw rfl rfl _
    case inr.inr => exact runInstr_modifyEa hs hr hw (Size.low_low sz (~~~d)) rfl _
  case tas =>
    subst hsz
    exact ⟨_, exec_tas hs hr hw, storesOnly_putAt hw⟩

/-- Settles O33: the three differ in the value they write, and CLR writes flags. -/
theorem setOperand : Obligations.SetOperand := by
  intro s t ea l
  refine ⟨fun sz hs hr hw => ⟨_, ?clr, storesOnly_putAt hw⟩, fun c hs hr hw => ⟨_, ?scc, storesOnly_putAt hw⟩,
    fun hs hr hw hmode => ⟨_, ?moveFromSr, storesOnly_putAt hw⟩⟩
  case clr =>
    have hflags : s.ccr.logic sz 0#32 = { s.ccr with n := false, z := true, v := false, c := false } := by cases sz <;> rfl
    rw [← hflags, ← putAt_ccr hs hw 0#32]
    exact runInstr_ok <| (resolve_readBefore_ok hs hr _).trans <| (run_bind_ok (writeLoc_ok hw)).trans <|
      (run_bind_ok (putCcr_run _ _)).trans <| advance_setCcr_ok (putAt_pc hs hw 0#32) _ _
  case scc =>
    rw [← (resolves_effect hs).ccr]
    exact runInstr_ok <| (resolve_readBefore_ok hs hr _).trans <| (run_bind_ok (EStateM.run_get t)).trans <|
      (run_bind_ok (writeLoc_ok hw)).trans <| advance_ok (putAt_pc hs hw _) _
  case moveFromSr =>
    have hmay : s.cfg.cpu.moveFromSrPrivileged = false ∨ s.isSuper = true :=
      hmode.imp_left fun hb => by rw [Cpu.moveFromSrPrivileged, hb, Bool.not_true]
    rw [← (resolves_effect hs).sr]
    exact (runInstr_requireSuper_of hmay _).trans <| runInstr_ok <| (resolve_readBefore_ok hs hr _).trans <|
      (run_bind_ok (EStateM.run_get t)).trans <| (run_bind_ok (writeLoc_ok hw)).trans <| advance_ok (putAt_pc hs hw _) _

/-- Settles O34: a product of 16-bit numbers as a product of their extensions. -/
theorem multiply : Obligations.Multiply := by
  intro s t r ea l hs hr v d pu ps
  exact ⟨runInstr_multiply hs hr (ofNat_unsignedLow_mul _ _) _, runInstr_multiply hs hr (ofInt_signedLow_mul _ _) _⟩

/-- Settles O35: both divisions are one action, over the quotient of `divOp`. -/
theorem divide : Obligations.Divide := by
  intro s t r ea l signed hs hr i v d q rem fits q16
  have hexec : exec i s = runInstr (Machine.divide r ea i.words (divOp signed) >>= fun _ => advance i.words) s := by
    cases signed <;> rfl
  have hq : (divOp signed (valueOf t .w l) d).q = q := divOp_q signed _ d
  have hrem : (divOp signed (valueOf t .w l) d).rem = rem := divOp_rem signed _ d
  have hoverflow : (divOp signed (valueOf t .w l) d).overflow = true ↔ ¬ fits := divOp_overflow_iff signed _ d hq
  have hzero : unsignedLow (valueOf t .w l) = 0 ↔ v = 0#16 := unsignedLow_eq_zero_iff _
  refine ⟨fun hv hfits => ?fits, fun hv hfits => ?overflow, fun hv => ?zero⟩
  case fits =>
    have ho := Bool.eq_false_iff.2 fun ho => hoverflow.1 ho hfits
    rw [hexec, runInstr_divide_fits hs hr (mt hzero.1 hv) ho, hq, hrem, Ccr.logic_word]
  case overflow => exact ⟨_, _, hexec.trans (runInstr_divide_overflow hs hr (mt hzero.1 hv) (hoverflow.2 hfits) _)⟩
  case zero => exact ⟨_, _, _, hexec.trans (runInstr_divide_zero hs hr (hzero.2 hv) _)⟩

end Sys2Proof
end

section
/-! SUPPORT. The shifts and rotates as a tape. Whatever the direction, the bits of the operand leave it one after another. The tape
of an operation is the sequence of all bits that leave: the operand's own, in the order they leave, then those that the operation
puts in behind them. After `r` places the operand holds bits `r` to `r + sz.bits - 1` of the tape, and bit `r - 1` was the last to
leave (44_shift_rotate.md R271 to R282). -/

namespace Sys2Proof.Machine

/-! ## Bits of an operand -/

theorem Size.getLsbD_low (sz : Size) (v : Word) (i : Nat) : (sz.low v).getLsbD i = (decide (i < sz.bits) && v.getLsbD i) := by
  rw [← BitVec.testBit_toNat, Size.toNat_low, Nat.testBit_mod_two_pow, BitVec.testBit_toNat]

theorem Size.bits_pos (sz : Size) : 0 < sz.bits := by cases sz <;> decide

theorem Size.bits_le (sz : Size) : sz.bits ≤ 32 := by cases sz <;> decide

theorem getLsbD_setWidth_ofBool (b : Bool) (i : Nat) : ((BitVec.ofBool b).setWidth 32).getLsbD i = (decide (i = 0) && b) := by
  rw [BitVec.getLsbD_setWidth, BitVec.getLsbD_ofBool]
  by_cases h : i = 0 <;> simp [h]

theorem getLsbD_leftOne (sz : Size) (v : Word) (b : Bool) {i : Nat} (hi : i < sz.bits) :
    (leftOne sz v b).getLsbD i = if i = 0 then b else v.getLsbD (i - 1) := by
  have hle := Size.bits_le sz
  rw [leftOne, Size.getLsbD_low, BitVec.getLsbD_or, getLsbD_setWidth_ofBool, BitVec.getLsbD_shiftLeft]
  by_cases h : i = 0
  · simp [h, Size.bits_pos sz]
  · simp [h, hi, show i < 32 by omega]

theorem getLsbD_rightOne (sz : Size) (v : Word) (b : Bool) (i : Nat) :
    (rightOne sz v b).getLsbD i = if i + 1 = sz.bits then b else decide (i + 1 < sz.bits) && v.getLsbD (i + 1) := by
  have hpos := Size.bits_pos sz
  have hle := Size.bits_le sz
  rw [rightOne, BitVec.getLsbD_or, BitVec.getLsbD_ushiftRight, Size.getLsbD_low, BitVec.getLsbD_shiftLeft,
    getLsbD_setWidth_ofBool, Nat.add_comm 1 i]
  by_cases h : i + 1 = sz.bits
  · simp [h, show i < 32 by omega, show ¬ i < sz.bits - 1 by omega, show i - (sz.bits - 1) = 0 by omega]
  · by_cases h' : i < sz.bits - 1
    · simp [h, h']
    · simp [h, show ¬ i - (sz.bits - 1) = 0 by omega]

theorem low_leftOne (sz : Size) (v : Word) (b : Bool) : sz.low (leftOne sz v b) = leftOne sz v b := Size.low_low sz _

theorem low_rightOne (sz : Size) (v : Word) (b : Bool) : sz.low (rightOne sz v b) = rightOne sz v b := by
  refine BitVec.eq_of_getLsbD_eq fun i _ => ?_
  rw [Size.getLsbD_low, getLsbD_rightOne]
  by_cases h : i < sz.bits
  · rw [decide_eq_true h, Bool.true_and]
  · rw [decide_eq_false h, Bool.false_and, if_neg (by omega), decide_eq_false (by omega), Bool.false_and]

/-! ## One place -/

/-- The operations to the left. -/
def ShiftOp.left : ShiftOp → Bool
  | .asl | .lsl | .roxl | .rol => true
  | .asr | .lsr | .roxr | .ror => false

/-- Where the bit stands that has `i` bits before it on the way out. -/
def ShiftOp.place (op : ShiftOp) (sz : Size) (i : Nat) : Nat := if op.left then sz.bits - 1 - i else i

/-- The bit that one step puts in behind the others (R271 to R278). -/
def ShiftOp.entering (op : ShiftOp) (sz : Size) (v : Word) (x : Bool) : Bool :=
  match op with
  | .asl | .lsl | .lsr => false
  | .asr => v.getLsbD (sz.bits - 1)
  | .rol | .ror => v.getLsbD (op.place sz 0)
  | .roxl | .roxr => x

section
variable (op : ShiftOp) (sz : Size) (v : Word) (x : Bool)

theorem ShiftOp.place_lt {i : Nat} (hi : i < sz.bits) : op.place sz i < sz.bits := by
  rw [ShiftOp.place]; split <;> omega

theorem ShiftOp.place_place {i : Nat} (hi : i < sz.bits) : op.place sz (op.place sz i) = i := by
  rw [ShiftOp.place, ShiftOp.place]; split <;> omega

theorem ShiftOp.step_v :
    (op.step sz v x).v = if op.left then leftOne sz v (op.entering sz v x) else rightOne sz v (op.entering sz v x) := by
  cases op <;> rfl

theorem ShiftOp.step_out : (op.step sz v x).out = v.getLsbD (op.place sz 0) := by cases op <;> rfl

theorem ShiftOp.step_x : (op.step sz v x).x = if op = .rol ∨ op = .ror then x else v.getLsbD (op.place sz 0) := by
  cases op <;> rfl

theorem ShiftOp.low_step_v : sz.low (op.step sz v x).v = (op.step sz v x).v := by
  rw [ShiftOp.step_v]
  split
  · exact low_leftOne sz v _
  · exact low_rightOne sz v _

/-- Every bit moves one place towards the way out. -/
theorem ShiftOp.getLsbD_step_v {i : Nat} (hi : i < sz.bits) :
    (op.step sz v x).v.getLsbD (op.place sz i) =
      if i + 1 = sz.bits then op.entering sz v x else v.getLsbD (op.place sz (i + 1)) := by
  rw [ShiftOp.step_v]
  cases hleft : op.left with
  | true =>
    have hlast : sz.bits - 1 - i = 0 ↔ i + 1 = sz.bits := by omega
    simp only [ShiftOp.place, hleft, if_true]
    rw [getLsbD_leftOne sz v _ (by omega), if_congr hlast rfl rfl, show sz.bits - 1 - i - 1 = sz.bits - 1 - (i + 1) by omega]
  | false =>
    simp only [ShiftOp.place, hleft, Bool.false_eq_true, if_false]
    rw [getLsbD_rightOne]
    refine ite_congr rfl (fun _ => rfl) fun h => ?_
    rw [decide_eq_true (by omega), Bool.true_and]

end

/-! ## The tape -/

/-- The bits that leave the operand `v` with X = `x`, in order: a shift puts in zeros or copies of the sign, a rotate the bits that
left, a rotate through X those that left one step before. -/
def ShiftOp.tape (op : ShiftOp) (sz : Size) (v : Word) (x : Bool) (j : Nat) : Bool :=
  match op with
  | .asl | .lsl | .lsr => decide (j < sz.bits) && v.getLsbD (op.place sz j)
  | .asr => v.getLsbD (min j (sz.bits - 1))
  | .rol | .ror => v.getLsbD (op.place sz (j % sz.bits))
  | .roxl | .roxr => if j % (sz.bits + 1) = sz.bits then x else v.getLsbD (op.place sz (j % (sz.bits + 1)))

/-- C after `r` places: the last bit that left (R280). -/
def ShiftOp.carry (op : ShiftOp) (sz : Size) (v : Word) (x : Bool) : Nat → Bool
  | 0 => op.carryIn x
  | r + 1 => op.tape sz v x r

/-- X after `r` places: C, but ROL and ROR, and a count of zero, keep it (R280). -/
def ShiftOp.extend (op : ShiftOp) (sz : Size) (v : Word) (x : Bool) : Nat → Bool
  | 0 => x
  | r + 1 => if op = .rol ∨ op = .ror then x else op.tape sz v x r

/-- `a` is the state of R280's loop `r` places after the operand `v` with X = `x`. -/
structure Shifted (op : ShiftOp) (sz : Size) (v : Word) (x : Bool) (r : Nat) (a : ShiftAcc) : Prop where
  low : sz.low a.v = a.v
  bits : ∀ i < sz.bits, a.v.getLsbD (op.place sz i) = op.tape sz v x (r + i)
  carry : a.c = op.carry sz v x r
  extend : a.x = op.extend sz v x r
  moved : op.left = true → (a.moved = true ↔ ∃ j ≤ r, op.tape sz v x j ≠ op.tape sz v x 0)

section
variable {op : ShiftOp} {sz : Size} {v : Word} {x : Bool}

/-- The tape begins with the operand itself. -/
theorem ShiftOp.tape_of_lt {i : Nat} (hi : i < sz.bits) : op.tape sz v x i = v.getLsbD (op.place sz i) := by
  have hmod : i % sz.bits = i := Nat.mod_eq_of_lt hi
  have hmod' : i % (sz.bits + 1) = i := Nat.mod_eq_of_lt (by omega)
  have hmin : min i (sz.bits - 1) = i := by omega
  cases op <;> simp [ShiftOp.tape, hi, hmod, hmod', hmin, Nat.ne_of_lt hi, ShiftOp.place, ShiftOp.left]

/-- What is put in next is the tape's next bit. -/
theorem Shifted.entering_eq {r : Nat} {a : ShiftAcc} (h : Shifted op sz v x r a) :
    op.entering sz a.v a.x = op.tape sz v x (r + sz.bits) := by
  have hpos := Size.bits_pos sz
  have hfirst := h.bits 0 hpos
  have hx := h.extend
  cases op with
  | asl | lsl | lsr => simp [ShiftOp.entering, ShiftOp.tape]
  | asr =>
    have hlast := h.bits (sz.bits - 1) (by omega)
    simp only [ShiftOp.tape] at hlast ⊢
    rw [show min (r + sz.bits) (sz.bits - 1) = min (r + (sz.bits - 1)) (sz.bits - 1) by omega]
    exact hlast
  | rol | ror =>
    simp only [ShiftOp.tape, Nat.add_mod_right] at hfirst ⊢
    exact hfirst
  | roxl | roxr =>
    cases r with
    | zero => simpa [ShiftOp.entering, ShiftOp.tape, ShiftOp.extend] using hx
    | succ r =>
      simp only [ShiftOp.entering, ShiftOp.tape]
      rw [Nat.add_right_comm, Nat.add_assoc, Nat.add_mod_right]
      simpa [ShiftOp.extend, ShiftOp.tape] using hx

theorem exists_le_succ_ne (f : Nat → Bool) (r : Nat) :
    (∃ j ≤ r + 1, f j ≠ f 0) ↔ (∃ j ≤ r, f j ≠ f 0) ∨ f (r + 1) ≠ f r := by
  constructor
  · rintro ⟨j, hj, hne⟩
    rcases Nat.le_succ_iff.1 hj with hle | rfl
    · exact .inl ⟨j, hle, hne⟩
    · by_cases hr : f r = f 0
      · exact .inr (hr ▸ hne)
      · exact .inl ⟨r, le_rfl, hr⟩
  · rintro (⟨j, hj, hne⟩ | hne)
    · exact ⟨j, Nat.le_succ_of_le hj, hne⟩
    · by_cases hr : f r = f 0
      · exact ⟨r + 1, le_rfl, hr ▸ hne⟩
      · exact ⟨r, Nat.le_succ r, hr⟩

/-- One more place. -/
theorem Shifted.step {r : Nat} {a : ShiftAcc} (h : Shifted op sz v x r a) :
    let t := op.step sz a.v a.x
    Shifted op sz v x (r + 1)
      { v := t.v, x := t.x, c := t.out, moved := a.moved || Size.top sz t.v != Size.top sz a.v } := by
  intro t
  have hpos := Size.bits_pos sz
  have hout : a.v.getLsbD (op.place sz 0) = op.tape sz v x r := h.bits 0 hpos
  have hbits : ∀ i < sz.bits, t.v.getLsbD (op.place sz i) = op.tape sz v x (r + 1 + i) := by
    intro i hi
    rw [op.getLsbD_step_v sz _ _ hi, Nat.add_right_comm]
    split
    · rename_i hlast
      rw [h.entering_eq, ← hlast, Nat.add_assoc]
    · exact h.bits (i + 1) (by omega)
  refine ⟨op.low_step_v sz a.v a.x, hbits, (op.step_out sz a.v a.x).trans hout, ?x, fun hleft => ?moved⟩
  case x =>
    rw [op.step_x, hout, h.extend, ShiftOp.extend]
    split
    · cases r with
      | zero => rfl
      | succ r => exact if_pos ‹_›
    · rfl
  case moved =>
    have hplace : op.place sz 0 = sz.bits - 1 := if_pos hleft
    have hnew : Size.top sz t.v = op.tape sz v x (r + 1) := by
      rw [Size.top, ← hplace]; exact hbits 0 hpos
    have hold : Size.top sz a.v = op.tape sz v x r := by
      rw [Size.top, ← hplace]; exact hout
    rw [exists_le_succ_ne, ← h.moved hleft, Bool.or_eq_true, bne_iff_ne, hnew, hold]

theorem Shifted.loop (k : Nat) {r : Nat} {a : ShiftAcc} (h : Shifted op sz v x r a) :
    Shifted op sz v x (r + k) (op.loop sz k a) := by
  induction k generalizing r a with
  | zero => exact h
  | succ k ih => exact (Nat.add_right_comm r 1 k).symm ▸ ih h.step

theorem shifted_zero : Shifted op sz v x 0 { v := sz.low v, x := x, c := op.carryIn x, moved := false } where
  low := Size.low_low sz v
  bits i hi := by rw [Nat.zero_add, ShiftOp.tape_of_lt hi, Size.getLsbD_low, decide_eq_true (op.place_lt sz hi), Bool.true_and]
  carry := rfl
  extend := rfl
  moved _ := by simp

end

/-! ## What `shift(d, r, sz)` answers -/

section
variable (op : ShiftOp) (sz : Size) (r : Nat) (d : Word) (f : Ccr)

theorem shifted_loop :
    Shifted op sz d f.x r (op.loop sz r { v := sz.low d, x := f.x, c := op.carryIn f.x, moved := false }) := by
  have hloop := (shifted_zero (op := op) (sz := sz) (v := d) (x := f.x)).loop r
  rwa [Nat.zero_add] at hloop

theorem ShiftOp.apply_low : sz.low (op.apply sz r d f).1 = (op.apply sz r d f).1 := (shifted_loop op sz r d f).low

theorem ShiftOp.apply_c : (op.apply sz r d f).2.c = op.carry sz d f.x r := (shifted_loop op sz r d f).carry

theorem ShiftOp.apply_x : (op.apply sz r d f).2.x = op.extend sz d f.x r := (shifted_loop op sz r d f).extend

theorem ShiftOp.apply_n : (op.apply sz r d f).2.n = (op.apply sz r d f).1.getLsbD (sz.bits - 1) := rfl

theorem ShiftOp.apply_z : (op.apply sz r d f).2.z = decide ((op.apply sz r d f).1.toNat = 0) := by
  have hz := Size.zero_eq_decide sz (op.apply sz r d f).1
  rw [← Size.toNat_low, ShiftOp.apply_low] at hz
  exact hz

/-- V of ASL: the most significant bit has changed on the way (R271). -/
theorem ShiftOp.apply_asl_v :
    (ShiftOp.asl.apply sz r d f).2.v = true ↔ ∃ j ≤ r, ShiftOp.asl.tape sz d f.x j ≠ ShiftOp.asl.tape sz d f.x 0 :=
  (shifted_loop .asl sz r d f).moved rfl

theorem ShiftOp.apply_v_of_ne_asl (h : op ≠ .asl) : (op.apply sz r d f).2.v = false := by
  cases op with
  | asl => exact absurd rfl h
  | _ => rfl

variable {op sz r d f}

theorem ShiftOp.apply_getLsbD_place {i : Nat} (hi : i < sz.bits) :
    (op.apply sz r d f).1.getLsbD (op.place sz i) = op.tape sz d f.x (r + i) := (shifted_loop op sz r d f).bits i hi

/-- The bit of the result in place `i`. -/
theorem ShiftOp.apply_getLsbD {i : Nat} (hi : i < sz.bits) :
    (op.apply sz r d f).1.getLsbD i = op.tape sz d f.x (r + op.place sz i) := by
  rw [← ShiftOp.apply_getLsbD_place (op.place_lt sz hi), op.place_place sz hi]

/-- The result is the number that has the tape's bits. -/
theorem ShiftOp.apply_toNat_eq {m : Nat} (hm : m < 2 ^ sz.bits)
    (h : ∀ i < sz.bits, m.testBit i = op.tape sz d f.x (r + op.place sz i)) : (op.apply sz r d f).1.toNat = m := by
  refine Nat.eq_of_testBit_eq fun i => ?_
  by_cases hi : i < sz.bits
  · rw [BitVec.testBit_toNat, ShiftOp.apply_getLsbD hi, h i hi]
  · rw [← ShiftOp.apply_low, Size.toNat_low, Nat.testBit_mod_two_pow, decide_eq_false hi, Bool.false_and,
      Nat.testBit_lt_two_pow (hm.trans_le (Nat.pow_le_pow_right Nat.two_pos (Nat.le_of_not_lt hi)))]

end

end Sys2Proof.Machine
end

section
/-! SUPPORT. Rotations as numbers: bits of a number of `w` bits turned by `k` places, and the tapes of the rotates as such bits. The
rotates through X turn the number of `sz.bits + 1` bits that has X above the operand (44_shift_rotate.md R275 to R278). -/

namespace Sys2Proof.Machine

/-! ## A number turned round -/

section
variable {t w k i : Nat}

theorem testBit_rotateRight (ht : t < 2 ^ w) (hk : k ≤ w) (hi : i < w) :
    (t / 2 ^ k + t * 2 ^ (w - k)).testBit i = t.testBit ((i + k) % w) := by
  have hlow : t / 2 ^ k < 2 ^ (w - k) := by
    rw [Nat.div_lt_iff_lt_mul (Nat.two_pow_pos k), ← Nat.pow_add, Nat.sub_add_cancel hk]
    exact ht
  rw [Nat.add_comm, Nat.mul_comm, Nat.testBit_two_pow_mul_add _ hlow]
  split
  · rw [Nat.testBit_div_two_pow, Nat.mod_eq_of_lt (by omega)]
  · rw [Nat.mod_eq_sub_mod (by omega), Nat.mod_eq_of_lt (by omega)]
    congr 1
    omega

theorem testBit_rotateLeft (ht : t < 2 ^ w) (hk : k ≤ w) (hi : i < w) :
    (t * 2 ^ k + t / 2 ^ (w - k)).testBit i = t.testBit ((i + (w - k)) % w) := by
  rw [← testBit_rotateRight ht (Nat.sub_le w k) hi, Nat.add_comm, Nat.sub_sub_self hk]

end

/-! ## The operand, and X above it -/

section
variable (sz : Size) (d : Word) (x : Bool) {j : Nat}

theorem testBit_operand (hj : j < sz.bits) : (d.toNat % 2 ^ sz.bits).testBit j = d.getLsbD j := by
  rw [Nat.testBit_mod_two_pow, decide_eq_true hj, Bool.true_and, BitVec.testBit_toNat]

theorem testBit_extended :
    (x.toNat * 2 ^ sz.bits + d.toNat % 2 ^ sz.bits).testBit j =
      if j < sz.bits then d.getLsbD j else x.toNat.testBit (j - sz.bits) := by
  rw [Nat.mul_comm, Nat.testBit_two_pow_mul_add _ (Nat.mod_lt _ (Nat.two_pow_pos _))]
  exact ite_congr rfl (testBit_operand sz d) fun _ => rfl

theorem extended_lt : x.toNat * 2 ^ sz.bits + d.toNat % 2 ^ sz.bits < 2 ^ (sz.bits + 1) := by
  have hd := Nat.mod_lt d.toNat (Nat.two_pow_pos sz.bits)
  have hx := Nat.mul_le_mul_right (2 ^ sz.bits) x.toNat_le
  rw [Nat.pow_succ]
  omega

theorem tape_ror : ShiftOp.ror.tape sz d x j = (d.toNat % 2 ^ sz.bits).testBit (j % sz.bits) :=
  (testBit_operand sz d (Nat.mod_lt j (Size.bits_pos sz))).symm

theorem tape_rol : ShiftOp.rol.tape sz d x j = (d.toNat % 2 ^ sz.bits).testBit (sz.bits - 1 - j % sz.bits) := by
  have hlt := ShiftOp.place_lt .rol sz (Nat.mod_lt j (Size.bits_pos sz))
  exact (testBit_operand sz d hlt).symm

theorem tape_roxr :
    ShiftOp.roxr.tape sz d x j = (x.toNat * 2 ^ sz.bits + d.toNat % 2 ^ sz.bits).testBit (j % (sz.bits + 1)) := by
  have hlt : j % (sz.bits + 1) < sz.bits + 1 := Nat.mod_lt j (Nat.succ_pos _)
  rw [testBit_extended, ShiftOp.tape]
  by_cases h : j % (sz.bits + 1) = sz.bits
  · rw [if_pos h, h, if_neg (Nat.lt_irrefl _), Nat.sub_self]
    cases x <;> rfl
  · rw [if_neg h, if_pos (by omega)]
    rfl

/-- The tape of ROXL runs down from the operand's most significant bit, and X comes last. -/
theorem tape_roxl :
    ShiftOp.roxl.tape sz d x j = (x.toNat * 2 ^ sz.bits + d.toNat % 2 ^ sz.bits).testBit
      ((2 * sz.bits - j % (sz.bits + 1)) % (sz.bits + 1)) := by
  have hlt : j % (sz.bits + 1) < sz.bits + 1 := Nat.mod_lt j (Nat.succ_pos _)
  rw [testBit_extended, ShiftOp.tape]
  by_cases h : j % (sz.bits + 1) = sz.bits
  · rw [if_pos h, h, Nat.mod_eq_of_lt (by omega), if_neg (by omega), show 2 * sz.bits - sz.bits - sz.bits = 0 by omega]
    cases x <;> rfl
  · have hplace : (2 * sz.bits - j % (sz.bits + 1)) % (sz.bits + 1) = sz.bits - 1 - j % (sz.bits + 1) := by
      rw [Nat.mod_eq_sub_mod (by omega), Nat.mod_eq_of_lt (by omega)]
      omega
    rw [if_neg h, hplace, if_pos (by omega)]
    rfl

/-- A rotate puts in the bits that left, so its tape comes round. -/
theorem tape_rol_add_bits : ShiftOp.rol.tape sz d x (j + sz.bits) = ShiftOp.rol.tape sz d x j := by
  simp only [ShiftOp.tape, Nat.add_mod_right]

theorem tape_ror_add_bits : ShiftOp.ror.tape sz d x (j + sz.bits) = ShiftOp.ror.tape sz d x j := by
  simp only [ShiftOp.tape, Nat.add_mod_right]

theorem tape_roxr_add_bits : ShiftOp.roxr.tape sz d x (j + (sz.bits + 1)) = ShiftOp.roxr.tape sz d x j := by
  simp only [ShiftOp.tape, Nat.add_mod_right]

end

/-! ## Places on the tape of a rotate -/

section
variable (sz : Size) {r i : Nat}

theorem rol_place (hi : i < sz.bits) :
    sz.bits - 1 - (r + (sz.bits - 1 - i)) % sz.bits = (i + (sz.bits - r % sz.bits)) % sz.bits := by
  cases sz <;> simp only [Size.bits] at hi ⊢ <;> omega

theorem rol_carry_place {q : Nat} (hq : q + 1 ≤ 63) :
    sz.bits - 1 - q % sz.bits = (64 * sz.bits - (q + 1)) % sz.bits := by
  cases sz <;> simp only [Size.bits] <;> omega

/-- Where the tape's bit that has come to place `i` stood before, in X and the operand; place `sz.bits` is X. -/
theorem roxl_place {j : Nat} (hj : j + i + 1 = r + sz.bits) (hi : i ≤ sz.bits) :
    (2 * sz.bits - j % (sz.bits + 1)) % (sz.bits + 1) = (i + (sz.bits + 1 - r % (sz.bits + 1))) % (sz.bits + 1) := by
  cases sz <;> simp only [Size.bits] at hi hj ⊢ <;> omega

end

/-! ## The tape of a rotate as a number turned round -/

section
variable (sz : Size) (r : Nat) (d : Word) (x : Bool) {i : Nat}

theorem tape_rol_eq_testBit (hi : i < sz.bits) :
    let u := d.toNat % 2 ^ sz.bits
    let k := r % sz.bits
    ShiftOp.rol.tape sz d x (r + (sz.bits - 1 - i)) = (u * 2 ^ k + u / 2 ^ (sz.bits - k)).testBit i := by
  intro u k
  rw [tape_rol, rol_place sz hi, testBit_rotateLeft (Nat.mod_lt _ (Nat.two_pow_pos _)) (Nat.mod_lt _ (Size.bits_pos sz)).le hi]

theorem tape_ror_eq_testBit (hi : i < sz.bits) :
    let u := d.toNat % 2 ^ sz.bits
    let k := r % sz.bits
    ShiftOp.ror.tape sz d x (r + i) = (u / 2 ^ k + u * 2 ^ (sz.bits - k)).testBit i := by
  intro u k
  rw [tape_ror, testBit_rotateRight (Nat.mod_lt _ (Nat.two_pow_pos _)) (Nat.mod_lt _ (Size.bits_pos sz)).le hi,
    Nat.add_mod_mod, Nat.add_comm r i]

theorem tape_roxl_eq_testBit {j : Nat} (hj : j + i + 1 = r + sz.bits) (hi : i ≤ sz.bits) :
    let t := x.toNat * 2 ^ sz.bits + d.toNat % 2 ^ sz.bits
    let k := r % (sz.bits + 1)
    ShiftOp.roxl.tape sz d x j = (t * 2 ^ k + t / 2 ^ (sz.bits + 1 - k)).testBit i := by
  intro t k
  rw [tape_roxl, roxl_place sz hj hi, testBit_rotateLeft (extended_lt sz d x) (Nat.mod_lt _ (Nat.succ_pos _)).le (by omega)]

theorem tape_roxr_eq_testBit (hi : i ≤ sz.bits) :
    let t := x.toNat * 2 ^ sz.bits + d.toNat % 2 ^ sz.bits
    let k := r % (sz.bits + 1)
    ShiftOp.roxr.tape sz d x (r + i) = (t / 2 ^ k + t * 2 ^ (sz.bits + 1 - k)).testBit i := by
  intro t k
  rw [tape_roxr, testBit_rotateRight (extended_lt sz d x) (Nat.mod_lt _ (Nat.succ_pos _)).le (by omega), Nat.add_mod_mod,
    Nat.add_comm r i]

end

/-! ## The tape of a shift to the left -/

section
variable (sz : Size) (d : Word)

/-- A shift to the left loses the operand's bits from the most significant one down, and then zeros. -/
theorem tape_left_eq_ite (q : Nat) :
    (decide (q < sz.bits) && d.getLsbD (sz.bits - 1 - q)) = if q + 1 ≤ sz.bits then d.getLsbD (sz.bits - (q + 1)) else false := by
  rw [Bool.if_false_right, Nat.sub_sub, Nat.add_comm 1 q]
  rfl

theorem tape_left_eq_testBit (r i : Nat) (hi : i < sz.bits) :
    (decide (r + (sz.bits - 1 - i) < sz.bits) && d.getLsbD (sz.bits - 1 - (r + (sz.bits - 1 - i)))) =
      (d.toNat % 2 ^ sz.bits * 2 ^ r).testBit i := by
  rw [Nat.testBit_mul_two_pow]
  by_cases h : r ≤ i
  · rw [decide_eq_true h, decide_eq_true (by omega), testBit_operand sz d (by omega)]
    congr 2
    omega
  · rw [decide_eq_false h, decide_eq_false (by omega), Bool.false_and, Bool.false_and]

end

/-! ## Results as numbers -/

section
variable {op : ShiftOp} (sz : Size) (r : Nat) (d : Word) (f : Ccr)

theorem apply_toNat_of_left (hleft : op.left = true) {m : Nat}
    (h : ∀ i < sz.bits, op.tape sz d f.x (r + (sz.bits - 1 - i)) = m.testBit i) :
    (op.apply sz r d f).1.toNat = m % 2 ^ sz.bits := by
  refine ShiftOp.apply_toNat_eq (Nat.mod_lt _ (Nat.two_pow_pos _)) fun i hi => ?_
  rw [Nat.testBit_mod_two_pow, decide_eq_true hi, Bool.true_and, ← h i hi, ShiftOp.place, if_pos hleft]

theorem apply_toNat_of_right (hleft : op.left = false) {m : Nat}
    (h : ∀ i < sz.bits, op.tape sz d f.x (r + i) = m.testBit i) :
    (op.apply sz r d f).1.toNat = m % 2 ^ sz.bits := by
  refine ShiftOp.apply_toNat_eq (Nat.mod_lt _ (Nat.two_pow_pos _)) fun i hi => ?_
  rw [Nat.testBit_mod_two_pow, decide_eq_true hi, Bool.true_and, ← h i hi, ShiftOp.place, if_neg (by simp [hleft])]

end

end Sys2Proof.Machine
end

section
/-! SUPPORT. The shifts and rotates as instructions (44_shift_rotate.md R280). -/

namespace Sys2Proof.Machine

/-- The memory forms, by their operation. -/
theorem exec_shiftMem (s : State) (ea : Ea) {i : Instr} {op : ShiftOp}
    (h : (i, op) ∈ [(Instr.asrMem ea, ShiftOp.asr), (Instr.aslMem ea, ShiftOp.asl), (Instr.lsrMem ea, ShiftOp.lsr),
      (Instr.lslMem ea, ShiftOp.lsl), (Instr.roxrMem ea, ShiftOp.roxr), (Instr.roxlMem ea, ShiftOp.roxl),
      (Instr.rorMem ea, ShiftOp.ror), (Instr.rolMem ea, ShiftOp.rol)]) :
    exec i s = runInstr (shiftMem op ea >>= fun _ => advance i.words) s := by
  simp only [List.mem_cons, List.not_mem_nil, or_false, Prod.mk.injEq] at h
  obtain ⟨rfl, rfl⟩ | ⟨rfl, rfl⟩ | ⟨rfl, rfl⟩ | ⟨rfl, rfl⟩ | ⟨rfl, rfl⟩ | ⟨rfl, rfl⟩ | ⟨rfl, rfl⟩ | ⟨rfl, rfl⟩ := h <;> rfl

/-- The register forms, by their operation; each is one word long. -/
theorem exec_shiftReg (s : State) (cnt : ShiftCount) (sz : Size) (r : RegNum) {i : Instr} {op : ShiftOp}
    (h : (i, op) ∈ [(Instr.asrReg cnt sz r, ShiftOp.asr), (Instr.aslReg cnt sz r, ShiftOp.asl),
      (Instr.lsrReg cnt sz r, ShiftOp.lsr), (Instr.lslReg cnt sz r, ShiftOp.lsl), (Instr.roxrReg cnt sz r, ShiftOp.roxr),
      (Instr.roxlReg cnt sz r, ShiftOp.roxl), (Instr.rorReg cnt sz r, ShiftOp.ror), (Instr.rolReg cnt sz r, ShiftOp.rol)]) :
    exec i s = runInstr (shiftReg op cnt sz r >>= fun _ => advance 1) s := by
  simp only [List.mem_cons, List.not_mem_nil, or_false, Prod.mk.injEq] at h
  obtain ⟨rfl, rfl⟩ | ⟨rfl, rfl⟩ | ⟨rfl, rfl⟩ | ⟨rfl, rfl⟩ | ⟨rfl, rfl⟩ | ⟨rfl, rfl⟩ | ⟨rfl, rfl⟩ | ⟨rfl, rfl⟩ := h <;> rfl

theorem State.shiftCount_imm (s : State) (c : BitVec 3) : s.shiftCount (.imm c) = if c = 0#3 then 8 else c.toNat := by
  simp only [State.shiftCount, beq_iff_eq]

theorem State.shiftCount_reg (s : State) (n : RegNum) : s.shiftCount (.reg n) = (s.getD n).toNat % 64 := rfl

theorem shiftReg_run (s : State) (op : ShiftOp) (cnt : ShiftCount) (sz : Size) (r : RegNum) :
    let a := op.apply sz (s.shiftCount cnt) (s.getD r) s.ccr
    (shiftReg op cnt sz r).run s = .ok () ((s.setDPart sz r a.1).setCcr a.2) := rfl

end Sys2Proof.Machine
end

section
/-! PROOFS. The statements of 44_shift_rotate.md. -/

namespace Sys2Proof

open Machine

/-- Settles O36: each memory form is a read, modify and write of one word. -/
theorem memoryShifts : Obligations.MemoryShifts := by
  intro s t ea l hs hr hw i op hi a
  rw [exec_shiftMem s ea hi]
  exact runInstr_modifyEa hs hr hw rfl rfl i.words

/-- Settles O37: the count is read before the register is written. -/
theorem registerShifts : Obligations.RegisterShifts := by
  intro s cnt sz r i op hi count a
  have hcount : s.shiftCount cnt = count := by
    cases cnt with
    | imm c => exact s.shiftCount_imm c
    | reg n => exact s.shiftCount_reg n
  have hbody := shiftReg_run s op cnt sz r
  rw [hcount] at hbody
  rw [exec_shiftReg s cnt sz r hi]
  exact runInstr_advance hbody (s.setDPart_pc sz r a.1) 1

/-- Settles O9: the carry is the tape's last bit to leave, and the tapes of the rotates are their rotated numbers. -/
theorem shiftCarry : Obligations.ShiftCarry := by
  intro sz r d f hr hr63 n k t out res
  obtain ⟨q, rfl⟩ : ∃ q, r = q + 1 := ⟨r - 1, by omega⟩
  have hpos : 0 < n := Size.bits_pos sz
  have hc (op : ShiftOp) : (out op).c = op.tape sz d f.x q := op.apply_c sz (q + 1) d f
  have hx (op : ShiftOp) (hne : ¬ (op = .rol ∨ op = .ror)) : (out op).x = (out op).c := by
    rw [hc]
    exact (op.apply_x sz (q + 1) d f).trans (if_neg hne)
  have hlast : q + 1 + (n - 1) = q + n := by omega
  refine ⟨?asl, hx _ (by decide), ?lsl, hx _ (by decide), hc _, hx _ (by decide), ?lsr, hx _ (by decide), ?rol, ?rol0, hc _,
    ?rorTop, ?roxl, hx _ (by decide), ?roxr, hx _ (by decide)⟩
  case asl => exact (hc _).trans (tape_left_eq_ite sz d q)
  case lsl => exact (hc _).trans (tape_left_eq_ite sz d q)
  case lsr =>
    rw [hc, ShiftOp.tape, Bool.if_false_right]
    rfl
  case rol =>
    rw [hc, ← rol_carry_place sz hr63]
    rfl
  case rol0 =>
    have hbit : (res .rol).getLsbD 0 = ShiftOp.rol.tape sz d f.x (q + 1 + (n - 1)) := ShiftOp.apply_getLsbD hpos
    rw [hc, hbit, hlast, tape_rol_add_bits]
  case rorTop =>
    have hbit : (res .ror).getLsbD (n - 1) = ShiftOp.ror.tape sz d f.x (q + 1 + (n - 1)) := ShiftOp.apply_getLsbD (by omega)
    rw [hc, hbit, hlast, tape_ror_add_bits]
  case roxl =>
    rw [hc]
    exact tape_roxl_eq_testBit sz (q + 1) d f.x (Nat.add_right_comm q n 1) le_rfl
  case roxr =>
    have hturn := tape_roxr_eq_testBit sz (q + 1) d f.x le_rfl
    rw [Nat.add_right_comm, Nat.add_assoc, tape_roxr_add_bits] at hturn
    exact (hc _).trans hturn

/-- Settles O10: the results are the tape from place `r` on, and V of ASL tells whether the tape has changed up to there. -/
theorem shiftResults : Obligations.ShiftResults := by
  intro sz r d f hr63 n u k x j res out
  have hu : u < 2 ^ n := Nat.mod_lt _ (Nat.two_pow_pos _)
  refine ⟨?asl, ?lsl, ?lsr, ?asr, ?rol, ?ror, ?roxl, ?roxr, ?aslV, fun op => op.apply_v_of_ne_asl sz r d f,
    fun op => ⟨op.apply_n sz r d f, op.apply_z sz r d f⟩, ?rolX, ?rorX, ?zero⟩
  case asl => exact apply_toNat_of_left sz r d f rfl (tape_left_eq_testBit sz d r)
  case lsl => exact apply_toNat_of_left sz r d f rfl (tape_left_eq_testBit sz d r)
  case lsr =>
    rw [← Nat.mod_eq_of_lt ((Nat.div_le_self u (2 ^ r)).trans_lt hu)]
    refine apply_toNat_of_right sz r d f rfl fun i _ => ?_
    rw [Nat.testBit_div_two_pow, Nat.testBit_mod_two_pow, BitVec.testBit_toNat, Nat.add_comm i r]
    rfl
  case asr =>
    intro i hi
    rw [BitVec.testBit_toNat, ShiftOp.apply_getLsbD hi, Nat.add_comm i r]
    rfl
  case rol => exact apply_toNat_of_left sz r d f rfl fun i hi => tape_rol_eq_testBit sz r d f.x hi
  case ror => exact apply_toNat_of_right sz r d f rfl fun i hi => tape_ror_eq_testBit sz r d f.x hi
  case roxl =>
    rw [Nat.mod_mod_of_dvd _ (Nat.pow_dvd_pow 2 (Nat.le_succ n))]
    exact apply_toNat_of_left sz r d f rfl fun i hi => tape_roxl_eq_testBit sz r d f.x (by omega) hi.le
  case roxr =>
    rw [Nat.mod_mod_of_dvd _ (Nat.pow_dvd_pow 2 (Nat.le_succ n))]
    exact apply_toNat_of_right sz r d f rfl fun i hi => tape_roxr_eq_testBit sz r d f.x hi.le
  case aslV =>
    have hfirst : ShiftOp.asl.tape sz d f.x 0 = d.getLsbD (n - 1) := ShiftOp.tape_of_lt (Size.bits_pos sz)
    have hv := ShiftOp.apply_asl_v sz r d f
    rw [hfirst] at hv
    exact hv
  case rolX => cases r <;> exact ShiftOp.apply_x .rol sz _ d f
  case rorX => cases r <;> exact ShiftOp.apply_x .ror sz _ d f
  case zero =>
    rintro rfl op
    cases op <;> exact ⟨rfl, rfl, rfl⟩

end Sys2Proof
end

section
/-! SUPPORT. Decimal bytes as numbers below 100, and the decimal sum and difference (45_bit_bcd.md R305 to R308). -/

namespace Sys2Proof.Machine

theorem natToBcd_high {k : Nat} (h : k < 100) : ((natToBcd k).extractLsb' 4 4).toNat = k / 10 := by
  rw [natToBcd, BitVec.extractLsb'_append_eq_left, BitVec.toNat_ofNat]
  omega

theorem natToBcd_low (k : Nat) : ((natToBcd k).extractLsb' 0 4).toNat = k % 10 := by
  rw [natToBcd, BitVec.extractLsb'_append_eq_right, BitVec.toNat_ofNat]
  omega

/-- `bcd` is the inverse of `dec` on the numbers of two digits (R305). -/
theorem bcdToNat_natToBcd {k : Nat} (h : k < 100) : bcdToNat (natToBcd k) = k := by
  rw [bcdToNat, natToBcd_high h, natToBcd_low, Nat.div_add_mod]

theorem bcdValid_natToBcd {k : Nat} (h : k < 100) : bcdValid (natToBcd k) = true := by
  rw [bcdValid, natToBcd_high h, natToBcd_low, Bool.and_eq_true, decide_eq_true_iff, decide_eq_true_iff]
  omega

theorem bcdToNat_lt_of_valid {b : Byte} (h : bcdValid b = true) : bcdToNat b < 100 := by
  rw [bcdValid, Bool.and_eq_true, decide_eq_true_iff, decide_eq_true_iff] at h
  rw [bcdToNat]
  omega

section
variable {s d : Byte} (x : Bool)

theorem bcdValid_bcdAdd : bcdValid (bcdAdd s d x).res = true := bcdValid_natToBcd (Nat.mod_lt _ (by decide))

theorem bcdValid_bcdSub : bcdValid (bcdSub s d x).res = true := bcdValid_natToBcd (Nat.mod_lt _ (by decide))

/-- The carry stands for the hundred that the sum loses. -/
theorem bcdAdd_exact (hs : bcdValid s = true) (hd : bcdValid d = true) :
    bcdToNat (bcdAdd s d x).res + 100 * (bcdAdd s d x).c.toNat = bcdToNat s + bcdToNat d + x.toNat := by
  have hslt := bcdToNat_lt_of_valid hs
  have hdlt := bcdToNat_lt_of_valid hd
  have hx := x.toNat_le
  rw [bcdAdd, bcdToNat_natToBcd (Nat.mod_lt _ (by decide))]
  by_cases h : 99 < bcdToNat s + bcdToNat d + x.toNat
  · rw [decide_eq_true h, Bool.toNat_true]
    omega
  · rw [decide_eq_false h, Bool.toNat_false]
    omega

/-- The borrow stands for the hundred that the difference gains. -/
theorem bcdSub_exact (hs : bcdValid s = true) (hd : bcdValid d = true) :
    bcdToNat (bcdSub s d x).res + bcdToNat s + x.toNat = bcdToNat d + 100 * (bcdSub s d x).c.toNat := by
  have hslt := bcdToNat_lt_of_valid hs
  have hdlt := bcdToNat_lt_of_valid hd
  have hx := x.toNat_le
  rw [bcdSub, bcdToNat_natToBcd (Nat.mod_lt _ (by decide))]
  by_cases h : 100 + bcdToNat d - bcdToNat s - x.toNat < 100
  · rw [decide_eq_true h, Bool.toNat_true]
    omega
  · rw [decide_eq_false h, Bool.toNat_false]
    omega

end

end Sys2Proof.Machine
end

section
/-! SUPPORT. ABCD, SBCD and NBCD as instructions: the free values drawn, then the byte and the flags written (45_bit_bcd.md R306 to
R310). -/

namespace Sys2Proof.Machine

theorem OnlyAddressRegs.trans {s t u : State} (h₁ : OnlyAddressRegs s t) (h₂ : OnlyAddressRegs t u) : OnlyAddressRegs s u :=
  ⟨h₂.cfg.trans h₁.cfg, h₂.d.trans h₁.d, h₂.pc.trans h₁.pc, h₂.sys.trans h₁.sys, h₂.ccr.trans h₁.ccr, h₂.vbr.trans h₁.vbr,
    h₂.run.trans h₁.run, h₂.mem.trans h₁.mem, h₂.pins.trans h₁.pins, h₂.inputs.trans h₁.inputs,
    h₂.resetPulses.trans h₁.resetPulses, h₂.stale.trans h₁.stale, h₂.tracing.trans h₁.tracing, h₂.draws.trans h₁.draws⟩

/-! ## The counter of free values -/

/-- A write neither sees nor changes how many free values have been drawn. -/
theorem State.putAt_draws (s : State) (k : Nat) (sz : Size) (v : Word) (l : Loc) :
    ({ s with draws := k } : State).putAt sz v l = { s.putAt sz v l with draws := k } := by
  cases l with
  | mem a p => cases sz <;> rfl
  | dreg n => rfl
  | areg n => rfl
  | imm x => rfl

theorem writable_draws {s : State} {sz : Size} {l : Loc} (h : Writable s sz l) (k : Nat) :
    Writable { s with draws := k } sz l := by
  cases l with
  | mem a p => cases p <;> exact h
  | dreg n => exact h
  | areg n => exact h
  | imm x => exact h

/-! ## The decimal operation -/

/-- What a decimal operation answers on valid digits: the result, X = C, Z sticky, and two free flags drawn (R306). -/
def DecimalResult (r : Decimal) (old : Ccr) (byte : Byte) (f : Ccr) (k : Nat) : Prop :=
  byte = r.res ∧ f.x = r.c ∧ f.c = r.c ∧ f.z = (old.z && r.res == 0#8) ∧ k = 2

/-- A decimal operation completes whatever its operands are; only the counter of free values moves. -/
theorem decimal_ok (valid : Bool) (r : Decimal) (old : Ccr) (s : State) :
    ∃ byte f k, (decimal valid r old).run s = .ok (byte, f) { s with draws := s.draws + k } ∧
      (valid = true → DecimalResult r old byte f k) := by
  cases valid with
  | true => exact ⟨_, _, 2, rfl, fun _ => ⟨rfl, rfl, rfl, rfl, rfl⟩⟩
  | false => exact ⟨_, _, 6, rfl, nofun⟩

/-- The end that the three instructions share: the decimal operation, the byte written, then the flags. -/
theorem runInstr_decimal {s u : State} {m : Loc} (hsame : OnlyAddressRegs s u) (hw : Writable u .b m) (valid : Bool)
    (r : Decimal) (n : Nat) :
    ∃ (w : State) (byte : Byte) (f : Ccr) (k : Nat),
      runInstr (decimal valid r s.ccr >>= fun t => writeLoc .b (t.1.setWidth 32) m >>= fun _ =>
          putCcr (fun _ => t.2) >>= fun _ => advance n) u =
        .next { w with ccr := f, pc := s.ipAt n, draws := s.draws + k } ∧
      StoresOnly .b m (byte.setWidth 32) u w ∧ (valid = true → DecimalResult r s.ccr byte f k) := by
  obtain ⟨byte, f, k, hrun, hresult⟩ := decimal_ok valid r s.ccr u
  have hstores : StoresOnly .b m (byte.setWidth 32) u (u.putAt .b (byte.setWidth 32) m) := storesOnly_putAt hw
  refine ⟨u.putAt .b (byte.setWidth 32) m, byte, f, k, ?_, hstores, hresult⟩
  rw [runInstr_bind_ok hrun, runInstr_bind_ok (writeLoc_ok (writable_draws hw _)), runInstr_bind_ok (putCcr_run _ _),
    State.putAt_draws, ← hsame.draws]
  exact runInstr_ok (advance_ok (t := { u.putAt .b (byte.setWidth 32) m with ccr := f, draws := u.draws + k })
    (hstores.same.pc.trans hsame.pc) n)

/-- ABCD and SBCD: the source is resolved and read before the destination is resolved (R310). -/
theorem runInstr_decimalOp {s t u : State} {x y : RegNum} {mem : Bool} {l m : Loc} (hs : PairResolves s .b mem y l t)
    (hr : Readable t .b l) (hd : PairResolves t .b mem x m u) (hr' : Readable u .b m) (hw : Writable u .b m)
    (op : Byte → Byte → Bool → Decimal) :
    let a := byteOf (valueOf t .b l)
    let b := byteOf (valueOf u .b m)
    ∃ (w : State) (byte : Byte) (f : Ccr) (k : Nat),
      runInstr (decimalOp x mem y op >>= fun _ => advance 1) s =
        .next { w with ccr := f, pc := s.pc + 2#32, draws := s.draws + k } ∧
      StoresOnly .b m (byte.setWidth 32) u w ∧
      (bcdValid a = true → bcdValid b = true → DecimalResult (op a b s.ccr.x) s.ccr byte f k) := by
  intro a b
  have hsource := pairResolves_effect hs
  have hdest := pairResolves_effect hd
  have hsame : OnlyAddressRegs s u := hsource.trans hdest
  obtain ⟨w, byte, f, k, hrun, hstores, hresult⟩ :=
    runInstr_decimal hsame hw (bcdValid a && bcdValid b) (op a b s.ccr.x) 1
  refine ⟨w, byte, f, k, Eq.trans ?_ hrun, hstores, fun ha hb => hresult (by rw [ha, hb, Bool.and_self])⟩
  simp only [decimalOp, bind_assoc]
  rw [runInstr_bind_ok hs, runInstr_bind_ok (readLoc_ok hr), runInstr_bind_ok hd, runInstr_bind_ok (readLoc_ok hr'),
    runInstr_bind_ok (EStateM.run_get u), hsame.ccr]

/-- NBCD: zero minus the operand minus X (R308). -/
theorem exec_nbcd {s t : State} {ea : Ea} {l : Loc} (hs : Resolves s 1 .b ea l t) (hr : Readable t .b l)
    (hw : Writable t .b l) :
    let a := byteOf (valueOf t .b l)
    ∃ (w : State) (byte : Byte) (f : Ccr) (k : Nat),
      exec (.nbcd ea) s = .next { w with ccr := f, pc := s.ipAt (Instr.nbcd ea).words, draws := s.draws + k } ∧
      StoresOnly .b l (byte.setWidth 32) t w ∧
      (bcdValid a = true → DecimalResult (bcdSub a 0#8 s.ccr.x) s.ccr byte f k) := by
  intro a
  have hsame := resolves_effect hs
  obtain ⟨w, byte, f, k, hrun, hstores, hresult⟩ :=
    runInstr_decimal hsame hw (bcdValid a) (bcdSub a 0#8 s.ccr.x) (Instr.nbcd ea).words
  rw [← hsame.ccr] at hrun
  exact ⟨w, byte, f, k, (runInstr_bind_ok hs).trans <| (runInstr_bind_ok (readLoc_ok hr)).trans <|
    (runInstr_bind_ok (EStateM.run_get t)).trans hrun, hstores, hresult⟩

end Sys2Proof.Machine
end

section
/-! SUPPORT. BTST, BCHG, BCLR and BSET as one instruction, by what it does to the operand (45_bit_bcd.md R300). -/

namespace Sys2Proof.Machine

/-- The instruction of a bit operation, its bit number in a data register or in an extension word (R301 to R304). -/
def BitOp.instr (dynamic : Bool) (n : RegNum) (bit : Byte) (ea : Ea) : BitOp → Instr
  | .test => if dynamic then .btstDyn n ea else .btstImm bit ea
  | .change => if dynamic then .bchgDyn n ea else .bchgImm bit ea
  | .clear => if dynamic then .bclrDyn n ea else .bclrImm bit ea
  | .set => if dynamic then .bsetDyn n ea else .bsetImm bit ea

/-- The bit number of an instruction, before it is taken modulo the operand's size (R300). -/
def State.bitNumber (s : State) (dynamic : Bool) (n : RegNum) (bit : Byte) : Nat :=
  if dynamic then (s.getD n).toNat else bit.toNat

/-- The register with the bit number is read before the operand is resolved. -/
theorem exec_bit (s : State) (op : BitOp) (dynamic : Bool) (n : RegNum) (bit : Byte) (ea : Ea) :
    exec (op.instr dynamic n bit ea) s =
      runInstr (bitOp op (if dynamic then 1 else 2) (s.bitNumber dynamic n bit) ea >>= fun _ =>
        advance (op.instr dynamic n bit ea).words) s := by
  cases op <;> cases dynamic <;> rfl

section
variable {s t : State} {k : Nat} {sz : Size} {ea : Ea} {l : Loc}

/-- A test writes nothing but Z. -/
theorem bitOp_test_ok (hsz : (if ea.kind == .dn then Size.l else .b) = sz) (hs : Resolves s k sz ea l t)
    (hr : Readable t sz l) (i : Nat) :
    (bitOp .test k i ea).run s = .ok () (t.setCcr { s.ccr with z := !(valueOf t sz l).getLsbD (i % sz.bits) }) := by
  subst hsz
  rw [← (resolves_effect hs).ccr]
  exact (run_bind_ok hs).trans (run_bind_ok (readLoc_ok hr))

/-- The other operations write the changed operand back; Z is that of the bit before. -/
theorem bitOp_write_ok {op : BitOp} (hop : op ≠ .test) (hsz : (if ea.kind == .dn then Size.l else .b) = sz)
    (hs : Resolves s k sz ea l t) (hr : Readable t sz l) (hw : Writable t sz l) (i : Nat) :
    (bitOp op k i ea).run s =
      .ok () ((t.putAt sz (BitOp.apply (valueOf t sz l) (i % sz.bits) op) l).setCcr
        { s.ccr with z := !(valueOf t sz l).getLsbD (i % sz.bits) }) := by
  subst hsz
  unfold bitOp
  rw [run_bind_ok hs, run_bind_ok (readLoc_ok hr), if_pos (bne_iff_ne.2 hop), run_bind_ok (writeLoc_ok hw), putCcr_run,
    putAt_ccr hs hw]

end

/-- A data register is a long operand (R300). -/
theorem bitOp_dn_ok (s : State) (op : BitOp) (k i : Nat) (m : RegNum) :
    (bitOp op k i (.dn m)).run s = .ok () ((s.setD m (BitOp.apply (s.getD m) (i % 32) op)).setCcr
      { s.ccr with z := !(s.getD m).getLsbD (i % 32) }) := by
  have hs : Resolves s k .l (.dn m) (.dreg m) s := resolves_dn s k .l m
  have hsz : (if (Ea.dn m).kind == .dn then Size.l else .b) = .l := rfl
  by_cases hop : op = .test
  · subst hop
    rw [bitOp_test_ok hsz hs trivial, BitOp.apply, State.setD_getD]
    rfl
  · exact bitOp_write_ok hop hsz hs trivial trivial i

theorem exec_bit_dn (s : State) (op : BitOp) (dynamic : Bool) (n m : RegNum) (bit : Byte) :
    let b := s.bitNumber dynamic n bit % 32
    exec (op.instr dynamic n bit (.dn m)) s = .next { s.setD m (BitOp.apply (s.getD m) b op) with
      ccr := { s.ccr with z := !(s.getD m).getLsbD b }, pc := if dynamic then s.pc + 2#32 else s.pc + 4#32 } := by
  intro b
  have hpc : s.ipAt (op.instr dynamic n bit (.dn m)).words = if dynamic then s.pc + 2#32 else s.pc + 4#32 := by
    cases op <;> cases dynamic <;> rfl
  rw [exec_bit, ← hpc]
  exact runInstr_advance (bitOp_dn_ok s op _ _ m) rfl _

end Sys2Proof.Machine
end

section
/-! PROOFS. The statements of 45_bit_bcd.md. -/

namespace Sys2Proof

open Machine

/-- Settles O11: a sum of two decimal bytes and X is below 200, and a difference at least -100. -/
theorem decimalArithmetic : Obligations.DecimalArithmetic := fun _ _ x hs hd =>
  ⟨bcdValid_bcdAdd x, bcdAdd_exact x hs hd, bcdValid_bcdSub x, bcdSub_exact x hs hd⟩

/-- Settles O38: the four differ in what they make of the register. -/
theorem bitOnRegister : Obligations.BitOnRegister := by
  intro s n m bit dynamic b v pc flags ea next
  have hexec (op : BitOp) : next (op.instr dynamic n bit ea) (BitOp.apply v b op) := exec_bit_dn s op dynamic n m bit
  exact ⟨hexec .test, hexec .change, hexec .clear, hexec .set⟩

/-- Settles O39: every operand but a data register is a byte. -/
theorem bitOnByte : Obligations.BitOnByte := by
  intro s t n bit dynamic ea l hdn hs hr b v flags
  have hsz : (if ea.kind == .dn then Size.l else .b) = .b := if_neg (by simpa using hdn)
  have hwrite (hw : Writable t .b l) (op : BitOp) (hop : op ≠ .test) :
      ∃ w, exec (op.instr dynamic n bit ea) s =
          .next { w with ccr := flags, pc := s.ipAt (op.instr dynamic n bit ea).words } ∧
        StoresOnly .b l (BitOp.apply v b op) t w := by
    refine ⟨_, ?_, storesOnly_putAt hw⟩
    rw [exec_bit]
    exact runInstr_advance (bitOp_write_ok hop hsz hs hr hw _) (putAt_pc hs hw _) _
  refine ⟨?test, fun hw i x hi => ?write⟩
  case test =>
    exact (exec_bit s .test dynamic n bit ea).trans (runInstr_advance (bitOp_test_ok hsz hs hr _) (resolves_effect hs).pc _)
  case write =>
    simp only [List.mem_cons, List.not_mem_nil, or_false, Prod.mk.injEq] at hi
    obtain ⟨rfl, rfl⟩ | ⟨rfl, rfl⟩ | ⟨rfl, rfl⟩ := hi
    · exact hwrite hw .change (by decide)
    · exact hwrite hw .clear (by decide)
    · exact hwrite hw .set (by decide)

/-- Settles O40: ABCD and SBCD are one action over `bcdAdd` or `bcdSub`. -/
theorem decimalInstructions : Obligations.DecimalInstructions := by
  refine ⟨fun s t u x y mem l m subtract hs hr hd hr' hw => ?pair, fun s t ea l hs hr hw => exec_nbcd hs hr hw⟩
  cases subtract with
  | false => exact runInstr_decimalOp hs hr hd hr' hw bcdAdd
  | true => exact runInstr_decimalOp hs hr hd hr' hw bcdSub

end Sys2Proof
end

section
/-! SUPPORT. Transfers of control: the branches one path at a time, and what RTS and RTR pull from the stack (46_program_control.md
R321 to R328). -/

namespace Sys2Proof.Machine

/-! ## Branches -/

/-- Bcc (R321): either path leaves everything but `pc` alone. -/
theorem exec_bcc (s : State) (c : Cond) (d : BranchDisp) :
    exec (.bcc c d) s =
      .next { s with pc := if s.ccr.holds c then branchTarget s d else s.ipAt (Instr.bcc c d).words } := by
  refine runInstr_ok ((run_bind_ok (EStateM.run_get s)).trans ((run_ite _ _ _ s).trans ?_))
  by_cases h : s.ccr.holds c = true
  · rw [if_pos h, if_pos h, jump_run]
  · rw [if_neg h, if_neg h, advance_run]

/-- DBcc with its condition true ends the loop and does not count (R324). -/
theorem exec_dbcc_holds {s : State} {c : Cond} (h : s.ccr.holds c = true) (r : RegNum) (d : Word16) :
    exec (.dbcc c r d) s = .next { s with pc := s.pc + 4#32 } := by
  refine runInstr_ok ((run_bind_ok (EStateM.run_get s)).trans ((run_ite _ _ _ s).trans ?_))
  rw [if_pos h]
  exact advance_ok rfl 2

/-- DBcc with its condition false counts, and branches unless the counter has passed 0 (R324). -/
theorem exec_dbcc_counts {s : State} {c : Cond} (h : ¬s.ccr.holds c = true) (r : RegNum) (d : Word16) :
    let count := (s.getD r).extractLsb' 0 16 - 1#16
    exec (.dbcc c r d) s =
      .next { s.setDPart .w r (count.setWidth 32) with
        pc := if count = 0xFFFF#16 then s.pc + 4#32 else branchTarget s (.word d) } := by
  intro count
  refine runInstr_ok ((run_bind_ok (EStateM.run_get s)).trans ((run_ite _ _ _ s).trans ?_))
  rw [if_neg h]
  refine (run_bind_ok (EStateM.run_modify _ s)).trans ((run_ite _ _ _ _).trans ?_)
  simp only [beq_iff_eq]
  by_cases hcount : count = 0xFFFF#16
  · rw [if_pos hcount, if_pos hcount]
    exact advance_ok (s.setDPart_pc .w r _) 2
  · rw [if_neg hcount, if_neg hcount, jump_run]

/-! ## Two pulls -/

/-- Two pulls that complete, the second from where the first has left the stack pointer. -/
theorem pull_pull_ok {β : Type} {s : State} {sz sz' : Size} (f : Word → Word → M β)
    (h : s.accessible (s.fc false) false sz s.sp = true)
    (h' : s.accessible (s.fc false) false sz' (s.sp + BitVec.ofNat 32 sz.bytes) = true) :
    (pull sz >>= fun v => pull sz' >>= fun w => f v w).run s =
      (f (s.valueAt sz s.sp) (s.valueAt sz' (s.sp + BitVec.ofNat 32 sz.bytes))).run
        (s.setSp (s.sp + BitVec.ofNat 32 sz.bytes + BitVec.ofNat 32 sz'.bytes)) := by
  have hsecond : (pull sz').run (s.setSp (s.sp + BitVec.ofNat 32 sz.bytes)) =
      .ok (s.valueAt sz' (s.sp + BitVec.ofNat 32 sz.bytes))
        (s.setSp (s.sp + BitVec.ofNat 32 sz.bytes + BitVec.ofNat 32 sz'.bytes)) := by
    have hpull := pull_ok (s := s.setSp (s.sp + BitVec.ofNat 32 sz.bytes)) (sz := sz')
    rw [State.sp_setSp, State.accessible_setSp, State.setSp_setSp,
      State.valueAt_congr (s.setSp_cfg _) (s.setSp_mem _)] at hpull
    exact hpull h'
  rw [run_bind_ok (pull_ok h), run_bind_ok hsecond]

end Sys2Proof.Machine
end

section
/-! PROOFS. The statements of 46_program_control.md. -/

namespace Sys2Proof

open Machine

/-- Settles O41: a target is `pc + 2` plus the displacement, whatever the displacement's size. -/
theorem branchesAndJumps : Obligations.BranchesAndJumps := by
  intro s c d r d16 disp count
  have htarget : branchTarget s d = s.pc + 2#32 + disp := by cases d <;> rfl
  refine ⟨?bra, ?bcc, ?dbcc, fun ea a hea => ?jmp⟩
  case bra =>
    rw [← htarget]
    exact runInstr_ok (jump_run (branchTarget s d) s)
  case bcc =>
    rw [← htarget]
    exact exec_bcc s c d
  case dbcc =>
    by_cases h : s.ccr.holds c = true
    · rw [if_pos h]
      exact exec_dbcc_holds h r d16
    · rw [if_neg h]
      exact exec_dbcc_counts h r d16
  case jmp => exact runInstr_ok ((run_bind_ok hea).trans (jump_run a s))

/-- Settles O42: RTR's second pull reads what `s` holds, because the first has moved the stack pointer only. -/
theorem returns : Obligations.Returns := by
  refine fun s => ⟨fun hl => ?rts, fun hw hl => ?rtr⟩
  case rts => exact runInstr_ok ((run_bind_ok (pull_ok hl)).trans (jump_run _ _))
  case rtr =>
    have hsp : s.sp + 2#32 + 4#32 = s.sp + 6#32 := by rw [BitVec.add_assoc]; rfl
    have hflags : (s.valueAt .w s.sp).extractLsb' 0 16 = s.wordAt s.sp := extractLsb'_setWidth (by decide) _
    rw [← hsp, ← hflags]
    exact runInstr_ok (pull_pull_ok _ hw hl)

end Sys2Proof
end

section
/-! SUPPORT. The system control instructions, their privilege check passed: SR and the flags written whole, STOP, RTE, TRAPV and
CHK (10_state.md R29, R42; 47_system_control.md R361 to R378). -/

namespace Sys2Proof.Machine

/-! ## SR as a word -/

theorem Ccr.ofWord_setWidth (v : Byte) :
    Ccr.ofWord (v.setWidth 16) = ⟨v.getLsbD 4, v.getLsbD 3, v.getLsbD 2, v.getLsbD 1, v.getLsbD 0⟩ := by
  simp [Ccr.ofWord]

/-- The flags taken from a word are its low bits that are implemented (10_state.md R29). -/
theorem Ccr.toByte_ofWord (w : Word16) : (Ccr.ofWord w).toByte = w.extractLsb' 0 8 &&& 0x1F#8 := by
  apply BitVec.eq_of_getLsbD_eq
  intro i hi
  interval_cases i <;> simp only [Ccr.ofWord, Ccr.toByte, BitVec.getLsbD_append, BitVec.getLsbD_ofBool] <;> simp

/-- SR after it is written: the word, but for the unimplemented bits (10_state.md R42). -/
theorem State.setSr_sr (s : State) (w : Word16) : (s.setSr w).sr = w &&& s.cfg.cpu.srMask := by
  have hsys : (s.setSr w).sys = w.extractLsb' 8 8 &&& sysMask s.cfg.cpu := BitVec.extractLsb'_and
  have hccr : (s.setSr w).ccr.toByte = w.extractLsb' 0 8 &&& 0x1F#8 := Ccr.toByte_ofWord w
  have hw : (w.extractLsb' 8 8 ++ w.extractLsb' 0 8 : BitVec 16) = w := by grind
  rw [State.sr, hsys, hccr, srMask_eq, ← BitVec.and_append, hw]

/-! ## The flags -/

/-- ANDI, ORI and EORI to CCR: the operation on each flag and its bit of the immediate byte, in either mode (R361 to R363). -/
theorem runInstr_ccrImm (s : State) (f : Bool → Bool → Bool) (v : Byte) :
    let b := Ccr.ofWord (v.setWidth 16)
    runInstr (ccrImm f v >>= fun _ => advance 2) s = .next { s with
      ccr := ⟨f s.ccr.x b.x, f s.ccr.n b.n, f s.ccr.z b.z, f s.ccr.v b.v, f s.ccr.c b.c⟩, pc := s.pc + 4#32 } := by
  intro b
  have hb : b = ⟨v.getLsbD 4, v.getLsbD 3, v.getLsbD 2, v.getLsbD 1, v.getLsbD 0⟩ := Ccr.ofWord_setWidth v
  rw [hb]
  exact runInstr_advance (putCcr_run _ s) rfl 2

/-- A source operand is read and one update made with it, which leaves `pc` alone. -/
theorem runInstr_readEa_modify {s t : State} {sz : Size} {ea : Ea} {l : Loc} (hs : Resolves s 1 sz ea l t)
    (hr : Readable t sz l) (f : Word → State → State) (hpc : (f (valueOf t sz l) t).pc = t.pc) (n : Nat) :
    runInstr (readEa 1 sz ea >>= fun v => modify (f v) >>= fun _ => advance n) s =
      .next { f (valueOf t sz l) t with pc := s.ipAt n } :=
  runInstr_ok <| (run_bind_ok (readEa_ok hs hr)).trans <| (run_bind_ok (EStateM.run_modify _ t)).trans <|
    advance_ok (hpc.trans (resolves_effect hs).pc) n

theorem exec_moveToCcr {s t : State} {ea : Ea} {l : Loc} (hs : Resolves s 1 .w ea l t) (hr : Readable t .w l) :
    exec (.moveToCcr ea) s =
      .next { t with ccr := Ccr.ofWord ((valueOf t .w l).extractLsb' 0 16), pc := s.ipAt (Instr.moveToCcr ea).words } :=
  runInstr_readEa_modify hs hr (fun v u => u.setCcr (Ccr.ofWord (v.extractLsb' 0 16))) rfl _

/-! ## Privileged instructions in supervisor mode -/

section
variable {s t : State} (hsuper : s.isSuper = true)
include hsuper

/-- In supervisor mode the privilege check changes nothing. -/
theorem runInstr_requireSuper (body : M Unit) : runInstr (requireSuper >>= fun _ => body) s = runInstr body s := by
  rw [runInstr, run_bind_ok (requireSuper_ok hsuper), runInstr]

/-- A privileged instruction that makes one update, which leaves `pc` alone. -/
theorem runInstr_requireSuper_modify {f : State → State} (hpc : (f s).pc = s.pc) (n : Nat) :
    runInstr (requireSuper >>= fun _ => modify f >>= fun _ => advance n) s = .next { f s with pc := s.ipAt n } :=
  (runInstr_requireSuper hsuper _).trans (runInstr_advance (EStateM.run_modify f s) hpc n)

theorem exec_moveToSr {ea : Ea} {l : Loc} (hs : Resolves s 1 .w ea l t) (hr : Readable t .w l) :
    exec (.moveToSr ea) s = .next { t.setSr ((valueOf t .w l).extractLsb' 0 16) with
      pc := s.ipAt (Instr.moveToSr ea).words } :=
  (runInstr_requireSuper hsuper _).trans <|
    runInstr_readEa_modify hs hr (fun v u => u.setSr (v.extractLsb' 0 16)) rfl _

/-- STOP where the member may stop with this SR: any on the baseline members, one with S set on the others (R378). -/
theorem exec_stop {v : Word16} (h : s.cfg.cpu.isBaseline = true ∨ v.getLsbD 13 = true) :
    exec (.stop v) s = .next { s.setSr v with pc := s.pc + 4#32, run := .stopped } := by
  have hallowed : ¬(!s.cfg.cpu.isBaseline && !v.getLsbD 13) = true := by
    obtain h | h := h <;> simp [h]
  refine (runInstr_requireSuper hsuper _).trans (runInstr_ok ((run_bind_ok (EStateM.run_get s)).trans ?_))
  rw [if_neg hallowed]
  exact (run_bind_ok (EStateM.run_modify _ s)).trans (advance_ok (s := s) (t := { s.setSr v with run := .stopped }) rfl 2)

/-- STOP whose immediate clears S is a privilege violation from the MC68010 on (R378). -/
theorem exec_stop_privilege {v : Word16} (h : s.cfg.cpu.isBaseline = false) (hv : v.getLsbD 13 = false) :
    exec (.stop v) s = takeException .privilege s := by
  have hrefused : (!s.cfg.cpu.isBaseline && !v.getLsbD 13) = true := by rw [h, hv]; rfl
  refine (runInstr_requireSuper hsuper _).trans (runInstr_raise ((run_bind_ok (EStateM.run_get s)).trans ?_))
  rw [if_pos hrefused]
  exact run_bind_error (raise_run .privilege s)

end

/-! ## RTE -/

theorem extractLsb'_format (w : Word16) : (w.setWidth 32).extractLsb' 12 4 = w.extractLsb' 12 4 := by grind

theorem frameSize_format_zero (cpu : Cpu) {f : Word} (h : f.extractLsb' 12 4 = 0#4) : frameSize cpu f = pure 8#32 := by
  rw [frameSize, h]
  rfl

/-- RTE after its privilege check, where the frame can be read and has format 0 (R375). -/
theorem returnFromException_ok {s : State} (hsr : s.accessible .superData false .w s.sp = true)
    (hpc : s.accessible .superData false .l (s.sp + 2#32) = true)
    (hformat : s.cfg.cpu.formatWord = true →
      s.accessible .superData false .w (s.sp + 6#32) = true ∧ (s.wordAt (s.sp + 6#32)).extractLsb' 12 4 = 0#4) :
    returnFromException.run s = .ok () { (s.setSp (s.sp + BitVec.ofNat 32 (frameBytes s))).setSr (s.wordAt s.sp) with
      pc := s.longAt (s.sp + 2#32) } := by
  have hw : (s.valueAt .w s.sp).extractLsb' 0 16 = s.wordAt s.sp := extractLsb'_setWidth (by decide) _
  unfold returnFromException
  rw [run_bind_ok (EStateM.run_get s), run_bind_ok (memRead_ok hsr), run_bind_ok (memRead_ok hpc), ← hw]
  cases hf : s.cfg.cpu.formatWord with
  | true =>
    obtain ⟨hread, hzero⟩ := hformat hf
    have hsize : frameSize s.cfg.cpu (s.valueAt .w (s.sp + 6#32)) = pure 8#32 :=
      frameSize_format_zero _ ((extractLsb'_format _).trans hzero)
    rw [if_pos rfl, run_bind_ok (memRead_ok hread), hsize, frameBytes, hf]
    rfl
  | false =>
    rw [if_neg Bool.false_ne_true, frameBytes, hf]
    rfl

/-! ## TRAPV and CHK -/

/-- An action that does no more than raise, if at all. -/
theorem runInstr_raise_ite (c : Bool) (e : Exc) (s : State) :
    runInstr (if c then raise e else pure ()) s = if c then takeException e s else .next s := by
  cases c <;> rfl

/-- TRAPV tests V after it has moved `pc` on (R373). -/
theorem exec_trapv (s : State) :
    exec .trapv s = if s.ccr.v then takeException (.trapV s.pc) { s with pc := s.pc + 2#32 }
      else .next { s with pc := s.pc + 2#32 } :=
  runInstr_raise_ite s.ccr.v (.trapV s.pc) { s with pc := s.pc + 2#32 }

/-- The operands of CHK as numbers. -/
theorem toInt_sext_ofLong (long : Bool) (x : Word) :
    ((Size.ofLong long).sext x).toInt = if long then x.toInt else (x.extractLsb' 0 16).toInt := by
  cases long with
  | true => rfl
  | false => exact BitVec.toInt_signExtend_of_le (by decide)

/-- The flags CHK leaves, with four free bits from the `k`-th on: N tells which bound was passed (R371). -/
def chkFlags (old : Ccr) (k : Nat) (low high : Bool) : Ccr where
  x := old.x
  n := if low then true else if high then false else Config.freeBit (k + 3)
  z := Config.freeBit k
  v := Config.freeBit (k + 1)
  c := Config.freeBit (k + 2)

theorem chkFlags_n {low high : Bool} (h : (low || high) = true) (old : Ccr) (k : Nat) :
    (chkFlags old k low high).n = low := by
  cases low with
  | true => rfl
  | false => exact if_pos h

/-- CHK moves `pc` on and writes the flags before it raises (R371). -/
theorem exec_chk {s t : State} {r : RegNum} {long : Bool} {ea : Ea} {l : Loc} {v bound : Int}
    (hs : Resolves s 1 (Size.ofLong long) ea l t) (hr : Readable t (Size.ofLong long) l)
    (hv : ((Size.ofLong long).sext (s.getD r)).toInt = v)
    (hbound : ((Size.ofLong long).sext (valueOf t (Size.ofLong long) l)).toInt = bound) :
    let low := decide (v < 0)
    let high := decide (bound < v)
    let i := Instr.chk r ⟨long, ea⟩
    let u : State := { t with ccr := chkFlags s.ccr s.draws low high, pc := s.ipAt i.words, draws := s.draws + 4 }
    exec i s = if low || high then takeException (.chk s.pc) u else .next u := by
  intro low high i u
  have hsame := resolves_effect hs
  subst hv hbound
  refine Eq.trans (congrArg finish ((run_bind_ok (readEa_ok hs hr)).trans ?_)) (runInstr_raise_ite _ _ u)
  simp only [u, low, high, ← hsame.getD, ← hsame.draws, ← hsame.ccr, ← hsame.pc, ← hsame.ipAt]
  rfl

end Sys2Proof.Machine
end

section
/-! SUPPORT. The operation words of the privileged instructions (47_system_control.md R377). -/

namespace Sys2Proof

/-- A decoder that can answer does not reject the word, so it is marked. -/
theorem Dec.markPrivileged_of_run {d : Dec Instr} {ws rest : List Word16} {i : Instr} (h : d.run ws = .done i rest) :
    d.markPrivileged = .privileged d := by
  cases d with
  | reject r => cases h
  | done | need | privileged => rfl

/-- The operation word of a privileged instruction tells that it is one: no extension word is asked for before. -/
theorem decodeOp_privileged {cpu : Cpu} {i : Instr} {op : Word16} (hw : i.wf cpu = true) (hi : privileged cpu i = true)
    (hop : (encode i).head? = some op) : ∃ d, decodeOp cpu op = .privileged d := by
  cases i with
  | oriSr | andiSr | eoriSr | reset | rte | stop => cases hop; exact ⟨_, rfl⟩
  | moveUsp toAn r =>
    cases hop
    rw [decodeOp_mkOp]
    cases toAn <;> exact ⟨_, rfl⟩
  | moveToSr ea =>
    cases hop
    have hmarked := Dec.markPrivileged_of_run (eaOnly_run (rest := []) hw .moveToSr)
    rw [opEa, decodeOp_mkOp]
    exact ⟨_, hmarked⟩
  | moveFromSr ea =>
    cases hop
    have hmarked := Dec.markPrivileged_of_run (eaOnly_run (rest := []) hw .moveFromSr)
    rw [opEa, decodeOp_mkOp]
    exact ⟨_, (if_pos hi).trans hmarked⟩
  | _ => cases hi

end Sys2Proof
end

section
/-! SUPPORT. The privilege check before and in an instruction (47_system_control.md R377). -/

namespace Sys2Proof.Machine

/-! ## In the instruction -/

/-- From the MC68010 on MOVE from SR joins the instructions that every member has privileged (R368). -/
theorem privileged_cases {cpu : Cpu} {i : Instr} (h : privileged cpu i = true) :
    privileged .mc68000 i = true ∨ cpu.moveFromSrPrivileged = true ∧ ∃ ea, i = .moveFromSr ea := by
  cases i with
  | moveFromSr ea => exact .inr ⟨h, ea, rfl⟩
  | _ => exact .inl h

/-- In user mode a privileged instruction does nothing but raise (R377). -/
theorem exec_privileged_user {s : State} {i : Instr} (hu : s.isSuper = false) (hi : privileged s.cfg.cpu i = true) :
    exec i s = takeException .privilege s := by
  obtain hi | ⟨hcpu, ea, rfl⟩ := privileged_cases hi
  · obtain ⟨body, hbody, _⟩ := exec_privileged hi
    rw [hbody]
    exact runInstr_raise (run_bind_error (requireSuper_user hu))
  · refine runInstr_raise ((run_bind_ok (EStateM.run_get s)).trans ?_)
    rw [if_pos hcpu]
    exact run_bind_error (requireSuper_user hu)

/-! ## Before the instruction -/

/-- In user mode the fetch of a privileged instruction ends at its operation word (R377). -/
theorem fetchInstr_privileged_user {s : State} {d : Dec Instr} (hf : s.fetchable s.pc 1 = true) (hs : s.staleAt s.pc = [])
    (hd : decodeOp s.cfg.cpu (s.wordAt s.pc) = .privileged d) (hu : s.isSuper = false) :
    fetchInstr.run s = .error (.exc .privilege) s := by
  obtain ⟨heven, hgranted⟩ := State.fetchable_one hf
  refine (run_bind_ok (EStateM.run_get s)).trans ((run_bind_ok (fetch16_ok heven hgranted hs)).trans ?_)
  rw [hd]
  exact run_bind_error (requireSuper_user hu)

/-- One instruction in user mode whose operation word is a privileged instruction's: the violation is taken, and nothing else is
done. -/
theorem runOne_privileged_user {s : State} {i : Instr} (hu : s.isSuper = false) (hw : i.wf s.cfg.cpu = true)
    (hi : privileged s.cfg.cpu i = true) (hf : s.fetchable s.pc 1 = true) (hs : s.staleAt s.pc = [])
    (hop : (encode i).head? = some (s.wordAt s.pc)) :
    runOne s = afterRaise (takeException .privilege { s with tracing := s.traceMode }) := by
  obtain ⟨d, hd⟩ := decodeOp_privileged hw hi hop
  exact runOne_of_fetch_error (fetchInstr_privileged_user (s := { s with tracing := s.traceMode }) hf hs hd hu)

end Sys2Proof.Machine
end

section
/-! PROOFS. The statements of 47_system_control.md. -/

namespace Sys2Proof

open Machine

/-- Settles O43: the three immediate forms differ in the operation on a flag only. -/
theorem ccrWrites : Obligations.CcrWrites := by
  intro s v b f
  exact ⟨runInstr_ccrImm s (· && ·) v, runInstr_ccrImm s (· || ·) v, by
    simp only [Bool.bne_eq_xor]
    exact runInstr_ccrImm s (· ^^ ·) v, fun _ _ _ hs hr => exec_moveToCcr hs hr⟩

/-- Settles O44: SR is written as a whole word, and neither stack pointer with it. -/
theorem supervisorInstructions : Obligations.SupervisorInstructions := by
  intro s v hsuper m
  refine ⟨fun t i w n hi => ?writer, fun hstop => ⟨s.setSr v, exec_stop hsuper hstop, s.setSr_sr v⟩,
    fun r => ⟨?toUsp, ?fromUsp⟩, ?reset⟩
  case toUsp => exact runInstr_requireSuper_modify hsuper (f := fun s => { s with usp := s.getA r }) rfl 1
  case fromUsp => exact runInstr_requireSuper_modify hsuper (f := fun s => s.setA r s.usp) (s.setA_pc r _) 1
  case reset =>
    exact runInstr_requireSuper_modify hsuper (f := fun s => { s with resetPulses := s.resetPulses + 1 }) rfl 1
  case writer =>
    suffices hwrites : t.cfg = s.cfg ∧ exec i s = .next { t.setSr w with pc := s.ipAt n } from
      ⟨t.setSr w, hwrites.2, by rw [State.setSr_sr, hwrites.1]⟩
    obtain hi | ⟨ea, l, hs, hr, rfl, rfl, rfl⟩ := hi
    · simp only [List.mem_cons, Prod.mk.injEq, List.not_mem_nil, or_false] at hi
      obtain ⟨rfl, rfl, rfl, rfl⟩ | ⟨rfl, rfl, rfl, rfl⟩ | ⟨rfl, rfl, rfl, rfl⟩ := hi
      · exact ⟨rfl, runInstr_requireSuper_modify hsuper (f := fun s => s.setSr (s.sr &&& v)) rfl 2⟩
      · exact ⟨rfl, runInstr_requireSuper_modify hsuper (f := fun s => s.setSr (s.sr ||| v)) rfl 2⟩
      · exact ⟨rfl, runInstr_requireSuper_modify hsuper (f := fun s => s.setSr (s.sr ^^^ v)) rfl 2⟩
    · exact ⟨(resolves_effect hs).cfg, exec_moveToSr hsuper hs hr⟩

/-- Settles O45: the check stands before all else an instruction does, and before any extension word is fetched. -/
theorem privilegeViolation : Obligations.PrivilegeViolation := by
  refine fun s => ⟨fun i => exec_privileged_user, fun v hsuper => exec_stop_privilege hsuper, fun i hu hw hi hf hs hop =>
    ⟨runOne_privileged_user hu hw hi hf hs hop, fun hend hreset hhalt hrun hint hready => ?_⟩⟩
  obtain ⟨t, ht, hnext⟩ :=
    afterRaise_takeException (s := { s.sampled with tracing := s.sampled.traceMode }) (e := .privilege) rfl hready
  have hone := runOne_privileged_user (s := s.sampled) hu hw hi hf hs hop
  have hstep : step s = .next (settle t) := (step_eq_runOne hend hreset hhalt hrun hint).trans (hone.trans hnext)
  have hsuper : t.isSuper = true := by
    rw [State.isSuper, ht.sys]
    exact newSys_super .privilege _
  exact ⟨settle t, hstep, hsuper, ht.usp, ht.d, ht.a, ht.ccr, ht.tracing, ht.pc,
    fun hw hb => ⟨ht.framePc hw hb, ht.frameSr hw hb⟩⟩

/-- Settles O46: the bounds decide whether CHK's last action raises. -/
theorem checkBounds : Obligations.CheckBounds := by
  intro s t r long ea l hs hr signed v bound i
  have hchk := exec_chk hs hr (v := v) (bound := bound) (toInt_sext_ofLong long _) (toInt_sext_ofLong long _)
  refine ⟨fun hv hb => ⟨chkFlags s.ccr s.draws (decide (v < 0)) (decide (bound < v)), rfl, ?inside⟩,
    fun hout => ⟨chkFlags s.ccr s.draws (decide (v < 0)) (decide (bound < v)), rfl, ?outside⟩⟩
  case inside =>
    have hpass : ¬(decide (v < 0) || decide (bound < v)) = true := by
      simp only [Bool.or_eq_true, decide_eq_true_eq]
      omega
    exact hchk.trans (if_neg hpass)
  case outside =>
    have htrap : (decide (v < 0) || decide (bound < v)) = true := by
      simpa only [Bool.or_eq_true, decide_eq_true_eq] using hout
    exact ⟨chkFlags_n htrap s.ccr s.draws, hchk.trans (if_pos htrap)⟩

/-- Settles O47: the exception is taken with `pc` moved on, which is the PC it stacks. -/
theorem trapInstructions : Obligations.TrapInstructions := by
  intro s v next
  refine ⟨fun hready => ?trap, fun hready => ?illegal, fun hv hready => ?trapv, fun hv => ?noTrap⟩
  case trap =>
    obtain ⟨t, ht, hentered⟩ := takeException_entered (s := next) hready
    exact ⟨t, ht, hentered, hentered.framePc⟩
  case illegal => exact takeException_entered hready
  case trapv =>
    obtain ⟨t, ht, hentered⟩ := takeException_entered (s := next) hready
    exact ⟨t, ((exec_trapv s).trans (if_pos hv)).trans ht, hentered, hentered.framePc⟩
  case noTrap =>
    rw [exec_trapv, hv]
    rfl

/-- Settles O51: SR is written last, so the stack pointer that moves is that of the mode RTE began in. -/
theorem rteCompletes : Obligations.RteCompletes := by
  intro s hsuper hsr hpc hformat
  refine ⟨(s.setSp (s.sp + BitVec.ofNat 32 (frameBytes s))).setSr (s.wordAt s.sp),
    (runInstr_requireSuper hsuper _).trans (runInstr_ok (returnFromException_ok hsr hpc hformat)), ?_⟩
  rw [State.setSr_sr, State.setSp_cfg]

end Sys2Proof
end

section
/-! SUPPORT. Where exception processing and reset end: with trace off, at the long word of a vector, unless the processor has
halted (60_exceptions.md R440, R447, R448; 70_reset_and_hazards.md R480). -/

namespace Sys2Proof.Machine

/-- Trace is off, and `pc` is a long word of the vector table, unless the processor has halted. -/
structure AtVector (t : State) : Prop where
  trace : t.sys.getLsbD 7 = false ∧ t.sys.getLsbD 6 = false
  pc : t.run = .halted ∨ ∃ v : BitVec 8, t.pc = t.longAt (t.vectorBase + (v.setWidth 32 <<< 2))

/-! ## The trace bits -/

theorem entrySys_trace (b : Byte) : (entrySys b).getLsbD 7 = false ∧ (entrySys b).getLsbD 6 = false := by
  simp [entrySys]

theorem newSys_trace (e : Exc) (b : Byte) : (e.newSys b).getLsbD 7 = false ∧ (e.newSys b).getLsbD 6 = false := by
  cases e <;> simp [Exc.newSys, withMask, entrySys]

theorem resetSys_trace : (0x27#8).getLsbD 7 = false ∧ (0x27#8).getLsbD 6 = false := by decide

/-! ## Loading the vector -/

/-- Exception processing that reaches its end has taken `pc` from the vector. -/
theorem loadVector_eq_ok {s t : State} {vec : BitVec 8} (h : (loadVector vec).run s = .ok () t) : t = s.vectored vec := by
  obtain ⟨_, _, hget, h⟩ := run_bind_eq_ok h
  cases hget
  obtain ⟨v, _, hread, hset⟩ := run_bind_eq_ok h
  obtain ⟨_, rfl, rfl⟩ := memRead_eq_ok hread
  cases hset
  rfl

/-- A sequence that ends in loading a vector, completed, leaves `pc` at the vector. -/
theorem bind_loadVector_eq_ok {α : Type} {x : M α} {s t : State} {vec : BitVec 8}
    (h : (x >>= fun _ => loadVector vec).run s = .ok () t) : ∃ u : State, t = u.vectored vec := by
  obtain ⟨_, u, _, hload⟩ := run_bind_eq_ok h
  exact ⟨u, loadVector_eq_ok hload⟩

theorem enter_eq_ok {e : Exc} {s t : State} (h : (enter e).run s = .ok () t) : ∃ u : State, t = u.vectored e.vector := by
  obtain ⟨_, _, _, h⟩ := run_bind_eq_ok h
  obtain ⟨_, _, _, h⟩ := run_bind_eq_ok h
  exact bind_loadVector_eq_ok h

theorem enterGroup0_eq_ok {f : AccessFault} {b : Bool} {op : Word} {s t : State} (h : (enterGroup0 f b op).run s = .ok () t) :
    ∃ u : State, t = u.vectored f.vector := by
  obtain ⟨_, _, hget, h⟩ := run_bind_eq_ok h
  obtain ⟨_, _, _, h⟩ := run_bind_eq_ok h
  rw [run_ite] at h
  split at h
  · exact bind_loadVector_eq_ok h
  · exact bind_loadVector_eq_ok h

/-! ## Exceptions -/

theorem takeAccessFault_atVector {f : AccessFault} {b : Bool} {op : Word} {s t : State}
    (h : takeAccessFault f b op s = .next t) : AtVector t := by
  refine ⟨?trace, ?pc⟩
  case trace =>
    obtain ⟨m, rfl⟩ := takeAccessFault_next h
    have hsys : (stateAfter ((enterGroup0 f b op).run { s with tracing := .off })).sys = entrySys s.sys :=
      plainRel_sameSys.enterGroup0 { s with tracing := .off }
    exact hsys ▸ entrySys_trace s.sys
  case pc =>
    by_cases hh : s.cfg.halt = .firstRaise
    · cases (takeAccessFault_terminal hh).symm.trans h
    · obtain ⟨u, hrun, hu⟩ | ⟨r, u, _, hu⟩ | ⟨_, u, _, hu⟩ := takeAccessFault_cases (f := f) (b := b) (op := op) hh
      · cases hu.symm.trans h
        obtain ⟨v, rfl⟩ := enterGroup0_eq_ok hrun
        exact .inr ⟨f.vector, v.vectored_pc f.vector⟩
      · cases hu.symm.trans h
      · cases hu.symm.trans h
        exact .inl rfl

theorem takeException_atVector {e : Exc} {s t : State} (h : takeException e s = .next t) : AtVector t := by
  have hsys (m : TraceMode) : (stateAfter ((enter e).run { s with tracing := m })).sys = e.newSys s.sys :=
    plainRel_sameSys.enter { s with tracing := m }
  unfold takeException at h
  split at h
  · cases h
  · have hnew := hsys (if e.endsTrace then .off else s.tracing)
    split at h
    case h_1 hrun =>
      cases h
      rw [hrun] at hnew
      obtain ⟨u, rfl⟩ := enter_eq_ok hrun
      exact ⟨hnew ▸ newSys_trace e s.sys, .inr ⟨e.vector, u.vectored_pc e.vector⟩⟩
    case h_2 => cases h
    case h_3 => exact takeAccessFault_atVector h
    case h_4 u hrun =>
      cases h
      rw [hrun] at hnew
      exact ⟨hnew ▸ newSys_trace e s.sys, .inl rfl⟩

/-- Every exception that gives a next state leaves it at a vector, or halted (R440, R447). -/
theorem TakesException.atVector {s t : State} (h : TakesException s t) : AtVector t := by
  cases h with
  | exc e h => exact takeException_atVector h
  | access f b op h => exact takeAccessFault_atVector h

/-! ## Reset -/

/-- Reset loads `pc` from vector 1, with the vector base at 0 (70_reset_and_hazards.md R480). -/
theorem resetSequence_eq_ok {s t : State} (h : resetSequence.run s = .ok () t) :
    t = { s with sys := 0x27#8, vbr := 0#32, ssp := s.longAt 0#32, pc := s.longAt 4#32, run := .running, tracing := .off } := by
  obtain ⟨_, _, hsys, h⟩ := run_bind_eq_ok h
  cases hsys
  obtain ⟨_, _, hread, h⟩ := run_bind_eq_ok h
  obtain ⟨_, rfl, rfl⟩ := memRead_eq_ok hread
  obtain ⟨_, _, hssp, h⟩ := run_bind_eq_ok h
  cases hssp
  obtain ⟨_, _, hread, h⟩ := run_bind_eq_ok h
  obtain ⟨_, rfl, rfl⟩ := memRead_eq_ok hread
  cases h
  rfl

theorem settled_takeReset_atVector {s t : State} (h : settled (takeReset s) = .next t) : AtVector t := by
  have hsys : (stateAfter (resetSequence.run s)).sys = 0x27#8 := plainRel_sameSys.resetSequence (fun _ _ => rfl) s
  unfold takeReset at h
  split at h
  case h_1 hrun =>
    cases h
    cases resetSequence_eq_ok hrun
    refine ⟨resetSys_trace, .inr ⟨1#8, ?_⟩⟩
    have hbase : (settle { s with
        sys := 0x27#8, vbr := 0#32, ssp := s.longAt 0#32, pc := s.longAt 4#32, run := .running, tracing := .off }).vectorBase =
        0#32 := ite_self _
    rw [hbase]
    rfl
  case h_2 => cases h
  case h_3 hrun =>
    cases h
    rw [hrun] at hsys
    exact ⟨hsys ▸ resetSys_trace, .inl rfl⟩

/-! ## A step -/

/-- What a step can do (R483), a reset among it as `takeReset` gives it. -/
theorem step_cases_reset {s t : State} (h : step s = .next t) :
    settled (takeReset s.sampled) = .next t ∨ (∃ m, t = { s.sampled with run := m }) ∨ TakesException s.sampled t ∨
      runOne s.sampled = .next t := by
  unfold step cycle at h
  dsimp only at h
  split at h
  · cases h
  split at h
  · exact .inl h
  refine .inr ?_
  split at h
  · exact .inl ⟨s.run, idle_next h⟩
  split at h
  · cases h; exact .inl ⟨_, rfl⟩
  split at h
  · exact .inr (.inl (.exc _ h))
  split at h
  · exact .inl ⟨s.run, idle_next h⟩
  · exact .inr (.inr h)

/-- An instruction that begins in user mode and ends in supervisor mode has taken an exception, its own or a trace. -/
theorem runOne_atVector {s t : State} (hs : s.isSuper = false) (h : runOne s = .next t) (ht : t.isSuper = true) :
    AtVector t := by
  obtain ⟨u, v, c, hu, hv, he⟩ := runOne_next plainRel_userIsolated runsBy_userIsolated h
  obtain ⟨l, rfl | htrace⟩ := endInstr_next he
  · obtain rfl | hx := hv
    · have huser : v.isSuper = false := (State.isSuper_of_supervisorPart (hu hs)).trans hs
      cases huser.symm.trans ht
    · exact ⟨hx.atVector.trace, hx.atVector.pc⟩
  · exact htrace.atVector

end Sys2Proof.Machine
end

section
/-! SUPPORT. What exception processing outside group 0 makes of the mode, the mask and the stack pointers (60_exceptions.md R440,
R450, R451), and what a boundary between instructions does with an interrupt. -/

namespace Sys2Proof

open Machine

/-! ## The system byte on entry -/

theorem entrySys_mask (b : Byte) : (entrySys b).extractLsb' 0 3 = b.extractLsb' 0 3 := by
  simp only [entrySys, BitVec.extractLsb'_or, BitVec.extractLsb'_and, BitVec.reduceExtractLsb', BitVec.or_zero]
  exact BitVec.and_allOnes

theorem withMask_mask (b : Byte) (level : BitVec 3) : (withMask b level).extractLsb' 0 3 = level := by
  simp only [withMask, BitVec.extractLsb'_or, BitVec.extractLsb'_and, BitVec.reduceExtractLsb', BitVec.and_zero, BitVec.zero_or]
  exact extractLsb'_setWidth (by decide) level

/-- An interrupt clears M (log 13). -/
theorem newSys_interrupt_master (level : BitVec 3) (vec : BitVec 8) (b : Byte) :
    ((Exc.interrupt level vec).newSys b).getLsbD 4 = false := by
  simp [Exc.newSys, withMask]

/-! ## What is left -/

section
variable {s t : State} {e : Exc} (h : Entered s e t)
include h

theorem Entered.isSuper : t.isSuper = true := by
  rw [State.isSuper, h.sys]
  exact newSys_super e s.sys

theorem Entered.onMaster : t.onMaster = (s.entered (e.newSys s.sys)).onMaster := State.onMaster_congr h.sys h.cfg

/-- With the frame off the supervisor stack again, all three stack pointers are what they were (R451). -/
theorem Entered.frame_popped :
    let u := t.setSp (t.sp + BitVec.ofNat 32 (frameBytes s))
    u.usp = s.usp ∧ u.ssp = s.ssp ∧ u.msp = s.msp := by
  have hother := h.otherSp
  rw [h.sp, BitVec.sub_add_cancel, State.setSp, h.isSuper, h.onMaster, State.sp,
    show (s.entered (e.newSys s.sys)).isSuper = true from newSys_super e s.sys]
  cases hM : (s.entered (e.newSys s.sys)).onMaster with
  | true =>
    rw [hM] at hother
    exact ⟨h.usp, hother, rfl⟩
  | false =>
    rw [hM] at hother
    exact ⟨h.usp, rfl, hother⟩

end

/-- An interrupt sets the mask to its level (R450). -/
theorem Entered.mask_interrupt {s t : State} {level : BitVec 3} {vec : BitVec 8} (h : Entered s (.interrupt level vec) t) :
    t.mask = level := by
  rw [State.mask, h.sys]
  exact withMask_mask _ level

/-- The other exceptions keep the mask (R440). -/
theorem Entered.mask_kept {s t : State} {e : Exc} (h : Entered s e t) (he : ∀ level vec, e ≠ .interrupt level vec) :
    t.mask = s.mask := by
  rw [State.mask, h.sys]
  cases e with
  | interrupt level vec => exact absurd rfl (he level vec)
  | _ => exact entrySys_mask s.sys

/-- An interrupt leaves the processor on the interrupt stack, with the master stack pointer as it was (log 13). -/
theorem Entered.interruptStack {s t : State} {level : BitVec 3} {vec : BitVec 8} (h : Entered s (.interrupt level vec) t) :
    t.onMaster = false ∧ t.msp = s.msp := by
  have hm : (s.entered ((Exc.interrupt level vec).newSys s.sys)).onMaster = false :=
    Bool.and_eq_false_iff.2 (.inr (newSys_interrupt_master level vec s.sys))
  have hother := h.otherSp
  rw [hm] at hother
  exact ⟨h.onMaster.trans hm, hother⟩

/-- What is kept depends on memory and on the platform. -/
theorem bytesKept_congr {s t u : State} {a : Word} {n : Nat} (h : BytesKept s t a n) (hc : u.cfg = t.cfg) (hm : u.mem = t.mem) :
    BytesKept s u a n := by
  intro x hx
  rw [State.byteAt, hm, State.phys_congr hc]
  exact h x hx

/-- The format word of a short frame names format 0 (R441). -/
theorem formatWord_format_zero (vec : BitVec 8) : (vec.setWidth 16 <<< 2).extractLsb' 12 4 = 0#4 := by
  apply BitVec.eq_of_toNat_eq
  simp [Nat.shiftLeft_eq, Nat.shiftRight_eq_div_pow]
  omega

/-- RTE takes the frame of an exception off again and goes back to its PC, with the stacked SR (R451;
47_system_control.md R375). -/
theorem Entered.exec_rte {s t : State} {e : Exc} (h : Entered s e t) (hs : s.Inv) (hb : 3 ≤ s.cfg.addrBits)
    (hsr : s.accessible .superData false .w t.sp = true) (hpc : s.accessible .superData false .l (t.sp + 2#32) = true)
    (hformat : s.cfg.cpu.formatWord = true → s.accessible .superData false .w (t.sp + 6#32) = true) :
    ∃ u : State, exec .rte t = .next { t.setSp (t.sp + BitVec.ofNat 32 (frameBytes s)) with
      sys := u.sys, ccr := u.ccr, pc := e.stackedPc s } ∧ u.sr = s.sr := by
  obtain ⟨hwf, hmask⟩ := hs
  have hbytes : frameBytes t = frameBytes s := by rw [frameBytes, frameBytes, h.cfg]
  have hframe : t.cfg.cpu.formatWord = true → t.accessible .superData false .w (t.sp + 6#32) = true ∧
      (t.wordAt (t.sp + 6#32)).extractLsb' 12 4 = 0#4 := by
    rw [h.cfg, State.accessible_congr h.cfg]
    intro hf
    rw [h.frameFormat hwf hb hf]
    exact ⟨hformat hf, formatWord_format_zero e.vector⟩
  rw [← State.accessible_congr h.cfg] at hsr hpc
  obtain ⟨u, hrte, husr⟩ := rteCompletes t h.isSuper hsr hpc hframe
  rw [hbytes, h.framePc hwf hb] at hrte
  rw [h.frameSr hwf hb, h.cfg, hmask] at husr
  exact ⟨u, hrte, husr⟩

/-! ## The boundary between instructions -/

section
variable {s : State} (hend : s.ended = false) (hreset : s.nextPins.reset = false) (hhalt : s.nextPins.halt = false)
include hend hreset hhalt

/-- An interrupt is taken by a running and by a stopped processor (R450). -/
theorem step_interrupted (hrun : s.run ≠ .halted) (hi : s.interrupted = true) :
    step s = takeException (.interrupt s.nextPins.ipl (Ack.vectorFor s.nextPins.ipl s.nextPins.ack)) s.sampled := by
  simp [step, cycle, hend, hreset, hhalt, hrun, hi]

/-- Without an interrupt a stopped processor waits for the next sample, or is stuck (47_system_control.md R378). -/
theorem step_stopped (hrun : s.run = .stopped) (hi : s.interrupted = false) :
    step s = if s.inputs = [] then .fault .stopped else .next s.sampled := by
  simp [step, cycle, idle, hend, hreset, hhalt, hrun, hi]

end

theorem interrupted_iff {s : State} :
    s.interrupted = true ↔ s.mask < s.nextPins.ipl ∨ (s.nextPins.ipl = 7#3 ∧ s.pins.ipl ≠ 7#3) := by
  simp [State.interrupted]

end Sys2Proof
end

section
/-! SUPPORT. Which words a decoder marks as a privileged instruction's (47_system_control.md R377): only those of an instruction
that is privileged on the member. Most lines of R105 mark none. -/

namespace Sys2Proof

/-! ## Marks -/

/-- Where `d` asks for the privilege check, all it can answer from there on meets `P`. -/
def Dec.MarksOnly {α : Type} (P : α → Prop) : Dec α → Prop
  | .done _ => True
  | .need k => ∀ w, (k w).MarksOnly P
  | .privileged d => d.Answers (fun a _ => P a) 0
  | .reject _ => True

/-- `d` asks for no privilege check. -/
abbrev Dec.Unmarked {α : Type} (d : Dec α) : Prop := d.MarksOnly fun _ => False

section
variable {α β : Type} {P : α → Prop} {Q : β → Prop}

@[simp] theorem Dec.done_marks (a : α) : (Dec.done a).MarksOnly P := trivial

@[simp] theorem Dec.need_marks {k : Word16 → Dec α} : (Dec.need k).MarksOnly P ↔ ∀ w, (k w).MarksOnly P := Iff.rfl

@[simp] theorem Dec.reject_marks (r : Reject) : (Dec.reject r : Dec α).MarksOnly P := trivial

theorem Dec.Unmarked.andThen {d : Dec α} {f : α → Dec β} (h : d.Unmarked) (hf : ∀ a, (f a).MarksOnly Q) :
    (d.andThen f).MarksOnly Q := by
  induction d with
  | done a => exact hf a
  | need k ih => exact fun w => ih w (h w)
  | privileged d => exact Dec.Answers.andThen h fun _ _ hfalse => hfalse.elim
  | reject r => trivial

theorem immOf_marks {sz : Size} {k : Word → Dec α} (hk : ∀ v, (k v).MarksOnly P) : (immOf sz k).MarksOnly P := by
  cases sz with
  | b | w => exact fun w => hk _
  | l => exact fun hi lo => hk _

end

/-! ## Operands -/

theorem displOf_unmarked {sel : BitVec 2} {k : Displ → Dec Ea} (hk : ∀ bd, (k bd).Unmarked) : (displOf sel k).Unmarked := by
  unfold displOf
  split
  · exact hk .null
  · exact fun w => hk (.word w)
  · exact fun hi lo => hk (.long (joinWords hi lo))
  · trivial

theorem indirectOf_unmarked {cpu : Cpu} {is : Bool} {iis : BitVec 3} {k : Indirect → Dec Ea} (hk : ∀ ind, (k ind).Unmarked) :
    (indirectOf cpu is iis k).Unmarked := by
  unfold indirectOf
  split_ifs
  · exact hk .none
  · trivial
  · exact displOf_unmarked fun od => hk (.pre od)
  · trivial
  · exact displOf_unmarked fun od => hk (.post od)

theorem fullOf_unmarked {cpu : Cpu} {w : Word16} {k : FullExt → Ea} : (fullOf cpu w k).Unmarked := by
  unfold fullOf
  exact displOf_unmarked fun _ => indirectOf_unmarked fun _ => Dec.done_marks _

theorem eaOf_unmarked {cpu : Cpu} {k : EaKind} {r : BitVec 3} {sz : Size} : (eaOf cpu k r sz).Unmarked := by
  cases k with
  | dn | an | ind | postInc | preDec => trivial
  | disp | absShort | pcDisp => exact fun _ => trivial
  | absLong => exact fun _ _ => trivial
  | index | pcIndex =>
    intro w
    dsimp only
    split
    · exact fullOf_unmarked
    · trivial
  | imm => exact immOf_marks fun _ => Dec.done_marks _

/-! ## The shapes of R105's lines -/

section
variable {P : Instr → Prop} {cpu : Cpu} {m r x p : BitVec 3} {sz : Size} {legal : EaKind → Bool}

theorem withEa_marks {k : Ea → Dec Instr} (hk : ∀ ea, (k ea).MarksOnly P) : (withEa cpu m r sz legal k).MarksOnly P := by
  unfold withEa
  split
  · trivial
  · split
    · exact eaOf_unmarked.andThen hk
    · trivial

@[simp] theorem eaOnly_marks {k : Ea → Instr} : (eaOnly cpu m r sz legal k).MarksOnly P := withEa_marks fun _ => trivial

/-- An instruction with one operand, marked if the words are accepted. -/
theorem eaOnly_markPrivileged_marks {k : Ea → Instr} (hk : ∀ ea, P (k ea)) :
    (eaOnly cpu m r sz legal k).markPrivileged.MarksOnly P := by
  have hanswers : (eaOnly cpu m r sz legal k).Answers (fun i _ => P i) 0 := withEa_answers fun ea _ => hk ea
  cases h : eaOnly cpu m r sz legal k with
  | reject _ => trivial
  | done | need | privileged =>
    rw [h] at hanswers
    exact hanswers

@[simp] theorem immEa_marks {k : Word → Ea → Instr} : (immEa cpu m r sz legal k).MarksOnly P := by
  unfold immEa
  split
  · trivial
  · split
    · exact immOf_marks fun _ => eaOf_unmarked.andThen fun _ => trivial
    · trivial

@[simp] theorem wordEa_marks {k : Word16 → Ea → Instr} : (wordEa cpu m r sz legal k).MarksOnly P := by
  unfold wordEa
  split
  · trivial
  · split
    · exact fun _ => eaOf_unmarked.andThen fun _ => trivial
    · trivial

@[simp] theorem decodeMove_marks {k : Ea → Ea → Instr} : (decodeMove cpu sz x p m r k).MarksOnly P := by
  unfold decodeMove
  split
  · trivial
  · split
    · exact withEa_marks fun _ => eaOf_unmarked.andThen fun _ => trivial
    · trivial

@[simp] theorem branchOf_marks {b : Byte} {k : BranchDisp → Instr} : (branchOf cpu b k).MarksOnly P := by
  unfold branchOf
  split_ifs
  · exact fun _ => trivial
  · exact fun _ _ => trivial
  · trivial

end

/-! ## The lines of R105 -/

@[simp] theorem hole010_marks {P : Instr → Prop} (cpu : Cpu) : (hole010 cpu).MarksOnly P := trivial

@[simp] theorem hole020_marks {P : Instr → Prop} (cpu : Cpu) : (hole020 cpu).MarksOnly P := trivial

section
variable {P : Instr → Prop} (cpu : Cpu) (x p m r : BitVec 3)

theorem decodeLine2_marks : (decodeLine2 cpu x p m r).MarksOnly P := by
  unfold decodeLine2
  split <;> simp

theorem decodeLine3_marks : (decodeLine3 cpu x p m r).MarksOnly P := by
  unfold decodeLine3
  split <;> simp

theorem decodeLine5_marks : (decodeLine5 cpu x p m r).MarksOnly P := by
  unfold decodeLine5
  repeat' split
  all_goals simp

theorem decodeLine7_marks : (decodeLine7 x p m r).MarksOnly P := by
  unfold decodeLine7
  split <;> simp

theorem decodeLine8_marks : (decodeLine8 cpu x p m r).MarksOnly P := by
  unfold decodeLine8
  repeat' split
  all_goals simp

theorem decodeLine9_marks : (decodeLine9 cpu x p m r).MarksOnly P := by
  unfold decodeLine9
  repeat' split
  all_goals simp

theorem decodeLineB_marks : (decodeLineB cpu x p m r).MarksOnly P := by
  unfold decodeLineB
  repeat' split
  all_goals simp

theorem decodeLineC_marks : (decodeLineC cpu x p m r).MarksOnly P := by
  unfold decodeLineC
  repeat' split
  all_goals simp

theorem decodeLineD_marks : (decodeLineD cpu x p m r).MarksOnly P := by
  unfold decodeLineD
  repeat' split
  all_goals simp

theorem decodeLineE_marks : (decodeLineE cpu x p m r).MarksOnly P := by
  unfold decodeLineE
  repeat' split
  all_goals simp

/-- Of line 0, the immediate operations on SR are marked (R105; 47_system_control.md R377). -/
theorem decodeLine0_marks : (decodeLine0 cpu x p m r).MarksOnly (privileged cpu · = true) := by
  have hori : (Dec.privileged (.need fun w => .done (.oriSr w))).MarksOnly (privileged cpu · = true) := fun _ => rfl
  have handi : (Dec.privileged (.need fun w => .done (.andiSr w))).MarksOnly (privileged cpu · = true) := fun _ => rfl
  have heori : (Dec.privileged (.need fun w => .done (.eoriSr w))).MarksOnly (privileged cpu · = true) := fun _ => rfl
  unfold decodeLine0
  repeat' split
  all_goals simp [hori, handi, heori]

/-- Of the words without operands and their neighbours, MOVE USP, RESET, STOP and RTE are marked. -/
theorem decodeMisc_marks : (decodeMisc cpu m r).MarksOnly (privileged cpu · = true) := by
  have husp (toAn : Bool) : (Dec.privileged (.done (.moveUsp toAn (regOf r)))).MarksOnly (privileged cpu · = true) := rfl
  have hreset : (Dec.privileged (.done .reset)).MarksOnly (privileged cpu · = true) := rfl
  have hstop : (Dec.privileged (.need fun w => .done (.stop w))).MarksOnly (privileged cpu · = true) := fun _ => rfl
  have hrte : (Dec.privileged (.done .rte)).MarksOnly (privileged cpu · = true) := rfl
  unfold decodeMisc
  repeat' split
  all_goals simp [husp, hreset, hstop, hrte]

/-- Of line 4 beyond these, MOVE to SR is marked, and MOVE from SR on the members that have it privileged. -/
theorem decodeLine4_marks : (decodeLine4 cpu x p m r).MarksOnly (privileged cpu · = true) := by
  have hto : (eaOnly cpu m r .w EaKind.isData .moveToSr).markPrivileged.MarksOnly (privileged cpu · = true) :=
    eaOnly_markPrivileged_marks fun _ => rfl
  have hfrom (h : cpu.moveFromSrPrivileged = true) :
      (eaOnly cpu m r .w EaKind.dataAlterable .moveFromSr).markPrivileged.MarksOnly (privileged cpu · = true) :=
    eaOnly_markPrivileged_marks fun _ => h
  unfold decodeLine4
  repeat' split
  all_goals simp [decodeMisc_marks, *]

end

/-- Whatever the operation word, only a privileged instruction's words are marked. -/
theorem decodeOp_marks (cpu : Cpu) (w : Word16) : (decodeOp cpu w).MarksOnly (privileged cpu · = true) := by
  unfold decodeOp decodeFields
  split
  · exact decodeLine0_marks ..
  · exact decodeMove_marks
  · exact decodeLine2_marks ..
  · exact decodeLine3_marks ..
  · exact decodeLine4_marks ..
  · exact decodeLine5_marks ..
  · exact branchOf_marks
  · exact decodeLine7_marks ..
  · exact decodeLine8_marks ..
  · exact decodeLine9_marks ..
  · trivial
  · exact decodeLineB_marks ..
  · exact decodeLineC_marks ..
  · exact decodeLineD_marks ..
  · exact decodeLineE_marks ..
  · trivial

end Sys2Proof
end

section
/-! SUPPORT. The fetch of an instruction whose words can all be fetched (00_scope.md R13), and the step that runs it
(70_reset_and_hazards.md R483). -/

namespace Sys2Proof.Machine

/-! ## Words that can be fetched -/

/-- The `n` words from `a` can be fetched as they stand in memory: the platform admits them, and no older word is noted for any
(20_memory.md R67, R76). -/
structure State.FetchesAt (s : State) (a : Word) (n : Nat) : Prop where
  fetchable : s.fetchable a n = true
  fresh : ∀ j < n, s.staleAt (a + BitVec.ofNat 32 (2 * j)) = []

theorem State.FetchesAt.head {s : State} {a : Word} {n : Nat} (h : s.FetchesAt a (n + 1)) :
    (fetch16 a).run s = .ok (s.wordAt a) s := by
  obtain ⟨hf, hs⟩ := h
  simp only [State.fetchable, Bool.and_eq_true, Bool.not_eq_true', beq_iff_eq] at hf
  exact fetch16_ok hf.1.1 hf.1.2 (by simpa using hs 0 (Nat.succ_pos n))

theorem State.FetchesAt.tail {s : State} {a : Word} {n : Nat} (h : s.FetchesAt a (n + 1)) : s.FetchesAt (a + 2#32) n where
  fetchable := (Bool.and_eq_true_iff.1 h.fetchable).2
  fresh := fun j hj => by
    have hnext := h.fresh (j + 1) (by omega)
    rwa [Nat.mul_succ, Nat.add_comm, BitVec.ofNat_add, ← BitVec.add_assoc] at hnext

/-! ## The fetch -/

/-- The rest of an instruction that decodes, its words fetched as they stand. A mark on the way is passed in supervisor mode,
which a privileged instruction has by assumption. -/
theorem fetchRest_ok {s : State} {i : Instr} (hi : privileged s.cfg.cpu i = true → s.isSuper = true) {op : Word16} {d : Dec Instr}
    (hd : s.isSuper = true ∨ d.MarksOnly (privileged s.cfg.cpu · = true)) {ip : Word} {n : Nat} (hf : s.FetchesAt ip n)
    (hrun : d.run (s.wordsAt ip n) = .done i []) : (fetchRest op ip d).run s = .ok i s := by
  induction d generalizing ip n with
  | done a =>
    obtain ⟨rfl, _⟩ := (DecodeResult.done.injEq ..).mp hrun
    rfl
  | need k ih =>
    cases n with
    | zero => cases hrun
    | succ n =>
      exact (run_bind_ok hf.head).trans (ih _ (hd.imp_right fun hmarks => hmarks _) hf.tail hrun)
  | privileged d ih =>
    have hsuper : s.isSuper = true := hd.elim id fun hmarks => by
      obtain ⟨_, _, hpriv⟩ := Dec.Answers.run hmarks hrun
      exact hi hpriv
    exact (run_bind_ok (requireSuper_ok hsuper)).trans (ih (.inl hsuper) hf hrun)
  | reject r => cases hrun

theorem fetchInstr_ok {s : State} {i : Instr} {n : Nat} (hi : privileged s.cfg.cpu i = true → s.isSuper = true)
    (hf : s.FetchesAt s.pc n) (hrun : decode s.cfg.cpu (s.wordsAt s.pc n) = .done i []) : fetchInstr.run s = .ok i s := by
  cases n with
  | zero => cases hrun
  | succ n =>
    refine (run_bind_ok (EStateM.run_get s)).trans ((run_bind_ok hf.head).trans ?_)
    exact fetchRest_ok hi (.inr (decodeOp_marks _ _)) hf.tail hrun

/-! ## The step -/

theorem State.wordsAt_sampled (s : State) (m : TraceMode) (a : Word) (n : Nat) :
    ({ s.sampled with tracing := m } : State).wordsAt a n = s.wordsAt a n := by
  induction n generalizing a with
  | zero => rfl
  | succ n ih => exact congrArg (s.wordAt a :: ·) (ih _)

theorem State.fetchable_sampled (s : State) (m : TraceMode) (a : Word) (n : Nat) :
    ({ s.sampled with tracing := m } : State).fetchable a n = s.fetchable a n := by
  induction n generalizing a with
  | zero => rfl
  | succ n ih => exact congrArg (!a.getLsbD 0 && s.verdict (s.fc true) false .w a == .granted && ·) (ih _)

/-- A step at a boundary with no reset, halt or interrupt, whose instruction can be fetched and may run in this mode, is that
instruction with the pins and the trace condition sampled, and the end of an instruction (70_reset_and_hazards.md R483). -/
theorem step_runs_decoded {s : State} {i : Instr} (hend : s.ended = false) (hreset : s.nextPins.reset = false)
    (hhalt : s.nextPins.halt = false) (hrun : s.run = .running) (hint : s.interrupted = false) (hf : s.FetchesAt s.pc i.words)
    (hdecode : decode s.cfg.cpu (s.wordsAt s.pc i.words) = .done i [])
    (hi : privileged s.cfg.cpu i = true → s.isSuper = true) :
    step s = afterExec (s.transfers i) (s.ipAt i.words) (exec i { s.sampled with tracing := s.traceMode }) := by
  let t : State := { s.sampled with tracing := s.traceMode }
  have hft : t.FetchesAt t.pc i.words := ⟨(s.fetchable_sampled s.traceMode ..).trans hf.fetchable, hf.fresh⟩
  have hfetch : fetchInstr.run { s.sampled with tracing := s.sampled.traceMode } = .ok i t :=
    fetchInstr_ok (s := t) hi hft (by rw [s.wordsAt_sampled]; exact hdecode)
  rw [step_eq_runOne hend hreset hhalt hrun hint, runOne, hfetch]
  rfl

/-! ## Trace -/

/-- A trace exception at the end of an instruction stacks the address of the next one, and goes to vector 9 (60_exceptions.md
R444). -/
theorem endInstr_trace {s : State} (changed : Bool) (h : s.tracing = .all) (hready : EntryReady s .trace) :
    ∃ t, endInstr changed s = .next t ∧ t.isSuper = true ∧ t.pc = t.longAt (s.vectorBase + 36#32) ∧
      (s.mem.wf = true → 3 ≤ s.cfg.addrBits → t.longAt (t.sp + 2#32) = s.pc ∧ t.wordAt t.sp = s.sr) := by
  obtain ⟨l, hl⟩ : ∃ l, endInstr changed s = takeException .trace { s with tracing := .off, stale := l } := by
    rw [endInstr_all changed h]
    cases changed with
    | false => exact ⟨s.stale, rfl⟩
    | true => exact ⟨_, rfl⟩
  obtain ⟨t, ht, hentered⟩ := takeException_entered (s := { s with tracing := .off, stale := l }) hready
  exact ⟨t, hl.trans ht, hentered.isSuper, hentered.pc, fun hw hb => ⟨hentered.framePc hw hb, hentered.frameSr hw hb⟩⟩

/-- Without a trace condition the end of an instruction changes the record of the prefetch window only. -/
theorem endInstr_untraced {s : State} (changed : Bool) (h : s.tracing = .off) :
    ∃ l, endInstr changed s = .next { s with stale := l } := by
  rw [endInstr_off changed h, ← h]
  cases changed with
  | false => exact ⟨s.stale, rfl⟩
  | true => exact ⟨_, rfl⟩

theorem State.traceMode_all {s : State} (h : s.sys.getLsbD 7 = true) : s.traceMode = .all := if_pos h

theorem State.traceMode_off {s : State} (h : s.sys.getLsbD 7 = false) (h0 : s.sys.getLsbD 6 = false) :
    s.traceMode = .off := by
  rw [State.traceMode, h, h0, Bool.and_false]
  rfl

end Sys2Proof.Machine
end

section
/-! SUPPORT. Double bus faults (60_exceptions.md R447): a bus or address error while another is processed halts the processor. An
odd supervisor stack pointer brings one about at every exception, a vector that cannot be read at every bus or address error. -/

namespace Sys2Proof.Machine

/-- The action stops in a bus or address error, with `pc` where it was. -/
def Stops {α : Type} (x : M α) (s : State) : Prop := ∃ g t, x.run s = .error (.access g) t ∧ t.pc = s.pc

theorem Stops.bind {α β : Type} {x : M α} {s : State} (h : Stops x s) (f : α → M β) : Stops (x >>= f) s := by
  obtain ⟨g, t, hrun, hpc⟩ := h
  exact ⟨g, t, run_bind_error hrun, hpc⟩

theorem Stops.after {α β : Type} {x : M α} {f : α → M β} {s t : State} {a : α} (hx : x.run s = .ok a t) (hpc : t.pc = s.pc)
    (h : Stops (f a) t) : Stops (x >>= f) s := by
  obtain ⟨g, u, hrun, hu⟩ := h
  exact ⟨g, u, (run_bind_ok hx).trans hrun, hu.trans hpc⟩

/-- A bus or address error in the processing of another halts the processor (R447). -/
theorem Stops.halts {s : State} {f : AccessFault} {b : Bool} {op : Word} (hh : s.cfg.halt ≠ .firstRaise)
    (h : Stops (enterGroup0 f b op) { s with tracing := .off }) :
    ∃ t, takeAccessFault f b op s = .next t ∧ t.run = .halted ∧ t.pc = s.pc := by
  obtain ⟨g, t, hrun, hpc⟩ := h
  refine ⟨{ t with run := .halted }, ?_, rfl, hpc⟩
  rw [takeAccessFault, if_neg (by simpa using hh), hrun]

/-- The processing of a bus or address error stops if its frame does, or the reading of its vector (R440). -/
theorem enterGroup0_stops {s : State} {f : AccessFault} {b : Bool} {op : Word}
    (hlong : s.cfg.cpu.formatWord = true →
      Stops (pushLongFrame f.vector >>= fun _ => loadVector f.vector) (s.entered (entrySys s.sys)))
    (hshort : s.cfg.cpu.formatWord = false →
      Stops (pushAccessFrame f b op s.sr >>= fun _ => loadVector f.vector) (s.entered (entrySys s.sys))) :
    Stops (enterGroup0 f b op) s := by
  unfold enterGroup0
  refine Stops.after (EStateM.run_get s) rfl (Stops.after (EStateM.run_set _ s) rfl ?_)
  split
  · exact hlong ‹_›
  · exact hshort (Bool.eq_false_iff.2 ‹_›)

/-! ## Even steps keep an address odd or even -/

theorem getLsbD_zero_add_even (x : Word) (n : Nat) : (x + BitVec.ofNat 32 (2 * n)).getLsbD 0 = x.getLsbD 0 := by
  simp only [BitVec.getLsbD, Nat.testBit_zero, BitVec.toNat_add, BitVec.toNat_ofNat]
  rw [decide_eq_decide]
  omega

theorem getLsbD_zero_sub_even (x : Word) (n : Nat) : (x - BitVec.ofNat 32 (2 * n)).getLsbD 0 = x.getLsbD 0 := by
  rw [← getLsbD_zero_add_even (x - BitVec.ofNat 32 (2 * n)) n, BitVec.sub_add_cancel]

/-! ## An odd supervisor stack pointer -/

/-- The supervisor stack pointer is odd, on a member with `ALIGN_FAULT`; such a member has one only (20_memory.md R64, 10_state.md
R24). -/
structure State.OddStack (s : State) : Prop where
  member : s.cfg.cpu.is020 = false
  odd : s.ssp.getLsbD 0 = true

theorem State.OddStack.down {s : State} (h : s.OddStack) {sz : Size} (hsz : sz ≠ .b) :
    State.OddStack { s with ssp := s.ssp - BitVec.ofNat 32 sz.bytes } where
  member := h.member
  odd := by
    cases sz with
    | b => exact absurd rfl hsz
    | w => exact (getLsbD_zero_sub_even s.ssp 1).trans h.odd
    | l => exact (getLsbD_zero_sub_even s.ssp 2).trans h.odd

/-- In supervisor mode, M aside, the stack pointer is SSP (10_state.md R24). -/
theorem State.sp_eq_ssp {s : State} (hs : s.isSuper = true) (hm : s.onMaster = false) : s.sp = s.ssp := by
  rw [State.sp, hs, hm]
  rfl

/-- A push onto an odd stack raises address error (20_memory.md R65), and leaves the stack as odd as it was. -/
theorem push_odd {s : State} (h : s.OddStack) (hs : s.isSuper = true) {sz : Size} (hsz : sz ≠ .b) (v : Word) :
    ∃ g t, (push sz v).run s = .error (.access g) t ∧ t.pc = s.pc ∧ t.cfg = s.cfg ∧ t.OddStack := by
  have hmaster : s.onMaster = false := by rw [State.onMaster, h.member, Bool.false_and]
  have hsp := State.sp_eq_ssp hs hmaster
  have hset (x : Word) : s.setSp x = { s with ssp := x } := by rw [State.setSp, hs, hmaster]; rfl
  have hmoved := State.sp_setSp s (s.ssp - BitVec.ofNat 32 sz.bytes)
  rw [hset] at hmoved
  have hodd := h.down hsz
  have hbad := State.misaligned_of_odd hodd.member hsz hodd.odd
  unfold push
  rw [run_bind_ok (EStateM.run_modify _ s), run_bind_ok (EStateM.run_get _), hsp, hset, hmoved]
  exact ⟨_, _, memWrite_misaligned hbad, rfl, rfl, hodd⟩

theorem State.OddStack.push_stops {s : State} (h : s.OddStack) (hs : s.isSuper = true) {sz : Size} (hsz : sz ≠ .b) (v : Word) :
    Stops (push sz v) s := by
  obtain ⟨g, t, hrun, hpc, _⟩ := push_odd h hs hsz v
  exact ⟨g, t, hrun, hpc⟩

/-- With an odd supervisor stack pointer every bus or address error is a double fault. -/
theorem takeAccessFault_odd {s : State} (hh : s.cfg.halt ≠ .firstRaise) (h : s.OddStack) (f : AccessFault) (b : Bool)
    (op : Word) :
    ∃ t, takeAccessFault f b op s = .next t ∧ t.run = .halted ∧ t.pc = s.pc := by
  let u : State := { s.entered (entrySys s.sys) with draws := s.draws + 1, tracing := .off }
  have hodd : u.OddStack := ⟨h.member, h.odd⟩
  have hsuper : u.isSuper = true := entrySys_super s.sys
  refine Stops.halts hh (enterGroup0_stops (fun _ => ?_) (fun _ => ?_))
  · exact (Stops.after (drawWord_run _) rfl ((hodd.push_stops hsuper (sz := .w) nofun _).bind _)).bind _
  · exact (Stops.after (drawNat_run _) rfl ((hodd.push_stops hsuper (sz := .l) nofun _).bind _)).bind _

/-- The processing of any other exception stops at its first push, with the stack as odd as before. -/
theorem enter_odd {s : State} (h : s.OddStack) (e : Exc) :
    ∃ g t, (enter e).run s = .error (.access g) t ∧ t.pc = s.pc ∧ t.cfg = s.cfg ∧ t.OddStack := by
  have hodd : (s.entered (e.newSys s.sys)).OddStack := ⟨h.member, h.odd⟩
  have hpush {sz : Size} (hsz : sz ≠ .b) := push_odd hodd (newSys_super e s.sys) hsz
  unfold enter pushFrame
  rw [run_bind_ok (EStateM.run_get s), run_bind_ok (EStateM.run_set _ s)]
  cases hf : s.cfg.cpu.formatWord with
  | true =>
    obtain ⟨g, t, hrun, ht⟩ := hpush (sz := .w) nofun (e.vector.setWidth 32 <<< 2)
    refine ⟨g, t, run_bind_error ((run_bind_ok (EStateM.run_get _)).trans ?_), ht⟩
    rw [if_pos hf]
    exact run_bind_error hrun
  | false =>
    obtain ⟨g, t, hrun, ht⟩ := hpush (sz := .l) nofun (e.stackedPc s)
    refine ⟨g, t, run_bind_error ((run_bind_ok (EStateM.run_get _)).trans ?_), ht⟩
    rw [if_neg (Bool.eq_false_iff.1 hf)]
    exact run_bind_error hrun

/-- With an odd supervisor stack pointer every other exception raises an address error, and that is a double fault. -/
theorem takeException_odd {s : State} (hh : s.cfg.halt ≠ .firstRaise) (h : s.OddStack) (e : Exc) :
    ∃ t, takeException e s = .next t ∧ t.run = .halted ∧ t.pc = s.pc := by
  obtain ⟨g, u, hrun, hpc, hcfg, hodd⟩ :=
    enter_odd (s := { s with tracing := if e.endsTrace then .off else s.tracing }) ⟨h.member, h.odd⟩ e
  obtain ⟨t, ht, hhalted, htpc⟩ := takeAccessFault_odd (hcfg ▸ hh) hodd g true (e.origin s)
  refine ⟨t, ?_, hhalted, htpc.trans hpc⟩
  rw [takeException, if_neg (by simpa using hh), hrun]
  exact ht

/-! ## A frame part: pushes and free values -/

/-- What the pushes of a frame leave alone, completed or not, that the reading of the vector needs: the platform, `pc` and the
vector base. -/
structure FrameKept (s t : State) : Prop where
  cfg : t.cfg = s.cfg
  pc : t.pc = s.pc
  vbr : t.vbr = s.vbr

theorem FrameKept.refl (s : State) : FrameKept s s := ⟨rfl, rfl, rfl⟩

theorem FrameKept.trans {s t u : State} (h : FrameKept s t) (h' : FrameKept t u) : FrameKept s u :=
  ⟨h'.cfg.trans h.cfg, h'.pc.trans h.pc, h'.vbr.trans h.vbr⟩

theorem keeps_memWrite_frameKept (fc : FuncCode) (sz : Size) (a v : Word) : Keeps FrameKept (memWrite fc sz a v) :=
  keeps_memWrite .refl (fun _ _ _ => .trans) (fun _ => ⟨rfl, rfl, rfl⟩)
    (fun s sz a v => ⟨s.store_cfg sz a v, s.store_pc sz a v, s.store_vbr sz a v⟩) fc sz a v

/-- No window of `MEMMAP` is a device's. -/
def NoDevice (cfg : Config) : Prop := ∀ r ∈ cfg.memMap, r.kind ≠ .device

theorem State.byteVerdict_ne_device {s : State} (h : NoDevice s.cfg) (fc : FuncCode) (w : Bool) (x : Word) :
    s.byteVerdict fc w x ≠ .device := by
  unfold State.byteVerdict Config.verdict
  split
  · split <;> nofun
  case h_2 r hr =>
    have hkind := h r (List.mem_of_find?_eq_some hr)
    split
    · nofun
    · split <;> nofun
    · exact absurd ‹_› hkind
    · nofun

theorem State.verdict_ne_device {s : State} (h : NoDevice s.cfg) (fc : FuncCode) (w : Bool) (sz : Size) (x : Word) :
    s.verdict fc w sz x ≠ .device := by
  unfold State.verdict
  have hnone : ((bytesFrom sz x).map (s.byteVerdict fc w)).contains .device = false := by
    rw [← Bool.not_eq_true, List.contains_iff_mem, List.mem_map]
    rintro ⟨y, _, hy⟩
    exact State.byteVerdict_ne_device h fc w y hy
  dsimp only
  rw [hnone]
  split <;> nofun

/-- Where no device is in the way the action completes, or stops in a bus or address error. -/
def FramePart {α : Type} (x : M α) : Prop :=
  ∀ s, NoDevice s.cfg → ∃ t, FrameKept s t ∧ ((∃ a, x.run s = .ok a t) ∨ ∃ g, x.run s = .error (.access g) t)

theorem FramePart.bind {α β : Type} {x : M α} {f : α → M β} (hx : FramePart x) (hf : ∀ a, FramePart (f a)) :
    FramePart (x >>= f) := by
  intro s hs
  obtain ⟨t, hst, ⟨a, hrun⟩ | ⟨g, hrun⟩⟩ := hx s hs
  · obtain ⟨u, htu, hu⟩ := hf a t (hst.cfg ▸ hs)
    rw [run_bind_ok hrun]
    exact ⟨u, hst.trans htu, hu⟩
  · exact ⟨t, hst, .inr ⟨g, run_bind_error hrun⟩⟩

theorem framePart_get : FramePart (get : M State) := fun s _ => ⟨s, .refl s, .inl ⟨s, rfl⟩⟩

theorem framePart_drawNat : FramePart drawNat := fun s _ =>
  ⟨{ s with draws := s.draws + 1 }, ⟨rfl, rfl, rfl⟩, .inl ⟨_, drawNat_run s⟩⟩

theorem framePart_drawWord : FramePart drawWord := fun s _ =>
  ⟨{ s with draws := s.draws + 1 }, ⟨rfl, rfl, rfl⟩, .inl ⟨_, drawWord_run s⟩⟩

/-- A write that stops does so in a bus or address error, or at a device. -/
theorem memWrite_eq_error {s t : State} {fc : FuncCode} {sz : Size} {a v : Word} {e : Stop}
    (h : (memWrite fc sz a v).run s = .error e t) : (∃ g, e = .access g) ∨ s.verdict fc true sz a = .device := by
  cases hm : s.misaligned sz a with
  | true =>
    rw [memWrite_misaligned hm] at h
    cases h
    exact .inl ⟨_, rfl⟩
  | false =>
    cases hv : s.verdict fc true sz a with
    | granted =>
      rw [memWrite_ok (by rw [State.accessible, hm, hv]; rfl)] at h
      cases h
    | busError =>
      rw [memWrite_bus_error hm hv] at h
      split at h <;> cases h <;> exact .inl ⟨_, rfl⟩
    | device => exact .inr rfl

theorem framePart_memWrite (fc : FuncCode) (sz : Size) (a v : Word) : FramePart (memWrite fc sz a v) := by
  intro s hs
  have hkept := keeps_memWrite_frameKept fc sz a v s
  cases hrun : (memWrite fc sz a v).run s with
  | ok u t =>
    rw [hrun] at hkept
    exact ⟨t, hkept, .inl ⟨u, rfl⟩⟩
  | error e t =>
    rw [hrun] at hkept
    obtain ⟨g, rfl⟩ | hdevice := memWrite_eq_error hrun
    · exact ⟨t, hkept, .inr ⟨g, rfl⟩⟩
    · exact absurd hdevice (State.verdict_ne_device hs fc true sz a)

theorem framePart_push (sz : Size) (v : Word) : FramePart (push sz v) := by
  have hmove : FramePart (modify fun s => s.setSp (s.sp - BitVec.ofNat 32 sz.bytes) : M Unit) := fun s _ =>
    ⟨_, ⟨s.setSp_cfg _, s.setSp_pc _, s.setSp_vbr _⟩, .inl ⟨_, rfl⟩⟩
  exact hmove.bind fun _ => framePart_get.bind fun _ => framePart_memWrite _ _ _ _

theorem framePart_pushFree (n : Nat) : FramePart (pushFree n) := by
  induction n with
  | zero => exact fun s _ => ⟨s, .refl s, .inl ⟨_, rfl⟩⟩
  | succ n ih => exact framePart_drawWord.bind fun _ => (framePart_push _ _).bind fun _ => ih

theorem framePart_pushLongFrame (vec : BitVec 8) : FramePart (pushLongFrame vec) :=
  framePart_drawWord.bind fun _ => (framePart_push _ _).bind fun _ => framePart_get.bind fun _ => framePart_drawNat.bind fun _ =>
    framePart_pushFree _

theorem framePart_pushAccessFrame (f : AccessFault) (b : Bool) (op : Word) (old : Word16) :
    FramePart (pushAccessFrame f b op old) :=
  framePart_drawNat.bind fun _ => (framePart_push _ _).bind fun _ => (framePart_push _ _).bind fun _ =>
    framePart_drawWord.bind fun _ => (framePart_push _ _).bind fun _ => (framePart_push _ _).bind fun _ =>
      framePart_drawWord.bind fun _ => framePart_push _ _

/-! ## Stores and vectors that fail -/

theorem memRead_stops {s : State} {fc : FuncCode} {sz : Size} {a : Word} (hv : s.verdict fc false sz a = .busError) :
    Stops (memRead fc sz a) s := by
  cases hm : s.misaligned sz a with
  | true => exact ⟨_, s, memRead_misaligned hm, rfl⟩
  | false => exact ⟨_, s, memRead_bus_error hm hv, rfl⟩

theorem memWrite_stops {s : State} {fc : FuncCode} {sz : Size} {a : Word} (v : Word) (hv : s.verdict fc true sz a = .busError) :
    Stops (memWrite fc sz a v) s := by
  have hkept := keeps_memWrite_frameKept fc sz a v s
  cases hrun : (memWrite fc sz a v).run s with
  | ok u t =>
    have hgranted := State.verdict_granted (memWrite_eq_ok hrun).1
    cases hgranted.symm.trans hv
  | error e t =>
    rw [hrun] at hkept
    obtain ⟨g, rfl⟩ | hdevice := memWrite_eq_error hrun
    · exact ⟨g, t, hrun, hkept.pc⟩
    · cases hdevice.symm.trans hv

/-- A push in supervisor mode that the platform answers with a bus error. -/
theorem push_stops {s : State} (hs : s.isSuper = true) {sz : Size} (v : Word)
    (hv : s.verdict .superData true sz (s.sp - BitVec.ofNat 32 sz.bytes) = .busError) : Stops (push sz v) s := by
  unfold push
  refine Stops.after (EStateM.run_modify _ s) (s.setSp_pc _) (Stops.after (EStateM.run_get _) rfl (memWrite_stops v ?_))
  rw [State.sp_setSp, State.verdict_congr (s.setSp_cfg _), State.fc_congr (s.setSp_sys _), State.fc_super hs]
  exact hv

/-- A vector that the platform answers with a bus error. -/
theorem loadVector_stops {s : State} {vec : BitVec 8}
    (hv : s.verdict (vectorSpace vec) false .l (s.vectorBase + (vec.setWidth 32 <<< 2)) = .busError) :
    Stops (loadVector vec) s :=
  Stops.after (EStateM.run_get s) rfl ((memRead_stops hv).bind _)

/-- Whatever becomes of the frame, exception processing stops where the vector cannot be read and no device is in the way. -/
theorem FramePart.loadVector_stops {x : M Unit} (hx : FramePart x) {s : State} {vec : BitVec 8} (hs : NoDevice s.cfg)
    (hv : s.verdict (vectorSpace vec) false .l (s.vectorBase + (vec.setWidth 32 <<< 2)) = .busError) :
    Stops (x >>= fun _ => loadVector vec) s := by
  obtain ⟨t, hst, ⟨a, hrun⟩ | ⟨g, hrun⟩⟩ := hx s hs
  · have hbase : t.vectorBase = s.vectorBase := by rw [State.vectorBase, hst.cfg, hst.vbr]; rfl
    refine Stops.after hrun hst.pc (Machine.loadVector_stops ?_)
    rw [hbase, State.verdict_congr hst.cfg]
    exact hv
  · exact ⟨g, t, run_bind_error hrun, hst.pc⟩

/-- The vectors of a bus and an address error are read as supervisor data, 8 and 12 bytes above the vector base (R431). -/
theorem AccessFault.vector_offset (f : AccessFault) :
    vectorSpace f.vector = .superData ∧ f.vector.setWidth 32 <<< 2 = if f.bus then 8#32 else 12#32 := by
  unfold AccessFault.vector
  cases f.bus <;> exact ⟨rfl, rfl⟩

/-- A bus or address error whose format word cannot be stored halts MC68010 and later. -/
theorem takeAccessFault_formatWord_fails {s : State} (hh : s.cfg.halt ≠ .firstRaise) (hf : s.cfg.cpu.formatWord = true)
    (hv : let u := s.entered (entrySys s.sys); u.verdict .superData true .w (u.sp - 2#32) = .busError)
    (f : AccessFault) (b : Bool) (op : Word) :
    ∃ t, takeAccessFault f b op s = .next t ∧ t.run = .halted ∧ t.pc = s.pc := by
  let u : State := { s.entered (entrySys s.sys) with draws := s.draws + 1, tracing := .off }
  have hsuper : u.isSuper = true := entrySys_super s.sys
  refine Stops.halts hh (enterGroup0_stops (fun _ => ?_) fun hno => ?_)
  · exact (Stops.after (drawWord_run _) rfl ((push_stops (s := u) hsuper (sz := .w) _ hv).bind _)).bind _
  · cases hf.symm.trans hno

/-- A bus or address error whose vector cannot be read halts every member, where no device is in the way. -/
theorem takeAccessFault_vector_fails {s : State} (hh : s.cfg.halt ≠ .firstRaise) (hs : NoDevice s.cfg) {f : AccessFault}
    (hv : s.verdict .superData false .l (s.vectorBase + if f.bus then 8#32 else 12#32) = .busError) (b : Bool) (op : Word) :
    ∃ t, takeAccessFault f b op s = .next t ∧ t.run = .halted ∧ t.pc = s.pc := by
  obtain ⟨hspace, hoffset⟩ := f.vector_offset
  rw [← hspace, ← hoffset] at hv
  exact Stops.halts hh (enterGroup0_stops (fun _ => (framePart_pushLongFrame _).loadVector_stops hs hv)
    fun _ => (framePart_pushAccessFrame _ _ _ _).loadVector_stops hs hv)

/-- A halted processor without reset and with nothing to come makes no step (R447, R457; log 10). -/
theorem step_halted {s : State} (hrun : s.run = .halted) (hinputs : s.inputs = []) (hreset : s.pins.reset = false)
    (hend : s.ended = false) : step s = .fault .halted := by
  simp [step, cycle, idle, State.nextPins, hrun, hinputs, hreset, hend]

end Sys2Proof.Machine
end

section
/-! SUPPORT. What a row of pushes in supervisor mode leaves, free values drawn between them (60_exceptions.md R440, R443). -/

namespace Sys2Proof.Machine

/-- Free values aside, `t` is `s` with `n` more bytes on the supervisor stack. -/
structure Pushes (s t : State) (n : Nat) : Prop where
  only : PushedOnly s { t with draws := s.draws }
  sp : t.sp = s.sp - BitVec.ofNat 32 n
  bytes : BytesKept s t t.sp n
  wf : s.mem.wf = true → t.mem.wf = true

theorem Pushes.refl (s : State) : Pushes s s 0 where
  only := .refl s
  sp := (BitVec.sub_zero _).symm
  bytes := bytesKept_refl s _ _
  wf := id

/-- A push does not depend on how many free values have been drawn. -/
theorem State.pushed_draws_eq (s : State) (k : Nat) (sz : Size) (v : Word) :
    ({ s.pushed sz v with draws := k } : State) = State.pushed { s with draws := k } sz v := by
  have hset (x : Word) : State.setSp { s with draws := k } x = { s.setSp x with draws := k } := by
    have hsuper : State.isSuper { s with draws := k } = s.isSuper := rfl
    have hmaster : State.onMaster { s with draws := k } = s.onMaster := rfl
    rw [State.setSp, State.setSp, hsuper, hmaster]
    cases s.isSuper with
    | false => rfl
    | true => cases s.onMaster <;> rfl
  have hstore (u : State) (x : Word) : State.store { u with draws := k } sz x v = { u.store sz x v with draws := k } := by
    cases sz <;> rfl
  have hsp : State.sp { s with draws := k } = s.sp := rfl
  rw [State.pushed, State.pushed, hset, hstore, hsp]

section
variable {s t : State} {n : Nat} (h : Pushes s t n)
include h

theorem Pushes.cfg : t.cfg = s.cfg := h.only.cfg

theorem Pushes.isSuper : t.isSuper = s.isSuper := State.isSuper_congr (t := t) h.only.sys

/-- Drawing free values is no push. -/
theorem Pushes.draw (k : Nat) : Pushes s { t with draws := k } n := ⟨h.only, h.sp, h.bytes, h.wf⟩

theorem Pushes.push (hs : s.isSuper = true) (sz : Size) (v : Word) : Pushes s (t.pushed sz v) (sz.bytes + n) where
  only := by
    rw [State.pushed_draws_eq]
    exact h.only.push hs sz v
  sp := by
    rw [State.pushed_sp, h.sp, BitVec.ofNat_add]
    bv_omega
  bytes := bytesKept_push h.cfg h.bytes sz v
  wf := fun hw => State.wf_pushed sz v (h.wf hw)

/-- The next push completes where it is admitted. -/
theorem Pushes.push_ok (hs : s.isSuper = true) {sz : Size} (v : Word)
    (hx : s.accessible .superData true sz (s.sp - BitVec.ofNat 32 (sz.bytes + n)) = true) :
    (Machine.push sz v).run t = .ok () (t.pushed sz v) := by
  refine push_super h.cfg (h.isSuper.trans hs) ?_ hx
  rw [h.sp, BitVec.ofNat_add]
  bv_omega

/-- What stood at the stack pointer stands above the bytes pushed on it. -/
theorem Pushes.holdsAt {sz : Size} {v : Word} (hv : s.HoldsAt sz s.sp v) {k : Nat} (hb : k ≤ s.cfg.addrBits) (hk : k ≤ 32)
    (hn : n + sz.bytes ≤ 2 ^ k) : t.HoldsAt sz (t.sp + BitVec.ofNat 32 n) v := by
  have hsp : t.sp + BitVec.ofNat 32 n = s.sp := by rw [h.sp, BitVec.sub_add_cancel]
  rw [← hsp] at hv
  refine hv.kept h.bytes fun i hi j hj => ?_
  rw [BitVec.add_assoc, ← BitVec.ofNat_add]
  exact s.phys_offset_ne _ hb hk (by omega) (by omega) (by omega)

end

/-! ## The 14-byte frame -/

/-- `t` is `s` with the 14-byte frame of MC68000 and MC68008 on its stack (60_exceptions.md R443). -/
structure AccessFrame (s : State) (f : AccessFault) (b : Bool) (op : Word) (old : Word16) (t : State) : Prop where
  pushes : Pushes s t 14
  status : s.mem.wf = true → 4 ≤ s.cfg.addrBits → ∃ free, t.HoldsAt .w t.sp ((statusWord free f b).setWidth 32)
  address : s.mem.wf = true → 4 ≤ s.cfg.addrBits → t.HoldsAt .l (t.sp + 2#32) f.addr
  sr : s.mem.wf = true → 4 ≤ s.cfg.addrBits → t.HoldsAt .w (t.sp + 8#32) (old.setWidth 32)
  pc : s.mem.wf = true → 4 ≤ s.cfg.addrBits → ∃ free, t.HoldsAt .l (t.sp + 10#32) (loosePc op free)

theorem Pushes.holdsAt_pushed {s t : State} {n : Nat} (h : Pushes s t n) (sz : Size) (v : Word) (hw : s.mem.wf = true)
    (hb : 2 ≤ s.cfg.addrBits) : (t.pushed sz v).HoldsAt sz (t.pushed sz v).sp v :=
  State.holdsAt_pushed sz v (h.wf hw) (h.cfg ▸ hb)

theorem pushAccessFrame_ok {s : State} (hs : s.isSuper = true) (f : AccessFault) (b : Bool) (op : Word) (old : Word16)
    (hpc : s.accessible .superData true .l (s.sp - 4#32) = true) (hsr : s.accessible .superData true .w (s.sp - 6#32) = true)
    (hir : s.accessible .superData true .w (s.sp - 8#32) = true)
    (haddr : s.accessible .superData true .l (s.sp - 12#32) = true)
    (hstatus : s.accessible .superData true .w (s.sp - 14#32) = true) :
    ∃ t, (pushAccessFrame f b op old).run s = .ok () t ∧ AccessFrame s f b op old t := by
  let t₀ : State := { s with draws := s.draws + 1 }
  let t₁ := t₀.pushed .l (loosePc op (Config.freeNat s.draws))
  let t₂ := t₁.pushed .w (old.setWidth 32)
  let t₃ := State.pushed { t₂ with draws := t₂.draws + 1 } .w ((Config.freeWord t₂.draws).setWidth 32)
  let t₄ := t₃.pushed .l f.addr
  let t₅ := State.pushed { t₄ with draws := t₄.draws + 1 } .w ((statusWord (Config.freeWord t₄.draws) f b).setWidth 32)
  have p₀ : Pushes s t₀ 0 := (Pushes.refl s).draw _
  have p₁ : Pushes s t₁ 4 := p₀.push hs .l _
  have p₂ : Pushes s t₂ 6 := p₁.push hs .w _
  have p₃ : Pushes s t₃ 8 := (p₂.draw _).push hs .w _
  have p₄ : Pushes s t₄ 12 := p₃.push hs .l _
  have p₅ : Pushes s t₅ 14 := (p₄.draw _).push hs .w _
  have hbelow {r : State} {n : Nat} (hr : r.isSuper = true) (h : Pushes r t₂ n) : Pushes r t₅ (2 + (4 + (2 + n))) :=
    ((((h.draw _).push hr .w _).push hr .l _).draw _).push hr .w _
  have hrun : (pushAccessFrame f b op old).run s = .ok () t₅ :=
    (run_bind_ok (drawNat_run s)).trans <| (run_bind_ok (p₀.push_ok hs _ hpc)).trans <|
    (run_bind_ok (p₁.push_ok hs _ hsr)).trans <| (run_bind_ok (drawWord_run t₂)).trans <|
    (run_bind_ok ((p₂.draw _).push_ok hs _ hir)).trans <| (run_bind_ok (p₃.push_ok hs _ haddr)).trans <|
    (run_bind_ok (drawWord_run t₄)).trans <| (p₄.draw _).push_ok hs _ hstatus
  have hs₁ : t₁.isSuper = true := p₁.isSuper.trans hs
  have hs₂ : t₂.isSuper = true := p₂.isSuper.trans hs
  have hs₄ : t₄.isSuper = true := p₄.isSuper.trans hs
  refine ⟨t₅, hrun, p₅, fun hw hb => ?status, fun hw hb => ?address, fun hw hb => ?sr, fun hw hb => ?pc⟩
  case status => exact ⟨_, (p₄.draw _).holdsAt_pushed .w _ hw (by omega)⟩
  case address =>
    exact (((Pushes.refl t₄).draw _).push hs₄ .w _).holdsAt (k := 4) (p₃.holdsAt_pushed .l _ hw (by omega)) (p₄.cfg ▸ hb)
      (by decide) (by decide)
  case sr =>
    exact (hbelow hs₂ (.refl t₂)).holdsAt (k := 4) (p₁.holdsAt_pushed .w _ hw (by omega)) (p₂.cfg ▸ hb)
      (by decide) (by decide)
  case pc =>
    exact ⟨_, (hbelow hs₁ ((Pushes.refl t₁).push hs₁ .w _)).holdsAt (k := 4) (p₀.holdsAt_pushed .l _ hw (by omega))
      (p₁.cfg ▸ hb) (by decide) (by decide)⟩

/-! ## The frame of MC68010 and later, where all of memory is RAM -/

theorem State.verdict_ram {s : State} (h : s.cfg.memMap = []) (fc : FuncCode) (w : Bool) (sz : Size) (a : Word) :
    s.verdict fc w sz a = .granted := by
  have hbyte (x : Word) : s.byteVerdict fc w x = .granted := by
    simp [State.byteVerdict, Config.verdict, Config.regionAt, h]
  simp [State.verdict, hbyte]

theorem State.accessible_ram {s : State} (h : s.cfg.memMap = []) {sz : Size} {a : Word} (ha : s.misaligned sz a = false)
    (fc : FuncCode) (w : Bool) : s.accessible fc w sz a = true := by
  rw [State.accessible, ha, State.verdict_ram h]
  rfl

theorem State.misaligned_sub_even (s : State) (sz : Size) (a : Word) (n : Nat) :
    s.misaligned sz (a - BitVec.ofNat 32 (2 * n)) = s.misaligned sz a := by
  rw [State.misaligned, State.misaligned, getLsbD_zero_sub_even]

theorem State.misaligned_add_even (s : State) (sz : Size) (a : Word) (n : Nat) :
    s.misaligned sz (a + BitVec.ofNat 32 (2 * n)) = s.misaligned sz a := by
  rw [State.misaligned, State.misaligned, getLsbD_zero_add_even]

section
variable {s : State} (hs : s.isSuper = true) (hram : s.cfg.memMap = []) (haligned : s.misaligned .w s.sp = false)
include hs hram haligned

/-- The next word can be pushed after whole words. -/
theorem Pushes.push_word_ok {t : State} {n : Nat} (h : Pushes s t (2 * n)) (v : Word) :
    (Machine.push .w v).run t = .ok () (t.pushed .w v) ∧ Pushes s (t.pushed .w v) (2 * (n + 1)) := by
  have hn : Size.w.bytes + 2 * n = 2 * (n + 1) := by rw [Size.bytes]; omega
  have hpush := h.push hs .w v
  rw [hn] at hpush
  refine ⟨h.push_ok hs v (State.accessible_ram hram ?_ _ _), hpush⟩
  rw [hn, State.misaligned_sub_even]
  exact haligned

/-- Free words are pushed one below the other, whatever they were counted from. -/
theorem pushFree_ok (n : Nat) {t : State} {m : Nat} (h : Pushes s t (2 * m)) :
    ∃ u, (pushFree n).run t = .ok () u ∧ Pushes s u (2 * (m + n)) ∧
      ∀ {r : State} {k : Nat}, r.isSuper = true → Pushes r t k → Pushes r u (2 * n + k) := by
  induction n generalizing t m with
  | zero => exact ⟨t, rfl, h, fun _ hr => by rwa [Nat.mul_zero, Nat.zero_add]⟩
  | succ n ih =>
    obtain ⟨hrun, hpushed⟩ := (h.draw (t.draws + 1)).push_word_ok hs hram haligned ((Config.freeWord t.draws).setWidth 32)
    obtain ⟨u, hu, hmore, hbelow⟩ := ih hpushed
    refine ⟨u, (run_bind_ok (drawWord_run t)).trans ((run_bind_ok hrun).trans hu), ?_, fun {r k} hr hk => ?_⟩
    · rwa [Nat.add_assoc, Nat.add_comm 1 n] at hmore
    · have hall := hbelow hr ((hk.draw (t.draws + 1)).push hr .w _)
      have hsum : 2 * n + (Size.w.bytes + k) = 2 * (n + 1) + k := by rw [Size.bytes]; omega
      rwa [hsum] at hall

/-- The frame is its format word with three or more free words below, and overwrites no part of itself (60_exceptions.md R441;
log 12). -/
theorem pushLongFrame_ok (vec : BitVec 8) :
    ∃ t n, 4 ≤ n ∧ (pushLongFrame vec).run s = .ok () t ∧ Pushes s t (2 * n) ∧
      (s.mem.wf = true → 3 ≤ s.cfg.addrBits → 2 * n ≤ s.space ∧
        ∃ free : Word16, t.HoldsAt .w (s.sp - 2#32) ((free &&& 0xF000#16 ||| vec.setWidth 16 <<< 2).setWidth 32)) := by
  let t₀ : State := { s with draws := s.draws + 1 }
  let format : Word := (Config.freeWord s.draws &&& 0xF000#16 ||| vec.setWidth 16 <<< 2).setWidth 32
  let t₁ := t₀.pushed .w format
  let n := 3 + Config.freeNat t₁.draws % (t₁.space / 2 - 3)
  have p₀ : Pushes s t₀ (2 * 0) := (Pushes.refl s).draw _
  obtain ⟨hpush, p₁⟩ := p₀.push_word_ok hs hram haligned format
  obtain ⟨u, hfree, hall, hbelow⟩ := pushFree_ok hs hram haligned n (p₁.draw (t₁.draws + 1))
  have hrun : (pushLongFrame vec).run s = .ok () u :=
    (run_bind_ok (drawWord_run s)).trans <| (run_bind_ok hpush).trans <| (run_bind_ok (EStateM.run_get t₁)).trans <|
    (run_bind_ok (drawNat_run t₁)).trans hfree
  refine ⟨u, 0 + 1 + n, by omega, hrun, hall, fun hw hb => ?_⟩
  have hspace : t₁.space = s.space := by rw [State.space, State.space, p₁.cfg]
  have height : 2 ^ 3 ≤ s.space := Nat.pow_le_pow_right (by decide) (by omega)
  have hfits : 2 * (0 + 1 + n) ≤ s.space := by
    have hmod := Nat.mod_lt (Config.freeNat t₁.draws) (y := t₁.space / 2 - 3) (by omega)
    omega
  have hbelow₁ : Pushes t₁ u (2 * n + 0) := hbelow (p₁.isSuper.trans hs) ((Pushes.refl t₁).draw _)
  have hroom : 2 * n + 0 + Size.w.bytes ≤ 2 ^ min s.cfg.addrBits 32 := by
    rw [State.space] at hfits
    rw [Size.bytes]
    omega
  have htop := hbelow₁.holdsAt (p₀.holdsAt_pushed .w format hw (by omega)) (p₁.cfg ▸ Nat.min_le_left ..) (Nat.min_le_right ..)
    hroom
  have hsp : t₁.sp = s.sp - 2#32 := t₀.pushed_sp .w format
  rw [hbelow₁.sp, BitVec.sub_add_cancel, hsp] at htop
  exact ⟨hfits, _, htop⟩

end

end Sys2Proof.Machine
end

section
/-! SUPPORT. The entry of a bus or address error: the 14-byte frame of MC68000 and MC68008, and the frame of MC68010 and later where
all of memory is RAM (60_exceptions.md R440, R441, R443). -/

namespace Sys2Proof.Machine

/-! ## Words of the frames -/

theorem statusWord_fc (free : Word16) (f : AccessFault) (b : Bool) : (statusWord free f b).extractLsb' 0 3 = f.fc.bits := by
  rw [statusWord, BitVec.extractLsb'_append_eq_right]

theorem statusWord_notInstr (free : Word16) (f : AccessFault) (b : Bool) : (statusWord free f b).getLsbD 3 = b := by
  simp only [statusWord, BitVec.getLsbD_append]
  simp

theorem statusWord_read (free : Word16) (f : AccessFault) (b : Bool) : (statusWord free f b).getLsbD 4 = !f.write := by
  simp only [statusWord, BitVec.getLsbD_append]
  simp

/-- The stacked PC lies within R443's bounds. -/
theorem loosePc_bounds (op : Word) (free : Nat) : ∃ k : Nat, 2 ≤ k ∧ k ≤ 10 ∧ loosePc op free = op + BitVec.ofNat 32 k := by
  refine ⟨2 + free % 9, by omega, by omega, ?_⟩
  rw [loosePc, BitVec.ofNat_add, ← BitVec.add_assoc]

/-- The format word ends in the vector's offset (R441). -/
theorem formatWord_offset (free : Word16) (f : AccessFault) :
    ((free &&& 0xF000#16 ||| f.vector.setWidth 16 <<< 2).extractLsb' 0 12).toNat = if f.bus then 8 else 12 := by
  rw [BitVec.extractLsb'_or, BitVec.extractLsb'_and, AccessFault.vector]
  cases f.bus <;> simp

/-! ## Entry -/

/-- The state in which the frame of a bus or address error is pushed. -/
def State.faultEntered (s : State) : State := State.entered { s with tracing := .off } (entrySys s.sys)

theorem State.faultEntered_isSuper (s : State) : s.faultEntered.isSuper = true := entrySys_super s.sys

/-- A bus or address error whose frame can be pushed and whose vector can be read is taken (R440). -/
theorem takeAccessFault_ok {s t : State} {f : AccessFault} {b : Bool} {op : Word} (hh : s.cfg.halt ≠ .firstRaise)
    (hframe : (if s.cfg.cpu.formatWord then pushLongFrame f.vector else pushAccessFrame f b op s.sr).run s.faultEntered =
      .ok () t)
    (hvector : t.accessible .superData false .l (t.vectorBase + if f.bus then 8#32 else 12#32) = true) :
    takeAccessFault f b op s = .next (t.vectored f.vector) := by
  obtain ⟨hspace, hoffset⟩ := f.vector_offset
  rw [← hspace, ← hoffset] at hvector
  have hrun : (enterGroup0 f b op).run { s with tracing := .off } = .ok () (t.vectored f.vector) := by
    refine (run_bind_ok (EStateM.run_get _)).trans ((run_bind_ok (EStateM.run_set _ _)).trans ?_)
    rw [run_ite] at hframe ⊢
    split at hframe
    · rw [if_pos ‹_›]
      exact (run_bind_ok hframe).trans (loadVector_ok hvector)
    · rw [if_neg ‹_›]
      exact (run_bind_ok hframe).trans (loadVector_ok hvector)
  rw [takeAccessFault, if_neg (by simpa using hh), hrun]

section
variable {s t : State} {n : Nat} (h : Pushes s.faultEntered t n)
include h

theorem Pushes.vectorBase : t.vectorBase = s.vectorBase := by
  rw [State.vectorBase, h.cfg, show t.vbr = s.vbr from h.only.vbr]
  rfl

/-- `pc` comes from the vector of the error. -/
theorem Pushes.vectored_pc (f : AccessFault) :
    (t.vectored f.vector).pc = (t.vectored f.vector).longAt (s.vectorBase + if f.bus then 8#32 else 12#32) := by
  rw [State.vectored_pc, h.vectorBase, f.vector_offset.2]

end

/-! ## MC68000 and MC68008 -/

theorem is020_eq_false_of_isBaseline {c : Cpu} (h : c.isBaseline = true) : c.is020 = false := by
  cases c with
  | mc68000 | mc68008 => rfl
  | _ => cases h

section
variable {s : State} (hc : s.cfg.cpu.isBaseline = true)
include hc

theorem State.faultEntered_onMaster : s.faultEntered.onMaster = false :=
  Bool.and_eq_false_iff.2 (.inl (is020_eq_false_of_isBaseline hc))

/-- The 14-byte frame goes to SSP. -/
theorem State.faultEntered_sp : s.faultEntered.sp = s.ssp :=
  State.sp_eq_ssp s.faultEntered_isSuper (State.faultEntered_onMaster hc)

end

/-- The 14-byte frame and the vector give what a bus or address error leaves on MC68000 and MC68008 (R443). -/
theorem AccessFrame.group0Entered {s t : State} {f : AccessFault} {b : Bool} {op : Word} (hc : s.cfg.cpu.isBaseline = true)
    (h : AccessFrame s.faultEntered f b op s.sr t) : Group0Entered s f b op (t.vectored f.vector) := by
  have hbase : s.vectorBase = 0#32 := if_pos hc
  have hnew := State.faultEntered_onMaster hc
  have hsp : t.sp = t.ssp := State.sp_eq_ssp (h.pushes.isSuper.trans s.faultEntered_isSuper)
    ((State.onMaster_congr (t := t) h.pushes.only.sys h.pushes.cfg).trans hnew)
  have hother := h.pushes.only.otherSp
  have hpc := h.pushes.vectored_pc f
  rw [hnew] at hother
  rw [hbase, BitVec.zero_add] at hpc
  obtain ⟨hpushes, hstatus, haddress, hsr, hframePc⟩ := h
  rw [hsp] at hstatus haddress hsr hframePc
  have hword : s.mem.wf = true → 4 ≤ s.cfg.addrBits → ∃ free, t.wordAt t.ssp = statusWord free f b := fun hw hb => by
    obtain ⟨free, hheld⟩ := hstatus hw hb
    exact ⟨free, hheld.wordAt.trans (extractLsb'_setWidth (by decide) _)⟩
  exact {
    sys := hpushes.only.sys
    ccr := hpushes.only.ccr
    run := rfl
    pc := hpc
    ssp := hsp.symm.trans (hpushes.sp.trans (by rw [State.faultEntered_sp hc]))
    usp := hpushes.only.usp
    msp := hother
    d := hpushes.only.d
    a := hpushes.only.a
    vbr := hpushes.only.vbr
    cfg := hpushes.cfg
    pins := hpushes.only.pins
    inputs := hpushes.only.inputs
    resetPulses := hpushes.only.resetPulses
    tracing := hpushes.only.tracing
    functionCode := fun hw hb => by
      obtain ⟨free, hfree⟩ := hword hw hb
      exact (congrArg (BitVec.extractLsb' 0 3) hfree).trans (statusWord_fc free f b)
    readWrite := fun hw hb => by
      obtain ⟨free, hfree⟩ := hword hw hb
      exact (congrArg (BitVec.getLsbD · 4) hfree).trans (statusWord_read free f b)
    notInstr := fun hw hb => by
      obtain ⟨free, hfree⟩ := hword hw hb
      exact (congrArg (BitVec.getLsbD · 3) hfree).trans (statusWord_notInstr free f b)
    address := fun hw hb => (haddress hw hb).longAt
    frameSr := fun hw hb => (hsr hw hb).wordAt.trans (extractLsb'_setWidth (by decide) s.sr)
    framePc := fun hw hb => by
      obtain ⟨free, hlong⟩ := hframePc hw hb
      obtain ⟨k, h2, h10, hk⟩ := loosePc_bounds op free
      exact ⟨k, h2, h10, hlong.longAt.trans hk⟩
    bytes := hsp ▸ hpushes.bytes }

/-- A bus or address error on MC68000 and MC68008 whose 14-byte frame can be pushed and whose vector can be read. -/
theorem takeAccessFault_baseline {s : State} {f : AccessFault} {b : Bool} {op : Word} (hc : s.cfg.cpu.isBaseline = true)
    (h : Group0Ready s f.bus) : ∃ t, takeAccessFault f b op s = .next t ∧ Group0Entered s f b op t := by
  obtain ⟨hh, hpc, hsr, hir, haddr, hstatus, hvector⟩ := h
  rw [← State.faultEntered_sp hc] at hpc hsr hir haddr hstatus
  obtain ⟨t, hrun, hframe⟩ := pushAccessFrame_ok s.faultEntered_isSuper f b op s.sr hpc hsr hir haddr hstatus
  refine ⟨_, takeAccessFault_ok hh ?_ ?_, hframe.group0Entered hc⟩
  · rw [Cpu.formatWord, hc]
    exact hrun
  · rw [hframe.pushes.vectorBase, State.vectorBase, if_pos hc, BitVec.zero_add, State.accessible_congr hframe.pushes.cfg]
    exact hvector

/-! ## MC68010 and later -/

theorem State.vectorBase_of_formatWord {s : State} (hf : s.cfg.cpu.formatWord = true) : s.vectorBase = s.vbr := by
  rw [State.vectorBase, if_neg (by simpa [Cpu.formatWord] using hf)]

/-- What a bus or address error leaves on MC68010 and later where all of memory is RAM: a frame of `n` words that ends in its
format word, S set and trace off, `pc` from the vector (R440, R441). -/
theorem takeAccessFault_ram {s : State} {f : AccessFault} {b : Bool} {op : Word} (hf : s.cfg.cpu.formatWord = true)
    (hh : s.cfg.halt ≠ .firstRaise) (hram : s.cfg.memMap = [])
    (hsp : s.faultEntered.misaligned .w s.faultEntered.sp = false) (hvbr : s.faultEntered.misaligned .l s.vbr = false) :
    ∃ t n, 4 ≤ n ∧ takeAccessFault f b op s = .next (t.vectored f.vector) ∧ Pushes s.faultEntered t (2 * n) ∧
      (s.mem.wf = true → 3 ≤ s.cfg.addrBits → 2 * n ≤ s.space ∧
        ((t.wordAt (s.faultEntered.sp - 2#32)).extractLsb' 0 12).toNat = if f.bus then 8 else 12) := by
  obtain ⟨t, n, hn, hrun, hpushes, htop⟩ := pushLongFrame_ok s.faultEntered_isSuper hram hsp f.vector
  have hbase := State.vectorBase_of_formatWord hf
  refine ⟨t, n, hn, takeAccessFault_ok hh ?frame ?vector, hpushes, fun hw hb => ?format⟩
  case frame =>
    rw [if_pos hf]
    exact hrun
  case vector =>
    rw [hpushes.vectorBase, hbase, State.accessible_congr hpushes.cfg]
    refine State.accessible_ram hram ?_ _ _
    cases f.bus with
    | true => exact (State.misaligned_add_even _ .l s.vbr 4).trans hvbr
    | false => exact (State.misaligned_add_even _ .l s.vbr 6).trans hvbr
  case format =>
    obtain ⟨hspace, free, hheld⟩ := htop hw hb
    refine ⟨hspace, ?_⟩
    rw [hheld.wordAt, extractLsb'_setWidth (by decide)]
    exact formatWord_offset free f

end Sys2Proof.Machine
end

section
/-! PROOFS. The statements of 60_exceptions.md. -/

namespace Sys2Proof

open Machine

/-- Settles O60, over the cases of a step: an idle boundary stays in user mode, the others end at a vector. -/
theorem supervisorEntry : Obligations.SupervisorEntry := by
  intro s t hs h ht
  have hvector : AtVector t := by
    obtain hreset | ⟨m, rfl⟩ | hx | hone := step_cases_reset h
    · exact settled_takeReset_atVector hreset
    · cases hs.symm.trans ht
    · exact hx.atVector
    · exact runOne_atVector (s := s.sampled) hs hone ht
  exact ⟨hvector.trace.1, hvector.trace.2, hvector.pc⟩

/-- Settles O48: the frame, SR and `pc` by `Entered`, the trace bits and the mask by the new system byte. -/
theorem exceptionEntry : Obligations.ExceptionEntry := by
  refine fun s e => ⟨fun hready => ?taken, takeException_terminal, fun op n level vec => ?vectors⟩
  case taken =>
    obtain ⟨t, ht, hentered⟩ := takeException_entered hready
    have htrace := newSys_trace e s.sys
    rw [← hentered.sys] at htrace
    refine ⟨t, ht, hentered, hentered.isSuper, htrace.1, htrace.2, ?_⟩
    cases e with
    | interrupt level vec => exact hentered.mask_interrupt
    | _ => exact hentered.mask_kept nofun
  case vectors =>
    have htrap : (32#8 + n.setWidth 8).toNat = 32 + n.toNat := by
      rw [BitVec.toNat_add, BitVec.toNat_setWidth, BitVec.toNat_ofNat]
      omega
    exact ⟨rfl, rfl, rfl, rfl, rfl, rfl, rfl, rfl, rfl, htrap, rfl⟩

/-- Settles O49: on either frame `pc` and the mode come from the entry, the frame from its pushes. -/
theorem accessFaultFrame : Obligations.AccessFaultFrame := by
  refine fun s f b op => ⟨takeAccessFault_baseline, ?later, takeAccessFault_terminal⟩
  intro u offset hf hh hram hsp hvbr
  obtain ⟨t, n, hn, hrun, hpushes, hformat⟩ := takeAccessFault_ram (f := f) (b := b) (op := op) hf hh hram hsp hvbr
  have hsys : (t.vectored f.vector).sys = entrySys s.sys := hpushes.only.sys
  have htrace := entrySys_trace s.sys
  have hsuper := entrySys_super s.sys
  rw [← hsys] at htrace hsuper
  have hoffset : (if f.bus then 8#32 else 12#32) = BitVec.ofNat 32 offset := (apply_ite (BitVec.ofNat 32) _ 8 12).symm
  have hpc := hpushes.vectored_pc f
  rw [State.vectorBase_of_formatWord hf, hoffset] at hpc
  exact ⟨_, n, hn, hrun, hsys, hsuper, htrace.1, htrace.2, hpushes.only.ccr, rfl, hpushes.only.tracing, hpushes.only.usp,
    hpushes.only.d, hpushes.only.a, hpushes.only.vbr, hpushes.cfg, hpushes.only.otherSp, hpushes.sp, hpc, hpushes.only.pins,
    hpushes.only.inputs, hpushes.only.resetPulses, hformat, hpushes.bytes⟩

/-- Settles O50: at each of these faults the processing of a bus or address error stops. -/
theorem doubleFaultHalts : Obligations.DoubleFaultHalts := by
  refine fun s hh => ⟨fun hmember hodd => ?oddStack, fun hf hv => takeAccessFault_formatWord_fails hh hf hv,
    fun hs f b op hv => takeAccessFault_vector_fails hh hs hv b op, step_halted⟩
  have hstack : s.OddStack := ⟨hmember, hodd⟩
  exact ⟨takeException_odd hh hstack, takeAccessFault_odd hh hstack⟩

/-- Settles O52: what the frame holds is what RTE restores, and the frame lies on the stack it was pushed on. -/
theorem trapThenReturn : Obligations.TrapThenReturn := by
  intro s v hs hb hready frame hsr hpc hformat
  obtain ⟨t, ht, hentered⟩ := takeException_entered (s := { s with pc := s.pc + 2#32 }) hready
  have hsp : t.sp = frame := hentered.sp
  rw [← hsp] at hsr hpc hformat
  obtain ⟨u, hrte, husr⟩ := hentered.exec_rte hs hb hsr hpc hformat
  obtain ⟨husp, hssp, hmsp⟩ := hentered.frame_popped
  refine ⟨t, _, ht, hrte, husr, rfl, husp, hssp, hmsp, (State.setSp_d ..).trans hentered.d, (State.setSp_a ..).trans hentered.a,
    (State.setSp_run ..).trans hentered.run, ?_⟩
  exact bytesKept_congr hentered.bytes (State.setSp_cfg ..) (State.setSp_mem ..)

/-- Settles O54: the boundary takes the interrupt, and what is left is what exception processing leaves. -/
theorem interruptTaken : Obligations.InterruptTaken := by
  refine ⟨fun level vec => ⟨rfl, ?auto, rfl, rfl⟩, fun s => ?boundary⟩
  case auto =>
    have : (24#8 + level.setWidth 8).toNat = 24 + level.toNat := by
      rw [BitVec.toNat_add, BitVec.toNat_setWidth, BitVec.toNat_ofNat]
      omega
    exact this
  case boundary =>
    intro p e hend hreset hhalt hrun
    refine ⟨fun hlevel hready => ?taken, fun hlevel hstop => ?waits⟩
    case taken =>
      obtain ⟨t, ht, hentered⟩ := takeException_entered (s := s.sampled) (e := e) hready
      obtain ⟨hmaster, hmsp⟩ := hentered.interruptStack
      exact ⟨t, (step_interrupted hend hreset hhalt hrun (interrupted_iff.2 hlevel)).trans ht, hentered.mask_interrupt,
        hentered.isSuper, hmaster, hentered.run, hentered.usp, hmsp, hentered.d, hentered.a, hentered.pc,
        fun hw hb => ⟨hentered.framePc hw hb, hentered.frameSr hw hb⟩⟩
    case waits =>
      exact step_stopped hend hreset hhalt hstop (Bool.eq_false_iff.2 fun hi => hlevel (interrupted_iff.1 hi))

/-- Settles O55: the sampled condition decides at the end of the instruction, which a step runs. -/
theorem traceFollows : Obligations.TraceFollows := by
  refine ⟨fun s changed => endInstr_trace changed, fun s changed => endInstr_untraced changed, fun _ _ _ => rfl,
    fun s u i hend hreset hhalt hrun hint hfresh hfetchable hdecode hi => ?step, fun s => State.traceMode_all,
    fun s => State.traceMode_off⟩
  have hstep := step_runs_decoded hend hreset hhalt hrun hint ⟨hfetchable, hfresh⟩ hdecode hi
  refine ⟨fun ht hexec hall hready => ?traced, fun ht ht0 hexec hoff => ?untraced⟩
  case traced =>
    rw [hstep, State.traceMode_all ht, hexec]
    exact endInstr_trace _ hall hready
  case untraced =>
    rw [hstep, State.traceMode_off ht ht0, hexec]
    exact endInstr_untraced _ hoff

end Sys2Proof
end

section
/-! SUPPORT. Reset (70_reset_and_hazards.md R480): the sequence with both its reads answered, and stopped at either of them; and
the boundaries at which a step runs no instruction because the reset input is asserted or the run has ended (R483, R489). -/

namespace Sys2Proof.Machine

/-! ## The reset sequence -/

/-- The state in which the reset sequence reads the long word at 0. -/
def State.resetBegun (s : State) : State := { s with sys := 0x27#8, vbr := 0#32, tracing := .off }

/-- The state in which the reset sequence reads the long word at 4. -/
def State.resetStack (s : State) : State := { s.resetBegun with ssp := s.longAt 0#32 }

/-- The end of the reset sequence: the new `pc`. -/
def loadResetPc : M Unit := do
  let pc ← memRead .superProgram .l 4#32
  modify fun s => { s with pc := pc, run := .running }

theorem State.misaligned_of_even {s : State} {sz : Size} {a : Word} (ha : a.getLsbD 0 = false) : s.misaligned sz a = false := by
  rw [State.misaligned, ha, Bool.and_false]

section
variable {s : State}

/-- The long words at 0 and 4 are aligned, so that only the platform ends a read of one. -/
theorem memRead_reset_bus_error {a : Word} (ha : a.getLsbD 0 = false)
    (hv : s.verdict .superProgram false .l a = .busError) :
    (memRead .superProgram .l a).run s = .error (.access ⟨true, a, false, .superProgram⟩) s :=
  memRead_bus_error (State.misaligned_of_even ha) hv

/-- The sequence stops at the read of SSP. -/
theorem resetSequence_ssp_bus_error (hv : s.verdict .superProgram false .l 0#32 = .busError) :
    resetSequence.run s = .error (.access ⟨true, 0#32, false, .superProgram⟩) s.resetBegun := by
  have hread : s.resetBegun.verdict .superProgram false .l 0#32 = .busError := (State.verdict_congr rfl ..).trans hv
  exact (run_bind_ok (EStateM.run_modify _ s)).trans (run_bind_error (memRead_reset_bus_error rfl hread))

section
variable (hssp : s.accessible .superProgram false .l 0#32 = true)
include hssp

theorem resetSequence_ssp_ok : resetSequence.run s = loadResetPc.run s.resetStack := by
  have hread : s.resetBegun.accessible .superProgram false .l 0#32 = true := (State.accessible_congr rfl ..).trans hssp
  exact (run_bind_ok (EStateM.run_modify _ s)).trans
    ((run_bind_ok (memRead_ok hread)).trans (run_bind_ok (EStateM.run_modify _ s.resetBegun)))

theorem resetSequence_ok (hpc : s.accessible .superProgram false .l 4#32 = true) :
    resetSequence.run s = .ok () { s.resetStack with pc := s.longAt 4#32, run := .running } := by
  have hread : s.resetStack.accessible .superProgram false .l 4#32 = true := (State.accessible_congr rfl ..).trans hpc
  exact (resetSequence_ssp_ok hssp).trans ((run_bind_ok (memRead_ok hread)).trans (EStateM.run_modify _ s.resetStack))

/-- The sequence stops at the read of `pc`, with SSP loaded. -/
theorem resetSequence_pc_bus_error (hv : s.verdict .superProgram false .l 4#32 = .busError) :
    resetSequence.run s = .error (.access ⟨true, 4#32, false, .superProgram⟩) s.resetStack := by
  have hread : s.resetStack.verdict .superProgram false .l 4#32 = .busError := (State.verdict_congr rfl ..).trans hv
  exact (resetSequence_ssp_ok hssp).trans (run_bind_error (memRead_reset_bus_error rfl hread))

end

theorem takeReset_ok {t : State} (h : resetSequence.run s = .ok () t) : takeReset s = .next t := by
  rw [takeReset, h]

/-- A bus or address error in the reset sequence halts the processor where it stands (60_exceptions.md R447). -/
theorem takeReset_access {t : State} {f : AccessFault} (h : resetSequence.run s = .error (.access f) t) :
    takeReset s = .next { t with run := .halted } := by
  rw [takeReset, h]

/-! ## Boundaries that run no instruction -/

theorem step_reset (hend : s.ended = false) (hreset : s.nextPins.reset = true) : step s = settled (takeReset s.sampled) := by
  simp [step, cycle, hend, hreset]

theorem step_ended (hend : s.ended = true) : step s = .fault .ended := if_pos hend

theorem State.ended_sentinel (h : s.cfg.halt = .sentinel s.pc) : s.ended = true := by
  rw [State.ended, h]
  exact beq_self_eq_true s.pc

theorem State.ended_selfBranch (h : s.cfg.halt = .selfBranch) (hw : s.wordAt s.pc = 0x60FE#16) : s.ended = true := by
  rw [State.ended, h]
  exact beq_iff_eq.2 hw

end

end Sys2Proof.Machine
end

section
/-! PROOFS. The statements of 70_reset_and_hazards.md. -/

namespace Sys2Proof

open Machine

/-- Settles O53, over how far the reset sequence gets. -/
theorem resetSequence : Obligations.ResetSequence := fun _ =>
  ⟨fun hssp hpc => takeReset_ok (resetSequence_ok hssp hpc),
    fun hv => takeReset_access (resetSequence_ssp_bus_error hv),
    fun hssp hv => takeReset_access (resetSequence_pc_bus_error hssp hv),
    step_reset⟩

/-- Settles O56: at a boundary where the instruction can be fetched the step runs it, and none where the run has ended. -/
theorem stepRunsDecoded : Obligations.StepRunsDecoded := by
  refine ⟨fun s i hend hreset hhalt hrun hint hfresh hfetchable hdecode hi => ?runs, fun s h => step_ended ?ended⟩
  case runs => exact step_runs_decoded hend hreset hhalt hrun hint ⟨hfetchable, hfresh⟩ hdecode hi
  case ended =>
    obtain hsentinel | ⟨hself, hbranch⟩ := h
    · exact State.ended_sentinel hsentinel
    · exact State.ended_selfBranch hself hbranch

end Sys2Proof
end
